-- ==== Sys2Proof/Word.lean ====
section
/-! DEFINITION. The word types of the K96 (R3) and their plainest arithmetic. -/

namespace Sys2Proof

/-- One byte of memory. -/
abbrev Byte := BitVec 8
/-- A 16-bit half. -/
abbrev Half := BitVec 16
/-- A 32-bit register. -/
abbrev Word := BitVec 32
/-- A 64-bit word: an instruction word, a register pair, a record word. -/
abbrev Dword := BitVec 64
/-- A word address in the code space of 2^30 words (R18). -/
abbrev CodeAddr := BitVec 30

/-- Bits [63:32] of a 64-bit word. -/
def hi32 (d : Dword) : Word := d.extractLsb' 32 32
/-- Bits [31:0] of a 64-bit word. -/
def lo32 (d : Dword) : Word := d.extractLsb' 0 32
/-- The pair of R76: `l` in the even register, `h` in the odd one. -/
def pair64 (h l : Word) : Dword := h ++ l

/-- Field [h:l] of a word as a number. -/
def fld {w : Nat} (x : BitVec w) (h l : Nat) : Nat := (x.toNat >>> l) % 2 ^ (h - l + 1)

/-- Bit `i` of a word. -/
def bit {w : Nat} (x : BitVec w) (i : Nat) : Bool := x.getLsbD i

/-- ceil(a / b). -/
def ceilDiv (a b : Nat) : Nat := (a + b - 1) / b

end Sys2Proof
end

