-- ==== Sys2Proof/Config.lean ====
section
/-! DEFINITION. What the K96 fixes (counts and capacities) and the values that the manual leaves open:
an opaque constant has no value that a proof can see. -/

namespace Sys2Proof.Config

/-- R7: package cores. -/
def cores : Nat := 384
/-- R7: C-dies. -/
def dies : Nat := 8
/-- R7: cores of one die. -/
def coresPerDie : Nat := 48
/-- R7: cores of one cluster. -/
def coresPerCluster : Nat := 6
/-- R11: the cap of a core's activity counter, 32 x 8192. -/
def activityCap : Int := 262144
/-- R7: bytes of a scratchpad slice. -/
def sliceBytes : Nat := 524288
/-- R46: bytes of register storage of an unrepaired quadrant. -/
def regBytes : Nat := 262144
/-- R263: request slots of a core. -/
def requestSlots : Nat := 1536
/-- R7: origin entries of a core. -/
def originEntries : Nat := 256
/-- R7, R280: records of a core's event queue. -/
def eventSlots : Nat := 256
/-- R280: slots one team may hold. -/
def teamEventSlots : Nat := 64
/-- R158: accumulator banks of a core. -/
def accBanks : Nat := 256
/-- R172: drone banks a core may hold. -/
def droneBanks : Nat := 128
/-- R347: records of a partition's system-call ring. -/
def ringRecords : Nat := 4096
/-- R64: resident cycles after which a team is due. -/
def quantum : Nat := 2097152
/-- R54: cycles after which a card at the head is served as class 7. -/
def agingCycles : Nat := 8388608
/-- R363: entries of a core's L1 TLB and of a die's TLB. -/
def tlbEntries : Nat := 128
def dieTlbEntries : Nat := 8192
/-- R363: the ways of a set of a die's TLB, and the entries of tiers 3 to 1 that its walkers keep. -/
def dieTlbWays : Nat := 8
def walkEntries : Nat := 512
/-- The set of a die's TLB that a page of a PASID falls in: R363 gives no index function (DESIGN CHOICE, log 13). -/
opaque tlbSet : (pasid vbase size : Nat) → Fin 1024
/-- R340: the period of the regulators, in cycles. -/
def period : Nat := 8192

/-- What one unlisted byte of HBM, peer or host memory reads as.
DESIGN CHOICE (log 1): the manual gives no contents after power-on. -/
def memFill : Byte := 0#8

/-- The free bit number `i` of the free value drawn at count `n`: R281 (overlapping copies) and
R294 (words fetched after a store without ICINV) leave it open. No proof can see its value (DESIGN CHOICE, log 8). -/
opaque freeBit : Nat → Nat → Bool

/-- The E5M2 pattern of a small immediate that E5M2 cannot hold exactly (9, 11, 13, 15 and their negatives), by its
specifier: R81 calls every value exact, and states none for these (DESIGN CHOICE, log 22). -/
opaque e5m2Imm : Nat → BitVec 8

/-- The package serial (R346). UNVERIFIED: no value is given (log 12). -/
opaque packageSerial : Dword
/-- SHA-512 digest of the key in slot `slot` that verifies stage `stage` (1, 2), or stage 3 of
partition `part` (R344). UNVERIFIED: the keys are secrets of the device's maker and owner (log 12). -/
opaque keyDigest : (stage slot part : Nat) → BitVec 512
/-- Which 2 GiB of the package's HBM the dump region of R395 takes. UNVERIFIED: its place is not given (log 17). -/
opaque dumpRegion : Fin 384
/-- The bytes of the sections behind a dump's header, by the count of free values drawn: R395 gives no layout (log 17). -/
opaque dumpSections : Nat → List Byte
/-- The seal key of partition `part`, generated anew at its `gen`-th start (R397; UNVERIFIED, log 12). -/
opaque sealKey : (part gen : Nat) → List Byte
/-- The signature by the device identity key (R346; UNVERIFIED, log 12), 512 bytes as a number. -/
opaque deviceSign : List Byte → BitVec 4096

end Sys2Proof.Config
end

