-- ==== Sys2Proof/Syntax.lean ====
section
/-! DEFINITION. The steps of the K96: one constructor of `Instr` per row of spec/opcode_table.json.
The first 165 are the instructions that a hand issues (R193, R205); the others are the steps of the
sequencers, memories, engines, dealers, hub, kernel and ports, with the operands that name the unit that
takes the step and carry what comes from outside the device. -/

namespace Sys2Proof

/-- The type codes of field T (R202). -/
inductive Ty
  | i32 | z32 | i64 | z64 | i16 | z16 | i8 | z8 | i4 | f32 | f16 | bf16 | e4m3 | e5m2
  deriving DecidableEq, Repr

/-- A 7-bit operand specifier (R80): g0-g30, gz, k, a, x registers, the reserved range 0x50-0x5F and
the small immediates 0x60-0x7F (`imm v` is specifier 0x60 + v, of value v - 16, R81). -/
inductive Opnd
  | g (n : Fin 31) | gz | k (n : Fin 32) | a (n : Fin 8) | x (n : Fin 8) | rsv (n : Fin 16) | imm (v : Fin 32)
  deriving DecidableEq, Repr

/-- A predicate specifier (R201): p0-p7, q0-q3, and the reserved values 0x0C-0x7F. -/
inductive POpnd
  | p (n : Fin 8) | q (n : Fin 4) | rsv (n : Fin 116)
  deriving DecidableEq, Repr

/-- Bits [55:46] of word 0, common to all instructions (R196): U, SW, PN, PR and HINT. -/
structure Hdr where
  u : Bool
  sw : Bool
  pn : Bool
  pr : BitVec 3
  hint : BitVec 4
  deriving DecidableEq, Repr

/-- Compare conditions (R204). -/
inductive Cond
  | eq | ne | lt | le | gt | ge | num | nan
  deriving DecidableEq, Repr

/-- Atomic, reduction and REDUX operations (R204). -/
inductive RedOp
  | add | min | max | and | or | xor | xchg | cadd
  deriving DecidableEq, Repr

/-- PSET operations (R234). -/
inductive PsetOp
  | and | or | xor
  deriving DecidableEq, Repr

/-- SHFL modes (R204). -/
inductive ShflMode
  | idx | up | down | bfly
  deriving DecidableEq, Repr

/-- VOTE modes (R204). -/
inductive VoteMode
  | all | any | uni
  deriving DecidableEq, Repr

/-- Rounding selectors (R203). -/
inductive Rnd
  | dflt | rz | ru | rd
  deriving DecidableEq, Repr

/-- Twin-scale formats (R202). -/
inductive Twin
  | te8 | te6 | te4
  deriving DecidableEq, Repr

/-- Orders of a memory access (R203). -/
inductive Ord
  | plain | rlx | acq | rel
  deriving DecidableEq, Repr

/-- Scopes (R203). -/
inductive Scope
  | h | c | g | d | p | s
  deriving DecidableEq, Repr

/-- Address space of an access (R263). -/
inductive Space
  | glob | spad
  deriving DecidableEq, Repr

/-- Order and scope in MOD (R203). -/
structure MemMod where
  ord : Ord
  scope : Scope
  deriving DecidableEq, Repr

/-- Slide codes of CALL and CALLT (R31, R197). -/
inductive Slide
  | s8 | s16 | s24
  deriving DecidableEq, Repr

/-- The ENGINE extension (R198). -/
structure EngExt where
  queue : BitVec 3
  scope : Scope
  tag : Word
  deriving DecidableEq, Repr

/-- Rows of a tile, field MC (R198). -/
inductive Rows
  | r16 | r32 | r64
  deriving DecidableEq, Repr

/-- The MATRIX extension (R198). -/
structure MatExt where
  mc : Rows
  nq : BitVec 6
  kc : BitVec 6
  kf : BitVec 4
  bank : BitVec 8
  tag : Word
  deriving DecidableEq, Repr

/-- Kinds of access of R365. -/
inductive AccKind
  | read | write | atomic | fetch
  deriving DecidableEq, Repr

/-- What the hypervisor assigns to a partition (R338). -/
inductive Assign
  | clusters (l : List Nat)
  | pasids (base count : Nat)
  | trapRegion (base limit : Nat)
  | share (activity share : Nat)
  | peers (mask : BitVec 192)
  | iface (port : Nat) (mac : BitVec 48) (vlans : List Nat)
  | nvme (port pairs : Nat)
  | namespaces (port : Nat) (l : List Nat)
  deriving DecidableEq, Repr

/-- Where an uncorrectable error lies (R393). -/
inductive ErrAt
  | line (pa : Nat)
  | meld (core index : Nat)
  | team (team : Nat) (ranges : List (Nat × Nat × Nat))   -- space, offset and length of each
  | drone (part handle : Nat)
  | hub
  deriving DecidableEq, Repr

/-- An Ethernet frame: destination, VLAN, and the bytes from the EtherType on (R353). -/
structure Frame where
  dst : BitVec 48
  vlan : Nat
  data : List Byte
  deriving DecidableEq, Repr

/-- A frame that arrives, with the address that its DMA writes; and one to be sent, whose DMA reads `len` bytes at `buf` (R353, R362). -/
structure RxFrame where
  frame : Frame
  buf : Nat
  deriving DecidableEq, Repr
structure TxFrame where
  dst : BitVec 48
  vlan : Nat
  buf : Nat
  len : Nat
  deriving DecidableEq, Repr

/-- The steps of the machine. -/
inductive Instr
  -- sweep and control (R212)
  | go (h : Hdr) (off : BitVec 22)
  | got (h : Hdr) (a b : Opnd)
  | call (h : Hdr) (off : BitVec 22) (sl : Slide)
  | callt (h : Hdr) (off : BitVec 22) (sl : Slide)
  | ret (h : Hdr)
  | exit (h : Hdr)
  | park (h : Hdr) (off : BitVec 22)
  | yield (h : Hdr)
  | nop (h : Hdr)
  | trap (h : Hdr) (a : Opnd)
  | sysc (h : Hdr) (a : Opnd)
  | tret (h : Hdr)
  -- integer (R225)
  | iadd (h : Hdr) (t : Ty) (d a b : Opnd)
  | iaddImm (h : Hdr) (t : Ty) (d a : Opnd) (imm : Word)
  | isub (h : Hdr) (t : Ty) (d a b : Opnd)
  | isubImm (h : Hdr) (t : Ty) (d a : Opnd) (imm : Word)
  | iaddc (h : Hdr) (t : Ty) (d a b : Opnd) (c : POpnd)
  | isubb (h : Hdr) (t : Ty) (d a b : Opnd) (c : POpnd)
  | imul (h : Hdr) (t : Ty) (d a b : Opnd)
  | imulImm (h : Hdr) (t : Ty) (d a : Opnd) (imm : Word)
  | imulh (h : Hdr) (t : Ty) (d a b : Opnd)
  | imad (h : Hdr) (t : Ty) (d a b c : Opnd)
  | idiv (h : Hdr) (t : Ty) (d a b : Opnd)
  | irem (h : Hdr) (t : Ty) (d a b : Opnd)
  | imin (h : Hdr) (t : Ty) (d a b : Opnd)
  | iminImm (h : Hdr) (t : Ty) (d a : Opnd) (imm : Word)
  | imax (h : Hdr) (t : Ty) (d a b : Opnd)
  | imaxImm (h : Hdr) (t : Ty) (d a : Opnd) (imm : Word)
  | iabs (h : Hdr) (t : Ty) (d a : Opnd)
  | ineg (h : Hdr) (t : Ty) (d a : Opnd)
  | isel (h : Hdr) (t : Ty) (d a b : Opnd) (c : POpnd)
  | icmp (h : Hdr) (t : Ty) (cond : Cond) (d : POpnd) (a b : Opnd)
  | icmpImm (h : Hdr) (t : Ty) (cond : Cond) (d : POpnd) (a : Opnd) (imm : Word)
  -- logic, shifts, bit fields (R230)
  | and (h : Hdr) (t : Ty) (d a b : Opnd)
  | andImm (h : Hdr) (t : Ty) (d a : Opnd) (imm : Word)
  | or (h : Hdr) (t : Ty) (d a b : Opnd)
  | orImm (h : Hdr) (t : Ty) (d a : Opnd) (imm : Word)
  | xor (h : Hdr) (t : Ty) (d a b : Opnd)
  | xorImm (h : Hdr) (t : Ty) (d a : Opnd) (imm : Word)
  | andn (h : Hdr) (t : Ty) (d a b : Opnd)
  | andnImm (h : Hdr) (t : Ty) (d a : Opnd) (imm : Word)
  | not (h : Hdr) (t : Ty) (d a : Opnd)
  | shl (h : Hdr) (t : Ty) (d a b : Opnd)
  | shr (h : Hdr) (t : Ty) (d a b : Opnd)
  | sar (h : Hdr) (t : Ty) (d a b : Opnd)
  | rol (h : Hdr) (t : Ty) (d a b : Opnd)
  | bfx (h : Hdr) (t : Ty) (d a b c : Opnd)
  | bfi (h : Hdr) (t : Ty) (d a b c : Opnd)
  | popc (h : Hdr) (t : Ty) (d a : Opnd)
  | clz (h : Hdr) (t : Ty) (d a : Opnd)
  | ctz (h : Hdr) (t : Ty) (d a : Opnd)
  | brev (h : Hdr) (t : Ty) (d a : Opnd)
  -- moves and predicates (R233, R234)
  | mov (h : Hdr) (t : Ty) (d a : Opnd)
  | movi (h : Hdr) (t : Ty) (d : Opnd) (imm : Word)
  | movw (h : Hdr) (t : Ty) (d : Opnd) (imm : Dword)
  | pset (h : Hdr) (op : PsetOp) (d a b : POpnd)
  -- affine (R235)
  | amov (h : Hdr) (d a b : Opnd)
  | amovImm (h : Hdr) (d : Opnd) (base stride : Word)
  | aadd (h : Hdr) (d a b : Opnd)
  | aaddImm (h : Hdr) (d a : Opnd) (base stride : Word)
  | amul (h : Hdr) (d a b : Opnd)
  | amulImm (h : Hdr) (d a : Opnd) (imm : Word)
  | aget (h : Hdr) (d a : Opnd)
  | alea (h : Hdr) (d a b c : Opnd)
  -- special registers (R236)
  | rdsr (h : Hdr) (d : Opnd) (sr : BitVec 8)
  | wrsr (h : Hdr) (a : Opnd) (sr : BitVec 8)
  | wrsrWlo (h : Hdr) (a : Opnd)
  | wrsrTmr (h : Hdr) (a : Opnd)
  | wrsrHs (h : Hdr) (a : Opnd)
  -- floating point (R239, R246)
  | fadd (h : Hdr) (d a b : Opnd)
  | faddImm (h : Hdr) (d a : Opnd) (imm : Word)
  | fsub (h : Hdr) (d a b : Opnd)
  | fmul (h : Hdr) (d a b : Opnd)
  | fmulImm (h : Hdr) (d a : Opnd) (imm : Word)
  | ffma (h : Hdr) (d a b c : Opnd)
  | ffmaImm (h : Hdr) (d a c : Opnd) (imm : Word)
  | fmin (h : Hdr) (d a b : Opnd)
  | fminImm (h : Hdr) (d a : Opnd) (imm : Word)
  | fmax (h : Hdr) (d a b : Opnd)
  | fmaxImm (h : Hdr) (d a : Opnd) (imm : Word)
  | fcmp (h : Hdr) (cond : Cond) (d : POpnd) (a b : Opnd)
  | fcmpImm (h : Hdr) (cond : Cond) (d : POpnd) (a : Opnd) (imm : Word)
  | fclass (h : Hdr) (d a : Opnd)
  | frnd (h : Hdr) (d a b : Opnd)
  | fscale (h : Hdr) (d a b : Opnd)
  | frcp (h : Hdr) (d a : Opnd)
  | frsq (h : Hdr) (d a : Opnd)
  | fsqrt (h : Hdr) (d a : Opnd)
  | fexp2 (h : Hdr) (d a : Opnd)
  | flog2 (h : Hdr) (d a : Opnd)
  | fsin (h : Hdr) (d a : Opnd)
  | fcos (h : Hdr) (d a : Opnd)
  -- packed and conversion (R248-R253)
  | hadd2 (h : Hdr) (t : Ty) (d a b : Opnd)
  | hmul2 (h : Hdr) (t : Ty) (d a b : Opnd)
  | hfma2 (h : Hdr) (t : Ty) (d a b c : Opnd)
  | cvt (h : Hdr) (dst src : Ty) (rnd : Rnd) (d a : Opnd)
  | cvtp (h : Hdr) (dst src : Ty) (rnd : Rnd) (half : Bool) (d a b : Opnd)
  | tspack (h : Hdr) (tw : Twin) (d a : Opnd)
  | tsunpack (h : Hdr) (tw : Twin) (d a b : Opnd)
  -- cross-lane (R254-R261)
  | shfl (h : Hdr) (t : Ty) (mode : ShflMode) (seg : BitVec 3) (d a b : Opnd)
  | vote (h : Hdr) (mode : VoteMode) (d a : POpnd)
  | ballot (h : Hdr) (turn : BitVec 2) (d : Opnd) (a : POpnd)
  | redux (h : Hdr) (t : Ty) (op : RedOp) (d a : Opnd)
  | scan (h : Hdr) (t : Ty) (op : RedOp) (d a : Opnd)
  | bcast (h : Hdr) (t : Ty) (d a b : Opnd)
  | matchI (h : Hdr) (t : Ty) (d a : Opnd)
  -- memory (R265)
  | ld (h : Hdr) (t : Ty) (m : MemMod) (d a : Opnd)
  | ldDisp (h : Hdr) (t : Ty) (m : MemMod) (d a : Opnd) (disp : Word)
  | st (h : Hdr) (t : Ty) (m : MemMod) (a b : Opnd)
  | stDisp (h : Hdr) (t : Ty) (m : MemMod) (a b : Opnd) (disp : Word)
  | lds (h : Hdr) (t : Ty) (m : MemMod) (d a : Opnd)
  | ldsDisp (h : Hdr) (t : Ty) (m : MemMod) (d a : Opnd) (disp : Word)
  | sts (h : Hdr) (t : Ty) (m : MemMod) (a b : Opnd)
  | stsDisp (h : Hdr) (t : Ty) (m : MemMod) (a b : Opnd) (disp : Word)
  | ldc (h : Hdr) (t : Ty) (bank : BitVec 4) (d a : Opnd)
  | ldcDisp (h : Hdr) (t : Ty) (bank : BitVec 4) (d a : Opnd) (disp : Word)
  | pref (h : Hdr) (l2 : Bool) (a : Opnd)
  | prefDisp (h : Hdr) (l2 : Bool) (a : Opnd) (disp : Word)
  -- atomics (R270)
  | atom (h : Hdr) (t : Ty) (m : MemMod) (sp : Space) (op : RedOp) (d a b : Opnd)
  | atomDisp (h : Hdr) (t : Ty) (m : MemMod) (sp : Space) (op : RedOp) (d a b : Opnd) (disp : Word)
  | atomc (h : Hdr) (t : Ty) (m : MemMod) (sp : Space) (d a b c : Opnd)
  | atomcDisp (h : Hdr) (t : Ty) (m : MemMod) (sp : Space) (d a b c : Opnd) (disp : Word)
  | red (h : Hdr) (t : Ty) (m : MemMod) (sp : Space) (op : RedOp) (a b : Opnd)
  | redDisp (h : Hdr) (t : Ty) (m : MemMod) (sp : Space) (op : RedOp) (a b : Opnd) (disp : Word)
  | fence (h : Hdr) (scope : Scope)
  -- barriers (R275)
  | bari (h : Hdr) (a b c : Opnd)
  | bara (h : Hdr) (a b c : Opnd)
  | barw (h : Hdr) (a b c : Opnd) (cont : BitVec 22)
  | bart (h : Hdr) (d : POpnd) (a b : Opnd)
  -- engines and events (R281-R285)
  | cpy (h : Hdr) (dsp ssp : Space) (a b c : Opnd) (e : EngExt)
  | cpyx (h : Hdr) (ssp : Space) (a b c : Opnd) (e : EngExt)
  | qfence (h : Hdr) (a b : Opnd)
  | evpop (h : Hdr) (d : Opnd)
  | evwait (h : Hdr) (d b : Opnd) (cont : BitVec 22)
  -- work (R287)
  | card (h : Hdr) (a : Opnd)
  | joinDecrement (h : Hdr) (a : Opnd)
  | joinArm (h : Hdr) (a b c : Opnd)
  | wlapp (h : Hdr) (d a b : Opnd)
  | wlpop (h : Hdr) (d a : Opnd)
  | qscn (h : Hdr) (d a : Opnd)
  | amsg (h : Hdr) (a b : Opnd)
  -- system (R294, R295)
  | icinv (h : Hdr) (d a b : Opnd)
  | tlbh (h : Hdr) (d a b : Opnd)
  -- melds and matrix (R298, R302, R306)
  | mlda (h : Hdr) (a b : Opnd)
  | mldl (h : Hdr) (a b : Opnd)
  | mlds (h : Hdr) (a b : Opnd)
  | mldpPin (h : Hdr) (a b : Opnd)
  | mldpUnpin (h : Hdr) (a b : Opnd)
  | mldv (h : Hdr) (a b : Opnd)
  | mldq (h : Hdr) (d a : Opnd)
  | mma (h : Hdr) (apitch : BitVec 8) (a b c : Opnd) (e : MatExt)
  | mmas (h : Hdr) (apitch : BitVec 8) (a b c : Opnd) (e : MatExt)
  | spz (h : Hdr) (t : Ty) (d a : Opnd)
  -- accumulators (R307)
  | aalc (h : Hdr) (d a : Opnd)
  | afre (h : Hdr) (a b : Opnd)
  | aclm (h : Hdr) (a b : Opnd) (cont : BitVec 22)
  | arel (h : Hdr) (a b : Opnd)
  | ard (h : Hdr) (t : Ty) (d a b : Opnd)
  | awr (h : Hdr) (t : Ty) (a b c : Opnd)
  | azro (h : Hdr) (a b : Opnd)
  | adrn (h : Hdr) (t : Ty) (zero : Bool) (pitch : BitVec 8) (a b c : Opnd)
  -- drones (R313)
  | drpn (h : Hdr) (load : Bool) (dvq dkq : BitVec 3) (d a b c : Opnd)
  | drun (h : Hdr) (a b : Opnd)
  | drsv (h : Hdr) (a b : Opnd)
  | delta (h : Hdr) (tm1 : BitVec 4) (a b c : Opnd)
  -- steps of the sequencer and of a hand's results
  | blockChoice (team hix : Nat)
  | timerPending (team hix : Nat)
  | faultRecordAppend (part : Nat)
  | longResultWrite (team hix index : Nat)
  -- memory
  | requestDrain (core index : Nat)
  | scratchpadBankAccess (core bank : Nat)
  | homeSliceRequest (team hix : Nat) (miss : Bool)
  | hbmAccess (die chan : Nat)
  | remoteWriteApply (die index : Nat)
  | barrierArrivalApply (index : Nat)
  | barrierHeldReport (index : Nat)
  | compactionAppend (die index : Nat)
  -- engines
  | copyChunk (core queue : Nat)
  | copyComplete (core queue : Nat)
  | qfenceComplete (core queue : Nat)
  | meldEntryHead (core queue : Nat)
  | meldFillSlot (core queue : Nat)
  | meldEntryComplete (core queue : Nat)
  | mldvAck (core queue : Nat)
  | mmaEntryHead (core queue : Nat)
  | mmaKStep (core queue : Nat)
  | mmaComplete (core queue : Nat)
  | droneEntryHead (core : Nat)
  | droneBring (core : Nat)
  | deltaToken (core : Nat)
  | deltaComplete (core : Nat)
  -- dealers, teams, launches
  | dealerPop (die : Nat)
  | cardAged (die index : Nat)
  | teamStart (team : Nat)
  | teamDue (team : Nat)
  | teamRetire (team : Nat)
  | amArrival (core : Nat)
  | amTeamStart (core : Nat)
  | quiescenceReport (part handle : Nat)
  | launchFail (part handle : Nat)
  | impreciseStore (core index : Nat) (mask : BitVec 128) (va : Dword) (reason : Nat)
  | saveRequest (team : Nat)
  | collectorAck (team cls : Nat)
  | teamSave (team : Nat)
  | launchRestore (part handle : Nat)
  | teamRestore (team : Nat)
  | restoreReady (team : Nat)
  -- regulators, management
  | congWindowEnd (die : Nat) (counts : List Nat)
  | budgetPeriodEnd
  | refillRateChange (rate : Nat)
  | thermalEvent (junction rail flow : Nat) (cool1s : Bool)
  | fatalError (reason : Nat)
  | uncorrectableError (w : ErrAt)
  | reset
  | imageVerify (stage part pa : Nat)
  | attestationReport (part : Nat) (nonce : BitVec 512)
  -- hypervisor and kernel
  | partitionAssign (part : Nat) (r : Assign)
  | controlPageSet (part which : Nat) (base : Dword)
  | kittyLimitWrite (part kitty limit : Nat)
  | trapVectorWrite (part cause : Nat) (value : Dword)
  | stageMapUpdate (page : Nat) (mask : BitVec 16)
  | scconsWrite (part : Nat) (value : Word)
  | hsRead (part : Nat) (prod : Word)
  | hsWrite (part : Nat) (prod : Word)
  | hsWake (part : Nat) (prod : Word)
  | fsResume (part : Nat) (prod : Word)
  | fsRetire (part : Nat) (prod : Word)
  | fsFail (part : Nat) (prod : Word)
  -- translation
  | pageWalk (die pasid : Nat) (va : Dword) (kind : AccKind) (privT : Bool)
  | atsResponse (hpasid page : Nat) (out : Option Nat)
  | atsInvalidation (hpasid page count : Nat)
  | pasidTeardown (pasid : Nat)
  | pageMigration (pasid : Nat) (va : Dword) (new : Nat)
  -- ports
  | peerRequest (part : Nat) (write : Bool) (pa : Nat) (data : List Byte)
  | linkFailure (peer plane : Nat)
  | ethFrameReceive (port : Nat) (f : RxFrame)
  | ethFrameTransmit (port part : Nat) (f : TxFrame)
  | nvmeDma (port part : Nat) (toMem : Bool) (pa : Nat) (data : List Byte)
  -- queues
  | queueCreate (part qid pasid : Nat) (base : Dword) (lsz : Nat) (rights : BitVec 8)
  | capabilityRevoke (qid : Nat)
  | queueDestroy (qid : Nat)
  | partitionTeardown (part : Nat)
  | deadQueueRead (qid : Nat)
  | refusedWakeRead (part : Nat)
  | queueWake (part window : Nat) (w0 w1 w2 w3 w4 : Dword)
  | pktNop (qid : Nat)
  | pktLaunch (qid : Nat)
  | pktSignal (qid : Nat)
  | pktFence (qid : Nat)
  | pktIcinv (qid : Nat)
  | pktDump (qid : Nat)
  | pktTeardown (qid : Nat)
  | commandComplete (qid : Nat)
  -- clock, contexts, links
  | activityCounterRefill
  | contextDescriptorWrite (pasid : Nat) (w0 w1 w2 : Dword)
  | linkRestored (peer plane : Nat)
  deriving DecidableEq, Repr

end Sys2Proof
end

