-- ==== Sys2Proof/Machine/State.lean ====
section
/-! DEFINITION. The state of the machine as plain data. Tables are lists of records looked up by their keys;
sparse contents (registers, memory, banks) are lists of key and value in rising order of the key that leave out
what an unlisted key reads as. -/

namespace Sys2Proof.Machine

/-- A sparse table: keys strictly rising, no entry equal to what an unlisted key reads as. -/
abbrev SMap (α : Type) := List (Nat × α)

/-- Where a scratchpad byte lies: in the slice of a core, or in memory (the over-request area of R47). -/
inductive Loc
  | slice (core off : Nat)
  | mem (pa : Nat)
  deriving DecidableEq, Repr

/-! ### Threads and hands -/

/-- The register or predicate that a long result will be written to, fixed at issue (R91). -/
inductive Dst
  | ent (t i : Nat)    -- entry i of thread t's register stack
  | kreg (n : Nat)
  | xreg (t n : Nat)
  | pred (t n : Nat)
  | qpred (n : Nat)
  | frame (t lo hi : Nat) (ents : List Word)   -- WRSR wlo (R74): LO and the end of the resident entries, and entries loaded from LO on
  | drop               -- gz, p7, q3 (R77)
  deriving DecidableEq, Repr

/-- A pending long result (R90), one 32-bit half or predicate of one thread; `val = none` until the unit that
forms it has it. -/
structure Pend where
  id : Nat
  dst : Dst
  val : Option Word
  inval : Option (Nat × Nat) := none  -- of an ICINV: the first word and the count that it invalidates (R294)
  deriving DecidableEq, Repr

/-- What a parked thread waits for (R388 WKIND). -/
inductive Wait
  | none
  | barw (loc : Loc) (addr : Word) (phase : Nat)
  | heldArr (id : Nat)
  | evwait (tag : Word) (lo hi : Dst) (order : Nat) (uni : Bool)
  | aclm (first count order : Nat)   -- `order`: its place in the order of R160
  | sysc (number : Word)
  | park
  | fault (seq : Nat)
  deriving DecidableEq, Repr

/-- Thread states (R19). -/
inductive TSt
  | unparked | parked | faultParked | retired
  deriving DecidableEq, Repr

/-- A thread: R18, R19, R71, R75, R388. -/
structure Thread where
  wa : CodeAddr := 0
  re : CodeAddr := 0
  st : TSt := .unparked
  tl : Bool := false
  wait : Wait := .none
  bheld : List Nat := []          -- barrier-held by these arrivals (R277)
  wb : Nat := 0
  lo : Nat := 0
  wsp : Dword := 0
  stack : SMap Word := []         -- entries of the register stack; an unlisted one is zero
  p : BitVec 8 := 0x80#8          -- p0-p6; bit 7 is p7, which reads 1
  x : SMap Word := []
  deriving DecidableEq, Repr

/-- Sequencer phase of a hand (R39 ST). -/
inductive Phase
  | visit | boundary | parked | retired
  deriving DecidableEq, Repr

/-- How the hand's last visit ended, which decides the cost of the next choice (R26). -/
inductive How
  | start        -- start of the hand, or first choice after a restore
  | toEnd        -- ran to its end
  | abandoned
  | waited       -- its last active threads all left it by a waiting instruction (R30)
  | unparked     -- first choice after the hand unparks
  deriving DecidableEq, Repr

/-- What a group of RED, ATOM or ATOMC does at its place (R133, R134, R271 to R273), lane after lane in ascending tid. -/
structure Rmw where
  op : RedOp
  ty : Ty
  vals : List Dword               -- the lanes' values; of ATOMC the values compared
  swaps : List Dword := []        -- of ATOMC the lanes' new values; else []
  ret : Bool := false             -- ATOM or ATOMC: the old values are returned
  olds : List (List (Nat × Bool)) := []  -- by lane: the pending results of its old value, and whether each is the upper word
  deriving DecidableEq, Repr

/-- One store, or one group of a reduction or an atomic, issued and not yet performed (R130, R132). -/
structure BufWrite where
  ord : Nat := 0                  -- its instruction, rising in issue order
  pa : Nat                        -- physical address, or offset in the slice of core `slice`
  slice : Option Nat := none
  data : List Byte                -- the bytes of a store; [] for a reduction or an atomic
  red : Option Rmw                -- a reduction or an atomic (R133)
  wide : Bool                     -- strong at .d or wider (R116)
  org : Nat                       -- origin entry, 0 for a scratchpad access
  last : Bool := true             -- the last write of its request (R263)
  team : Nat
  hix : Nat
  lanes : BitVec 128              -- participants
  req : BitVec 128 := 0           -- the participants of its request, for its report (R381)
  code : CodeAddr := 0            -- code address of the instruction
  va : Dword
  deriving DecidableEq, Repr

/-- A group of a float reduction that D mode holds (R69). -/
structure HeldRed where
  w : BufWrite
  gva : Option Nat                -- the global address of a place in memory, translated again as it is applied (R367)
  privT : Bool                    -- the privilege of its access
  due : Bool := false             -- to be applied as soon as its place is back on a core (R70)
  deriving DecidableEq, Repr

/-- One pending result of a load's request: the bytes that it takes, and what they gave once they have been read. -/
structure ReadItem where
  pend : Nat                      -- the number of the pending result
  loc : Loc
  ty : Ty
  high : Bool                     -- the upper word of a pair (R76)
  home : Bool                     -- strong at .d or wider, or of an uncached page: read at the home (R116, R358)
  tids : List Nat                 -- the threads that a fault is raised for
  got : Option Word := none
  deriving DecidableEq, Repr

/-- The request of a load for one line, or for one row of a bank, issued and not yet answered (R263, R119). Its bytes are read when
its home slice or its bank serves it; its answer forms the results. -/
structure ReadReq where
  team : Nat
  hix : Nat
  part : Nat
  core : Nat
  ord : Nat                       -- its instruction, rising in issue order
  code : CodeAddr                 -- code address of the instruction
  loc : Loc                       -- the line, or the row
  items : List ReadItem
  deriving DecidableEq, Repr

/-- A hand (R14, R39, R75). `threads` lists the threads up to the launch's extent; those beyond it are retired
from the start and stay so (R45; DEDUCED, log 9). -/
structure Hand where
  team : Nat
  hix : Nat
  quad : Nat := 0
  slot : Nat := 0
  resStart : Nat := 0             -- residency start (R37)
  phase : Phase := .boundary
  inTrap : Bool := false          -- TR (R39)
  pos : CodeAddr := 0             -- block visited, or last visited
  blen : Nat := 0                 -- its LEN (R16)
  label : BitVec 12 := 0          -- its label id (R16)
  off : Nat := 0                  -- next body word
  upos : Option CodeAddr := none  -- user position P; none is -1 (R23)
  tpos : Option CodeAddr := none  -- trap position (R34)
  swc : Word := 0
  act : BitVec 128 := 0           -- the active set
  how : How := .start
  busy : Nat := 0                 -- transition cycles still to pass (R26)
  k : SMap Word := []
  q : BitVec 4 := 8#4             -- q0-q2; bit 3 is q3, which reads 1
  ab : SMap Word := []            -- bases of a0-a7
  as : SMap Word := []            -- strides of a0-a7
  tmr : Dword := 0
  tp : Bool := false              -- the timer is pending (R86)
  fmt : Word := 0
  hs : Word := 0
  sw : Bool := false              -- a switch marker waits (R89)
  pend : List Pend := []
  sbuf : List BufWrite := []
  fence : List Nat := []          -- the barrier operations that a FENCE waits for (R274)
  threads : List Thread := []
  deriving DecidableEq, Repr

/-! ### Cards, launches, teams -/

/-- A card, as its eight words (R49). -/
structure Card where
  w0 : Dword
  w1 : Dword
  w2 : Dword
  w3 : Dword
  w4 : Dword
  w5 : Dword
  w6 : Dword
  w7 : Dword
  deriving DecidableEq, Repr

/-- A launch record, as its eight words (R44). -/
structure LaunchRec where
  w0 : Dword
  w1 : Dword
  w2 : Dword
  w3 : Dword
  w4 : Dword
  w5 : Dword
  w6 : Dword
  w7 : Dword
  deriving DecidableEq, Repr

/-- A completion record waiting to be taken (R279), with the order of its submission (R286). -/
structure EvRec where
  w0 : Dword
  w1 : Dword
  sub : Nat
  addr : CodeAddr                 -- code address of the submitting instruction (R166)
  deriving DecidableEq, Repr

/-- Where a team is in its life. -/
inductive TeamSt
  | placed       -- popped; starts at TEAM_START (R56)
  | running
  | saving       -- a save was requested (R383)
  | restoring    -- a placed section has been read; ready at RESTORE_READY (R385)
  | saved        -- held as a section in memory (R64)
  | gone         -- retired, or freed by a failed launch
  deriving DecidableEq, Repr

/-- A team (R43, R47, R55, R57, R158, R280). -/
structure Team where
  id : Nat
  part : Nat
  launch : Nat                    -- launch handle
  card : Card
  lid : Dword
  n : Nat                         -- linear index (R43)
  x : Half
  y : Half
  z : Half
  lix : List Nat                  -- lix2 to lix6 (R43, R51); 0xFFFF_FFFF for an absent level
  st : TeamSt
  core : Nat
  sbase : Nat
  share : Nat                     -- bytes of the SRAM share
  spad : Nat                      -- bytes of the scratchpad (R47)
  depth : Nat                     -- D' (R46)
  hands : Nat                     -- HANDS (R45)
  threads : Nat                   -- threads of the team
  quads : List (Nat × Nat)        -- quadrant and slot of each hand, by hix (R55)
  acc : Nat := 0                  -- banks reserved (R48)
  accPhys : List Nat := []        -- their physical banks, by logical number
  alloc : BitVec 256 := 0         -- allocated logical banks (R158)
  claims : SMap Nat := []         -- claiming hix + 1, by logical bank (R160)
  accMem : SMap Word := []        -- elements, by bank * 1024 + row * 64 + column
  rcyc : Nat := 0
  rcyc0 : Nat := 0                -- rcyc at its last placement (R64)
  due : Bool := false             -- R64
  evRes : Nat := 0                -- reserved event slots (R280)
  records : List EvRec := []      -- untaken records, oldest first
  subs : List Nat := []           -- submissions without a written record, oldest first (R286)
  acks : List Nat := []           -- engine classes that have acknowledged a save (R384)
  section_ : Nat := 0             -- virtual address of its saved section (R386)
  gang : Option Nat := none       -- LID of the gang's first team (R41)
  heldRed : List HeldRed := []    -- float reductions held per team in D mode (R69)
  joined : Bool := false          -- a handler team (R62)
  lost : List Nat := []           -- descriptors of its lost ephemeral melds (R155)
  placeAt : Nat := 0              -- the core cycle of its residency start (R37, R56)
  deriving DecidableEq, Repr

/-- Where a launch is in its life. -/
inductive LaunchSt
  | pending      -- accepted; the image is not yet read
  | live
  | failing      -- failed (R382); its parts are not yet stopped
  | failed       -- stopped; ends when quiescent
  | ended        -- quiescence reported (R63)
  | endedFailed
  | saved        -- ended by DUMP (R403)
  deriving DecidableEq, Repr

/-- A Twimet entry (R66), and in replay whether it has been placed (R67). -/
structure TraceEnt where
  core : Nat
  kind : Nat
  lid : Dword
  placed : Bool
  deriving DecidableEq, Repr

/-- A launch (R44, R113, R382, R386). -/
structure Launch where
  part : Nat
  handle : Nat
  qid : Nat
  pasid : Nat
  image : Dword
  saveDflt : Dword                -- the queue's default save area (s1)
  st : LaunchSt
  record : LaunchRec := ⟨0, 0, 0, 0, 0, 0, 0, 0⟩
  banks : List (Nat × Nat) := []  -- BASE and SIZE of the constant banks (R113)
  save : Nat := 0
  tsz : Nat := 0
  cause : Nat := 0                -- of the launch fault record (R382)
  fseq : Nat := 0
  trace : List TraceEnt := []
  truncated : Bool := false       -- TRUNC (R66)
  armed : List Nat := []          -- armed join counters (R63), by physical address
  deriving DecidableEq, Repr

/-- A card in a deal queue (R53), or a saved team's resumption card (R64, R390). -/
structure DealCard where
  id : Nat := 0                   -- its number, by which cores are held for it
  part : Nat
  launch : Nat
  card : Card
  prio : Nat
  since : Nat                     -- at the head of its queue: the cycle it got there (R54)
  resume : Option Nat := none     -- virtual address of the section to restore (R390)
  team : Nat := 0                 -- the saved team, 0 when the section comes from an image
  rlid : Dword := 0               -- its LID
  gang : Option Nat := none       -- its saved gang, whose cards are placed together
  deriving DecidableEq, Repr

/-- An active message on its way, or in a core's message queue (R62). -/
structure Msg where
  part : Nat
  launch : Nat
  core : Nat
  card : Card
  x : Half                        -- the sender's indices (R51)
  y : Half
  z : Half
  n : Nat
  lix : List Nat
  team : Nat                      -- the sending hand (R62)
  hix : Nat
  deriving DecidableEq, Repr

/-! ### Engines -/

/-- Kinds of engine entry (R389). -/
inductive EKind
  | copy | matrix | meld | delta | qfence
  deriving DecidableEq, Repr

/-- How far the entry has come. -/
inductive EPhase
  | waiting      -- not yet begun
  | begun        -- at the head, checked; its units run
  | done (cause : Nat) (addr : Dword)   -- its work is done; the record is still to be written
  | acking (need : List Nat)            -- MLDV: cores still to acknowledge (R156)
  deriving DecidableEq, Repr

/-- How an entry stands toward an earlier save: not saved after its work had begun, stopped in it (R168, R175), or read from an
image, which does not say (R389). -/
inductive Again
  | fresh | stopped | image
  deriving DecidableEq, Repr

/-- An engine entry (R141, R389). -/
structure Entry where
  id : Nat
  queue : Nat
  kind : EKind
  op : BitVec 8                   -- major opcode of its instruction (0xF5, 0xF6 for a follow-on)
  team : Nat
  hix : Nat
  tid : Nat                       -- 0xFF for a uniform submission
  addr : CodeAddr                 -- code address of the instruction (R166)
  w0 : Dword                      -- the instruction word and its extension (R389)
  w1 : Dword
  a : Dword                       -- operands as read at issue
  b : Dword
  c : Dword
  fmt : Word
  tag : Word
  sub : Nat                       -- order of submission (R286)
  copy : List Dword := []         -- kept descriptor (R299) or follow-on record (R282)
  prog : Nat := 0                 -- chunks done, STEP or NEXT
  phase : EPhase := .waiting
  filling : Bool := false         -- a fill of the entry's meld is under way
  slot : Nat := 0                 -- slots filled so far
  resid : Nat := 0                -- the residency it uses, by id
  await : List Nat := []          -- entries a QFENCE waits for (R142)
  pends : List Nat := []          -- the pending statuses of a DRPN
  follow : Bool := false          -- the matrix follow-on of a CPYX
  org : Nat := 0                  -- origin entry of a copy (R263)
  privT : Bool := false           -- privilege of the visit that submitted it (R407)
  pasid : Nat := 0                -- its team's (R150)
  limit : Option Nat := none      -- a pin: the kitty limit that it reached the head under, once a later one is written (R339)
  again : Again := .fresh
  counted : Nat := 0              -- a copy: pieces of its present chunk that the regulator has counted (R340)
  deriving DecidableEq, Repr

/-- A residency (R150): one copy of a meld in one array. -/
structure Resid where
  id : Nat
  pasid : Nat
  desc : Dword
  team : Option Nat               -- the loading team of an ephemeral meld
  arr : Nat
  first : Nat
  count : Nat
  pinned : Bool := false
  kitty : Nat := 0                -- the kitty that its pin counts against (R153)
  stale : Bool := true
  fill : Bool := false
  filled : Bool := false          -- a fill has completed (R155)
  dead : Bool := false            -- removed; its slots are kept for an entry that holds it (R156)
  copy : List Dword := []         -- descriptor of its last fill (R299)
  spans : List (Nat × Nat) := []  -- recorded source: physical address and length of each run (R144, R370)
  elems : SMap (BitVec 16) := []  -- elements by stored row * 65536 + column; unlisted is +0 (R147)
  scales : SMap (BitVec 16) := [] -- scale words by block * 65536 + column
  metas : SMap (BitVec 16) := []  -- metadata words by group * 65536 + column
  deriving DecidableEq, Repr

/-- A drone resident on a core (R172). -/
structure Drone where
  part : Nat
  handle : Nat
  bank : Nat
  dvq : Nat
  dkq : Nat
  tokens : Word
  s : SMap Word := []             -- S[j][i] by j * 128 + i
  deriving DecidableEq, Repr

/-- An entry of the partition's drone table (R172). -/
structure DroneEnt where
  handle : Nat
  res : Bool
  core : Nat
  bank : Nat
  dvq : Nat
  dkq : Nat
  pasid : Nat
  spill : Dword
  deriving DecidableEq, Repr

/-- An origin entry (R380). -/
structure Origin where
  id : Nat
  addr : CodeAddr
  team : Nat
  hix : Nat
  part : Nat
  launch : Nat
  mask : BitVec 128
  undrained : Nat                 -- requests not yet drained
  performed : Nat                 -- of these, performed: their acknowledgement is on its way
  deriving DecidableEq, Repr

/-- What R119 ranks the requests at a bank by. -/
structure BankRank where
  cls : Nat                       -- 3 hand, 4 remote window (R119)
  key : Nat                       -- the class's tie-break, lower first
  since : Nat                     -- the cycle from which it waits
  deriving DecidableEq, Repr

/-- A request waiting at a scratchpad bank (R119): a load's, or the writes of one hand-instruction to one row. -/
structure BankReq where
  bank : Nat
  row : Nat
  rank : BankRank
  team : Nat
  hix : Nat
  ord : Nat                       -- its instruction
  read : Option ReadReq := none   -- a load's; else its writes wait in the hand's buffer
  deriving DecidableEq, Repr

/-- A translation held by a TLB (R363). -/
structure Tlb where
  pasid : Nat
  vbase : Nat
  size : Nat
  pbase : Nat
  perm : BitVec 8                 -- the leaf's bits [7:0]: D A U X W R LEAF V (R358)
  uncached : Bool
  deriving DecidableEq, Repr

/-- An entry of tier 3, 2 or 1 that a die's walkers keep (R363): `idx`: the address over the bytes that it covers. -/
structure WalkEnt where
  pasid : Nat
  tier : Nat
  idx : Nat
  e : Dword
  deriving DecidableEq, Repr

/-- A core (R7). -/
structure Core where
  activity : Int := Config.activityCap
  actStart : Int := Config.activityCap   -- the counter at the start of the cycle (R12)
  spad : SMap Byte := []
  bankQ : List BankReq := []
  tlb : List Tlb := []
  icache : List (Nat × Nat × CodeAddr × Dword) := []  -- partition, PASID, word address, word last fetched (R294)
  entries : List Entry := []      -- all queues, oldest first
  resid : List Resid := []
  overLimit : List Nat := []           -- kitties whose limit was lowered below their count, which unpins have not yet undone (R339)
  drones : List Drone := []
  msgs : List Msg := []
  slots : Nat := 0                -- request slots in use (R263)
  reads : List ReadReq := []      -- requests of loads, oldest first
  origins : List Origin := []
  heldRed : List HeldRed := []    -- float reductions held at .c in D mode (R69)
  regCap : List Nat := [Config.regBytes, Config.regBytes, Config.regBytes, Config.regBytes]  -- R391
  deriving DecidableEq, Repr

/-! ### Memory side -/

/-- A write of one die not yet applied by another (R116): the clock it carries, and the bytes that the other die
still sees. -/
structure WMsg where
  src : Nat
  clock : List Nat
  pa : Nat
  old : List Byte
  deriving DecidableEq, Repr

/-- Kinds of barrier operation that reach a bank (R275). -/
inductive ArrKind
  | init | arrive | test
  deriving DecidableEq, Repr

/-- A barrier operation on its way to its bank, or an arrival held there (R138, R275). -/
structure Arrival where
  id : Nat
  kind : ArrKind
  loc : Loc
  addr : Word
  b : Nat                         -- phase, or EXPECT of a BARI
  c : Nat                         -- weight, or PHASE of a BARI
  team : Nat
  hix : Nat
  mask : BitVec 128               -- participants
  waiter : Bool                   -- a BARW, whose threads are parked
  code : CodeAddr
  reported : Bool := false        -- the report of a held arrival has reached the hand (R277)
  pend : List Nat := []           -- BART: its pending results
  rank : BankRank := ⟨3, 0, 0⟩    -- its place among the arrivals at its word (R138, R119)
  deriving DecidableEq, Repr

/-- What the front end keeps of a saved team because its section has no field for it (DEDUCED, log 24). -/
structure Kept where
  team : Nat
  hands : List Hand
  entries : List Entry
  held : List Arrival
  recs : List (CodeAddr × Nat)    -- of the untaken records, in the order of the section: code address, order of submission
  origins : List Origin := []     -- the origin entries of its entries
  deriving DecidableEq, Repr

/-- An append on its way to the compaction unit (R60), or staged there (R61). -/
structure Append where
  team : Nat
  hix : Nat
  tids : List Nat                 -- the threads it stands for: one, or the hand's active threads under U
  tid : Nat                       -- tag of R61: 0xFF for the hand
  order : Nat                     -- the instruction, rising in issue order
  desc : Nat                      -- physical address of the descriptor
  item : List Byte                -- the item, or [] while it is still at `src` (R290)
  src : Option Nat
  unc : Bool := false             -- `src` lies in an uncached page (R358)
  pend : List Nat                 -- the pending result, when D names a register
  lid : Dword
  core : Nat
  part : Nat
  launch : Nat
  pasid : Nat
  org : Nat                       -- origin entry
  code : CodeAddr
  privT : Bool
  deriving DecidableEq, Repr

/-- What the front end keeps of a launch that DUMP has saved, because its image has no field for it: for a launch that is restored from
that image (R70; DESIGN CHOICE, log 73). -/
structure Dumped where
  pasid : Nat
  image : Nat                     -- virtual address of the image
  teams : List Team               -- by section, in the order of the image's directory
  gone : List Team                -- retired teams that reductions are still held for
  coreReds : List (Nat × HeldRed) -- by core
  staged : List (Nat × Append)    -- by die
  phases : List (Loc × Nat × Nat)
  armed : List Nat
  deriving DecidableEq, Repr

/-- A C-die (R7). -/
structure Die where
  clock : List Nat := [0, 0, 0, 0, 0, 0, 0, 0]
  inbox : List WMsg := []
  deal : List DealCard := []
  lastServed : Option (Nat × Nat) := none   -- partition and handle (R54)
  heldFor : List (Nat × Nat) := []          -- cores held for a waiting card: its number, core (R64)
  tlb : List Tlb := []
  appends : List Append := []
  staged : List Append := []
  walks : List WalkEnt := []                -- the walk cache (R363)
  deriving DecidableEq, Repr

/-- A request in an HBM channel's queue (R121). -/
structure ChanReq where
  row : Nat
  write : Bool
  since : Nat
  read : Option ReadReq := none   -- a load's request
  deriving DecidableEq, Repr

/-! ### Hub, partitions and queues -/

/-- A record of the system-call ring, as its eight words (R347, R375). -/
structure RingRec where
  w0 : Dword
  w1 : Dword
  w2 : Dword
  w3 : Dword
  w4 : Dword
  w5 : Dword
  w6 : Dword
  w7 : Dword
  deriving DecidableEq, Repr

/-- A MAC filter of a partition's virtual interface (R353). -/
structure Iface where
  port : Nat
  mac : BitVec 48
  vlans : List Nat
  deriving DecidableEq, Repr

/-- A command held at the hub: its channel (true: fault service), its index, its words. -/
structure HeldCmd where
  fs : Bool
  index : Word
  words : List Dword
  deriving DecidableEq, Repr

/-- A partition (R338, R350, R372). -/
structure Part where
  clusters : List Nat := []
  pasidBase : Nat := 0
  pasidCount : Nat := 0
  trapBase : Nat := 0
  trapLimit : Nat := 0
  vectors : SMap Dword := []      -- R372
  kitty : SMap Nat := []
  drones : List DroneEnt := []
  shares : SMap Nat := []         -- by regulated activity (R340)
  peers : BitVec 192 := 0
  scBase : Dword := 0
  scProd : Word := 0
  scCons : Word := 0
  hsBase : Dword := 0
  hsProd : Word := 0
  hsCons : Word := 0
  hsTaken : Word := 0             -- commands that the hub has taken; CONS waits for a held one (R349, R350)
  fsBase : Dword := 0
  fsProd : Word := 0
  fsCons : Word := 0
  fsTaken : Word := 0
  seqNext : Word := 0             -- SEQ of the next record given to the hub
  ringWait : List RingRec := []   -- records waiting at the hub (R375)
  ringLog : List RingRec := []    -- fault records given out, which a command may name (R376)
  windows : SMap Dword := []      -- wake windows, by window * 8 + word (R398)
  refused : Nat := 0
  sealGen : Nat := 0              -- number of its seal key; 0 with no key (R397)
  nextHandle : Nat := 0
  mp : BitVec 512 := 0
  ifaces : List Iface := []
  nvme : SMap Nat := []           -- I/O queue pairs per port (R352)
  namespaces : SMap (List Nat) := []  -- NVMe namespaces by port (R352)
  rx : List (Nat × Frame) := []
  rxSums : List (Option Bool) := []   -- of each frame of `rx`: does its TCP or UDP checksum verify; none for another frame (R353)
  tx : List (Nat × Frame) := []
  heldCmds : List HeldCmd := []   -- commands to teams that are not running (R349, R376)
  deriving DecidableEq, Repr

/-- What a started command of a queue still needs before it completes (R403). -/
structure Cmd where
  cmd : Nat
  irq : Bool
  cpl : Dword
  cval : Dword
  head : Nat                      -- consumer index after the packet
  vector : Nat
  launch : Nat := 0               -- the launch that LAUNCH or DUMP concerns
  x : Dword := 0                  -- FENCE: s6; DUMP: s0, as the command read them
  y : Dword := 0                  -- FENCE: s7
  status : Option (Nat × Nat) := none   -- STATUS and CAUSE, once its effect is done
  deriving DecidableEq, Repr

/-- A queue and its control block (R397, R402, R405). -/
structure Queue where
  qid : Nat
  part : Nat
  pasid : Nat
  base : Dword
  lsz : Nat
  rights : BitVec 8
  gen : Nat := 0
  dead : Bool := false
  tail : Nat := 0
  head : Nat := 0
  comp : Nat := 0
  shadow : SMap Dword := []
  cmds : List Cmd := []           -- started, in ring order
  deriving DecidableEq, Repr

/-- A context descriptor (R356). -/
structure Context where
  valid : Bool
  dead : Bool
  part : Nat
  root : Nat
  code : Dword
  hpasid : Nat
  deriving DecidableEq, Repr

/-- Units counted by a regulator in the current period (R340). -/
structure Count where
  activity : Nat
  unit : Nat
  part : Nat
  n : Nat
  deriving DecidableEq, Repr

/-- Which step comes next (DESIGN CHOICE, log 3): a hand issues its next body word, or a step of the device is taken. -/
inductive Move
  | issue (team hix : Nat)
  | event (i : Instr)
  deriving DecidableEq, Repr

/-- The hand that issues, with the address and the words of what it issues. -/
structure Cur where
  team : Nat
  hix : Nat
  addr : CodeAddr
  len : Nat
  w0 : Dword
  w1 : Dword
  deriving DecidableEq, Repr

/-- What a dump says of one core (R395): its hands' registers, its scratchpad, its accumulator memory (of its teams and of its
drones), and its melds, queues (of engines, messages and events), origin entries and residencies. -/
structure DumpCore where
  core : Nat
  hands : List Hand
  spad : SMap Byte
  acc : List (Nat × SMap Word)    -- by team
  drones : List Drone
  events : List (Nat × List EvRec)  -- by team
  entries : List Entry
  msgs : List Msg
  origins : List Origin
  resid : List Resid
  deriving DecidableEq, Repr

/-- The state that a fatal error dumps (R395): a section a core, in core order, and the hub's. The bytes behind the dump's header
have no stated layout, so the sections stand here (DESIGN CHOICE, log 17). -/
structure Dump where
  reason : Nat
  hcyc : Nat
  cores : List DumpCore
  parts : SMap Part
  queues : List Queue
  launches : List Launch
  contexts : List (Nat × Context)
  deriving DecidableEq, Repr

/-- The state of the machine. -/
structure State where
  -- package and hub
  cyc : Nat
  stopped : Option Nat            -- the REASON of a fatal error (R395)
  refill : Nat
  refillNext : Option Nat
  mem : SMap Byte                 -- by physical address
  poison : List Nat               -- lines (address / 128) marked uncorrectable (R393)
  stageMap : SMap (BitVec 16)
  contexts : List (Nat × Context)
  atc : List (Nat × Nat × Option Nat)   -- HPASID, page, translated page or refusal (R368)
  deadPlanes : List (Nat × Nat)   -- peer, plane (R354)
  pkgId : Nat
  host : Bool                     -- is a host attached (R351)?
  cong : SMap Nat                 -- by cluster of the package (R123)
  md : BitVec 512
  mlog : List (List Dword)
  bootStage : Nat
  bootHalt : Option Nat           -- the failed check (R344)
  keys : Nat                      -- seal keys that the security engine has generated (R397)
  periods : Nat                   -- periods of the regulator clock (R340)
  dump : Option Dump              -- what the dump of a fatal error holds (R395)
  policyLast : Option Nat         -- the queue core that the policy core served last (R396)
  floors : SMap Nat               -- by stage * 256 + part * 16 + slot
  budget : List Count
  chanQ : SMap (List ChanReq)     -- by die * 64 + channel
  openRow : SMap Nat
  irqs : List (Nat × Nat)         -- partition and vector; vector 4096 is the system-call interrupt
  reply : List Dword              -- what the last hypervisor call returned
  -- the dies, cores and what runs on them
  dies : List Die
  cores : SMap Core
  teams : List Team
  hands : List Hand
  launches : List Launch
  parts : SMap Part
  queues : List Queue
  arrivals : List Arrival
  heldArr : List Arrival
  phases : List (Loc × Nat × Nat) -- in D mode, the teams that have arrived at an open phase: word, phase, team (R69)
  amFlight : List Msg
  kept : List Kept
  dumped : List Dumped
  -- the model's own fields
  schedule : List Move
  cur : Option Cur
  turn : List (Nat × Nat)         -- hands that the default policy has let issue in this cycle
  freeCtr : Nat
  nextId : Nat
  deriving DecidableEq, Repr

/-- Why the machine stops. -/
inductive Fault
  /-- Raised by `step` when the package has stopped after a fatal error (R395: 'The package then stops until
  reset'), or has halted because stage 1 or 2 of its boot chain failed (R344: 'the package halts and reports the
  failed check to management'), and the step to be taken is not RESET. Safe: the package does nothing. -/
  | packageStopped
  deriving DecidableEq, Repr

/-- Why a step has no meaning. -/
inductive Refusal
  /-- Raised by `exec` for an instruction whose meaning is not written. Safe: nothing is claimed of it. -/
  | notModelled (mnemonic : String)
  deriving DecidableEq, Repr

/-- A step's answer. -/
abbrev Out := Host.Outcome State Fault Refusal

/-- The machine right after reset: every core's activity counter full (R11, the default of `Core`), the refill
rate 32 (R13), MD zero (R345), no boot stage passed, no partition, context, queue, launch or team. What the manual
gives no reset value for is a DESIGN CHOICE that log 20 names. -/
def State.reset : State where
  cyc := 0
  stopped := none
  refill := 32
  refillNext := none
  mem := []
  poison := []
  stageMap := []
  contexts := []
  atc := []
  deadPlanes := []
  pkgId := 0
  host := true
  cong := []
  md := 0
  mlog := []
  bootStage := 0
  bootHalt := none
  keys := 0
  periods := 0
  dump := none
  policyLast := none
  floors := []
  budget := []
  chanQ := []
  openRow := []
  irqs := []
  reply := []
  dies := List.replicate Config.dies ⟨[0, 0, 0, 0, 0, 0, 0, 0], [], [], none, [], [], [], [], []⟩
  cores := []
  teams := []
  hands := []
  launches := []
  parts := []
  queues := []
  arrivals := []
  heldArr := []
  phases := []
  amFlight := []
  kept := []
  dumped := []
  schedule := []
  cur := none
  turn := []
  freeCtr := 0
  nextId := 1

end Sys2Proof.Machine
end

