-- ==== Sys2Proof/Machine/Tables.lean ====
section
/-! DEFINITION. Sparse tables in canonical form, and the lookups and updates of the tables of State by key. -/

namespace Sys2Proof.Machine

/-! ### Sparse tables -/

/-- What key `k` reads as; `d` for an unlisted key. -/
def SMap.get {α : Type} : SMap α → Nat → α → α
  | [], _, d => d
  | (k', v) :: r, k, d => if k = k' then v else SMap.get r k d

/-- Put an entry at its place in the rising order of the keys. -/
def SMap.put {α : Type} : SMap α → Nat → α → SMap α
  | [], k, v => [(k, v)]
  | (k', v') :: r, k, v =>
    if k < k' then (k, v) :: (k', v') :: r else if k = k' then (k, v) :: r else (k', v') :: SMap.put r k v

/-- Set key `k`; an entry equal to `d` is left out. -/
def SMap.set {α : Type} [DecidableEq α] (m : SMap α) (k : Nat) (v d : α) : SMap α :=
  if v = d then m.filter fun e => e.1 != k else m.put k v

/-- All keys of `m` exceed `lo` (when given), rise strictly, and no entry equals `d`. -/
def SMap.wfFrom {α : Type} [DecidableEq α] (d : α) : Option Nat → SMap α → Bool
  | _, [] => true
  | lo, (k, v) :: r =>
    (match lo with | none => true | some l => decide (l < k)) && decide (v ≠ d) && SMap.wfFrom d (some k) r

/-- The canonical form of a sparse table. -/
def SMap.wf {α : Type} [DecidableEq α] (d : α) (m : SMap α) : Bool := SMap.wfFrom d none m

/-- Set the consecutive keys from `k` to the values of a list. -/
def SMap.setRun {α : Type} [DecidableEq α] (d : α) : SMap α → Nat → List α → SMap α
  | m, _, [] => m
  | m, k, v :: vs => SMap.setRun d (m.set k v d) (k + 1) vs

/-- Read `n` consecutive keys from `k`. -/
def SMap.getRun {α : Type} (m : SMap α) (d : α) : Nat → Nat → List α
  | _, 0 => []
  | k, n + 1 => m.get k d :: SMap.getRun m d (k + 1) n

/-- Drop the keys from `lo` up to, not including, `hi`. -/
def SMap.drop {α : Type} (m : SMap α) (lo hi : Nat) : SMap α := m.filter fun e => e.1 < lo || hi ≤ e.1

/-! ### Lists of numbers and bytes -/

/-- Replace element `i` of a list. -/
def setAt {α : Type} : List α → Nat → (α → α) → List α
  | [], _, _ => []
  | a :: r, 0, f => f a :: r
  | a :: r, i + 1, f => a :: setAt r i f

/-- Stable insertion sort. -/
def sortBy {α : Type} (le : α → α → Bool) : List α → List α
  | [] => []
  | x :: r => insFirst le x (sortBy le r)
where
  /-- Insert before the first element that is not less, so that the sort is stable. -/
  insFirst {α : Type} (le : α → α → Bool) (x : α) : List α → List α
    | [] => [x]
    | y :: r => if le x y then x :: y :: r else y :: insFirst le x r

/-- The element with the least key; the first of those that tie. -/
def minBy {α : Type} (key : α → Nat) : List α → Option α
  | [] => none
  | a :: r => match minBy key r with
    | none => some a
    | some b => if key b < key a then some b else some a

/-- The n low bytes of a number, least significant first (little-endian, R111). -/
def toBytes : Nat → Nat → List Byte
  | 0, _ => []
  | n + 1, v => BitVec.ofNat 8 v :: toBytes n (v / 256)

/-- The number that little-endian bytes hold. -/
def ofBytes : List Byte → Nat
  | [] => 0
  | b :: r => b.toNat + 256 * ofBytes r

/-- The indices at which `f` holds, among 0 to n - 1, in rising order. -/
def idxs (n : Nat) (f : Nat → Bool) : List Nat := (List.range n).filter f

/-- A 128-bit mask with the given bits set. -/
def maskOf (l : List Nat) : BitVec 128 := BitVec.ofNat 128 (l.foldl (fun m t => m ||| 2 ^ t) 0)

/-- The set bits of a mask, in rising order. -/
def bitsOf {w : Nat} (m : BitVec w) (n : Nat) : List Nat := idxs n fun i => m.getLsbD i

/-! ### Tables of State -/

namespace State

def hand? (s : State) (t h : Nat) : Option Hand := s.hands.find? fun x => x.team == t && x.hix == h
def updHand (s : State) (t h : Nat) (f : Hand → Hand) : State :=
  { s with hands := s.hands.map fun x => if x.team == t && x.hix == h then f x else x }
def team? (s : State) (t : Nat) : Option Team := s.teams.find? fun x => x.id == t
def updTeam (s : State) (t : Nat) (f : Team → Team) : State :=
  { s with teams := s.teams.map fun x => if x.id == t then f x else x }
def launch? (s : State) (p h : Nat) : Option Launch := s.launches.find? fun x => x.part == p && x.handle == h
def updLaunch (s : State) (p h : Nat) (f : Launch → Launch) : State :=
  { s with launches := s.launches.map fun x => if x.part == p && x.handle == h then f x else x }
def queue? (s : State) (q : Nat) : Option Queue := s.queues.find? fun x => x.qid == q
def updQueue (s : State) (q : Nat) (f : Queue → Queue) : State :=
  { s with queues := s.queues.map fun x => if x.qid == q then f x else x }
/-- A core; one that is not listed is as after reset. -/
def core (s : State) (c : Nat) : Core := s.cores.get c {}
def updCore (s : State) (c : Nat) (f : Core → Core) : State :=
  { s with cores := s.cores.set c (f (s.core c)) {} }
/-- A partition; one that is not listed has nothing assigned. -/
def part (s : State) (p : Nat) : Part := s.parts.get p {}
def updPart (s : State) (p : Nat) (f : Part → Part) : State :=
  { s with parts := s.parts.set p (f (s.part p)) {} }
def die? (s : State) (d : Nat) : Option Die := s.dies[d]?
def updDie (s : State) (d : Nat) (f : Die → Die) : State := { s with dies := setAt s.dies d f }
def ctx? (s : State) (pasid : Nat) : Option Context := (s.contexts.find? fun x => x.1 == pasid).map (·.2)

/-- The hands of a team, in rising hix. -/
def handsOf (s : State) (t : Nat) : List Hand := s.hands.filter fun x => x.team == t
/-- The teams of a launch. -/
def teamsOf (s : State) (p h : Nat) : List Team := s.teams.filter fun x => x.part == p && x.launch == h
/-- Draw a fresh identifier. -/
def fresh (s : State) : Nat × State := (s.nextId, { s with nextId := s.nextId + 1 })

/-- Draw the next free value: the model goes on with bits that nothing constrains (DESIGN CHOICE, log 8). -/
def drawFree (s : State) : Nat × State := (s.freeCtr, { s with freeCtr := s.freeCtr + 1 })

end State

/-- Does the team hold resources of its core (R57)? -/
def Team.resident (t : Team) : Bool :=
  match t.st with
  | .placed | .running | .saving | .restoring => true
  | .saved | .gone => false

/-! ### Places (R7) -/

/-- The die of a package core. -/
def dieOf (c : Nat) : Nat := c / Config.coresPerDie
/-- The cluster (0-63) of a package core. -/
def clusterOf (c : Nat) : Nat := c / Config.coresPerCluster
/-- Is core `c` the partition's (R338)? -/
def Part.hasCore (p : Part) (c : Nat) : Bool := decide (c < Config.cores) && p.clusters.contains (clusterOf c)
/-- The dies that hold at least one of the partition's cores, rising. -/
def Part.dies (p : Part) : List Nat := idxs Config.dies fun d => p.clusters.any fun k => k / 8 == d

/-- Is the code address inside the partition's trap region (R33)? -/
def Part.inRegion (p : Part) (a : CodeAddr) : Bool := p.trapBase ≤ a.toNat && a.toNat < p.trapLimit

/-- The 128-byte line of a physical address. -/
def lineOf (pa : Nat) : Nat := pa / 128

end Sys2Proof.Machine
end

