-- ==== Sys2Proof/Machine/Memory.lean ====
section
/-! DEFINITION. Physical memory, the views that the dies hold of it (R115, R116), and the marks that writes leave
on melds (R144). -/

namespace Sys2Proof.Machine

/-- The canonical form of memory: addresses strictly rising, and no entry that equals what an unlisted address
reads as. -/
def Memory.wf (m : SMap Byte) : Bool := SMap.wf Config.memFill m

/-- R115: the first address above this package's HBM, 768 GiB. -/
def hbmEnd : Nat := 0xC000000000
/-- R361: the first host address, and the first peer address. -/
def hostBase : Nat := 0x4000000000000
def peerBase : Nat := 0x8000000000000
/-- The key of `mem` for byte 0 of the host's own physical memory, reached through the ATC (R368; DEDUCED, log 16). -/
def hostKey : Nat := 0x10000000000000

/-- R115: the die of an HBM address, PA[24:22]. -/
def paDie (pa : Nat) : Nat := pa / 0x400000 % 8
/-- R115: the channel within the die, PA[21:16]. -/
def paChan (pa : Nat) : Nat := pa / 0x10000 % 64
/-- R115: the home slice on its die. -/
def paSlice (pa : Nat) : Nat := paChan pa / 2
/-- R115: the row group. -/
def paRow (pa : Nat) : Nat := pa / 0x2000000

/-- Does the message change a byte of the run? -/
def WMsg.covers (m : WMsg) (pa n : Nat) : Bool := m.pa < pa + n && pa < m.pa + m.old.length
/-- The element-wise maximum of two vector clocks. -/
def joinClock (a b : List Nat) : List Nat := List.zipWith Nat.max a b
/-- R144: is the residency's recorded source touched? -/
def Resid.touched (r : Resid) (pa n : Nat) : Bool := r.spans.any fun q => q.1 < pa + n && pa < q.1 + q.2

namespace State

/-- One byte as the home holds it. -/
def byteAt (s : State) (pa : Nat) : Byte := s.mem.get pa Config.memFill
/-- `n` bytes as the home holds them. -/
def bytesAt (s : State) (pa n : Nat) : List Byte := s.mem.getRun Config.memFill pa n
/-- A little-endian 64-bit word at the home. -/
def wordAt (s : State) (pa : Nat) : Dword := BitVec.ofNat 64 (ofBytes (s.bytesAt pa 8))

/-- One byte in the view of die `d`: what it was before the earliest write that `d` has not applied (R116). (DEDUCED, log 5.) -/
def viewByte (s : State) (d pa : Nat) : Byte :=
  match s.die? d with
  | none => s.byteAt pa
  | some x =>
    match x.inbox.find? fun m => m.covers pa 1 with
    | none => s.byteAt pa
    | some m => m.old.getD (pa - m.pa) Config.memFill

/-- `n` bytes in the view of die `d`. -/
def viewBytes (s : State) (d pa n : Nat) : List Byte := (List.range n).map fun i => s.viewByte d (pa + i)

/-- Die `d` applies every write that waits there. -/
def flushInbox (s : State) (d : Nat) : State :=
  s.updDie d fun x => { x with clock := x.inbox.foldl (fun c m => joinClock c m.clock) x.clock, inbox := [] }

/-- Every die applies every write: the copies are invalidated before a strong write is performed (R116). -/
def flushAll (s : State) : State :=
  let top := s.dies.foldl (fun c x => joinClock c x.clock) [0, 0, 0, 0, 0, 0, 0, 0]
  { s with dies := s.dies.map fun x => { x with clock := top, inbox := [] } }

/-- The vector clock of die `d`. -/
def clockOf (s : State) (d : Nat) : List Nat := match s.die? d with | some x => x.clock | none => []

/-- R116: die `d` applies every waiting write that the clock counts. What one die writes into a slice of another, or reads
there, carries the writer's clock. (DEDUCED, log 5.) -/
def catchUp (s : State) (d : Nat) (ck : List Nat) : State :=
  s.updDie d fun x =>
    let due (m : WMsg) : Bool := decide (m.clock.getD m.src 0 ≤ ck.getD m.src 0)
    { x with
      clock := (x.inbox.filter due).foldl (fun c m => joinClock c m.clock) x.clock
      inbox := x.inbox.filter fun m => !due m }

/-- A hand of die `d` reads the slice of a core: it has then seen what that slice's die has seen. -/
def meetSlice (s : State) (d core : Nat) : State :=
  if dieOf core = d then s else s.catchUp d (s.clockOf (dieOf core))

/-- An agent of die `d` writes into the slice of a core. -/
def writeSlice (s : State) (d core off : Nat) (data : List Byte) : State :=
  let s := if dieOf core = d then s else s.catchUp (dieOf core) (s.clockOf d)
  s.updCore core fun x => { x with spad := x.spad.setRun 0 off data }

/-- R144: a write to a byte of a recorded source makes every residency of that meld stale. -/
def markStale (s : State) (pa n : Nat) : State :=
  let mark (r : Resid) : Resid := if r.touched pa n then { r with stale := true } else r
  { s with cores := s.cores.map fun e => (e.1, { e.2 with resid := e.2.resid.map mark }) }

/-- Store bytes at the home and mark melds (R154). -/
def poke (s : State) (pa : Nat) (data : List Byte) : State :=
  let s := s.markStale pa data.length
  { s with mem := s.mem.setRun Config.memFill pa data }

/-- R116: a plain write made on die `d`. It enters `d`'s view and the home, and is on its way to the other dies. -/
def writePlain (s : State) (d pa : Nat) (data : List Byte) : State :=
  let busy := match s.die? d with | none => false | some x => x.inbox.any fun m => m.covers pa data.length
  let s := if busy then s.flushInbox d else s
  let s := s.updDie d fun x => { x with clock := setAt x.clock d (· + 1) }
  let ck := match s.die? d with | none => [] | some x => x.clock
  let m : WMsg := ⟨d, ck, pa, s.bytesAt pa data.length⟩
  let s := { s with dies := s.dies.mapIdx fun i x => if i == d then x else { x with inbox := x.inbox ++ [m] } }
  s.poke pa data

/-- R116: a strong write at .d or wider, an atomic or a reduction, performed at the home. -/
def writeHome (s : State) (d pa : Nat) (data : List Byte) : State :=
  let s := s.flushAll
  let tick (x : Die) : Die := { x with clock := setAt x.clock d (· + 1) }
  let s := { s with dies := s.dies.map tick }
  s.poke pa data

/-- Does the run touch a line marked uncorrectable (R393)? -/
def poisoned (s : State) (pa n : Nat) : Bool :=
  s.poison.any fun l => l * 128 < pa + n && pa < l * 128 + 128

/-- Is no plane alive toward the package that holds this address (R354)? -/
def unreachable (s : State) (pa : Nat) : Bool :=
  decide (peerBase ≤ pa ∧ pa < hostKey) &&
    (List.range 18).all fun pl => s.deadPlanes.contains ((pa - peerBase) / 0x10000000000, pl)

end State

/-- A vector clock counts no write of another die that die `d` has not applied (R116). -/
def clockReady (mine : List Nat) (m : WMsg) : Bool :=
  (List.range Config.dies).all fun i =>
    let a := m.clock.getD i 0
    let b := mine.getD i 0
    if i = m.src then a ≤ b + 1 else a ≤ b

end Sys2Proof.Machine
end

