-- ==== Sys2Proof/Machine/Translate.lean ====
section
/-! DEFINITION. Address translation: contexts, walks, TLBs, the physical ranges, the stage map and the ATC
(R356 to R368), and the fetch of a code word (R294, R356, R365). -/

namespace Sys2Proof.Machine

/-- What a translation answers. `wait`: a host page whose ATS answer has not come (R368). -/
inductive Tr
  | ok (pa : Nat) (unc : Bool)
  | fail (cause : Nat) (w0 w1 : Dword)
  | wait
  deriving DecidableEq, Repr

/-- What a walk finds: the leaf, or the first bad entry. -/
inductive Walk
  | leaf (at_ tier : Nat) (e : Dword)
  | bad (reason tier : Nat) (e : Dword)
  deriving DecidableEq, Repr

/-- R365: the KIND code. -/
def kindCode : AccKind → Nat
  | .read => 0 | .write => 1 | .atomic => 2 | .fetch => 3

/-- R365: REASON 3 and 7 to 10 raise Protection, every other Translation. -/
def reasonCause (r : Nat) : Nat := if r = 3 ∨ 7 ≤ r then 9 else 8

/-- R365: the translation syndrome as a failure. -/
def syndrome (reason tier : Nat) (k : AccKind) (va : Nat) (e : Dword) : Tr :=
  .fail (reasonCause reason)
    (BitVec.ofNat 64 (reason * 2 ^ 60 + tier * 2 ^ 58 + kindCode k * 2 ^ 56 + va % 2 ^ 52)) e

/-- OUT of an entry, as an address. -/
def entOut (e : Dword) : Nat := fld e 51 12 * 4096
/-- LEAF. -/
def entLeaf (e : Dword) : Bool := bit e 1
/-- The bytes that one entry of a tier covers (R357). -/
def tierSpan (tier : Nat) : Nat := 2 ^ (16 + 9 * tier)
/-- The size of the page of a leaf (R358). -/
def pageSize (tier : Nat) (e : Dword) : Nat :=
  if tier = 1 then 2 ^ 30 else if fld e 57 56 = 1 then 2 ^ 21 else 2 ^ 16
/-- R359: the base of the page of the indexed leaf, before the check of its alignment. -/
def pageBase (tier : Nat) (e : Dword) (va : Nat) : Int :=
  if pageSize tier e = 2 ^ 16 then entOut e
  else (entOut e : Int) - ((va / tierSpan tier % 512 % 32 * tierSpan tier : Nat) : Int)

/-- R358, R359, R365: REASON 0, 1 or 2 of the entry read at a tier. -/
def entryBad (tier : Nat) (e : Dword) (va : Nat) : Option Nat :=
  if !bit e 0 then some 0
  else if fld e 63 58 ≠ 0 ∨ fld e 55 52 ≠ 0 ∨ bit e 11 ∨ bit e 8 ∨ 2 ≤ fld e 10 9 then some 1
  else if entLeaf e then
    if 2 ≤ tier ∨ fld e 15 12 ≠ 0 then some 1
    else if tier = 1 ∧ fld e 57 56 ≠ 2 then some 2
    else if tier = 0 ∧ 2 ≤ fld e 57 56 then some 2
    else if pageBase tier e va % (pageSize tier e : Int) ≠ 0 ∨ pageBase tier e va < 0 then some 2
    else none
  else
    if tier = 0 ∨ fld e 7 2 ≠ 0 ∨ fld e 10 9 ≠ 0 then some 1
    else if fld e 57 56 ≠ 0 then some 2 else none

/-- R357: where the entry of a tier stands that `va` indexes in the table at `tab`. -/
def entryAt (va tier tab : Nat) : Nat := tab + va / tierSpan tier % 512 * 8

/-- R357: the walk from the table at `tab`, down from `tier`; `get` reads the entry of a tier at an address. -/
def walkBy (get : Nat → Nat → Dword) (va : Nat) : Nat → Nat → Walk
  | tier, tab =>
    let e := get tier (entryAt va tier tab)
    match entryBad tier e va with
    | some r => .bad r tier e
    | none =>
      if entLeaf e then .leaf (entryAt va tier tab) tier e
      else match tier with
        | 0 => .bad 1 0 e
        | t + 1 => walkBy get va t (entOut e)

/-- R357: the walk of the tables as memory holds them. -/
def State.walkFrom (s : State) (va : Nat) : Nat → Nat → Walk := walkBy (fun _ ea => s.wordAt ea) va

/-- R363: an entry as a die's walkers see it: from their cache, else from memory. (DEDUCED, log 13.) -/
def State.walkWord (s : State) (die pasid va tier ea : Nat) : Dword :=
  match (s.die? die).bind fun d => d.walks.find? fun x => x.pasid == pasid && x.tier == tier && x.idx == va / tierSpan tier with
  | some x => x.e
  | none => s.wordAt ea

/-- The entries of tiers 3 to 1 that name the tables of a walk (R363). -/
def walkUsed (get : Nat → Nat → Dword) (pasid va : Nat) : Nat → Nat → List WalkEnt
  | 0, _ => []
  | t + 1, tab =>
    let e := get (t + 1) (entryAt va (t + 1) tab)
    if entLeaf e then [] else walkUsed get pasid va t (entOut e) ++ [⟨pasid, t + 1, va / tierSpan (t + 1), e⟩]

/-- R358: the permission that the access lacks, if any (REASON 7, 8, 9, then 10). -/
def permBad (perm : BitVec 8) (k : AccKind) (privT : Bool) : Option Nat :=
  let r := perm.getLsbD 2
  let w := perm.getLsbD 3
  let lack := match k with
    | .read => if r then none else some 7
    | .write => if w then none else some 8
    | .atomic => if !r then some 7 else if !w then some 8 else none
    | .fetch => if perm.getLsbD 4 then none else some 9
  match lack with
  | some x => some x
  | none => if privT || perm.getLsbD 5 then none else some 10

/-- What the physical range and the stage map say of an address (R361, R362, R368): its key in memory, a REASON,
or an ATS answer that is still to come. -/
inductive Reach
  | key (pa : Nat)
  | bad (reason : Nat)
  | wait
  deriving DecidableEq, Repr

/-- R362: may partition `p` use this page of HBM? -/
def State.stageOk (s : State) (p pa : Nat) : Bool := (s.stageMap.get (pa / 65536) 0#16).getLsbD p

/-- R361, R362, R368. The package's own id reaches its own HBM. Without a host a translation is never completed (R351). -/
def State.reach (s : State) (p hpasid pa : Nat) : Reach :=
  if pa < hbmEnd then (if s.stageOk p pa then .key pa else .bad 3)
  else if hostBase ≤ pa ∧ pa < peerBase then
    match s.atc.find? fun e => e.1 == hpasid && e.2.1 == (pa - hostBase) / 4096 with
    | none => if s.host then .wait else .bad 4
    | some (_, _, none) => .bad 4
    | some (_, _, some out) => .key (hostKey + out * 4096 + pa % 4096)
  else if peerBase ≤ pa ∧ (pa - peerBase) / 2 ^ 40 < 192 ∧ (pa - peerBase) % 2 ^ 40 < hbmEnd then
    let id := (pa - peerBase) / 2 ^ 40
    let o := (pa - peerBase) % 2 ^ 40
    if id = s.pkgId then (if s.stageOk p o then .key o else .bad 3)
    else if (s.part p).peers.getLsbD id then .key pa else .bad 3
  else .bad 6

/-- The write-back of A, and of D for a write or an atomic, by an ATOMC at .s on the leaf (R360). -/
def State.setAD (s : State) (at_ : Nat) (e : Dword) (k : AccKind) : Dword × State :=
  let d := match k with | .write | .atomic => true | .read | .fetch => false
  let e' := e ||| 0x40#64 ||| (if d then 0x80#64 else 0#64)
  (e', if e' = e then s else s.writeHome (paDie at_) at_ (toBytes 8 e'.toNat))

/-- The TLB entry of a leaf (R363). -/
def tlbOf (pasid tier va : Nat) (e : Dword) : Tlb :=
  { pasid, vbase := va / pageSize tier e * pageSize tier e, size := pageSize tier e,
    pbase := (pageBase tier e va).toNat, perm := BitVec.ofNat 8 (fld e 7 0), uncached := fld e 10 9 == 1 }

/-- Keep the newest `n` translations, the new one first; an older one of the same page goes. (DEDUCED, log 13.) -/
def tlbAdd (n : Nat) (x : Tlb) (l : List Tlb) : List Tlb :=
  (x :: l.filter fun y => !(y.pasid == x.pasid && y.vbase == x.vbase && y.size == x.size)).take n

/-- The set of a die's TLB that a translation falls in. -/
def Tlb.set (x : Tlb) : Fin 1024 := Config.tlbSet x.pasid x.vbase x.size

/-- R363: a translation enters a die's TLB: a ninth of its set pushes the oldest of the set out. (DEDUCED, log 13.) -/
def dieTlbAdd (x : Tlb) (l : List Tlb) : List Tlb :=
  if l.length < Config.dieTlbWays then tlbAdd Config.dieTlbEntries x l
  else
    let l := tlbAdd Config.dieTlbEntries x l
    let mine := l.filter fun y => y.set == x.set
    if mine.length ≤ Config.dieTlbWays then l else
    match mine.getLast? with
    | some y => l.erase y
    | none => l

/-- A walk of a die fills its TLB, and its walkers keep the entries they went through, the newest 512 (R363). (DEDUCED, log 13.) -/
def Die.keepWalk (d : Die) (x : Tlb) (used : List WalkEnt) : Die :=
  { d with
    tlb := dieTlbAdd x d.tlb
    walks := (used ++ d.walks.filter fun y => !used.any fun z => z.pasid == y.pasid && z.tier == y.tier && z.idx == y.idx).take
      Config.walkEntries }

/-- The walk of a context, without TLBs: R365's order; `get` reads the entries. The second component is the leaf's TLB entry. -/
def State.walkVaBy (s : State) (get : Nat → Nat → Dword) (pasid va : Nat) (k : AccKind) (privT : Bool) : (Tr × Option Tlb) × State :=
  match s.ctx? pasid with
  | none => ((syndrome 5 0 k va 0, none), s)
  | some c =>
    if c.dead || !c.valid then ((syndrome 5 0 k va 0, none), s)
    else match walkBy get va 3 c.root with
      | .bad r tier e => ((syndrome r tier k va e, none), s)
      | .leaf at_ tier e =>
        match permBad (BitVec.ofNat 8 (fld e 7 0)) k privT with
        | some r => ((syndrome r tier k va e, none), s)
        | none =>
          match s.reach c.part c.hpasid ((pageBase tier e va).toNat + va % pageSize tier e) with
          | .bad r => ((syndrome r tier k va e, none), s)
          | .wait => ((.wait, none), s)
          | .key pa =>
            let (e', s) := s.setAD at_ e k
            ((.ok pa (fld e 10 9 == 1), some (tlbOf pasid tier va e')), s)

/-- The walk of a context through the tables as memory holds them: by the front end, and at a home. -/
def State.walkVa (s : State) (pasid va : Nat) (k : AccKind) (privT : Bool) : (Tr × Option Tlb) × State :=
  s.walkVaBy (fun _ ea => s.wordAt ea) pasid va k privT

/-- The walk of a context by the walkers of a die, which keep what they read (R363, R364). -/
def State.walkDie (s : State) (die pasid va : Nat) (k : AccKind) (privT : Bool) : (Tr × Option Tlb) × State :=
  let get := s.walkWord die pasid va
  let used := match s.ctx? pasid with | some c => walkUsed get pasid va 3 c.root | none => []
  match s.walkVaBy get pasid va k privT with
  | ((r, some x), s) => ((r, some x), s.updDie die fun d => d.keepWalk x used)
  | r => r

/-- A hit in a list of translations that may serve the access: R363, and R360 for D = 0. -/
def State.tlbHit (s : State) (l : List Tlb) (pasid va : Nat) (k : AccKind) (privT : Bool) : Option (Nat × Tlb) :=
  match l.find? fun x => x.pasid == pasid && decide (x.vbase ≤ va ∧ va < x.vbase + x.size) with
  | none => none
  | some x =>
    let dOk := match k with | .write | .atomic => x.perm.getLsbD 7 | .read | .fetch => true
    if !dOk || (permBad x.perm k privT).isSome then none
    else match s.ctx? pasid with
      | none => none
      | some c =>
        if c.dead || !c.valid then none
        else match s.reach c.part c.hpasid (x.pbase + (va - x.vbase)) with
          | .key pa => some (pa, x)
          | _ => none

/-- Translate for an access from a core (R363 to R365): the core's L1 TLB, the die's TLB, then a walk. -/
def State.translate (s : State) (core pasid : Nat) (va : Nat) (k : AccKind) (privT : Bool) : Tr × State :=
  match s.tlbHit (s.core core).tlb pasid va k privT with
  | some (pa, x) => (.ok pa x.uncached, s)
  | none =>
    let l1 (x : Tlb) (s : State) : State :=
      s.updCore core fun c => { c with tlb := tlbAdd Config.tlbEntries x c.tlb }
    let dieTlb := match s.die? (dieOf core) with | none => [] | some d => d.tlb
    match s.tlbHit dieTlb pasid va k privT with
    | some (pa, x) => (.ok pa x.uncached, l1 x s)
    | none =>
      match s.walkDie (dieOf core) pasid va k privT with
      | ((r, none), s) => (r, s)
      | ((r, some x), s) => (r, l1 x s)

/-- R111: a 64-bit address operand whose bits [63:52] are not zero raises Translation before any walk. -/
def State.translateOpnd (s : State) (core pasid : Nat) (va : Nat) (k : AccKind) (privT : Bool) : Tr × State :=
  if 2 ^ 52 ≤ va then (.fail 8 0 0, s) else s.translate core pasid va k privT

/-- What a fetch answers. -/
inductive Fetch
  | word (w : Dword)
  | fail (cause : Nat) (w0 w1 : Dword)
  | wait
  deriving DecidableEq, Repr

/-- R294: invalidate the words A to A + B - 1, modulo 2^30, of a partition's code space. -/
def State.dropCode (s : State) (p first count : Nat) : State :=
  let out (e : Nat × Nat × CodeAddr × Dword) : Bool := e.1 == p && decide ((e.2.2.1.toNat + 2 ^ 30 - first % 2 ^ 30) % 2 ^ 30 < count)
  { s with cores := s.cores.map fun c => (c.1, { c.2 with icache := c.2.icache.filter fun e => !out e }) }

/-- R294: what the caches hold of a code word: the core's own, or that of another core of its cluster. -/
def State.cached (s : State) (core part pasid : Nat) (a : CodeAddr) : Option Dword × Option Dword :=
  let look (c : Core) : Option Dword :=
    (c.icache.find? fun e => e.1 == part && e.2.1 == pasid && e.2.2.1 == a).map (·.2.2.2)
  (look (s.core core), s.cores.findSome? fun c => if clusterOf c.1 = clusterOf core then look c.2 else none)

/-- R356, R365: fetch code word `a` in the core's context at a privilege, from the die's view, or from the home when the
page is uncached (R358). R294: where the word differs from one that the core or its cluster has fetched there, with no ICINV
since, either may be seen (DESIGN CHOICE, log 8). -/
def State.fetch (s : State) (core pasid part : Nat) (a : CodeAddr) (privT : Bool) : Fetch × State :=
  match s.ctx? pasid with
  | none => match syndrome 5 0 .fetch (8 * a.toNat) 0 with
    | .fail c w0 w1 => (.fail c w0 w1, s)
    | _ => (.wait, s)
  | some cx =>
    match s.translate core pasid ((cx.code.toNat + 8 * a.toNat) % 2 ^ 52) .fetch privT with
    | (.fail c w0 w1, s) => (.fail c w0 w1, s)
    | (.wait, s) => (.wait, s)
    | (.ok pa unc, s) =>
      if s.poisoned pa 8 || s.unreachable pa then (.fail 0x1A 0 0, s)
      else
      let s := if unc then s.flushInbox (dieOf core) else s
      let w := BitVec.ofNat 64 (ofBytes (s.viewBytes (dieOf core) pa 8))
      let keep (w : Dword) (s : State) : State := s.updCore core fun c =>
        { c with icache := (part, pasid, a, w) :: c.icache.filter fun e => !(e.1 == part && e.2.1 == pasid && e.2.2.1 == a) }
      let (own, near) := s.cached core part pasid a
      let known (w : Dword) (s : State) : State := if own.isSome then s else keep w s
      match own <|> near with
      | none => (.word w, keep w s)
      | some old =>
        if old = w then (.word w, known w s)
        else
          let (n, s) := s.drawFree
          if Config.freeBit n 0 then (.word old, known old s) else (.word w, keep w s)

end Sys2Proof.Machine
end

