-- ==== Sys2Proof/Machine/Ops.lean ====
section
/-! DEFINITION. Threads and hands: the checks of a wanted address (R18), taking an exception (R371 to R377) and
returning from one (R224, R374), window slides (R72), unparking (R29, R277), failing a launch (R382), and the
frame in which an instruction issues and advances (R22, R36, R89). -/

namespace Sys2Proof.Machine

/-! ### Threads of a hand -/

namespace Hand

def thr? (hd : Hand) (t : Nat) : Option Thread := hd.threads[t]?
/-- A thread; one beyond the extent is retired (R45; DEDUCED, log 9). -/
def thr (hd : Hand) (t : Nat) : Thread := (hd.threads[t]?).getD { st := .retired }
def updThr (hd : Hand) (t : Nat) (f : Thread → Thread) : Hand := { hd with threads := setAt hd.threads t f }
/-- Clear bits of the active set (R22). -/
def leave (hd : Hand) (t : Nat) : Hand := { hd with act := hd.act &&& ~~~(maskOf [t]) }
/-- The active threads, ascending. -/
def actives (hd : Hand) : List Nat := bitsOf hd.act 128
/-- The privilege of the visit: T inside the trap region (R407). -/
def privT (hd : Hand) : Bool := hd.inTrap
/-- The next header, B + 1 + LEN (R17), a word address of R18 and so modulo 2^30, as are those of the body words (DESIGN CHOICE, log 67). -/
def nextHdr (hd : Hand) : CodeAddr := hd.pos + 1 + BitVec.ofNat 30 hd.blen
/-- Is some unretired thread at trap level (R35)? -/
def trump (hd : Hand) : Bool := hd.threads.any fun t => t.st != .retired && t.tl

end Hand

/-- R277: a barrier-held thread parks at the first moment at which it is unparked and outside the active set. -/
def Hand.parkHeld (hd : Hand) : Hand :=
  { hd with threads := hd.threads.mapIdx fun i t => match t.bheld with
      | [] => t
      | a :: _ => if t.st == .unparked && !hd.act.getLsbD i then { t with st := .parked, wait := .heldArr a } else t }

/-- R29: between two states of a hand, does a thread unpark, or the service of a fault-parked thread end? -/
def Hand.wakes (old hd : Hand) : Bool :=
  (List.zip old.threads hd.threads).any fun x => x.1.st != x.2.st && (x.2.st == .unparked || x.1.st == .faultParked)

/-- R29: what a change of its threads makes of a hand that was `old`: held threads park (R277), and a parked hand unparks when one
of its threads does, or when a fault service ends; it then makes a choice. -/
def Hand.settle (old hd : Hand) : Hand :=
  let hd := hd.parkHeld
  if hd.phase == .parked && old.wakes hd then { hd with phase := .boundary, how := .unparked } else hd

/-- R24, R30: the thread's wait is over. -/
def Hand.unpark (hd : Hand) (t : Nat) : Hand :=
  hd.settle (hd.updThr t fun x => if x.st == .parked || x.st == .faultParked then { x with st := .unparked, wait := .none }
    else x)

/-- R89: the switch marker holds the hand while long results are pending; it ends with the last of them. -/
def Hand.unmark (hd : Hand) : Hand := { hd with sw := hd.sw && !hd.pend.isEmpty }

/-- R218: the thread retires; its pending results are discarded (R91). It is no longer at trap level: its thread word
has TL = 0 (R39; DESIGN CHOICE, log 61). -/
def Hand.retire (hd : Hand) (t : Nat) : Hand :=
  let mine (d : Dst) : Bool := match d with
    | .ent t' _ | .xreg t' _ | .pred t' _ | .frame t' _ _ _ => t' == t
    | _ => false
  let hd := (hd.leave t).updThr t fun x => { x with st := .retired, tl := false, wait := .none, bheld := [] }
  ({ hd with pend := hd.pend.filter fun p => !mine p.dst }).unmark

/-! ### Teams and launches -/

/-- The launch's PASID. -/
def State.pasidOf (s : State) (tm : Team) : Nat :=
  match s.launch? tm.part tm.launch with | some l => l.pasid | none => 0

/-- Has the launch failed, so that its parts stop (R382)? -/
def LaunchSt.dead : LaunchSt → Bool
  | .failing | .failed | .ended | .endedFailed | .saved => true
  | .pending | .live => false

def State.launchDead (s : State) (p h : Nat) : Bool :=
  match s.launch? p h with | some l => l.st.dead | none => true

/-- Is D mode on (R66, R67)? -/
def Launch.dmode (l : Launch) : Nat := fld l.record.w0 31 30
def State.dmode (s : State) (tm : Team) : Nat :=
  match s.launch? tm.part tm.launch with | some l => l.dmode | none => 0

/-- Give a record to the hub, which keeps it in order until the ring has room (R375). -/
def State.giveRecord (s : State) (p : Nat) (r : RingRec) : Nat × State :=
  let n := (s.part p).seqNext
  let r := { r with w2 := (r.w2 &&& 0xFFFFFFFF00000000#64) ||| n.setWidth 64 }
  (n.toNat, s.updPart p fun x =>
    { x with seqNext := n + 1, ringWait := x.ringWait ++ [r], ringLog := x.ringLog ++ [r] })

/-- The fields of a fault record (R375), for `mkRecord`. -/
structure RecArgs where
  cause : Nat
  cls : Nat
  core : Nat := 0
  hix : Nat := 0
  tl : Bool := false
  addr : CodeAddr := 0
  lid : Dword := 0
  launch : Nat := 0
  mask : BitVec 128 := 0
  rwa : CodeAddr := 0
  label : BitVec 12 := 0
  d0 : Dword := 0
  d1 : Dword := 0

/-- R375: the eight words of a record; SEQ is filled in by the hub. -/
def mkRecord (a : RecArgs) : RingRec :=
  { w0 := BitVec.ofNat 64 (a.cause * 2 ^ 56 + a.core * 2 ^ 47 + a.hix * 2 ^ 41 + a.cls * 2 ^ 38 +
      (if a.tl then 2 ^ 37 else 0) + a.addr.toNat)
    w1 := a.lid
    w2 := BitVec.ofNat 64 (a.launch * 2 ^ 32)
    w3 := a.mask.extractLsb' 0 64
    w4 := a.mask.extractLsb' 64 64
    w5 := BitVec.ofNat 64 (a.rwa.toNat * 2 ^ 34 + a.label.toNat * 2 ^ 22)
    w6 := a.d0
    w7 := a.d1 }

/-- R382 step 1: the first launch-class or imprecise record is the launch's fault record; later ones append
nothing. The sweep that follows is LAUNCH_FAIL's. -/
def State.failLaunch (s : State) (p h : Nat) (a : RecArgs) : State :=
  match s.launch? p h with
  | none => s
  | some l =>
    if l.st.dead then s
    else
      let (n, s) := s.giveRecord p (mkRecord { a with launch := h })
      s.updLaunch p h fun l => { l with st := .failing, cause := a.cause, fseq := n }

/-! ### Claims on accumulator banks (R160) -/

/-- A waiting ACLM of a hand: its threads, its banks, and the order in which it issued. -/
structure ClaimWait where
  hix : Nat
  order : Nat
  first : Nat
  count : Nat
  tids : List Nat
  deriving DecidableEq, Repr

/-- The waiting ACLM that thread `t` is the lowest thread of. -/
def Hand.claimWait (hd : Hand) (t : Nat) : List ClaimWait :=
  match (hd.thr t).wait with
  | .aclm first count order =>
    let same (u : Nat) : Bool := (hd.thr u).wait == .aclm first count order
    let ts := idxs hd.threads.length same
    if ts.head? == some t then [⟨hd.hix, order, first, count, ts⟩] else []
  | _ => []

/-- The banks of a claim, free or held by the claiming hand. -/
def Team.claimable (t : Team) (hix first count : Nat) : Bool :=
  (List.range count).all fun j => let c := t.claims.get (first + j) 0; c == 0 || c == hix + 1

/-- Grant one waiting claim when its banks allow; its threads unpark. -/
def State.tryClaim (s : State) (team : Nat) (w : ClaimWait) : State :=
  match s.team? team with
  | none => s
  | some tm =>
    if !tm.claimable w.hix w.first w.count then s
    else
      let s := s.updTeam team fun t =>
        { t with claims := t.claims.setRun 0 w.first (List.replicate w.count (w.hix + 1)) }
      s.updHand team w.hix fun hd => w.tids.foldl Hand.unpark hd

/-- At each release, the waiting claims are examined in the order of their issue. -/
def State.grantClaims (s : State) (team : Nat) : State :=
  let ws := (s.handsOf team).flatMap fun hd => (List.range hd.threads.length).flatMap hd.claimWait
  (sortBy (fun (a b : ClaimWait) => a.order ≤ b.order) ws).foldl (fun s w => s.tryClaim team w) s

/-- The claims of a hand are released when it retires. -/
def State.dropClaims (s : State) (team hix : Nat) : State :=
  match s.team? team with
  | none => s
  | some tm =>
    if tm.claims.all fun c => c.2 != hix + 1 then s
    else (s.updTeam team fun t => { t with claims := t.claims.filter fun c => c.2 != hix + 1 }).grantClaims team

/-! ### Taking an exception -/

/-- A fault of one thread: its cause, the 128 bits of DETAIL and ARG (R373). -/
structure Flt where
  cause : Nat
  d0 : Dword := 0
  d1 : Dword := 0
  arg : Word := 0
  deriving DecidableEq, Repr

/-- A launch-class failure that concerns no hand, or a write of the front end that fails (R381). -/
def State.failL (s : State) (p h : Nat) (f : Flt) : State :=
  s.failLaunch p h { cause := f.cause, cls := if f.cause = 0x1B then 5 else 6, d0 := f.d0, d1 := f.d1 }

/-- R371: the class of a cause that threads raise. -/
def classOf (cause : Nat) : Nat :=
  if cause = 5 ∨ cause = 6 then 2 else if cause = 0x17 then 3 else if cause = 0x18 then 4
  else if cause = 0x19 then 0 else if cause = 0x1B then 5 else if cause = 0x16 then 6 else 1

/-- R371: the return wanted address. A restart-class fault at trap level returns to the header that the thread visits;
a thread that visits none keeps its WA (R213). -/
def Hand.rwa (hd : Hand) (t cause : Nat) : CodeAddr :=
  let th := hd.thr t
  match classOf cause with
  | 1 => if th.tl then (if hd.inTrap && hd.act.getLsbD t then hd.pos else th.wa) else th.re
  | 0 | 4 => hd.nextHdr
  | _ => th.wa

/-- R372: the handler of a cause, when the vector entry delivers it in the hand. -/
def Part.handler (p : Part) (cause : Nat) : Option CodeAddr :=
  let v := p.vectors.get cause 0
  if bit v 63 then some (v.extractLsb' 0 30) else none

/-- R373: in-hand delivery to one thread. For Timer, ADDR is RWA. -/
def Hand.enterTrap (hd : Hand) (t : Nat) (addr handler : CodeAddr) (f : Flt) : Hand :=
  let r := hd.rwa t f.cause
  let a := if f.cause = 0x17 then r else addr
  let xs := [BitVec.ofNat 32 (classOf f.cause * 256 + f.cause), r.setWidth 32, a.setWidth 32, f.arg,
    lo32 f.d0, hi32 f.d0, lo32 f.d1, hi32 f.d1]
  (hd.leave t).updThr t fun x =>
    { x with tl := true, wa := handler, st := .unparked, wait := .none, x := SMap.setRun 0 x.x 0 xs }

/-- A group of R375: threads with one cause, one RWA, one DETAIL, one address and one level. -/
structure FGroup where
  cause : Nat
  addr : CodeAddr
  rwa : CodeAddr
  d0 : Dword
  d1 : Dword
  tl : Bool
  tids : List Nat
  deriving DecidableEq, Repr

/-- Add a thread to its group; the groups stay in ascending order of their lowest tid. -/
def groupAdd (g : FGroup) : List FGroup → List FGroup
  | [] => [g]
  | y :: r =>
    if y.cause = g.cause ∧ y.addr = g.addr ∧ y.rwa = g.rwa ∧ y.d0 = g.d0 ∧ y.d1 = g.d1 ∧ y.tl = g.tl then
      { y with tids := y.tids ++ g.tids } :: r
    else y :: groupAdd g r

/-- R375: the groups of an instruction's faulting threads, in ascending cause order. -/
def faultGroups (hd : Hand) (fs : List (Nat × CodeAddr × Flt)) : List FGroup :=
  let gs := fs.foldl (fun l (t, a, f) =>
    groupAdd ⟨f.cause, a, hd.rwa t f.cause, f.d0, f.d1, (hd.thr t).tl, [t]⟩ l) []
  sortBy (fun a b => a.cause ≤ b.cause) gs

/-- R375: kernel-path delivery to one group. R372: a window trap from privilege U without an in-hand entry
fails the launch with that cause. (DEDUCED, log 34.) -/
def State.kernelPath (s : State) (tm : Team) (h : Nat) (label : BitVec 12) (g : FGroup) : State :=
  let a : RecArgs := {
    cause := g.cause, cls := classOf g.cause, core := tm.core, hix := h, tl := g.tl, addr := g.addr,
    lid := tm.lid, launch := tm.launch, mask := maskOf g.tids, rwa := g.rwa, label, d0 := g.d0, d1 := g.d1 }
  let window := (g.cause == 5 || g.cause == 6) && !g.tl
  let (n, s) := if window then (0, s.failLaunch tm.part tm.launch { a with cls := 6, rwa := 0, label := 0 })
    else s.giveRecord tm.part (mkRecord a)
  s.updHand tm.id h fun hd => g.tids.foldl (fun hd t =>
    (hd.leave t).updThr t fun x => { x with st := .faultParked, wa := g.rwa, wait := .fault n }) hd

/-- TAKING AN EXCEPTION (R371 to R377, R33): the faulting threads of one hand, in ascending tid, each with the code address of
its faulting word or header, and its fault. Threads at privilege U with an in-hand vector entry enter the trap region;
every other takes the kernel path. -/
def State.takeFaultsAt (s : State) (t h : Nat) (fs : List (Nat × CodeAddr × Flt)) : State :=
  match s.team? t, s.hand? t h with
  | some tm, some hd =>
    let p := s.part tm.part
    let inHand (x : Nat × CodeAddr × Flt) : Bool := !(hd.thr x.1).tl && (p.handler x.2.2.cause).isSome
    let s := s.updHand t h fun hd => (fs.filter inHand).foldl (fun hd x =>
      match p.handler x.2.2.cause with
      | some a => hd.enterTrap x.1 x.2.1 a x.2.2
      | none => hd) hd
    let s := (faultGroups hd (fs.filter fun x => !inHand x)).foldl (fun s g => s.kernelPath tm h hd.label g) s
    s.updHand t h (Hand.settle hd)
  | _, _ => s

/-- Taking the exceptions of one instruction, whose code address is `addr`. -/
def State.takeFaults (s : State) (t h : Nat) (addr : CodeAddr) (fs : List (Nat × Flt)) : State :=
  s.takeFaultsAt t h (fs.map fun x => (x.1, addr, x.2))

/-! ### Wanted addresses -/

/-- The result of a check or of one thread's part in an instruction. `wait`: it cannot be made yet. -/
inductive Res
  | done
  | flt (f : Flt)
  | wait
  deriving DecidableEq, Repr

/-- R18: the checks of a new wanted address at a privilege: region, fetch, header. -/
def State.checkWa (s : State) (tm : Team) (privT : Bool) (a : CodeAddr) : Res × State :=
  let inside := (s.part tm.part).inRegion a
  if inside != privT then (.flt { cause := 9 }, s)
  else match s.fetch tm.core (s.pasidOf tm) tm.part a privT with
    | (.word w, s) => (if fld w 63 56 = 1 then .done else .flt { cause := 1 }, s)
    | (.fail c d0 d1, s) => (.flt { cause := c, d0, d1 }, s)
    | (.wait, s) => (.wait, s)

/-- R18, R22: set a thread's wanted address, checked at the thread's level, and take it out of the active set. -/
def State.goTo (s : State) (tm : Team) (h t : Nat) (a : CodeAddr) : Res × State :=
  match s.hand? tm.id h with
  | none => (.done, s)
  | some hd =>
    match s.checkWa tm (hd.thr t).tl a with
    | (.done, s) => (.done, s.updHand tm.id h fun hd => (hd.leave t).updThr t fun x => { x with wa := a })
    | r => r

/-- R30: the thread leaves the active set and parks; its continuation has been checked. -/
def Hand.park (hd : Hand) (t : Nat) (cont : CodeAddr) (w : Wait) : Hand :=
  (hd.leave t).updThr t fun x => { x with wa := cont, st := .parked, wait := w }

/-- R30: park a thread with a checked continuation. -/
def State.parkAt (s : State) (tm : Team) (h t : Nat) (cont : CodeAddr) (w : Wait) : Res × State :=
  match s.goTo tm h t cont with
  | (.done, s) => (.done, s.updHand tm.id h fun hd => hd.updThr t fun x => { x with st := .parked, wait := w })
  | r => r

/-! ### The register window -/

/-- R72 SlideWindow: the new base, or the cause of the trap. -/
def Thread.slide (x : Thread) (depth : Nat) (n : Int) : Except Nat Nat :=
  let wb := (x.wb : Int) + n
  if 0 < n ∧ (wb + 32 > x.lo + depth ∨ wb + 32 > 2 ^ 24) then .error 5
  else if n < 0 ∧ wb < x.lo then .error 6
  else .ok wb.toNat

/-- Is entry `i` of the register stack resident (R71)? -/
def Thread.resident (x : Thread) (depth i : Nat) : Bool := decide (x.lo ≤ i ∧ i < x.lo + depth)

/-- Write an entry of the register stack. -/
def Thread.setEnt (x : Thread) (i : Nat) (v : Word) : Thread := { x with stack := x.stack.set i v 0 }

/-- R31, R32, R216: slide, write g30 when `link` is given to write, then go to the target. A window trap writes
nothing; its record holds the slide, the link word, the target and the kind (R73, R373). At trap level the g30 of
the new window may lie outside the resident entries: its write is discarded and sets `hs.nr` (R74). (DEDUCED, log 35.) -/
def State.transfer (s : State) (tm : Team) (h t : Nat) (n : Int) (link : Word) (target : CodeAddr) (kind : Dword) :
    Res × State :=
  match s.hand? tm.id h with
  | none => (.done, s)
  | some hd =>
    match (hd.thr t).slide tm.depth n with
    | .error c => (.flt { cause := c, arg := BitVec.ofInt 32 n, d0 := pair64 (target.setWidth 32) link, d1 := kind }, s)
    | .ok wb =>
      let out := kind != 0 && !(hd.thr t).resident tm.depth (wb + 30)
      let s := s.updHand tm.id h fun hd =>
        let hd := if out then { hd with hs := hd.hs ||| 2#32 } else hd
        hd.updThr t fun x =>
          let x := { x with wb }
          if kind == 0 || out then x else x.setEnt (wb + 30) link
      s.goTo tm h t target

/-! ### Returning from an exception -/

/-- R72: the cause of a window trap of slide `n`. -/
def windowCause (n : Word) : Nat := if n.toInt < 0 then 6 else 5

/-- RETURN FROM AN EXCEPTION (R224, R374, R73): one thread at trap level restores WA and level from its trap
record x0 to x7. A window transfer that now fits is completed as its CALL or RET would have been: the window slides and
g30 is written before the target is checked. One that does not fit is taken again at once, with its record as it stands
but for the cause, which the slide decides (R72). (DEDUCED, logs 31 and 35.) -/
def State.returnTrap (s : State) (tm : Team) (h t : Nat) : Res × State :=
  match s.hand? tm.id h with
  | none => (.done, s)
  | some hd =>
    let th := hd.thr t
    let xr (i : Nat) : Word := th.x.get i 0
    let cls := fld (xr 0) 10 8
    if cls = 0 ∨ 5 ≤ cls ∨ (cls = 2 ∧ 2 < (xr 6).toNat) then (.flt { cause := 1 }, s)
    else
      let low (s : State) (f : Thread → Thread) (a : CodeAddr) : State :=
        s.updHand tm.id h fun hd => (hd.leave t).updThr t fun x => { f x with tl := false, wa := a }
      if cls = 2 then
        let wb := (th.wb : Int) + (xr 3).toInt
        if wb < th.lo ∨ th.lo + tm.depth < wb + 32 ∨ 2 ^ 24 < wb + 32 then
          let cause := windowCause (xr 3)
          match (s.part tm.part).handler cause with
          | some a => (.done, s.updHand tm.id h fun hd => (hd.leave t).updThr t fun x =>
              { x with wa := a, x := x.x.set 0 (BitVec.ofNat 32 (2 * 256 + cause)) 0 })
          | none =>
            let a : RecArgs := {
              cause, cls := 6, core := tm.core, hix := h, lid := tm.lid, mask := maskOf [t],
              addr := (xr 2).extractLsb' 0 30 }
            (.done, (s.updHand tm.id h fun hd => hd.leave t).failLaunch tm.part tm.launch a)
        else
          let slid (x : Thread) : Thread :=
            let x := { x with wb := wb.toNat }
            if xr 6 = 0 then x else x.setEnt (x.wb + 30) (xr 4)
          match s.checkWa tm false ((xr 5).extractLsb' 0 30) with
          | (.done, s) => (.done, low s slid ((xr 5).extractLsb' 0 30))
          | (.flt f, s) => (.flt f, s.updHand tm.id h fun hd => hd.updThr t slid)
          | r => r
      else match s.checkWa tm false ((xr 1).extractLsb' 0 30) with
        | (.done, s) => (.done, low s id ((xr 1).extractLsb' 0 30))
        | r => r

/-! ### Issuing and advancing -/

/-- Nothing of the word issues: it is tried again (R36 'not ready'). -/
def State.stall (s : State) : Out := .next { s with cur := none }

/-- The parts of an issuing instruction. -/
structure Iss where
  c : Cur
  tm : Team
  hd : Hand

/-- Run a meaning on the hand that issues; with no hand issuing there is nothing to do (DESIGN CHOICE, log 4). -/
def State.issuing (s : State) (k : Iss → Out) : Out :=
  match s.cur with
  | none => .next s
  | some c =>
    match s.team? c.team, s.hand? c.team c.hix with
    | some tm, some hd => k ⟨c, tm, hd⟩
    | _, _ => s.stall

/-- How the visit stands after this word (R26): `act0` and `act1` are the active sets before and after it. -/
def howAfter (hd : Hand) (waiting : Bool) (off : Nat) : How :=
  if hd.act != 0 then hd.how else if off < hd.blen then .abandoned else if waiting then .waited else .toEnd

/-- The word has issued: the hand goes on behind it, and a switch marker holds it while long results are
pending (R89), those of this word among them. `waiting`: its last active threads left it by a waiting instruction (R26). -/
def State.advance (s : State) (i : Iss) (h : Hdr) (waiting : Bool := false) : State :=
  { s.updHand i.c.team i.c.hix fun hd =>
      let off := hd.off + i.c.len
      ({ hd with off, sw := hd.sw || h.sw, how := howAfter hd waiting off }).unmark.parkHeld
    with cur := none }

/-- Run one thread after another; collect the faults, and note whether one must wait. -/
def runThreads (f : Nat → State → Res × State) : List Nat → State → (Bool × List (Nat × Flt)) × State
  | [], s => ((false, []), s)
  | t :: r, s =>
    let (x, s) := f t s
    let ((w, fs), s) := runThreads f r s
    match x with
    | .done => ((w, fs), s)
    | .flt e => ((w, (t, e) :: fs), s)
    | .wait => ((true, fs), s)

/-- The participants of a vector instruction: the active threads whose predicate holds (R78, R201). -/
def Hand.predOf (hd : Hand) (h : Hdr) (t : Nat) : Bool :=
  (h.pr == 7 || (hd.thr t).p.getLsbD h.pr.toNat) != h.pn
/-- Does the uniform predicate hold (R15, R78)? PR[2] = 1 names none. -/
def Hand.upredOf (hd : Hand) (h : Hdr) : Bool := (h.pr.toNat % 4 == 3 || hd.q.getLsbD (h.pr.toNat % 4)) != h.pn
/-- The threads that an instruction acts for: under U, every active thread when the q predicate holds. -/
def Hand.parts (hd : Hand) (h : Hdr) : List Nat :=
  if h.u then (if hd.upredOf h then hd.actives else []) else hd.actives.filter fun t => hd.predOf h t

/-- Finish an instruction that ran thread by thread: wait, or take the faults and advance. (DEDUCED, log 55.) -/
def State.finish (s0 : State) (i : Iss) (h : Hdr) (waiting : Bool) (r : (Bool × List (Nat × Flt)) × State) : Out :=
  if r.1.1 then s0.stall
  else
    let s := r.2.takeFaults i.c.team i.c.hix i.c.addr r.1.2
    .next (s.advance i h (waiting && r.1.2.isEmpty))

/-- Every participant takes one fault, and nothing else happens (R207). -/
def State.raiseAll (s : State) (i : Iss) (h : Hdr) (f : Flt) : Out :=
  .next ((s.takeFaults i.c.team i.c.hix i.c.addr ((i.hd.parts h).map fun t => (t, f))).advance i h)

/-- R379, R220: the team becomes due. -/
def State.makeDue (s : State) (t : Nat) : State := s.updTeam t fun x => { x with due := true }

end Sys2Proof.Machine
end

