-- ==== Sys2Proof/Machine/Flags.lean ====
section
/-! DEFINITION. Flags: the sticky flags of `hs` (R87), the carry and borrow predicates (R226), the integer compare
conditions (R229) and the predicate operations (R234). -/

namespace Sys2Proof.Machine

/-- R87: bit 0 `ua`, bit 1 `nr`, bit 2 `tf`. -/
def hsUa : Word := 1#32
def hsNr : Word := 2#32
def hsTf : Word := 4#32

/-- A set flag stays set until it is cleared (R87). -/
def Hand.setHs (hd : Hand) (m : Word) : Hand := { hd with hs := hd.hs ||| m }
/-- `wrsr hs, v` clears each flag whose bit in v is 1 (R87). -/
def Hand.clearHs (hd : Hand) (v : Word) : Hand := { hd with hs := hd.hs &&& ~~~v }

/-- R226 IADDC: the sum and the carry. -/
def addCarry {w : Nat} (a b : BitVec w) (c : Bool) : BitVec w × Bool :=
  let x := a.toNat + b.toNat + c.toNat
  (BitVec.ofNat w x, decide (2 ^ w ≤ x))

/-- R226 ISUBB: the difference and the borrow. -/
def subBorrow {w : Nat} (a b : BitVec w) (c : Bool) : BitVec w × Bool :=
  let x : Int := a.toNat - b.toNat - c.toNat
  (BitVec.ofInt w x, decide (x < 0))

/-- R229: A cond B, signed for .i types and unsigned for .z types. -/
def condInt {w : Nat} (c : Cond) (signed : Bool) (a b : BitVec w) : Bool :=
  let lt (x y : BitVec w) : Bool := if signed then x.slt y else x.ult y
  match c with
  | .eq => a == b
  | .ne => a != b
  | .lt => lt a b
  | .le => !lt b a
  | .gt => lt b a
  | .ge => !lt a b
  | .num | .nan => false

/-- R234: PSET's operations. -/
def psetEval : PsetOp → Bool → Bool → Bool
  | .and, a, b => a && b
  | .or, a, b => a || b
  | .xor, a, b => a != b

end Sys2Proof.Machine
end

