-- ==== Sys2Proof/WellFormed.lean ====
section
/-! DEFINITION. Which terms of `Instr` some instruction word encodes: the uniform forms (R207 check 3) and
the T, SUB and MOD values that each entry lists (R207 check 4). Operand classes (check 5) are judged
when the instruction issues, since an x register passes at privilege T only. -/

namespace Sys2Proof

/-- Which forms a mnemonic has (R207 check 3). -/
inductive UForm
  | both | vecOnly | uniOnly
  deriving DecidableEq, Repr

/-- R207 check 3: U and PR[2] fit the mnemonic's forms. -/
def Hdr.ok (h : Hdr) : UForm → Bool
  | .both => !h.u || !h.pr.getLsbD 2
  | .vecOnly => !h.u
  | .uniOnly => h.u && !h.pr.getLsbD 2

/-- .i32 .z32 .i64 .z64 (R225). -/
def Ty.int4 (t : Ty) : Bool := [Ty.i32, .z32, .i64, .z64].contains t
/-- .i32 .i64 (R230). -/
def Ty.int2 (t : Ty) : Bool := [Ty.i32, .i64].contains t
/-- The access sizes of R263. -/
def Ty.mem (t : Ty) : Bool := [Ty.i8, .z8, .i16, .z16, .i32, .z32, .f32, .i64, .z64].contains t
/-- A 64-bit type, which names pairs (R211). -/
def Ty.is64 (t : Ty) : Bool := [Ty.i64, .z64].contains t
/-- A signed integer type. -/
def Ty.signed (t : Ty) : Bool := [Ty.i32, .i64, .i16, .i8, .i4].contains t
/-- A floating-point type. -/
def Ty.float (t : Ty) : Bool := [Ty.f32, .f16, .bf16, .e4m3, .e5m2].contains t
/-- An integer type. -/
def Ty.int (t : Ty) : Bool := !t.float

/-- ORD and SCOPE of a load or store: a plain access has SCOPE 0 (R203). -/
def MemMod.ok (m : MemMod) : Bool := m.ord != .plain || m.scope == .h
/-- A load: ORD is not .rel (R265). -/
def MemMod.load (m : MemMod) : Bool := m.ok && m.ord != .rel
/-- A store: ORD is not .acq (R265). -/
def MemMod.store (m : MemMod) : Bool := m.ok && m.ord != .acq

/-- ATOM's operations and types (R270). -/
def atomOk (t : Ty) (op : RedOp) : Bool :=
  op != .cadd && (t.int4 || (t == .f32 && [RedOp.add, .min, .max, .xchg].contains op))
/-- RED's operations and types (R270). -/
def redOk (t : Ty) (op : RedOp) : Bool := atomOk t op && op != .xchg
/-- REDUX's operations and types (R260). -/
def reduxOk (t : Ty) (op : RedOp) : Bool :=
  (t.int4 && [RedOp.add, .min, .max, .and, .or, .xor].contains op)
    || (t == .f32 && [RedOp.add, .min, .max, .cadd].contains op)
/-- ICMP's conditions (R229). -/
def Cond.intOk (c : Cond) : Bool := c != .num && c != .nan

/-- R250: where a rounding selector other than the default is legal. -/
def rndOk (dst src : Ty) (r : Rnd) : Bool :=
  r == .dflt || [Ty.f32, .f16, .bf16].contains dst
    || (src.float && [Ty.i32, .z32, .i64, .z64, .i16, .z16].contains dst)

/-- The rows of R251, by how their operands are laid out. -/
inductive CvtpRow
  | two      -- one FP32 in A and in B
  | four     -- pairs of FP32 in A and in B
  | four16   -- 2 packed 16-bit in A and in B
  | eight    -- 4 packed INT8 in A and in B
  | wide16   -- 2 packed 16-bit to a pair
  | wide8    -- 4 packed 8-bit to a pair
  | half8    -- elements 2h, 2h+1 of 4 packed 8-bit to a pair
  | wide4    -- 8 packed INT4 to a pair
  deriving DecidableEq, Repr

/-- R251: the row of a type pair, if the pair is legal. -/
def cvtpRow (dst src : Ty) : Option CvtpRow :=
  match dst, src with
  | .f16, .f32 | .bf16, .f32 => some .two
  | .e4m3, .f32 | .e5m2, .f32 | .i8, .f32 | .z8, .f32 => some .four
  | .e4m3, .f16 | .e4m3, .bf16 | .e5m2, .f16 | .e5m2, .bf16 => some .four16
  | .i4, .i8 => some .eight
  | .f32, .f16 | .f32, .bf16 => some .wide16
  | .f16, .e4m3 | .bf16, .e4m3 | .f16, .e5m2 | .bf16, .e5m2 => some .wide8
  | .f32, .e4m3 | .f32, .e5m2 => some .half8
  | .i8, .i4 => some .wide4
  | _, _ => none

/-- Does the row read B? -/
def CvtpRow.usesB : CvtpRow → Bool
  | .two | .four | .four16 | .eight => true
  | _ => false

/-- CVTP's types, selector, half selector and unused B (R250, R251, R80). -/
def cvtpOk (dst src : Ty) (r : Rnd) (half : Bool) (b : Opnd) : Bool :=
  match cvtpRow dst src with
  | none => false
  | some row => rndOk dst src r && (!half || row == .half8) && (row.usesB || b == .gz)

/-- ENGINE: SCOPE is .c to .s (R198). -/
def EngExt.ok (e : EngExt) : Bool := e.scope != .h
/-- MATRIX: NQ and KC are not 0 (R198). -/
def MatExt.ok (e : MatExt) : Bool := e.nq != 0#6 && e.kc != 0#6

/-- The special-register numbers that have a row of their own among the WRSR rows (R74, R86, R87). -/
def srOwnRow (sr : BitVec 8) : Bool := sr == 0x21#8 || sr == 0x16#8 || sr == 0x18#8
/-- R82: the listed numbers; any other raises Illegal-Instruction (R203). -/
def srListed (sr : BitVec 8) : Bool :=
  [0x00, 0x01, 0x02, 0x08, 0x09, 0x0A, 0x0B, 0x0C, 0x0D, 0x0E, 0x10, 0x11, 0x12, 0x13, 0x14, 0x15, 0x16, 0x17,
   0x18, 0x20, 0x21, 0x22, 0x23, 0x24, 0x25].contains sr.toNat

/-- Is `i` an instruction of a hand (a row with an instruction word), rather than a step of the device? -/
def Instr.isWord : Instr → Bool
  | .blockChoice .. | .timerPending .. | .faultRecordAppend .. | .longResultWrite .. | .requestDrain ..
  | .scratchpadBankAccess .. | .homeSliceRequest .. | .hbmAccess .. | .remoteWriteApply ..
  | .barrierArrivalApply .. | .barrierHeldReport .. | .compactionAppend .. | .copyChunk ..
  | .copyComplete .. | .qfenceComplete .. | .meldEntryHead .. | .meldFillSlot .. | .meldEntryComplete ..
  | .mldvAck .. | .mmaEntryHead .. | .mmaKStep .. | .mmaComplete .. | .droneEntryHead .. | .droneBring ..
  | .deltaToken .. | .deltaComplete .. | .dealerPop .. | .cardAged .. | .teamStart .. | .teamDue ..
  | .teamRetire .. | .amArrival .. | .amTeamStart .. | .quiescenceReport .. | .launchFail ..
  | .impreciseStore .. | .saveRequest .. | .collectorAck .. | .teamSave .. | .launchRestore ..
  | .teamRestore .. | .restoreReady .. | .congWindowEnd .. | .budgetPeriodEnd | .refillRateChange ..
  | .thermalEvent .. | .fatalError .. | .uncorrectableError .. | .reset | .imageVerify ..
  | .attestationReport .. | .partitionAssign .. | .controlPageSet .. | .kittyLimitWrite ..
  | .trapVectorWrite .. | .stageMapUpdate .. | .scconsWrite .. | .hsRead .. | .hsWrite .. | .hsWake ..
  | .fsResume .. | .fsRetire .. | .fsFail .. | .pageWalk .. | .atsResponse .. | .atsInvalidation ..
  | .pasidTeardown .. | .pageMigration .. | .peerRequest .. | .linkFailure .. | .ethFrameReceive ..
  | .ethFrameTransmit .. | .nvmeDma .. | .queueCreate .. | .capabilityRevoke .. | .queueDestroy ..
  | .partitionTeardown .. | .deadQueueRead .. | .refusedWakeRead .. | .queueWake .. | .pktNop ..
  | .pktLaunch .. | .pktSignal .. | .pktFence .. | .pktIcinv .. | .pktDump .. | .pktTeardown ..
  | .commandComplete .. | .activityCounterRefill | .contextDescriptorWrite .. | .linkRestored .. => false
  | _ => true

/-- Well-formed instruction terms: those that pass checks 3 and 4 of R207. A step of the device has no
word and passes. -/
def Instr.wf : Instr → Bool
  | .go h _ => h.ok .both
  | .got h .. | .call h .. | .callt h .. | .ret h | .park h _ | .trap h _ | .sysc h _ | .tret h => h.ok .vecOnly
  | .exit h | .yield h | .nop h => h.ok .both
  | .iadd h t .. | .iaddImm h t .. | .isub h t .. | .isubImm h t .. | .iaddc h t .. | .isubb h t ..
  | .imul h t .. | .imulImm h t .. | .imulh h t .. | .imad h t .. | .idiv h t .. | .irem h t ..
  | .imin h t .. | .iminImm h t .. | .imax h t .. | .imaxImm h t .. => h.ok .both && t.int4
  | .iabs h t .. | .ineg h t .. | .isel h t .. => h.ok .both && t.int2
  | .icmp h t c .. | .icmpImm h t c .. => h.ok .both && t.int4 && c.intOk
  | .and h t .. | .andImm h t .. | .or h t .. | .orImm h t .. | .xor h t .. | .xorImm h t .. | .andn h t ..
  | .andnImm h t .. | .not h t .. | .shl h t .. | .shr h t .. | .sar h t .. | .rol h t .. | .popc h t ..
  | .clz h t .. | .ctz h t .. | .brev h t .. => h.ok .both && t.int2
  | .bfx h t .. => h.ok .both && (t == .i32 || t == .z32)
  | .bfi h t .. => h.ok .both && t == .i32
  | .mov h t .. => h.ok .both && t.int2
  | .movi h t .. => h.ok .both && (t.int4 || t == .f32)
  | .movw h t .. => h.ok .both && t.is64
  | .pset h .. => h.ok .both
  | .amov h .. | .amovImm h .. | .aadd h .. | .aaddImm h .. | .amul h .. | .amulImm h .. | .aget h ..
  | .alea h .. => h.ok .uniOnly
  | .rdsr h _ sr => h.ok .both && srListed sr
  | .wrsr h _ sr => h.ok .both && srListed sr && !srOwnRow sr
  | .wrsrWlo h _ | .wrsrTmr h _ | .wrsrHs h _ => h.ok .both
  | .fadd h .. | .faddImm h .. | .fsub h .. | .fmul h .. | .fmulImm h .. | .ffma h .. | .ffmaImm h ..
  | .fmin h .. | .fminImm h .. | .fmax h .. | .fmaxImm h .. | .fcmp h .. | .fcmpImm h .. | .fclass h ..
  | .frnd h .. | .fscale h .. | .frcp h .. | .frsq h .. | .fsqrt h .. | .fexp2 h .. | .flog2 h ..
  | .fsin h .. | .fcos h .. => h.ok .both
  | .hadd2 h t .. | .hmul2 h t .. | .hfma2 h t .. => h.ok .both && (t == .f16 || t == .bf16)
  | .cvt h dst src rnd .. => h.ok .both && dst != src && rndOk dst src rnd
  | .cvtp h dst src rnd half _ _ b => h.ok .both && cvtpOk dst src rnd half b
  | .tspack h .. => h.ok .vecOnly
  | .tsunpack h .. => h.ok .both
  | .shfl h t .. | .bcast h t .. | .matchI h t .. => h.ok .vecOnly && t.int2
  | .vote h .. | .ballot h .. => h.ok .vecOnly
  | .redux h t op .. => h.ok .vecOnly && reduxOk t op
  | .scan h t op .. => h.ok .vecOnly && reduxOk t op && op != .cadd
  | .ld h t m .. | .ldDisp h t m .. | .lds h t m .. | .ldsDisp h t m .. => h.ok .both && t.mem && m.load
  | .st h t m .. | .stDisp h t m .. | .sts h t m .. | .stsDisp h t m .. => h.ok .both && t.mem && m.store
  | .ldc h t .. | .ldcDisp h t .. => h.ok .both && t.mem
  | .pref h .. | .prefDisp h .. => h.ok .both
  | .atom h t m _ op .. | .atomDisp h t m _ op .. => h.ok .both && m.ord != .plain && atomOk t op
  | .atomc h t m .. | .atomcDisp h t m .. => h.ok .both && m.ord != .plain && t.int4
  | .red h t m _ op .. | .redDisp h t m _ op .. =>
    h.ok .both && m.ord != .plain && m.ord != .acq && redOk t op
  | .fence h _ => h.ok .both
  | .bari h .. | .bara h .. | .barw h .. | .bart h .. => h.ok .both
  | .cpy h _ _ _ _ _ e => h.ok .both && e.ok
  | .cpyx h _ _ _ _ e => h.ok .both && e.ok
  | .qfence h .. => h.ok .uniOnly
  | .evpop h .. | .evwait h .. => h.ok .both
  | .card h .. | .joinDecrement h .. | .joinArm h .. | .wlapp h .. | .wlpop h .. | .qscn h .. | .amsg h .. =>
    h.ok .both
  | .icinv h .. | .tlbh h .. => h.ok .uniOnly
  | .mlda h .. | .mldl h .. | .mlds h .. | .mldpPin h .. | .mldpUnpin h .. | .mldv h .. | .mldq h .. => h.ok .both
  | .mma h _ _ _ _ e | .mmas h _ _ _ _ e => h.ok .both && e.ok
  | .spz h t .. => h.ok .both && [Ty.i8, .z8, .e4m3, .e5m2, .i4].contains t
  | .aalc h .. | .afre h .. | .aclm h .. | .arel h .. | .azro h .. => h.ok .both
  | .ard h t .. | .awr h t .. => h.ok .both && [Ty.i32, .z32, .f32].contains t
  | .adrn h t .. => h.ok .both && [Ty.f32, .i32, .bf16, .f16].contains t
  | .drpn h .. | .drun h .. | .drsv h .. | .delta h .. => h.ok .both
  | _ => true

end Sys2Proof
end

