-- ==== Sys2Proof/Machine/Operands.lean ====
section
/-! DEFINITION. Operand specifiers (R75 to R81, R201): which are legal where, what they read, where they write, long
results (R88 to R91), and the frame of an instruction that computes in registers. -/

namespace Sys2Proof.Machine

/-- Where an instruction executes: once for each participating thread, or once for the hand (R15). -/
inductive Lane
  | thr (t : Nat)
  | uni
  deriving DecidableEq, Repr

/-- The lanes of an instruction (R15, R78): a uniform one needs an active thread. -/
def Hand.lanes (hd : Hand) (h : Hdr) : List Lane :=
  if h.u then (if hd.upredOf h && hd.act != 0 then [.uni] else []) else (hd.parts h).map .thr

/-- A source: an operand specifier, or the immediate of a long form (R199). -/
inductive Src
  | o (x : Opnd)
  | i (v : Dword)
  deriving DecidableEq, Repr

/-- The place of an operand, for check 5 of R207. `usrc` is a source that must be uniform in both forms (R275, R297), `ugbase` such a global pair
(R298), `fsrc` the format operand of MMA and MMAS (R302), `jbase` the table of GOT (R215). -/
inductive Role
  | src | src64 | dst | dst64 | usrc | asrc | adst | agot | gbase | sbase | ugbase | fsrc | jbase
  deriving DecidableEq, Repr

/-- R76: may the specifier name a pair? -/
def pairOk : Opnd → Bool
  | .g n => n.val % 2 == 0 && n.val ≤ 28
  | .gz => true
  | .k n => n.val % 2 == 0
  | .x n => n.val % 2 == 0
  | .imm _ => true
  | .a _ | .rsv _ => false

/-- R80: the source columns. -/
def srcOk (u privT : Bool) : Opnd → Bool
  | .g _ => !u
  | .gz | .k _ | .a _ | .imm _ => true
  | .x _ => !u && privT
  | .rsv _ => false

/-- R80: the destination columns. -/
def dstOk (u privT : Bool) : Opnd → Bool
  | .g _ => !u
  | .gz => true
  | .k _ => u
  | .x _ => !u && privT
  | .a _ | .rsv _ | .imm _ => false

/-- R80, R76, R235, R263, R275: check 5 for one operand. -/
def Role.ok (u privT : Bool) (r : Role) : Src → Bool
  | .i _ => true
  | .o x =>
    match r with
    | .src => srcOk u privT x
    | .src64 => srcOk u privT x && pairOk x
    | .dst => dstOk u privT x
    | .dst64 => dstOk u privT x && pairOk x
    | .usrc => srcOk true false x
    | .asrc | .adst => match x with | .a _ => true | _ => false
    | .agot => dstOk true false x
    | .gbase => srcOk u privT x && pairOk x && (match x with | .g _ | .k _ | .gz => true | _ => false)
    | .sbase => srcOk u privT x && (match x with | .x _ => false | _ => true)
    | .fsrc => match x with | .g _ => !u | .k _ | .gz => true | _ => false
    | .jbase => srcOk u privT x && pairOk x && (match x with | .g _ | .k _ => true | _ => false)
    | .ugbase => pairOk x && (match x with | .k _ | .gz => true | _ => false)

/-- An operand with its place. -/
abbrev Arg := Role × Src

/-- Check 5 for all operands. -/
def argsOk (u privT : Bool) (l : List Arg) : Bool := l.all fun a => a.1.ok u privT a.2

/-- R201: predicate sources and destinations. -/
def psrcOk (u : Bool) : POpnd → Bool
  | .p _ => !u
  | .q _ => true
  | .rsv _ => false
def pdstOk (u : Bool) : POpnd → Bool
  | .p _ => !u
  | .q _ => u
  | .rsv _ => false

/-! ### Reading -/

/-- R81: the value of a small immediate. -/
def immVal (v : Fin 32) : Int := (v.val : Int) - 16

/-- A 32-bit register or immediate as one lane reads it (R75, R79, R81). -/
def Hand.rdO (hd : Hand) (ln : Lane) : Opnd → Word
  | .g n => match ln with
    | .thr t => let x := hd.thr t; x.stack.get (x.wb + n.val) 0
    | .uni => 0
  | .gz => 0
  | .k n => hd.k.get n.val 0
  | .a n => match ln with
    | .thr t => hd.ab.get n.val 0 + hd.as.get n.val 0 * BitVec.ofNat 32 t
    | .uni => hd.ab.get n.val 0
  | .x n => match ln with
    | .thr t => (hd.thr t).x.get n.val 0
    | .uni => 0
  | .rsv _ => 0
  | .imm v => BitVec.ofInt 32 (immVal v)

/-- The odd register of a pair (R76). -/
def oddOf : Opnd → Opnd
  | .g n => if h : n.val + 1 < 31 then .g ⟨n.val + 1, h⟩ else .gz
  | .k n => if h : n.val + 1 < 32 then .k ⟨n.val + 1, h⟩ else .gz
  | .x n => if h : n.val + 1 < 8 then .x ⟨n.val + 1, h⟩ else .gz
  | o => o

/-- A pair (R76), a small immediate sign-extended to it (R81). -/
def Hand.rdO64 (hd : Hand) (ln : Lane) : Opnd → Dword
  | .imm v => BitVec.ofInt 64 (immVal v)
  | o => pair64 (hd.rdO ln (oddOf o)) (hd.rdO ln o)

/-- A 32-bit source. -/
def Hand.rd (hd : Hand) (ln : Lane) : Src → Word
  | .o x => hd.rdO ln x
  | .i v => lo32 v
/-- A 64-bit source. -/
def Hand.rd64 (hd : Hand) (ln : Lane) : Src → Dword
  | .o x => hd.rdO64 ln x
  | .i v => v

/-- A predicate (R75, R201). -/
def Hand.rdP (hd : Hand) (ln : Lane) : POpnd → Bool
  | .p n => match ln with
    | .thr t => n.val == 7 || (hd.thr t).p.getLsbD n.val
    | .uni => false
  | .q n => n.val == 3 || hd.q.getLsbD n.val
  | .rsv _ => false

/-! ### Writing -/

/-- The place that a destination names for one lane, fixed at issue. A register whose entry is not resident
discards the write (R74). -/
def Hand.dstOf (hd : Hand) (depth : Nat) (ln : Lane) : Opnd → Dst
  | .g n => match ln with
    | .thr t =>
      let x := hd.thr t
      if x.resident depth (x.wb + n.val) then .ent t (x.wb + n.val) else .drop
    | .uni => .drop
  | .k n => .kreg n.val
  | .x n => match ln with
    | .thr t => .xreg t n.val
    | .uni => .drop
  | _ => .drop

/-- The place of a predicate destination; p7 and q3 drop the write (R77). -/
def pdstOf (ln : Lane) : POpnd → Dst
  | .p n => match ln with
    | .thr t => if n.val = 7 then .drop else .pred t n.val
    | .uni => .drop
  | .q n => if n.val = 3 then .drop else .qpred n.val
  | .rsv _ => .drop

/-- Set or clear a bit. -/
def setBit {w : Nat} (x : BitVec w) (i : Nat) (b : Bool) : BitVec w :=
  let m := BitVec.ofNat w (2 ^ i)
  if b then x ||| m else x &&& ~~~m

/-- R74: LO becomes `lo`; of the entries those below `hi` stay, the loaded ones follow LO, and what lies outside is
no longer resident. -/
def Thread.reframe (x : Thread) (lo hi : Nat) (es : List Word) : Thread :=
  { x with lo, stack := SMap.setRun 0 (x.stack.filter fun e => decide (lo ≤ e.1 ∧ e.1 < hi)) lo es }

/-- Write a place (R75). A predicate takes bit 0. -/
def Hand.put (hd : Hand) (d : Dst) (v : Word) : Hand :=
  match d with
  | .ent t i => hd.updThr t fun x => x.setEnt i v
  | .kreg n => { hd with k := hd.k.set n v 0 }
  | .xreg t n => hd.updThr t fun x => { x with x := x.x.set n v 0 }
  | .pred t n => hd.updThr t fun x => { x with p := setBit x.p n (v.getLsbD 0) }
  | .qpred n => { hd with q := setBit hd.q n (v.getLsbD 0) }
  | .frame t lo hi es => hd.updThr t fun x => x.reframe lo hi es
  | .drop => hd

/-- Write a 32-bit destination. -/
def Hand.wr (hd : Hand) (depth : Nat) (ln : Lane) (o : Opnd) (v : Word) : Hand := hd.put (hd.dstOf depth ln o) v
/-- Write a pair (R76). -/
def Hand.wr64 (hd : Hand) (depth : Nat) (ln : Lane) (o : Opnd) (v : Dword) : Hand :=
  match o with
  | .gz => hd
  | _ => (hd.wr depth ln o (lo32 v)).wr depth ln (oddOf o) (hi32 v)
/-- Write a predicate. -/
def Hand.wrP (hd : Hand) (ln : Lane) (o : POpnd) (b : Bool) : Hand := hd.put (pdstOf ln o) (if b then 1 else 0)

/-! ### Long results -/

/-- The halves of a long result for one destination. -/
def Hand.halves (hd : Hand) (depth : Nat) (ln : Lane) (o : Opnd) (v : Dword) : List (Dst × Option Word) :=
  match o with
  | .gz => []
  | _ => [(hd.dstOf depth ln o, some (lo32 v)), (hd.dstOf depth ln (oddOf o), some (hi32 v))]
def Hand.half (hd : Hand) (depth : Nat) (ln : Lane) (o : Opnd) (v : Word) : List (Dst × Option Word) :=
  [(hd.dstOf depth ln o, some v)]

/-- Post long results (R90): each is written by a step of its own, LONG_RESULT_WRITE. A result without a
register is not pending. -/
def State.post (s : State) (t h : Nat) (l : List (Dst × Option Word)) : State :=
  let l := l.filter fun x => x.1 != .drop
  let ps := l.mapIdx fun i x => { id := s.nextId + i, dst := x.1, val := x.2 : Pend }
  { s.updHand t h fun hd => { hd with pend := hd.pend ++ ps } with nextId := s.nextId + l.length }

/-! ### The frame of an instruction that computes in registers -/

/-- Is a register of a window named whose entry is not resident (R74)? -/
def Hand.touchesNr (hd : Hand) (depth : Nat) (lanes : List Lane) (args : List Arg) : Bool :=
  lanes.any fun ln => match ln with
    | .uni => false
    | .thr t =>
      let x := hd.thr t
      let out (n : Nat) : Bool := !x.resident depth (x.wb + n)
      args.any fun a => match a.2 with
        | .o (.g n) => out n.val || (match a.1 with | .src64 | .dst64 | .gbase | .jbase => out (n.val + 1) | _ => false)
        | _ => false

/-- Is the vector instruction held by the governor (R12)? The counter is that of the start of the cycle. -/
def State.governed (s : State) (h : Hdr) (credits : Nat) (c : Nat) : Bool :=
  !h.u && credits != 0 && decide ((s.core c).actStart ≤ 0)

/-- R11: charge the credits of a vector instruction in its issue cycle. -/
def State.charge (s : State) (h : Hdr) (credits : Nat) (c : Nat) : State :=
  if h.u || credits == 0 then s else s.updCore c fun x => { x with activity := x.activity - credits }

/-- Issue an instruction whose operands are `args`: held by the governor (R12), refused by check 5 of R207, or
run on its lanes. `credits`: of its vector form, R11. -/
def State.onLanes (s : State) (h : Hdr) (credits : Nat) (args : List Arg) (more : Bool → Bool)
    (body : Iss → List Lane → State → Out) : Out :=
  s.issuing fun i =>
    if s.governed h credits i.tm.core then s.stall
    else
      let s := s.charge h credits i.tm.core
      if !(argsOk h.u i.hd.privT args && more h.u) then s.raiseAll i h { cause := 2 }
      else
        let lanes := i.hd.lanes h
        let s := if i.hd.touchesNr i.tm.depth lanes args then
          s.updHand i.c.team i.c.hix fun hd => hd.setHs hsNr else s
        body i lanes s

/-- A short-class instruction: each lane reads its sources and writes its destination (R211). `credits`: R11. -/
def State.shortOpC (s : State) (h : Hdr) (credits : Nat) (args : List Arg) (more : Bool → Bool)
    (f : Hand → Nat → Lane → Hand) : Out :=
  s.onLanes h credits args more fun i lanes s =>
    .next ((s.updHand i.c.team i.c.hix fun hd => lanes.foldl (fun hd ln => f hd i.tm.depth ln) hd).advance i h)

/-- A short-class instruction that occupies a pipe for 4 cycles. -/
def State.shortOp (s : State) (h : Hdr) (args : List Arg) (more : Bool → Bool)
    (f : Hand → Nat → Lane → Hand) : Out := s.shortOpC h 2 args more f

/-- A long-class instruction that only computes: its results are posted (R88). -/
def State.longOp (s : State) (h : Hdr) (credits : Nat) (args : List Arg) (more : Bool → Bool)
    (f : Hand → Nat → Lane → List (Dst × Option Word)) : Out :=
  s.onLanes h credits args more fun i lanes s =>
    .next ((s.post i.c.team i.c.hix (lanes.flatMap fun ln => f i.hd i.tm.depth ln)).advance i h)

/-- The roles of a value of type `t`. -/
def rsrc (t : Ty) : Role := if t.is64 then .src64 else .src
def rdst (t : Ty) : Role := if t.is64 then .dst64 else .dst

/-- No further operand check. -/
def noMore (_ : Bool) : Bool := true

end Sys2Proof.Machine
end

