-- ==== Sys2Proof/Machine/Integer.lean ====
section
/-! DEFINITION. Integer arithmetic (R225 to R229). Results are modulo 2^w (R211). -/

namespace Sys2Proof.Machine

/-- R199: an IMM32 as the B operand of type `t`. -/
def immT (t : Ty) (v : Word) : Src := .i (if t == .i64 then v.signExtend 64 else v.setWidth 64)

/-- A value of each width. -/
abbrev Bin := (w : Nat) → BitVec w → BitVec w → BitVec w
abbrev Un := (w : Nat) → BitVec w → BitVec w

/-- R11, R210: the credits of the Multiply class, whose 64-bit forms hold a pipe for 8 cycles. -/
def mulCredits (t : Ty) : Nat := if t.is64 then 4 else 2

/-- D ← f(A, B), short-class. -/
def intBinC (h : Hdr) (credits : Nat) (t : Ty) (d a : Opnd) (b : Src) (f : Bin) (s : State) : Out :=
  s.shortOpC h credits [(rdst t, .o d), (rsrc t, .o a), (rsrc t, b)] noMore fun hd dep ln =>
    if t.is64 then hd.wr64 dep ln d (f 64 (hd.rd64 ln (.o a)) (hd.rd64 ln b))
    else hd.wr dep ln d (f 32 (hd.rd ln (.o a)) (hd.rd ln b))

/-- D ← f(A, B) in the ALU class. -/
def intBin (h : Hdr) (t : Ty) (d a : Opnd) (b : Src) (f : Bin) (s : State) : Out := intBinC h 2 t d a b f s
/-- D ← f(A, B) in the Multiply class. -/
def intMul (h : Hdr) (t : Ty) (d a : Opnd) (b : Src) (f : Bin) (s : State) : Out := intBinC h (mulCredits t) t d a b f s

/-- D ← f(A), short-class. -/
def intUn (h : Hdr) (t : Ty) (d a : Opnd) (f : Un) (s : State) : Out :=
  s.shortOp h [(rdst t, .o d), (rsrc t, .o a)] noMore fun hd dep ln =>
    if t.is64 then hd.wr64 dep ln d (f 64 (hd.rd64 ln (.o a))) else hd.wr dep ln d (f 32 (hd.rd ln (.o a)))

/-- R225 IMULH: bits [2w-1:w] of the exact product. -/
def mulHigh (signed : Bool) : Bin := fun w a b =>
  if signed then BitVec.ofInt w (a.toInt * b.toInt / 2 ^ w) else BitVec.ofNat w (a.toNat * b.toNat / 2 ^ w)

/-- R225: the lesser and the greater. -/
def intMin (signed : Bool) : Bin := fun _ a b => if condInt .lt signed b a then b else a
def intMax (signed : Bool) : Bin := fun _ a b => if condInt .lt signed a b then b else a

/-- R227: the quotient and the remainder. -/
def quotRem {w : Nat} (signed : Bool) (a b : BitVec w) : BitVec w × BitVec w :=
  if b = 0 then (BitVec.allOnes w, a)
  else if signed then
    (BitVec.ofInt w (Int.tdiv a.toInt b.toInt), BitVec.ofInt w (Int.tmod a.toInt b.toInt))
  else (BitVec.ofNat w (a.toNat / b.toNat), BitVec.ofNat w (a.toNat % b.toNat))

/-- A long-class divide (R227). -/
def intDiv (h : Hdr) (t : Ty) (d a b : Opnd) (f : Bin) (s : State) : Out :=
  s.longOp h 2 [(rdst t, .o d), (rsrc t, .o a), (rsrc t, .o b)] noMore fun hd dep ln =>
    if t.is64 then hd.halves dep ln d (f 64 (hd.rd64 ln (.o a)) (hd.rd64 ln (.o b)))
    else hd.half dep ln d (f 32 (hd.rd ln (.o a)) (hd.rd ln (.o b)))

/-- R226: a chained add or subtract. -/
def intChain (h : Hdr) (t : Ty) (d a b : Opnd) (c : POpnd)
    (f : (w : Nat) → BitVec w → BitVec w → Bool → BitVec w × Bool) (s : State) : Out :=
  s.shortOp h [(rdst t, .o d), (rsrc t, .o a), (rsrc t, .o b)] (fun u => pdstOk u c) fun hd dep ln =>
    let ci := hd.rdP ln c
    if t.is64 then
      let r := f 64 (hd.rd64 ln (.o a)) (hd.rd64 ln (.o b)) ci
      (hd.wr64 dep ln d r.1).wrP ln c r.2
    else
      let r := f 32 (hd.rd ln (.o a)) (hd.rd ln (.o b)) ci
      (hd.wr dep ln d r.1).wrP ln c r.2

/-- R229: a compare into a predicate. -/
def intCmp (h : Hdr) (t : Ty) (cond : Cond) (d : POpnd) (a : Opnd) (b : Src) (s : State) : Out :=
  s.shortOp h [(rsrc t, .o a), (rsrc t, b)] (fun u => pdstOk u d) fun hd _ ln =>
    hd.wrP ln d (if t.is64 then condInt cond t.signed (hd.rd64 ln (.o a)) (hd.rd64 ln b)
      else condInt cond t.signed (hd.rd ln (.o a)) (hd.rd ln b))

/-- IADD (R225): A + B. -/
def execIadd (h : Hdr) (t : Ty) (d a b : Opnd) (s : State) : Out := intBin h t d a (.o b) (fun _ x y => x + y) s
/-- IADD (R225): A + B. Long form. -/
def execIaddImm (h : Hdr) (t : Ty) (d a : Opnd) (imm : Word) (s : State) : Out :=
  intBin h t d a (immT t imm) (fun _ x y => x + y) s
/-- ISUB (R225): A - B. -/
def execIsub (h : Hdr) (t : Ty) (d a b : Opnd) (s : State) : Out := intBin h t d a (.o b) (fun _ x y => x - y) s
/-- ISUB (R225): A - B. Long form. -/
def execIsubImm (h : Hdr) (t : Ty) (d a : Opnd) (imm : Word) (s : State) : Out :=
  intBin h t d a (immT t imm) (fun _ x y => x - y) s
/-- IADDC (R226). -/
def execIaddc (h : Hdr) (t : Ty) (d a b : Opnd) (c : POpnd) (s : State) : Out :=
  intChain h t d a b c (fun _ x y z => addCarry x y z) s
/-- ISUBB (R226). -/
def execIsubb (h : Hdr) (t : Ty) (d a b : Opnd) (c : POpnd) (s : State) : Out :=
  intChain h t d a b c (fun _ x y z => subBorrow x y z) s
/-- IMUL (R225): A x B. -/
def execImul (h : Hdr) (t : Ty) (d a b : Opnd) (s : State) : Out := intMul h t d a (.o b) (fun _ x y => x * y) s
/-- IMUL (R225): A x B. Long form. -/
def execImulImm (h : Hdr) (t : Ty) (d a : Opnd) (imm : Word) (s : State) : Out :=
  intMul h t d a (immT t imm) (fun _ x y => x * y) s
/-- IMULH (R225): the high half of the exact product. -/
def execImulh (h : Hdr) (t : Ty) (d a b : Opnd) (s : State) : Out := intMul h t d a (.o b) (mulHigh t.signed) s
/-- IMAD (R225): A x B + C. -/
def execImad (h : Hdr) (t : Ty) (d a b c : Opnd) (s : State) : Out :=
  s.shortOpC h (mulCredits t) [(rdst t, .o d), (rsrc t, .o a), (rsrc t, .o b), (rsrc t, .o c)] noMore fun hd dep ln =>
    if t.is64 then hd.wr64 dep ln d (hd.rd64 ln (.o a) * hd.rd64 ln (.o b) + hd.rd64 ln (.o c))
    else hd.wr dep ln d (hd.rd ln (.o a) * hd.rd ln (.o b) + hd.rd ln (.o c))
/-- IDIV (R227). -/
def execIdiv (h : Hdr) (t : Ty) (d a b : Opnd) (s : State) : Out :=
  intDiv h t d a b (fun _ x y => (quotRem t.signed x y).1) s
/-- IREM (R227). -/
def execIrem (h : Hdr) (t : Ty) (d a b : Opnd) (s : State) : Out :=
  intDiv h t d a b (fun _ x y => (quotRem t.signed x y).2) s
/-- IMIN (R225): the lesser. -/
def execImin (h : Hdr) (t : Ty) (d a b : Opnd) (s : State) : Out := intBin h t d a (.o b) (intMin t.signed) s
/-- IMIN (R225): the lesser. Long form. -/
def execIminImm (h : Hdr) (t : Ty) (d a : Opnd) (imm : Word) (s : State) : Out :=
  intBin h t d a (immT t imm) (intMin t.signed) s
/-- IMAX (R225): the greater. -/
def execImax (h : Hdr) (t : Ty) (d a b : Opnd) (s : State) : Out := intBin h t d a (.o b) (intMax t.signed) s
/-- IMAX (R225): the greater. Long form. -/
def execImaxImm (h : Hdr) (t : Ty) (d a : Opnd) (imm : Word) (s : State) : Out :=
  intBin h t d a (immT t imm) (intMax t.signed) s
/-- IABS (R225): |A|; -2^(w-1) stays. -/
def execIabs (h : Hdr) (t : Ty) (d a : Opnd) (s : State) : Out := intUn h t d a (fun _ x => if x.msb then -x else x) s
/-- INEG (R225): 0 - A. -/
def execIneg (h : Hdr) (t : Ty) (d a : Opnd) (s : State) : Out := intUn h t d a (fun _ x => -x) s
/-- ISEL (R228): A when the predicate C is 1, else B. -/
def execIsel (h : Hdr) (t : Ty) (d a b : Opnd) (c : POpnd) (s : State) : Out :=
  s.shortOp h [(rdst t, .o d), (rsrc t, .o a), (rsrc t, .o b)] (fun u => psrcOk u c) fun hd dep ln =>
    let x := if hd.rdP ln c then a else b
    if t.is64 then hd.wr64 dep ln d (hd.rd64 ln (.o x)) else hd.wr dep ln d (hd.rd ln (.o x))
/-- ICMP (R229). -/
def execIcmp (h : Hdr) (t : Ty) (cond : Cond) (d : POpnd) (a b : Opnd) (s : State) : Out :=
  intCmp h t cond d a (.o b) s
/-- ICMP (R229). Long form. -/
def execIcmpImm (h : Hdr) (t : Ty) (cond : Cond) (d : POpnd) (a : Opnd) (imm : Word) (s : State) : Out :=
  intCmp h t cond d a (immT t imm) s

end Sys2Proof.Machine
end

