-- ==== Sys2Proof/Machine/Numbers.lean ====
section
/-! DEFINITION. Numbers, exact arithmetic and rounding (R93 to R110). A finite value is held exactly, as a sign, an
integer and a power of two; every result is rounded once, from the exact value, by the helpers of R101 and R102. -/

namespace Sys2Proof.Machine

/-- A value of a floating-point format: NaN, an infinity, or (-1)^neg * m * 2^e. -/
inductive Num
  | nan
  | inf (neg : Bool)
  | fin (neg : Bool) (m : Nat) (e : Int)
  deriving DecidableEq, Repr

/-- The floating-point formats (R93). -/
inductive FF
  | f32 | f16 | bf16 | e4m3 | e5m2
  deriving DecidableEq, Repr

/-- Rounding: nearest-even, nearest-away, and RoundToward zero, up and down (R101). -/
inductive RMode
  | ne | na | tz | up | dn
  deriving DecidableEq, Repr

namespace FF
/-- Width, fraction bits, exponent bits and bias (R93). -/
def width : FF → Nat | f32 => 32 | f16 | bf16 => 16 | e4m3 | e5m2 => 8
def frac : FF → Nat | f32 => 23 | f16 => 10 | bf16 => 7 | e4m3 => 3 | e5m2 => 2
def expo : FF → Nat | f32 | bf16 => 8 | f16 | e5m2 => 5 | e4m3 => 4
def bias : FF → Int | f32 | bf16 => 127 | f16 | e5m2 => 15 | e4m3 => 7
/-- The canonical NaN. -/
def nanBits : FF → Nat | f32 => 0x7FC00000 | f16 => 0x7E00 | bf16 => 0x7FC0 | e4m3 => 0x7F | e5m2 => 0x7E
/-- The encoding of the largest finite value. -/
def maxBits : FF → Nat | f32 => 0x7F7FFFFF | f16 => 0x7BFF | bf16 => 0x7F7F | e4m3 => 0x7E | e5m2 => 0x7B
/-- R102: the formats narrower than 16 bits saturate. -/
def saturates : FF → Bool | e4m3 | e5m2 => true | _ => false
/-- E4M3 has no infinity (R93). -/
def hasInf (f : FF) : Bool := f != e4m3
/-- The encoding of +infinity. -/
def infBits (f : FF) : Nat := (2 ^ f.expo - 1) * 2 ^ f.frac
end FF

/-- R93, R110 Decode. -/
def FF.decode (f : FF) (x : Nat) : Num :=
  let fr := x % 2 ^ f.frac
  let ex := x / 2 ^ f.frac % 2 ^ f.expo
  let neg := x / 2 ^ (f.width - 1) % 2 == 1
  if f = .e4m3 ∧ ex = 15 ∧ fr = 7 then .nan
  else if f ≠ .e4m3 ∧ ex = 2 ^ f.expo - 1 then (if fr = 0 then .inf neg else .nan)
  else if ex = 0 then .fin neg fr (1 - f.bias - f.frac)
  else .fin neg (2 ^ f.frac + fr) (ex - f.bias - f.frac)

/-- The number of binary digits. -/
def bits (m : Nat) : Nat := if m = 0 then 0 else Nat.log2 m + 1

/-- R101: round m / 2^sh to an integer; `st` says that the true value lies a little above m (a sticky tail). -/
def roundShift (mode : RMode) (neg st : Bool) (m sh : Nat) : Nat :=
  let q := m / 2 ^ sh
  let r := m % 2 ^ sh
  let exact := r == 0 && !st
  let half := 2 ^ sh / 2
  let above := if sh = 0 then false else decide (half < r) || (decide (r = half) && st)
  let tie := sh != 0 && decide (r = half) && !st
  let inc := match mode with
    | .ne => above || (tie && q % 2 == 1)
    | .na => above || tie
    | .tz => false
    | .up => !exact && !neg
    | .dn => !exact && neg
  if inc then q + 1 else q

/-- R102: what a magnitude above the largest finite becomes. -/
def FF.overflow (f : FF) (mode : RMode) (neg : Bool) : Nat :=
  if f.saturates then f.maxBits
  else match mode with
    | .ne | .na => f.infBits
    | .tz => f.maxBits
    | .up => if neg then f.maxBits else f.infBits
    | .dn => if neg then f.infBits else f.maxBits

/-- R101, R102: round an exact value to a format, and encode it. -/
def FF.round (f : FF) (mode : RMode) (st : Bool) (x : Num) : Nat :=
  let sgn (neg : Bool) (v : Nat) : Nat := if neg then 2 ^ (f.width - 1) + v else v
  match x with
  | .nan => f.nanBits
  | .inf neg => sgn neg (if f.hasInf then f.infBits else f.maxBits)
  | .fin neg m e =>
    if m = 0 then sgn neg 0
    else
      let top : Int := (bits m : Int) - 1 + e
      let q : Int := max top (1 - f.bias) - f.frac
      let r := if q ≤ e then m * 2 ^ (e - q).toNat
        else roundShift mode neg st m (q - e).toNat
      let v := ((q + f.bias + f.frac).toNat - 1) * 2 ^ f.frac + r
      sgn neg (if f.maxBits < v then f.overflow mode neg else v)

/-- R101 on the integers: the rounded integer of a finite value. -/
def roundInt (mode : RMode) (neg : Bool) (m : Nat) (e : Int) : Int :=
  let r : Nat := if 0 ≤ e then m * 2 ^ e.toNat else roundShift mode neg false m (-e).toNat
  if neg then -(r : Int) else r

/-! ### Exact arithmetic -/

def Num.neg : Num → Num
  | .nan => .nan
  | .inf n => .inf !n
  | .fin n m e => .fin (!n) m e

def Num.isNan : Num → Bool | .nan => true | _ => false
def Num.isInf : Num → Bool | .inf _ => true | _ => false
def Num.isZero : Num → Bool | .fin _ 0 _ => true | _ => false
def Num.sign : Num → Bool | .nan => false | .inf n => n | .fin n _ _ => n

/-- The signed integer m * 2^(e - e0). -/
def scaled (neg : Bool) (m : Nat) (e e0 : Int) : Int :=
  let v : Int := m * 2 ^ (e - e0).toNat
  if neg then -v else v

/-- The exact sum, with IEEE's signs of zero and special cases (R240). -/
def Num.add (a b : Num) : Num :=
  match a, b with
  | .nan, _ | _, .nan => .nan
  | .inf x, .inf y => if x = y then .inf x else .nan
  | .inf x, _ => .inf x
  | _, .inf y => .inf y
  | .fin x m e, .fin y n g =>
    if m = 0 ∧ n = 0 then .fin (x && y) 0 0
    else if m = 0 then .fin y n g
    else if n = 0 then .fin x m e
    else
      let e0 := min e g
      let v := scaled x m e e0 + scaled y n g e0
      .fin (decide (v < 0)) v.natAbs e0

/-- The exact product (R240). -/
def Num.mul (a b : Num) : Num :=
  match a, b with
  | .nan, _ | _, .nan => .nan
  | .inf x, .inf y => .inf (x != y)
  | .inf x, .fin y n _ => if n = 0 then .nan else .inf (x != y)
  | .fin x m _, .inf y => if m = 0 then .nan else .inf (x != y)
  | .fin x m e, .fin y n g => .fin (x != y) (m * n) (e + g)

/-- Is a < b, by value? False with a NaN. -/
def Num.lt (a b : Num) : Bool :=
  match a, b with
  | .nan, _ | _, .nan => false
  | .inf x, .inf y => x && !y
  | .inf x, _ => x
  | _, .inf y => !y
  | .fin x m e, .fin y n g =>
    let e0 := min e g
    decide (scaled x m e e0 < scaled y n g e0)

/-- Are the values equal? False with a NaN; the zeros are equal. -/
def Num.eqv (a b : Num) : Bool := !a.isNan && !b.isNan && !a.lt b && !b.lt a

/-! ### FP32 -/

def f32 (x : Word) : Num := FF.f32.decode x.toNat
/-- RoundNearestEven(x, FP32). -/
def toF32 (x : Num) : Word := BitVec.ofNat 32 (FF.f32.round .ne false x)
def f32Add (a b : Word) : Word := toF32 ((f32 a).add (f32 b))
def f32Sub (a b : Word) : Word := toF32 ((f32 a).add (f32 b).neg)
def f32Mul (a b : Word) : Word := toF32 ((f32 a).mul (f32 b))
/-- R110 FMA. -/
def f32Fma (a b c : Word) : Word := toF32 (((f32 a).mul (f32 b)).add (f32 c))

/-- R241: FMIN and FMAX. -/
def f32MinMax (isMax : Bool) (a b : Word) : Word :=
  let x := f32 a
  let y := f32 b
  if x.isNan && y.isNan then 0x7FC00000#32
  else if x.isNan then b
  else if y.isNan then a
  else if x.isZero && y.isZero && x.sign != y.sign then (if isMax then 0 else 0x80000000#32)
  else if isMax then (if x.lt y then b else a) else (if y.lt x then b else a)

/-! ### Integers -/

/-- The range of an integer format (R95). -/
def intRange : Ty → Int × Int
  | .i32 => (-2 ^ 31, 2 ^ 31 - 1)
  | .z32 => (0, 2 ^ 32 - 1)
  | .i64 => (-2 ^ 63, 2 ^ 63 - 1)
  | .z64 => (0, 2 ^ 64 - 1)
  | .i16 => (-2 ^ 15, 2 ^ 15 - 1)
  | .z16 => (0, 2 ^ 16 - 1)
  | .i8 => (-2 ^ 7, 2 ^ 7 - 1)
  | .z8 => (0, 2 ^ 8 - 1)
  | .i4 => (-8, 7)
  | _ => (0, 0)

/-- R110 SatInt. -/
def satInt (t : Ty) (x : Int) : Int := max (intRange t).1 (min (intRange t).2 x)

/-- The width of a format. -/
def tyWidth : Ty → Nat
  | .i64 | .z64 => 64
  | .i16 | .z16 | .f16 | .bf16 => 16
  | .i8 | .z8 | .e4m3 | .e5m2 => 8
  | .i4 => 4
  | _ => 32

/-- The floating-point format of a type. -/
def ffOf : Ty → FF
  | .f16 => .f16 | .bf16 => .bf16 | .e4m3 => .e4m3 | .e5m2 => .e5m2 | _ => .f32

/-- The integer that `x` encodes in an integer format. -/
def intOf (t : Ty) (x : Nat) : Int :=
  let w := tyWidth t
  let v := x % 2 ^ w
  if t.signed && decide (2 ^ (w - 1) ≤ v) then (v : Int) - 2 ^ w else v

/-- R103: the value of `x` in any format of R202. -/
def valueOf (t : Ty) (x : Nat) : Num :=
  if t.float then (ffOf t).decode (x % 2 ^ tyWidth t)
  else let v := intOf t x; .fin (decide (v < 0)) v.natAbs 0

/-- R103, R101, R102: a value rounded to a format, as its bits. -/
def convertTo (t : Ty) (mode : RMode) (x : Num) : Nat :=
  if t.float then (ffOf t).round mode false x
  else
    let v : Int := match x with
      | .nan => 0
      | .inf n => if n then (intRange t).1 else (intRange t).2
      | .fin n m e => satInt t (roundInt mode n m e)
    (v % 2 ^ tyWidth t).toNat

/-! ### Twin-scale formats (R97, R98, R110) -/

/-- mmax. -/
def twinMax : Twin → Nat | .te8 => 63 | .te6 => 15 | .te4 => 3
/-- Bits of the magnitude. -/
def twinMBits : Twin → Nat | .te8 => 6 | .te6 => 4 | .te4 => 2

/-- R98: an element under a scale word. -/
def twinDecode (f : Twin) (scale el : Nat) : Num :=
  let b := twinMBits f
  let ehi : Int := scale / 256 % 256
  let delta : Int := scale / 8 % 32
  let m := el % 2 ^ b
  let sel := el / 2 ^ b % 2
  let s := el / 2 ^ (b + 1) % 2 == 1
  if ehi = 255 ∨ scale % 8 ≠ 0 then .nan
  else .fin s m ((if sel = 1 then ehi - delta else ehi) - 127)

/-- R110 TwinElement. -/
def twinElement (f : Twin) (ehi delta : Nat) (x : Num) : Nat :=
  let b := twinMBits f
  let put (s : Bool) (sel m : Nat) : Nat := (if s then 2 ^ (b + 1) else 0) + sel * 2 ^ b + m
  if ehi = 255 then put false 0 (twinMax f)
  else match x with
    | .nan => put false 0 (twinMax f)
    | .inf s => put s 0 (twinMax f)
    | .fin s m e =>
      let at_ (p : Int) : Nat := (roundInt .na false m (e - p)).toNat
      let m1 := at_ ((ehi : Int) - delta - 127)
      if m1 ≤ twinMax f then put s 1 m1
      else put s 0 (min (at_ ((ehi : Int) - 127)) (twinMax f))

/-! ### Sums (R104 to R109) -/

/-- R104: ExactBlockSum of the decoded pairs. -/
def exactBlockSum (l : List (Num × Num)) : Num :=
  let ps := l.map fun p => p.1.mul p.2
  if ps.any Num.isNan then .nan
  else if ps.any (· == .inf false) && ps.any (· == .inf true) then .nan
  else if ps.any (· == .inf false) then .inf false
  else if ps.any (· == .inf true) then .inf true
  else match ps.foldl Num.add (.fin false 0 0) with
    | .fin _ 0 _ => .fin false 0 0
    | x => x

/-- R105: one block of an FP32 accumulator element. -/
def accBlock (acc : Word) (l : List (Num × Num)) : Word := f32Add acc (toF32 (exactBlockSum l))

/-- R108 TreeReduce: combine neighbours, passing an absent operand by, level by level. -/
def treeLevel {α : Type} (op : α → α → α) : List (Option α) → List (Option α)
  | some x :: some y :: r => some (op x y) :: treeLevel op r
  | some x :: none :: r => some x :: treeLevel op r
  | none :: y :: r => y :: treeLevel op r
  | l => l
def treeReduce {α : Type} (op : α → α → α) : Nat → List (Option α) → Option α
  | 0, l => (l.head?).join
  | n + 1, l => treeReduce op n (treeLevel op l)

/-- R109 CompAdd. -/
def compAdd (a b : Word × Word) : Word × Word :=
  let s := f32Add a.1 b.1
  let bad (x : Word) : Bool := (f32 x).isNan || (f32 x).isInf
  if bad s then (s, 0)
  else
    let e := toF32 (((f32 a.1).add (f32 b.1)).add (f32 s).neg)
    let u := f32Add (f32Add a.2 b.2) e
    let h := f32Add s u
    if bad h then (h, 0) else (h, f32Sub u (f32Sub h s))

end Sys2Proof.Machine
end

