-- ==== Sys2Proof/Machine/Transcend.lean ====
section
/-! DEFINITION. The transcendentals (R246, R247): RoundNearestEven of the exact value, as the K96 returns it.
Reciprocals and roots are exact by integer division with a sticky remainder; the others are formed in fixed point
with far more bits than FP32 needs, and rounded as a value that is not on the grid (DEDUCED, log 15). -/

namespace Sys2Proof.Machine

/-- floor(pi * 2^448) and floor(ln 2 * 2^256). -/
def piFix : Nat := 0x3243f6a8885a308d313198a2e03707344a4093822299f31d0082efa98ec4e6c89452821e638d01377be5466cf34e90c6cc0ac29b7c97c50dd
def ln2Fix : Nat := 0xb17217f7d1cf79abc9e3b39803f2f6af40f343267298b62d8a0d175b8baafa2b

/-- The integer square root, from bit `n - 1` down: `r` is the root found so far. -/
def isqrtFrom (v : Nat) : Nat → Nat → Nat
  | 0, r => r
  | n + 1, r => isqrtFrom v n (if (r + 2 ^ n) * (r + 2 ^ n) ≤ v then r + 2 ^ n else r)

/-- The result of a positive value v = m * 2^e with a sticky tail. -/
def rneF32 (neg st : Bool) (m : Nat) (e : Int) : Word := BitVec.ofNat 32 (FF.f32.round .ne st (.fin neg m e))

def nanW : Word := 0x7FC00000#32
def infW (neg : Bool) : Word := if neg then 0xFF800000#32 else 0x7F800000#32
def zeroW (neg : Bool) : Word := if neg then 0x80000000#32 else 0
def oneW (neg : Bool) : Word := if neg then 0xBF800000#32 else 0x3F800000#32

/-- FRCP (R247). -/
def fRcp (a : Word) : Word :=
  match f32 a with
  | .nan => nanW
  | .inf n => zeroW n
  | .fin n m e => if m = 0 then infW n else rneF32 n (2 ^ 96 % m != 0) (2 ^ 96 / m) (-96 - e)

/-- FSQRT (R247). -/
def fSqrt (a : Word) : Word :=
  match f32 a with
  | .nan => nanW
  | .inf n => if n then nanW else infW false
  | .fin n m e =>
    if m = 0 then zeroW n
    else if n then nanW
    else
      let k : Nat := if e % 2 = 0 then 64 else 65
      let v := m * 2 ^ k
      let r := isqrtFrom v 46 0
      rneF32 false (r * r != v) r ((e - k) / 2)

/-- FRSQ (R247): the root of 2^(2j) / m. -/
def fRsq (a : Word) : Word :=
  match f32 a with
  | .nan => nanW
  | .inf n => if n then nanW else 0
  | .fin n m e =>
    if m = 0 then infW n
    else if n then nanW
    else
      let (m, e) := if e % 2 = 0 then (m, e) else (2 * m, e - 1)
      let v := 2 ^ 160 / m
      let r := isqrtFrom v 81 0
      rneF32 false (r * r * m != 2 ^ 160) r (-80 - e / 2)

/-- exp of y / 2^256 in units of 2^-256, by its series: `t` is the term for k. -/
def expSeries (y : Nat) : Nat → Nat → Nat → Nat → Nat
  | 0, _, _, acc => acc
  | n + 1, k, t, acc =>
    let t := t * y / 2 ^ 256 / (k + 1)
    expSeries y n (k + 1) t (acc + t)

/-- FEXP2 (R247): 2^n * exp(f * ln 2) for A = n + f. -/
def fExp2 (a : Word) : Word :=
  match f32 a with
  | .nan => nanW
  | .inf n => if n then 0 else infW false
  | .fin neg m e =>
    if 128 * 2 ^ 149 ≤ m * 2 ^ (e + 149).toNat ∧ !neg then infW false
    else if 160 * 2 ^ 149 ≤ m * 2 ^ (e + 149).toNat then 0
    else
      let v : Int := scaled neg m e (-149)
      let n : Int := v / 2 ^ 149
      let f : Nat := (v % 2 ^ 149).toNat
      if f = 0 then rneF32 false false 1 n
      else
        let y := f * ln2Fix / 2 ^ 149
        rneF32 false true (expSeries y 70 0 (2 ^ 256) (2 ^ 256)) (n - 256)

/-- The first `n` binary digits of log2(z / 2^400), for 1 ≤ z / 2^400 < 2, by repeated squaring. -/
def log2Digits : Nat → Nat → Nat → Nat
  | 0, _, acc => acc
  | n + 1, z, acc =>
    let z := z * z / 2 ^ 400
    if 2 ^ 401 ≤ z then log2Digits n (z / 2) (2 * acc + 1) else log2Digits n z (2 * acc)

/-- FLOG2 (R247). -/
def fLog2 (a : Word) : Word :=
  match f32 a with
  | .nan => nanW
  | .inf n => if n then nanW else infW false
  | .fin n m e =>
    if m = 0 then infW true
    else if n then nanW
    else
      let b := bits m - 1
      let k : Int := b + e
      if m = 2 ^ b then toF32 (.fin (decide (k < 0)) k.natAbs 0)
      else
        let v : Int := k * 2 ^ 144 + log2Digits 144 (m * 2 ^ (400 - b)) 0
        if 0 ≤ v then rneF32 false true v.toNat (-144) else rneF32 true true (v.natAbs - 1) (-144)

/-- sin of y / 2^448 by its series: `t` is the term of degree k. -/
def sinSeries (y2 : Nat) : Nat → Nat → Int → Int → Int
  | 0, _, _, acc => acc
  | n + 1, k, t, acc =>
    let t : Int := -(t * y2 / 2 ^ 448) / ((k + 1) * (k + 2) : Nat)
    sinSeries y2 n (k + 2) t (acc + t)

/-- sin(pi * r), r in units of 2^-150, r < 2: the sign, and the magnitude or an exact value. `z` is the sign of a
zero result. -/
def sinPi (r : Nat) (flip z : Bool) : Word :=
  let (neg, r) := if 2 ^ 150 ≤ r then (!flip, r - 2 ^ 150) else (flip, r)
  let t := if 2 ^ 149 < r then 2 ^ 150 - r else r
  if t = 0 then zeroW z
  else if t = 2 ^ 149 then oneW neg
  else
    let y := t * piFix / 2 ^ 150
    rneF32 neg true (sinSeries (y * y / 2 ^ 448) 60 1 y y).toNat (-448)

/-- FSIN (R247): sin(pi A). -/
def fSin (a : Word) : Word :=
  match f32 a with
  | .nan | .inf _ => nanW
  | .fin n m e => sinPi (m * 2 ^ (e + 150).toNat % 2 ^ 151) n n

/-- FCOS (R247): cos(pi A) = sin(pi (|A| + 1/2)). -/
def fCos (a : Word) : Word :=
  match f32 a with
  | .nan | .inf _ => nanW
  | .fin _ m e => sinPi ((m * 2 ^ (e + 150).toNat + 2 ^ 149) % 2 ^ 151) false false

end Sys2Proof.Machine
end

