-- ==== Sys2Proof/Machine/Float.lean ====
section
/-! DEFINITION. Floating point, packed arithmetic and conversions (R239 to R253). -/

namespace Sys2Proof.Machine

/-- R81, R238: a small immediate as one element of a format, as its bits. -/
def immAs (t : Ty) (v : Fin 32) : Nat :=
  let x := immVal v
  if t.float then
    let r := (ffOf t).round .ne false (.fin (decide (x < 0)) x.natAbs 0)
    if t == .e5m2 && !(valueOf t r).eqv (valueOf .i32 (x % 2 ^ 32).toNat) then (Config.e5m2Imm v.val).toNat else r
  else (x % 2 ^ tyWidth t).toNat

/-- The element repeated to fill a register. -/
def splat (w x : Nat) : Word := BitVec.ofNat 32 ((List.range (32 / w)).foldl (fun a i => a + x * 2 ^ (w * i)) 0)

/-- A source of elements of type `t`: a small immediate stands in every element (R238). -/
def Hand.rdE (hd : Hand) (ln : Lane) (t : Ty) : Src → Word
  | .o (.imm v) => splat (tyWidth t) (immAs t v)
  | x => hd.rd ln x
/-- A 64-bit source of elements; an immediate stands in both registers. -/
def Hand.rdE64 (hd : Hand) (ln : Lane) (t : Ty) : Src → Dword
  | .o (.imm v) => let w := splat (tyWidth t) (immAs t v); pair64 w w
  | x => hd.rd64 ln x
/-- An FP32 source. -/
def Hand.rdF (hd : Hand) (ln : Lane) (x : Src) : Word := hd.rdE ln .f32 x

/-- The B operand of a long form, as FP32 bits (R199). -/
def immF (v : Word) : Src := .i (v.setWidth 64)

/-- D ← f(A, B) on FP32. -/
def fltBin (h : Hdr) (d a : Opnd) (b : Src) (f : Word → Word → Word) (s : State) : Out :=
  s.shortOp h [(.dst, .o d), (.src, .o a), (.src, b)] noMore fun hd dep ln =>
    hd.wr dep ln d (f (hd.rdF ln (.o a)) (hd.rdF ln b))
/-- D ← A x B + C (R110 FMA). -/
def fltFma (h : Hdr) (d a : Opnd) (b : Src) (c : Opnd) (s : State) : Out :=
  s.shortOp h [(.dst, .o d), (.src, .o a), (.src, b), (.src, .o c)] noMore fun hd dep ln =>
    hd.wr dep ln d (f32Fma (hd.rdF ln (.o a)) (hd.rdF ln b) (hd.rdF ln (.o c)))
/-- D ← f(A), long-class, on a pipe for 8 cycles (R237). -/
def fltLong (h : Hdr) (d a : Opnd) (f : Word → Word) (s : State) : Out :=
  s.longOp h 4 [(.dst, .o d), (.src, .o a)] noMore fun hd dep ln => hd.half dep ln d (f (hd.rdF ln (.o a)))

/-- R242: the compare conditions on FP32 values. -/
def condFlt (c : Cond) (a b : Num) : Bool :=
  let un := a.isNan || b.isNan
  match c with
  | .eq => a.eqv b
  | .ne => !a.eqv b
  | .lt => a.lt b
  | .le => !un && !b.lt a
  | .gt => b.lt a
  | .ge => !un && !a.lt b
  | .num => !un
  | .nan => un

/-- R242: a compare into a predicate. -/
def fltCmp (h : Hdr) (cond : Cond) (d : POpnd) (a : Opnd) (b : Src) (s : State) : Out :=
  s.shortOp h [(.src, .o a), (.src, b)] (fun u => pdstOk u d) fun hd _ ln =>
    hd.wrP ln d (condFlt cond (f32 (hd.rdF ln (.o a))) (f32 (hd.rdF ln b)))

/-- R243: the class mask. -/
def fClass (a : Word) : Word :=
  match f32 a with
  | .nan => 0x100#32
  | .inf n => if n then 1 else 0x80#32
  | .fin n m _ =>
    let sub := m < 2 ^ 23
    if m = 0 then (if n then 8 else 0x10#32)
    else if n then (if sub then 4 else 2) else (if sub then 0x20#32 else 0x40#32)

/-- R244: the mode that B's specifier names. -/
def frndMode : Opnd → Option RMode
  | .imm v => match v.val with
    | 16 => some .ne | 17 => some .tz | 18 => some .up | 19 => some .dn | _ => none
  | _ => none
/-- R244: A rounded to an integral FP32 value. -/
def fRnd (mode : RMode) (a : Word) : Word :=
  match f32 a with
  | .nan => nanW
  | .inf _ => a
  | .fin n m e =>
    if m = 0 ∨ 0 ≤ e then a else toF32 (.fin n (roundShift mode n false m (-e).toNat) 0)

/-- R245: A x 2^n. -/
def fScale (a : Word) (n : Int) : Word :=
  match f32 a with
  | .nan => nanW
  | .inf _ => a
  | .fin s m e => if m = 0 then a else
    toF32 (.fin s m (e + max (-1000) (min 1000 n)))

/-- FADD (R240). -/
def execFadd (h : Hdr) (d a b : Opnd) (s : State) : Out := fltBin h d a (.o b) f32Add s
/-- FADD (R240). Long form. -/
def execFaddImm (h : Hdr) (d a : Opnd) (imm : Word) (s : State) : Out := fltBin h d a (immF imm) f32Add s
/-- FMUL (R240). -/
def execFmul (h : Hdr) (d a b : Opnd) (s : State) : Out := fltBin h d a (.o b) f32Mul s
/-- FMUL (R240). Long form. -/
def execFmulImm (h : Hdr) (d a : Opnd) (imm : Word) (s : State) : Out := fltBin h d a (immF imm) f32Mul s
/-- FMIN (R241). -/
def execFmin (h : Hdr) (d a b : Opnd) (s : State) : Out := fltBin h d a (.o b) (f32MinMax false) s
/-- FMIN (R241). Long form. -/
def execFminImm (h : Hdr) (d a : Opnd) (imm : Word) (s : State) : Out := fltBin h d a (immF imm) (f32MinMax false) s
/-- FMAX (R241). -/
def execFmax (h : Hdr) (d a b : Opnd) (s : State) : Out := fltBin h d a (.o b) (f32MinMax true) s
/-- FMAX (R241). Long form. -/
def execFmaxImm (h : Hdr) (d a : Opnd) (imm : Word) (s : State) : Out := fltBin h d a (immF imm) (f32MinMax true) s
/-- FSUB (R240). -/
def execFsub (h : Hdr) (d a b : Opnd) (s : State) : Out := fltBin h d a (.o b) f32Sub s
/-- FFMA (R240, R110). -/
def execFfma (h : Hdr) (d a b c : Opnd) (s : State) : Out := fltFma h d a (.o b) c s
/-- FFMA (R240, R110). Long form: it multiplies by the immediate (R206). -/
def execFfmaImm (h : Hdr) (d a c : Opnd) (imm : Word) (s : State) : Out := fltFma h d a (immF imm) c s
/-- FCMP (R242). -/
def execFcmp (h : Hdr) (cond : Cond) (d : POpnd) (a b : Opnd) (s : State) : Out := fltCmp h cond d a (.o b) s
/-- FCMP (R242). Long form. -/
def execFcmpImm (h : Hdr) (cond : Cond) (d : POpnd) (a : Opnd) (imm : Word) (s : State) : Out :=
  fltCmp h cond d a (immF imm) s
/-- FCLASS (R243). -/
def execFclass (h : Hdr) (d a : Opnd) (s : State) : Out :=
  s.shortOp h [(.dst, .o d), (.src, .o a)] noMore fun hd dep ln => hd.wr dep ln d (fClass (hd.rdF ln (.o a)))
/-- FRND (R244): B is a small immediate from 0 to 3. -/
def execFrnd (h : Hdr) (d a b : Opnd) (s : State) : Out :=
  s.shortOp h [(.dst, .o d), (.src, .o a)] (fun _ => (frndMode b).isSome) fun hd dep ln =>
    hd.wr dep ln d (fRnd ((frndMode b).getD .ne) (hd.rdF ln (.o a)))
/-- FSCALE (R245): B is a signed integer. -/
def execFscale (h : Hdr) (d a b : Opnd) (s : State) : Out :=
  s.shortOp h [(.dst, .o d), (.src, .o a), (.src, .o b)] noMore fun hd dep ln =>
    hd.wr dep ln d (fScale (hd.rdF ln (.o a)) (hd.rd ln (.o b)).toInt)
/-- FRCP (R246, R247). -/
def execFrcp (h : Hdr) (d a : Opnd) (s : State) : Out := fltLong h d a fRcp s
/-- FRSQ (R246, R247). -/
def execFrsq (h : Hdr) (d a : Opnd) (s : State) : Out := fltLong h d a fRsq s
/-- FSQRT (R246, R247). -/
def execFsqrt (h : Hdr) (d a : Opnd) (s : State) : Out := fltLong h d a fSqrt s
/-- FEXP2 (R246, R247). -/
def execFexp2 (h : Hdr) (d a : Opnd) (s : State) : Out := fltLong h d a fExp2 s
/-- FLOG2 (R246, R247). -/
def execFlog2 (h : Hdr) (d a : Opnd) (s : State) : Out := fltLong h d a fLog2 s
/-- FSIN (R246, R247). -/
def execFsin (h : Hdr) (d a : Opnd) (s : State) : Out := fltLong h d a fSin s
/-- FCOS (R246, R247). -/
def execFcos (h : Hdr) (d a : Opnd) (s : State) : Out := fltLong h d a fCos s

/-! ### Packed 16-bit (R248) -/

/-- Element `i` of width `w` of a register. -/
def elemOf (w i : Nat) (x : Word) : Nat := x.toNat / 2 ^ (w * i) % 2 ^ w
/-- Elements of width `w` put together from the low end (R96). -/
def packElems (w : Nat) : List Nat → Nat
  | [] => 0
  | x :: r => x % 2 ^ w + 2 ^ w * packElems w r

/-- Both halves by one function of their values, each rounded once. -/
def half2 (t : Ty) (f : Nat → Num) : Word :=
  BitVec.ofNat 32 (packElems 16 [(ffOf t).round .ne false (f 0), (ffOf t).round .ne false (f 1)])

/-- Element h of a packed source, as its value. -/
def Hand.el2 (hd : Hand) (ln : Lane) (t : Ty) (x : Opnd) (i : Nat) : Num := valueOf t (elemOf 16 i (hd.rdE ln t (.o x)))

/-- HADD2 (R248). -/
def execHadd2 (h : Hdr) (t : Ty) (d a b : Opnd) (s : State) : Out :=
  s.shortOp h [(.dst, .o d), (.src, .o a), (.src, .o b)] noMore fun hd dep ln =>
    hd.wr dep ln d (half2 t fun i => (hd.el2 ln t a i).add (hd.el2 ln t b i))
/-- HMUL2 (R248). -/
def execHmul2 (h : Hdr) (t : Ty) (d a b : Opnd) (s : State) : Out :=
  s.shortOp h [(.dst, .o d), (.src, .o a), (.src, .o b)] noMore fun hd dep ln =>
    hd.wr dep ln d (half2 t fun i => (hd.el2 ln t a i).mul (hd.el2 ln t b i))
/-- HFMA2 (R248). -/
def execHfma2 (h : Hdr) (t : Ty) (d a b c : Opnd) (s : State) : Out :=
  s.shortOp h [(.dst, .o d), (.src, .o a), (.src, .o b), (.src, .o c)] noMore fun hd dep ln =>
    hd.wr dep ln d (half2 t fun i => ((hd.el2 ln t a i).mul (hd.el2 ln t b i)).add (hd.el2 ln t c i))

/-! ### Conversion (R249 to R253) -/

/-- R100, R103: the rounding of a conversion. -/
def cvtMode (dst : Ty) (r : Rnd) : RMode :=
  match r with
  | .rz => .tz
  | .ru => .up
  | .rd => .dn
  | .dflt => if [Ty.e4m3, .e5m2, .i8, .z8, .i4].contains dst then .na else .ne

/-- R103: one element converted, as the destination's bits. An integer that is widened is extended by its sign. An
integer of the destination's width saturates as a narrowed one does (DESIGN CHOICE, log 72). -/
def cvtElem (dst src : Ty) (r : Rnd) (x : Nat) : Nat :=
  if !dst.float && !src.float && decide (tyWidth src < tyWidth dst) then
    (intOf src x % 2 ^ tyWidth dst).toNat
  else convertTo dst (cvtMode dst r) (valueOf src x)

/-- R249: an integer narrower than 32 bits is extended in its register. -/
def cvtWiden (dst : Ty) (x : Nat) : Word :=
  if dst.float then BitVec.ofNat 32 x else BitVec.ofInt 32 (intOf dst x)

/-- CVT (R249, R250). -/
def execCvt (h : Hdr) (dst src : Ty) (rnd : Rnd) (d a : Opnd) (s : State) : Out :=
  s.shortOp h [(rdst dst, .o d), (rsrc src, .o a)] noMore fun hd dep ln =>
    let x : Nat := if src.is64 then (hd.rd64 ln (.o a)).toNat else (hd.rdE ln src (.o a)).toNat
    let y := cvtElem dst src rnd x
    if dst.is64 then hd.wr64 dep ln d (BitVec.ofNat 64 y) else hd.wr dep ln d (cvtWiden dst y)

/-- R251: which operands of a row are pairs. -/
def cvtpPairs (r : Option CvtpRow) : Role × Role :=
  match r with
  | some .two | some .four16 | some .eight | none => (.dst, .src)
  | some .four => (.dst, .src64)
  | some .wide16 | some .wide8 | some .half8 | some .wide4 => (.dst64, .src)

/-- R251: elements i, i + 1, ... of a register, converted and packed. -/
def cvtRun (dst src : Ty) (r : Rnd) (w : Nat) (x : Word) (i n : Nat) : List Nat :=
  (List.range n).map fun j => cvtElem dst src r (elemOf w (i + j) x)

/-- CVTP (R251). -/
def execCvtp (h : Hdr) (dst src : Ty) (rnd : Rnd) (half : Bool) (d a b : Opnd) (s : State) : Out :=
  let row := cvtpRow dst src
  let ra := (cvtpPairs row).2
  let args : List Arg := [((cvtpPairs row).1, .o d), (ra, .o a)] ++
    (match row with | some x => if x.usesB then [(ra, .o b)] else [] | none => [])
  s.shortOp h args noMore fun hd dep ln =>
    let va := hd.rdE ln src (.o a)
    let vb := hd.rdE ln src (.o b)
    let one (x : Word) : Nat := cvtElem dst src rnd x.toNat
    let w32 (w : Nat) (l : List Nat) : Hand := hd.wr dep ln d (BitVec.ofNat 32 (packElems w l))
    let w64 (w : Nat) (l : List Nat) : Hand := hd.wr64 dep ln d (BitVec.ofNat 64 (packElems w l))
    match row with
    | none => hd
    | some .two => w32 16 [one va, one vb]
    | some .four =>
      let pa := hd.rdE64 ln src (.o a)
      let pb := hd.rdE64 ln src (.o b)
      w32 8 [one (lo32 pa), one (hi32 pa), one (lo32 pb), one (hi32 pb)]
    | some .four16 => w32 8 (cvtRun dst src rnd 16 va 0 2 ++ cvtRun dst src rnd 16 vb 0 2)
    | some .eight => w32 4 (cvtRun dst src rnd 8 va 0 4 ++ cvtRun dst src rnd 8 vb 0 4)
    | some .wide16 => w64 32 (cvtRun dst src rnd 16 va 0 2)
    | some .wide8 => w64 16 (cvtRun dst src rnd 8 va 0 4)
    | some .half8 => w64 32 (cvtRun dst src rnd 8 va (if half then 2 else 0) 2)
    | some .wide4 => w64 8 (cvtRun dst src rnd 4 va 0 8)

/-- R252 Fit: the least exponent at which |x| fits, or 254. -/
def twinFit (f : Twin) (x : Num) : Nat :=
  match x with
  | .fin _ m e =>
    ((List.range 255).find? fun (k : Nat) => (roundInt .na false m (e - ((k : Int) - 127))).toNat ≤ twinMax f).getD 254
  | _ => 254

/-- |x|. -/
def Num.abs : Num → Num
  | .nan => .nan
  | .inf _ => .inf false
  | .fin _ m e => .fin false m e

/-- R252: the scale word of a block: EHI and DELTA. -/
def twinScale (f : Twin) (xs : List Num) : Nat × Nat :=
  if xs.any Num.isNan then (255, 0)
  else
    let fs := (xs.filter fun x => !x.isInf).map Num.abs
    let amax := fs.foldl (fun a x => if a.lt x then x else a) (.fin false 0 0)
    let nz := fs.filter fun x => !x.isZero
    let amin := match nz with
      | [] => amax
      | x :: r => r.foldl (fun a x => if x.lt a then x else a) x
    let e := twinFit f amax
    (e, min 31 (e - twinFit f amin))

/-- TSPACK (R252). -/
def execTspack (h : Hdr) (tw : Twin) (d a : Opnd) (s : State) : Out :=
  s.onLanes h 2 [(.dst64, .o d), (.src, .o a)] noMore fun i lanes s =>
    let ts := lanes.filterMap fun ln => match ln with | .thr t => some t | .uni => none
    let val (t : Nat) : Num := f32 (i.hd.rdF (.thr t) (.o a))
    let sc (g : Nat) : Nat × Nat := twinScale tw ((ts.filter fun t => t / 32 == g).map val)
    let scs := [sc 0, sc 1, sc 2, sc 3]
    .next ((s.updHand i.c.team i.c.hix fun hd => ts.foldl (fun hd t =>
      let (e, dl) := scs.getD (t / 32) (0, 0)
      hd.wr64 i.tm.depth (.thr t) d
        (pair64 (BitVec.ofNat 32 (e * 256 + dl * 8)) (BitVec.ofNat 32 (twinElement tw e dl (val t))))) hd).advance i h)

/-- TSUNPACK (R253). -/
def execTsunpack (h : Hdr) (tw : Twin) (d a b : Opnd) (s : State) : Out :=
  s.shortOp h [(.dst, .o d), (.src, .o a), (.src, .o b)] noMore fun hd dep ln =>
    hd.wr dep ln d (toF32 (twinDecode tw ((hd.rd ln (.o b)).toNat % 65536) (hd.rd ln (.o a)).toNat))

end Sys2Proof.Machine
end

