-- ==== Sys2Proof/Machine/CrossLane.lean ====
section
/-! DEFINITION. Cross-lane instructions (R254 to R261), and the operations that they share with atomics and
reductions (R271). -/

namespace Sys2Proof.Machine

/-- R260, R271: an integer operation; `m` is the earlier operand. -/
def redInt {w : Nat} (op : RedOp) (signed : Bool) (m v : BitVec w) : BitVec w :=
  match op with
  | .add => m + v
  | .min => if condInt .lt signed v m then v else m
  | .max => if condInt .lt signed m v then v else m
  | .and => m &&& v
  | .or => m ||| v
  | .xor => m ^^^ v
  | .xchg | .cadd => v

/-- R134, R241, R260: an FP32 operation. -/
def redF32 (op : RedOp) (m v : Word) : Word :=
  match op with
  | .add => f32Add m v
  | .min => f32MinMax false m v
  | .max => f32MinMax true m v
  | _ => v

/-- The operation on values of type `t`, held in 64 bits. -/
def redVal (t : Ty) (op : RedOp) (m v : Dword) : Dword :=
  if t.is64 then redInt op t.signed m v
  else if t == .f32 then (redF32 op (lo32 m) (lo32 v)).setWidth 64
  else (redInt op t.signed (lo32 m) (lo32 v)).setWidth 64

/-- The threads of vector lanes. -/
def laneTids (lanes : List Lane) : List Nat :=
  lanes.filterMap fun ln => match ln with | .thr t => some t | .uni => none

/-- A value of type `t`, zero-extended to 64 bits. -/
def Hand.rdT (hd : Hand) (ln : Lane) (t : Ty) (o : Opnd) : Dword :=
  if t.is64 then hd.rd64 ln (.o o)
  else if t == .f32 then (hd.rdF ln (.o o)).setWidth 64 else (hd.rd ln (.o o)).setWidth 64
/-- The halves of a result of type `t`. -/
def Hand.outT (hd : Hand) (depth : Nat) (ln : Lane) (t : Ty) (o : Opnd) (v : Dword) : List (Dst × Option Word) :=
  if t.is64 then hd.halves depth ln o v else hd.half depth ln o (lo32 v)

/-- R94: a result of type `t`; an FP32 NaN is the canonical one. -/
def canonT (t : Ty) (v : Dword) : Dword := if t == .f32 && (f32 (lo32 v)).isNan then nanW.setWidth 64 else v
/-- R94: an FP32 result. -/
def canonF (v : Word) : Word := if (f32 v).isNan then nanW else v

/-- A cross-lane instruction on the participants `ts`: thread t receives `f hd ts t` (R254). -/
def crossOp (h : Hdr) (t : Ty) (d : Opnd) (args : List Arg) (more : Bool → Bool)
    (f : Hand → List Nat → Nat → Dword) (s : State) : Out :=
  s.onLanes h 2 ((rdst t, .o d) :: args) more fun i lanes s =>
    let ts := laneTids lanes
    .next ((s.post i.c.team i.c.hix (ts.flatMap fun u =>
      i.hd.outT i.tm.depth (.thr u) t d (f i.hd ts u))).advance i h)

/-- R255: the source thread of SHFL. -/
def shflSrc (mode : ShflMode) (w t b : Nat) : Nat :=
  let base := t - t % w
  match mode with
  | .idx => base + b % w
  | .up => if b ≤ t - base then t - b else t
  | .down => if b < base + w - t then t + b else t
  | .bfly => t ^^^ (b % w)

/-- SHFL (R255). -/
def execShfl (h : Hdr) (t : Ty) (mode : ShflMode) (seg : BitVec 3) (d a b : Opnd) (s : State) : Out :=
  crossOp h t d [(rsrc t, .o a), (.src, .o b)] noMore (fun hd ts u =>
    let src := shflSrc mode (2 ^ seg.toNat) u (hd.rd (.thr u) (.o b)).toNat
    hd.rdT (.thr (if ts.contains src then src else u)) t a) s

/-- BCAST (R256): B is a uniform source. -/
def execBcast (h : Hdr) (t : Ty) (d a b : Opnd) (s : State) : Out :=
  crossOp h t d [(rsrc t, .o a), (.usrc, .o b)] noMore (fun hd ts u =>
    let src := (hd.rdO .uni b).toNat % 128
    hd.rdT (.thr (if ts.contains src then src else u)) t a) s

/-- MATCH (R259): D is a 32-bit register. -/
def execMatchI (h : Hdr) (t : Ty) (d a : Opnd) (s : State) : Out :=
  crossOp h .i32 d [(rsrc t, .o a)] noMore (fun hd ts u =>
    BitVec.ofNat 64 ((ts.find? fun v => hd.rdT (.thr v) t a == hd.rdT (.thr u) t a).getD u)) s

/-- VOTE (R257). -/
def execVote (h : Hdr) (mode : VoteMode) (d a : POpnd) (s : State) : Out :=
  s.onLanes h 2 [] (fun u => pdstOk u d && psrcOk u a) fun i lanes s =>
    let v (ln : Lane) : Bool := i.hd.rdP ln a
    let r : Bool := match mode with
      | .all => lanes.all v
      | .any => lanes.any v
      | .uni => lanes.all v || !lanes.any v
    .next ((s.post i.c.team i.c.hix (lanes.map fun ln => (pdstOf ln d, some (if r then 1 else 0)))).advance i h)

/-- BALLOT (R258). -/
def execBallot (h : Hdr) (turn : BitVec 2) (d : Opnd) (a : POpnd) (s : State) : Out :=
  s.onLanes h 2 [(.dst, .o d)] (fun u => psrcOk u a) fun i lanes s =>
    let bits := ((laneTids lanes).filter fun t => t / 32 == turn.toNat && i.hd.rdP (.thr t) a).map fun t => t % 32
    let m : Word := (maskOf bits).setWidth 32
    .next ((s.post i.c.team i.c.hix (lanes.flatMap fun ln => i.hd.half i.tm.depth ln d m)).advance i h)

/-- REDUX (R260, R108, R109). -/
def execRedux (h : Hdr) (t : Ty) (op : RedOp) (d a : Opnd) (s : State) : Out :=
  if op == .cadd then
    crossOp h .i64 d [(.src64, .o a)] noMore (fun hd ts _ =>
      let v (u : Nat) : Option (Word × Word) :=
        if ts.contains u then
          let lo := match a with | .imm _ => hd.rdF (.thr u) (.o a) | _ => lo32 (hd.rd64 (.thr u) (.o a))
          let hi := match a with | .imm _ => hd.rdF (.thr u) (.o a) | _ => hi32 (hd.rd64 (.thr u) (.o a))
          some (lo, hi)
        else none
      let r := (treeReduce compAdd 7 ((List.range 128).map v)).getD (0, 0)
      pair64 (canonF r.2) (canonF r.1)) s
  else
    crossOp h t d [(rsrc t, .o a)] noMore (fun hd ts _ =>
      let v (u : Nat) : Option Dword := if ts.contains u then some (hd.rdT (.thr u) t a) else none
      canonT t ((treeReduce (redVal t op) 7 ((List.range 128).map v)).getD 0)) s

/-- R261: the inclusive prefix up to thread `u`. -/
def scanTo (f : Dword → Dword → Dword) : List Dword → Option Dword
  | [] => none
  | x :: r => some (r.foldl f x)

/-- SCAN (R261). -/
def execScan (h : Hdr) (t : Ty) (op : RedOp) (d a : Opnd) (s : State) : Out :=
  crossOp h t d [(rsrc t, .o a)] noMore (fun hd ts u =>
    canonT t ((scanTo (redVal t op) ((ts.filter fun v => v ≤ u).map fun v => hd.rdT (.thr v) t a)).getD 0)) s

end Sys2Proof.Machine
end

