-- ==== Sys2Proof/Machine/Access.lean ====
section
/-! DEFINITION. Accesses of threads: global and scratchpad addresses (R111, R112, R47, R264), the store buffer of a
hand and how its writes are performed at home (R116, R120, R130 to R136), origin entries and request slots (R263,
R380), and imprecise store faults (R381). -/

namespace Sys2Proof.Machine

/-- Where an address leads, or the fault of the access (R264). -/
inductive Acc
  | at (l : Loc) (unc : Bool)
  | flt (f : Flt)
  | wait
  deriving DecidableEq, Repr

/-- The bytes of an access of type `t` (R263). -/
def tySize (t : Ty) : Nat := tyWidth t / 8

/-- R200: a global effective address, modulo 2^64. -/
def eaG (base : Dword) (disp : Word) : Nat := (base + disp.signExtend 64).toNat
/-- R200: a scratchpad effective address, modulo 2^32. -/
def eaS (base disp : Word) : Nat := (base + disp).toNat

/-- A global access of `n` bytes: checks 1 to 3 of R264. -/
def State.accG (s : State) (tm : Team) (privT : Bool) (va n : Nat) (k : AccKind) : Acc × State :=
  if va % n ≠ 0 then (.flt { cause := 7, d0 := BitVec.ofNat 64 va }, s)
  else match s.translateOpnd tm.core (s.pasidOf tm) va k privT with
    | (.ok pa unc, s) => (.at (.mem pa) unc, s)
    | (.fail c d0 d1, s) => (.flt { cause := c, d0, d1 }, s)
    | (.wait, s) => (.wait, s)

/-- R47 SPADR: the scratchpad size rounded up to 64 KiB. -/
def spadR (tm : Team) : Nat := ceilDiv tm.spad 65536 * 65536

/-- The launch record of a team. -/
def State.recOf (s : State) (tm : Team) : LaunchRec :=
  match s.launch? tm.part tm.launch with | some l => l.record | none => ⟨0, 0, 0, 0, 0, 0, 0, 0⟩
/-- R44: fields of the launch record. -/
def LaunchRec.s3 (r : LaunchRec) : Nat := fld r.w1 15 12
def LaunchRec.s6 (r : LaunchRec) : Nat := fld r.w4 63 32
def LaunchRec.spill (r : LaunchRec) : Nat := fld r.w6 51 0

/-- R47: the global address of a byte of the over-request area. -/
def State.overVa (s : State) (tm : Team) (a : Nat) : Nat := (s.recOf tm).spill + tm.n * spadR tm + (a - tm.share)

/-- A scratchpad access of `n` bytes (R112, R47, R264): checks 1 to 3. In the gang window a team of no gang finds the teams of its group
of S3 that belong to none (DESIGN CHOICE, log 72). -/
def State.accS (s : State) (tm : Team) (privT : Bool) (a n : Nat) (k : AccKind) : Acc × State :=
  let bounds : Acc := .flt { cause := 0x0A, d0 := BitVec.ofNat 64 a, d1 := 1 }
  if a % n ≠ 0 then (.flt { cause := 7, d0 := BitVec.ofNat 64 a, d1 := 1 }, s)
  else if a < 0x10000000 then
    if a < tm.share then (.at (.slice tm.core (tm.sbase + a)) false, s)
    else if a < tm.spad then
      match s.translateOpnd tm.core (s.pasidOf tm) (s.overVa tm a) k privT with
      | (.ok pa unc, s) => (.at (.mem pa) unc, s)
      | (.fail c d0 d1, s) => (.flt { cause := c, d0, d1 }, s)
      | (.wait, s) => (.wait, s)
    else (bounds, s)
  else if a < 0x1C000000 then
    let c := (a - 0x10000000) / 0x80000
    let o := (a - 0x10000000) % 0x80000
    if s.teams.any fun t => t.resident && t.part == tm.part && t.launch == tm.launch && t.core == c
        && decide (t.sbase ≤ o ∧ o < t.sbase + t.share) then (.at (.slice c o) false, s)
    else (.flt { cause := 9 }, s)
  else if a < 0x1C300000 then
    let j := (a - 0x1C000000) / 0x80000
    let o := (a - 0x1C000000) % 0x80000
    let s3 := (s.recOf tm).s3
    if s3 ≤ j then (bounds, s)
    else match s.teams.find? fun t => t.resident && t.part == tm.part && t.launch == tm.launch
        && t.gang == tm.gang && t.n / s3 == tm.n / s3 && t.n % s3 == j with
      | some t => if o < t.share then (.at (.slice t.core (t.sbase + o)) false, s) else (bounds, s)
      | none => (bounds, s)
  else (bounds, s)

/-! ### Reading and writing places -/

/-- The bytes at a place, as its home or bank holds them. -/
def State.readLoc (s : State) (l : Loc) (n : Nat) : List Byte :=
  match l with
  | .slice c o => (s.core c).spad.getRun 0 o n
  | .mem pa => s.bytesAt pa n

/-- Write bytes at a place; a write to memory is performed at its home. -/
def State.writeLoc (s : State) (die : Nat) (l : Loc) (data : List Byte) : State :=
  match l with
  | .slice c o => s.writeSlice die c o data
  | .mem pa => s.writeHome die pa data

/-- Is the place in memory and marked uncorrectable (R393)? -/
def State.badLoc (s : State) (l : Loc) (n : Nat) : Bool :=
  match l with | .slice _ _ => false | .mem pa => s.poisoned pa n || s.unreachable pa

/-- R381: why a write to the place fails. -/
def State.badReason (s : State) (l : Loc) (n : Nat) : Nat :=
  match l with
  | .mem pa => if s.poisoned pa n then 0 else 3
  | .slice _ _ => 0

/-! ### Performing buffered writes -/

/-- The place of a buffered write. -/
def BufWrite.loc (w : BufWrite) : Loc := match w.slice with | some c => .slice c w.pa | none => .mem w.pa
/-- Its length in bytes. -/
def BufWrite.size (w : BufWrite) : Nat := match w.red with | some x => tySize x.ty | none => w.data.length

/-- The place `n` bytes on. -/
def Loc.plus (l : Loc) (n : Nat) : Loc := match l with | .slice c o => .slice c (o + n) | .mem pa => .mem (pa + n)

/-- Do `n` bytes from a place share a byte with the write? -/
def BufWrite.meets (w : BufWrite) (l : Loc) (n : Nat) : Bool :=
  match w.slice, l with
  | some c, .slice c' o => c == c' && decide (w.pa < o + n ∧ o < w.pa + w.size)
  | none, .mem pa => decide (w.pa < pa + n ∧ pa < w.pa + w.size)
  | _, _ => false

/-- The byte that a buffered store leaves at a place. -/
def BufWrite.byte (w : BufWrite) (l : Loc) : Option Byte :=
  if w.red.isNone && w.meets l 1 then (match l with | .slice _ o => w.data[o - w.pa]? | .mem pa => w.data[pa - w.pa]?) else none

/-- A request of an origin entry is performed: its acknowledgement is on its way (R263). -/
def State.ackReq (s : State) (core org : Nat) : State :=
  s.updCore core fun c => { c with origins := c.origins.map fun o =>
                              if o.id == org then { o with performed := o.performed + 1 } else o }

/-- R381: a write that failed after check 3 of R264 fails the launch with an Imprecise-Store record. -/
def State.imprecise (s : State) (core : Nat) (o : Origin) (mask : BitVec 128) (va : Dword) (reason : Nat) : State :=
  let lid : Dword := match s.team? o.team with | some t => t.lid | none => 0
  let a : RecArgs := {
    cause := 0x1B, cls := 5, core, hix := o.hix, addr := o.addr, lid, launch := o.launch, mask, d0 := va,
    d1 := BitVec.ofNat 64 reason }
  s.failLaunch o.part o.launch a

/-- The step of lane `j` of a group (R271, R272): ATOMC compares all bits, then swaps. -/
def Rmw.step (x : Rmw) (j : Nat) (m : Dword) : Dword :=
  match x.swaps[j]? with
  | some c => if m = x.vals.getD j 0 then c else m
  | none => redVal x.ty x.op m (x.vals.getD j 0)

/-- R133, R134: these lanes one after another: the old value that each sees, and the value that the last leaves. -/
def Rmw.chain (x : Rmw) : List Nat → Dword → List Dword × Dword
  | [], m => ([], m)
  | j :: r, m =>
    let (l, e) := x.chain r (x.step j m)
    (m :: l, e)

/-- R133: the lanes of a group at one atomic point, in ascending tid. -/
def Rmw.run (x : Rmw) (m : Dword) : List Dword × Dword := x.chain (List.range x.vals.length) m

/-- The pending results with these numbers are formed (R90). -/
def State.form (s : State) (t h : Nat) (ids : List Nat) (v : Word) : State :=
  s.updHand t h fun hd => { hd with pend := hd.pend.map fun p => if ids.contains p.id then { p with val := some v } else p }

/-- Results that will not come: their destinations are not written. -/
def State.dropResults (s : State) (t h : Nat) (ids : List Nat) : State :=
  s.updHand t h fun hd => ({ hd with pend := hd.pend.filter fun p => !ids.contains p.id }).unmark

/-- The old values of a group are returned (R133). -/
def State.returnOlds (s : State) (w : BufWrite) (x : Rmw) (olds : List Dword) : State :=
  (List.zip x.olds olds).foldl (fun s p =>
    p.1.foldl (fun s y => s.form w.team w.hix [y.1] (if y.2 then hi32 p.2 else lo32 p.2)) s) s

/-- The writer of a buffered write, for its report. -/
def State.writer (s : State) (w : BufWrite) : Origin :=
  let (part, launch) := match s.team? w.team with | some t => (t.part, t.launch) | none => (0, 0)
  { id := w.org, addr := w.code, team := w.team, hix := w.hix, part, launch, mask := w.req, undrained := 0, performed := 0 }

/-- Apply one write at its bank or home (R116, R120): a plain store in its die's view, a strong one at .d or wider, a reduction
and an atomic at the home, one of a scratchpad slice at its bank. A returning atomic at .d or wider finds every earlier store
performed on every die (R130 note 2). One that cannot be made is reported for the threads of its request (R264, R381), and returns
nothing. (DESIGN CHOICE, log 6.) -/
def State.apply (s : State) (core : Nat) (w : BufWrite) : State :=
  let die := dieOf core
  if s.badLoc w.loc w.size then
    let s := s.imprecise core (s.writer w) w.req w.va (s.badReason w.loc w.size)
    match w.red with
    | some x => if x.ret then s.dropResults w.team w.hix (x.olds.flatten.map (·.1)) else s
    | none => s
  else match w.red with
    | some x =>
      let s := if x.ret && w.wide then s.flushAll else s
      let s := match w.slice with | some c => if x.ret then s.meetSlice die c else s | none => s
      let (olds, m) := x.run (BitVec.ofNat 64 (ofBytes (s.readLoc w.loc w.size)))
      (s.writeLoc die w.loc (toBytes w.size m.toNat)).returnOlds w x olds
    | none =>
      if w.data.isEmpty then s
      else match w.slice with
        | some c => s.writeSlice die c w.pa w.data
        | none => if w.wide then s.writeHome die w.pa w.data else s.writePlain die w.pa w.data

/-- Perform one buffered write. Its request is performed with the last write of the request (R263). -/
def State.perform (s : State) (core : Nat) (w : BufWrite) : State :=
  (if w.last && w.org != 0 then s.ackReq core w.org else s).apply core w

/-! ### The regulators (R340) -/

/-- R340: the units that the partition may still have counted in this period. `cap` is the capacity. -/
def State.budgetLeft (s : State) (activity unit part cap : Nat) : Nat :=
  let sh := (s.part part).shares.get activity 0
  let used := match s.budget.find? fun x => x.activity == activity && x.unit == unit && x.part == part with
    | some x => x.n
    | none => 0
  max 1 (cap * sh / 1024) - used

/-- R340, R341: do `n` units more keep the partition within its budget in this period? -/
def State.inBudget (s : State) (activity unit part n cap : Nat) : Bool := decide (n ≤ s.budgetLeft activity unit part cap)

/-- Count units in the current period (R340). -/
def State.countUnits (s : State) (activity unit part n : Nat) : State :=
  if s.budget.any fun x => x.activity == activity && x.unit == unit && x.part == part then
    { s with budget := s.budget.map fun x =>
        if x.activity == activity && x.unit == unit && x.part == part then { x with n := x.n + n } else x }
  else { s with budget := s.budget ++ [⟨activity, unit, part, n⟩] }

/-- The regulated activities, by number (R340), with the capacities of the table. -/
def actHbm : Nat := 0
def actRing : Nat := 1
def actScale : Nat := 2
def actCopy : Nat := 3
def actDealer : Nat := 4
def actEth : Nat := 5
def actNvme : Nat := 6
def capHbm : Nat := 23272
def capRing : Nat := 8192
def capScale : Nat := 6516
def capCopy : Nat := 393216
def capDealer : Nat := 512
def capEth : Nat := 11636
def capNvme : Nat := 232

/-- R118: the stops at which a packet from die `a` to die `b` enters a ring, by die and direction: 0 and 1 the row ring to the next
and to the previous column, 2 the column ring. Dies stand in rows of 4. -/
def ringStops (a b : Nat) : List Nat :=
  let east := (b % 4 + 4 - a % 4) % 4
  (if east = 0 then [] else [a * 3 + (if east ≤ 2 then 0 else 1)]) ++
    (if a / 4 = b / 4 then [] else [(a / 4 * 4 + b % 4) * 3 + 2])

/-- R354: the planes toward a peer that are alive, and the one that a line takes: (line div 128) mod L. -/
def State.livePlanes (s : State) (peer : Nat) : List Nat := (List.range 18).filter fun pl => !s.deadPlanes.contains (peer, pl)
def State.planeOf (s : State) (pa : Nat) : Option Nat :=
  let l := s.livePlanes ((pa - peerBase) / 2 ^ 40)
  l[lineOf pa % l.length]?

/-- R340: what the request of a core for an address enters and is counted by, with its units: the rings, and the port of a
scale-up plane, or on a miss the channel of its HBM. (DESIGN CHOICE, log 62.) -/
def State.requestUnits (s : State) (core pa : Nat) (hbm : Bool) : List (Nat × Nat × Nat × Nat) :=
  (if pa < hbmEnd then (ringStops (dieOf core) (paDie pa)).map fun u => (actRing, u, 1, capRing) else []) ++
    (if peerBase ≤ pa ∧ pa < hostKey then (match s.planeOf pa with | some u => [(actScale, u, 1, capScale)] | none => []) else []) ++
    (if hbm then [(actHbm, paDie pa * 64 + paChan pa, 2, capHbm)] else [])

/-- Do these units keep the partition within its budgets? -/
def State.inBudgets (s : State) (part : Nat) (l : List (Nat × Nat × Nat × Nat)) : Bool :=
  l.all fun x => s.inBudget x.1 x.2.1 part x.2.2.1 x.2.2.2
/-- Count them. -/
def State.countAll (s : State) (part : Nat) (l : List (Nat × Nat × Nat × Nat)) : State :=
  l.foldl (fun s x => s.countUnits x.1 x.2.1 part x.2.2.1) s

/-! ### The compaction unit (R59 to R61) -/

/-- The four words of a work list's descriptor (R59). -/
abbrev WList := List Dword
def WList.base (w : WList) : Nat := fld (w.getD 0 0) 51 0
def WList.cap (w : WList) : Nat := fld (w.getD 1 0) 63 32
def WList.isz (w : WList) : Nat := fld (w.getD 1 0) 31 29
def WList.ovf (w : WList) : Bool := bit (w.getD 1 0) 28
def WList.head (w : WList) : Nat := fld (w.getD 2 0) 63 32
def WList.tail (w : WList) : Nat := fld (w.getD 2 0) 31 0
def WList.rjoin (w : WList) : Nat := fld (w.getD 3 0) 51 0
/-- R59: the size of an item. -/
def WList.size (w : WList) : Nat := 4 * 2 ^ w.isz
/-- R290: a reserved field is nonzero, or ISZ is above 4. -/
def WList.bad (w : WList) : Bool :=
  fld (w.getD 0 0) 63 52 != 0 || decide (4 < w.isz) || fld (w.getD 1 0) 27 0 != 0 || fld (w.getD 3 0) 63 52 != 0
/-- (TAIL - HEAD) mod 2^32. -/
def WList.count (w : WList) : Nat := (w.tail + 2 ^ 32 - w.head) % 2 ^ 32

/-- A list's descriptor as its home holds it. -/
def State.listAt (s : State) (pa : Nat) : WList := (List.range 4).map fun j => s.wordAt (pa + 8 * j)

/-- A 32-bit word that nothing constrains (DESIGN CHOICE, log 8). -/
def freeWord (n : Nat) : Word := BitVec.ofNat 32 ((List.range 32).foldl (fun v i => 2 * v + (if Config.freeBit n i then 1 else 0)) 0)

/-- The item index of a count: the count modulo CAP. With CAP = 0, below the range of R59, it is free (DESIGN CHOICE, log 8). -/
def State.itemIndex (s : State) (w : WList) (count : Nat) : Nat × State :=
  if w.cap = 0 then let (n, s) := s.drawFree; ((freeWord n).toNat, s) else (count % w.cap, s)

/-- R263: the request of an append: its turn and the line of the descriptor. -/
def Append.req (a : Append) : Nat × Nat := (a.tid / 32, lineOf a.desc)

/-- The append is made or has failed: its request is performed with the last append of the request (R263). -/
def State.appendAck (s : State) (a : Append) : State :=
  if s.dies.any fun d => d.appends.any fun x => x.org == a.org && x.req == a.req && x != a then s else s.ackReq a.core a.org

/-- The append's result arrives. -/
def State.appendDone (s : State) (a : Append) (v : Word) : State := (s.form a.team a.hix a.pend v).appendAck a

/-- The append fails: nothing is appended, and its result is not written (R290). -/
def State.appendFail (s : State) (a : Append) : State := (s.dropResults a.team a.hix a.pend).appendAck a

/-- Faults of appends reach their threads, those of one instruction together (R290, R375). -/
def State.raiseAppends (l : List (Append × Flt)) (s : State) : State :=
  let key (a : Append) : Nat × Nat × Nat := (a.team, a.hix, a.order)
  ((l.map fun x => key x.1).eraseDups).foldl (fun s k =>
    let mine := l.filter fun x => key x.1 == k
    match s.hand? k.1 k.2.1, mine.head? with
    | some hd, some x =>
      let fs := mine.flatMap fun y => (y.1.tids.filter fun t => (hd.thr t).st != .retired).map fun t => (t, y.2)
      s.takeFaults k.1 k.2.1 x.1.code (sortBy (fun a b => a.1 ≤ b.1) fs)
    | _, _ => s) s

/-- An append as the writer of its item, for its report (R381). -/
def Append.writer (a : Append) : Origin :=
  { id := a.org, addr := a.code, team := a.team, hix := a.hix, part := a.part, launch := a.launch, mask := maskOf a.tids,
    undrained := 0, performed := 0 }

/-- The item's bytes: plain loads by the unit at the append (R290), of an uncached page at its home (R358). -/
def State.itemBytes (s : State) (die : Nat) (a : Append) (n : Nat) : Except Flt (List Byte) :=
  match a.src with
  | none => .ok a.item
  | some pa =>
    if s.poisoned pa n || s.unreachable pa then .error { cause := 0x1A }
    else .ok (if a.unc then s.bytesAt pa n else s.viewBytes die pa n)

/-- R60: the unit of a die assigns one item its slot and writes it, or drops it on a full list; or its fault. `none`: the host
has still to translate the slot (R368). (DEDUCED, log 52.) -/
def State.assign (s : State) (die : Nat) (a : Append) : Option (Option Flt × State) :=
  let w := s.listAt a.desc
  let fail (s : State) (f : Flt) : Option (Option Flt × State) := some (some f, s.appendFail a)
  match s.itemBytes die a w.size with
  | .error f => fail s f
  | .ok bs =>
    if w.cap < w.count + 1 then
      some (none, (s.writeHome die (a.desc + 8) (toBytes 8 (w.getD 1 0 ||| 0x10000000#64).toNat)).appendDone a 0xFFFFFFFF#32)
    else
      let (ix, s) := s.itemIndex w w.tail
      let va := w.base + ix * w.size
      if va % w.size ≠ 0 then fail s { cause := 7, d0 := BitVec.ofNat 64 va }
      else if 2 ^ 52 ≤ va then fail s { cause := 8 }
      else match s.walkVa a.pasid va .write a.privT with
        | ((.wait, _), _) => none
        | ((.fail c d0 d1, _), s) => fail s { cause := c, d0, d1 }
        | ((.ok pa _, _), s) =>
          let s := if s.badLoc (.mem pa) w.size then
              s.imprecise a.core a.writer (maskOf a.tids) (BitVec.ofNat 64 va) (s.badReason (.mem pa) w.size)
            else s.writeHome die pa (bs.take w.size)
          some (none, (s.writeHome die (a.desc + 16) (toBytes 4 ((w.tail + 1) % 2 ^ 32))).appendDone a (BitVec.ofNat 32 ix))

/-- Is D mode on for the launch? -/
def State.launchD (s : State) (p h : Nat) : Bool := match s.launch? p h with | some l => l.dmode != 0 | none => false

/-- R61: in D mode the item is staged with its tag, and the thread receives no slot. -/
def State.stageItem (s : State) (die : Nat) (a : Append) : Option Flt × State :=
  match s.itemBytes die a (s.listAt a.desc).size with
  | .error f => (some f, s.appendFail a)
  | .ok bs =>
    (none, (s.updDie die fun d => { d with staged := d.staged ++ [{ a with item := bs, src := none, pend := [], org := 0 }] }).appendDone a
      0xFFFFFFFF#32)

/-- One append at the unit: assigned, or staged in D mode. -/
def State.appendOne (s : State) (die : Nat) (a : Append) : Option (Option Flt × State) :=
  if s.launchD a.part a.launch then some (s.stageItem die a) else s.assign die a

/-- Perform a batch of one hand-instruction for one list, whose slots are consecutive (R60); its faults are returned. `none`: one of
them must wait for the host, and the whole batch waits with it. -/
def State.appendAll (die : Nat) : List Append → State → Option (List (Append × Flt) × State)
  | [], s => some ([], s)
  | a :: r, s =>
    (s.appendOne die a).bind fun x =>
      (State.appendAll die r (x.2.updDie die fun d => { d with appends := d.appends.erase a })).map fun y =>
        ((match x.1 with | some f => [(a, f)] | none => []) ++ y.1, y.2)

/-- R60: the batch that an append belongs to. -/
def Append.batch (a : Append) : Nat × Nat × Nat × Nat := (a.team, a.hix, a.order, a.desc)

/-- Perform these appends, batch after batch, and raise their faults. -/
def State.appendBatch (die : Nat) (l : List Append) (s : State) : State :=
  let r := ((l.map Append.batch).eraseDups).foldl (fun (r : List (Append × Flt) × State) k =>
    match State.appendAll die (l.filter fun a => a.batch == k) r.2 with
    | none => r
    | some (fs, s) => (r.1 ++ fs, s)) ([], s)
  r.2.raiseAppends r.1

/-- Perform the hand's appends that are on their way: a later release orders them before itself (R290, R127). -/
def State.drainAppends (s : State) (t h : Nat) : State :=
  (List.range Config.dies).foldl (fun s d => match s.die? d with
    | some x => State.appendBatch d (x.appends.filter fun a => a.team == t && a.hix == h) s
    | none => s) s

/-- Has the hand an append on its way? -/
def State.appending (s : State) (t h : Nat) : Bool :=
  s.dies.any fun d => d.appends.any fun a => a.team == t && a.hix == h

/-! ### The requests of loads -/

/-- R119: the bank and the row of byte `o` of a slice. -/
def bankOf (o : Nat) : Nat := o / 16 % 64
def rowOf (o : Nat) : Nat := o / 1024 % 512

/-- R266: the bytes of a load, extended to the destination. -/
def extendLoad (t : Ty) (l : List Byte) : Dword :=
  let x := ofBytes l
  match t with
  | .i8 => ((BitVec.ofNat 8 x).signExtend 32).setWidth 64
  | .i16 => ((BitVec.ofNat 16 x).signExtend 32).setWidth 64
  | _ => BitVec.ofNat 64 x

/-- The bytes of an item. -/
def ReadItem.size (x : ReadItem) : Nat := tySize x.ty
/-- What an item gets from its bytes. -/
def ReadItem.word (x : ReadItem) (bs : List Byte) : Word :=
  if x.high then hi32 (extendLoad x.ty bs) else lo32 (extendLoad x.ty bs)

/-- Are bytes of the request still to be read? -/
def ReadReq.unread (r : ReadReq) : Bool := r.items.any fun x => x.got.isNone
/-- Is it a request of this hand? -/
def ReadReq.of (r : ReadReq) (t h : Nat) : Bool := r.team == t && r.hix == h

/-- The requests of loads that wait for a home slice or a bank. -/
def State.readReqs (s : State) : List ReadReq := s.cores.flatMap fun c => c.2.reads ++ c.2.bankQ.filterMap (·.read)

/-- R130: has a load of the hand that issued before `ord` still bytes to read? -/
def State.readBefore (s : State) (t h ord : Nat) : Bool :=
  s.readReqs.any fun r => r.of t h && decide (r.ord < ord) && r.unread

/-- R130 note 1, R131: the hand's own youngest store, of those that issued before `ord` and wait in its buffer, to a byte. -/
def Hand.forward (hd : Hand) (ord : Nat) (l : Loc) : Option Byte :=
  hd.sbuf.foldl (fun r w => if w.ord < ord then (w.byte l).or r else r) none

/-- R116, R119, R131: the byte that a load of the hand reads: its own, else that of the bank, or of its die's view. (DEDUCED, log 5.) -/
def State.seenByte (s : State) (hd : Hand) (die ord : Nat) (l : Loc) : Byte :=
  (hd.forward ord l).getD (match l with | .slice c o => (s.core c).spad.get o 0 | .mem pa => s.viewByte die pa)

/-- `n` bytes from a place. -/
def State.seenBytes (s : State) (hd : Hand) (die ord : Nat) (l : Loc) (n : Nat) : List Byte :=
  (List.range n).map fun i => s.seenByte hd die ord (l.plus i)

/-- R130: may a load of the hand that issued as `ord` read these places now? Its earlier loads, appends and returning atomics come
first, and its earlier reductions of these bytes. -/
def State.loadReady (s : State) (t h ord : Nat) (places : List (Loc × Nat)) : Bool :=
  !s.readBefore t h ord &&
    !(s.dies.any fun d => d.appends.any fun a => a.team == t && a.hix == h && decide (a.order < ord)) &&
    (match s.hand? t h with
      | some hd => hd.sbuf.all fun w => decide (ord ≤ w.ord) || (match w.red with
          | none => true
          | some x => !x.ret && !places.any fun p => w.meets p.1 p.2)
      | none => true)

/-- Is the place in the line, or in the row of a bank, of a request? -/
def Loc.near (l k : Loc) : Bool :=
  match l, k with
  | .mem a, .mem b => lineOf a == lineOf b
  | .slice c a, .slice d b => c == d && bankOf a == bankOf b && rowOf a == rowOf b
  | _, _ => false

/-- May the request be served, with what other requests of its load ask of its line or row (R135)? -/
def State.readReady (s : State) (r : ReadReq) : Bool :=
  !r.unread || s.loadReady r.team r.hix r.ord
    ((((s.readReqs.filter fun x => x.of r.team r.hix && x.ord == r.ord).flatMap (·.items)).filter fun x => x.loc.near r.loc).map
      fun x => (x.loc, x.size))

/-- Change the items of the requests of one instruction. -/
def State.mapItems (s : State) (t h ord : Nat) (f : List ReadItem → List ReadItem) : State :=
  let g (r : ReadReq) : ReadReq := if r.of t h && r.ord == ord then { r with items := f r.items } else r
  { s with cores := s.cores.map fun c => (c.1, { c.2 with
      reads := c.2.reads.map g, bankQ := c.2.bankQ.map fun b => { b with read := b.read.map g } }) }

/-- The hand's load `ord` reads the bytes that `sel` picks, those of one byte once (R135). One at .d or wider, and one of an uncached
page, reads the home, so the die has then applied every earlier write (R116). A line that has become uncorrectable faults its
threads, and writes nothing (R264, R393). (DEDUCED, log 5.) -/
def State.takeBytes (s : State) (t h ord : Nat) (sel : Loc → Bool) : State :=
  match s.team? t, s.hand? t h with
  | some tm, some hd =>
    let die := dieOf tm.core
    let mine := s.readReqs.filter fun r => r.of t h && r.ord == ord
    let pick (x : ReadItem) : Bool := x.got.isNone && sel x.loc
    let xs := mine.flatMap fun r => r.items.filter pick
    if xs.isEmpty then s
    else
      let s := if xs.any (·.home) then s.flushInbox die else s
      let s := xs.foldl (fun s x => match x.loc with | .slice c _ => s.meetSlice die c | .mem _ => s) s
      let bad (x : ReadItem) : Bool := s.badLoc x.loc x.size
      let read (x : ReadItem) : ReadItem :=
        if pick x then { x with got := some (x.word (s.seenBytes hd die ord x.loc x.size)) } else x
      let lost := xs.filter bad
      let s := s.mapItems t h ord fun l => (l.filter fun x => !(pick x && bad x)).map read
      if lost.isEmpty then s
      else (s.dropResults t h (lost.map (·.pend))).takeFaults t h ((mine.head?.map (·.code)).getD 0)
        (sortBy (fun a b => a.1 ≤ b.1) ((lost.flatMap (·.tids)).eraseDups.map fun x => (x, { cause := 0x1A })))
  | _, _ => s

/-- The hand's loads that issued before `ord` read their bytes, in order. -/
def State.readsTo (s : State) (t h ord : Nat) : State :=
  (sortBy (fun a b => a ≤ b) (((s.readReqs.filter fun r => r.of t h && decide (r.ord < ord) && r.unread).map (·.ord)).eraseDups)).foldl
    (fun s o => s.takeBytes t h o fun _ => true) s

/-- The request's results are formed (R90). -/
def State.formRead (s : State) (r : ReadReq) : State :=
  r.items.foldl (fun s x => match x.got with | some v => s.form r.team r.hix [x.pend] v | none => s) s

/-! ### Performing all that a hand has issued -/

/-- R340: the units of a buffered write, which its request has once (R263). -/
def State.writeUnits (s : State) (core : Nat) (w : BufWrite) : List (Nat × Nat × Nat × Nat) :=
  if w.last && w.slice.isNone then s.requestUnits core w.pa false else []

/-- Perform everything that a hand has issued, in order: its appends, then its loads and buffered writes (R130 note 2, R132). A WLAPP
empties the buffer as it issues, so its appends are the older. -/
def State.flushHand (s : State) (t h : Nat) : State :=
  let s := if s.appending t h then s.drainAppends t h else s
  match s.team? t, s.hand? t h with
  | some tm, some hd =>
    let mine (r : BankReq) : Bool := r.team == t && r.hix == h && r.read.isNone
    let s := if hd.sbuf.any fun w => w.slice.isSome then
        { s with cores := s.cores.map fun c => (c.1, { c.2 with bankQ := c.2.bankQ.filter fun r => !mine r }) } else s
    (hd.sbuf.foldl (fun s w => ((s.readsTo t h w.ord).countAll tm.part (s.writeUnits tm.core w)).perform tm.core w)
      (s.updHand t h fun hd => { hd with sbuf := [] })).readsTo t h s.nextId
  | _, _ => s

/-- Has the hand nothing on its way: no load to read, no buffered write, no append? -/
def State.handClear (s : State) (t h : Nat) : Bool :=
  !s.readBefore t h s.nextId && !s.appending t h && (match s.hand? t h with | some hd => hd.sbuf.isEmpty | none => true)

/-- R340: count these units one after another, while each stays within its budget. -/
def State.payAll (s : State) (part : Nat) (l : List (Nat × Nat × Nat × Nat)) : Option State :=
  l.foldl (fun r x => r.bind fun s => if s.inBudgets part [x] then some (s.countAll part [x]) else none) (some s)

/-- R340: do the buffered writes of the hand stay within the partition's budgets, all together? -/
def State.flushPaid (s : State) (tm : Team) (hd : Hand) : Bool :=
  (s.payAll tm.part (hd.sbuf.flatMap (s.writeUnits tm.core))).isSome

/-- Is the scope .d or wider (R116)? -/
def scopeWide : Scope → Bool
  | .d | .p | .s => true
  | .h | .c | .g => false

/-- The bytes that the hand reads of memory at once (GOT, R215). What must come before it is performed (R130). -/
def State.loadNow (s : State) (tm : Team) (h pa n : Nat) (home : Bool) : List Byte × State :=
  let s := if s.loadReady tm.id h s.nextId [(.mem pa, n)] then s else s.flushHand tm.id h
  let s := if home then s.flushInbox (dieOf tm.core) else s
  match s.hand? tm.id h with
  | some hd => (s.seenBytes hd (dieOf tm.core) s.nextId (.mem pa) n, s)
  | none => (s.viewBytes (dieOf tm.core) pa n, s)

/-! ### Origin entries and request slots -/

/-- Are `n` request slots free (R263)? -/
def State.slotsFor (s : State) (core n : Nat) : Bool := decide ((s.core core).slots + n ≤ Config.requestSlots)

/-- Are an origin entry and `n` request slots free (R263)? (DEDUCED, log 18.) -/
def State.roomFor (s : State) (core n : Nat) : Bool :=
  decide ((s.core core).origins.length < Config.originEntries ∧ (s.core core).slots + n ≤ Config.requestSlots)

/-- Hold an origin entry with `n` requests (R380). -/
def State.newOrigin (s : State) (i : Iss) (mask : BitVec 128) (n : Nat) : Nat × State :=
  let (id, s) := s.fresh
  let o : Origin :=
    { id, addr := i.c.addr, team := i.c.team, hix := i.c.hix, part := i.tm.part, launch := i.tm.launch, mask,
      undrained := n, performed := 0 }
  (id, s.updCore i.tm.core fun c => { c with origins := c.origins ++ [o], slots := c.slots + n })

/-- An origin entry whose requests are all performed at issue (an atomic, R130 note 2): they still drain later. -/
def State.performedOrigin (s : State) (i : Iss) (mask : BitVec 128) (n : Nat) : Nat × State :=
  let (id, s) := s.newOrigin i mask n
  (id, s.updCore i.tm.core fun c => { c with origins := c.origins.map fun o =>
                                        if o.id == id then { o with performed := n } else o })

/-- The privilege of a lane: of its thread, or of the visit (R407). -/
def Hand.lanePriv (hd : Hand) : Lane → Bool
  | .thr t => (hd.thr t).tl
  | .uni => hd.inTrap

/-- The participants that a lane stands for in masks and faults. -/
def Hand.laneThreads (hd : Hand) : Lane → List Nat
  | .thr t => [t]
  | .uni => hd.actives

/-- A lane's address, found or faulted, in ascending order; the flag says that some answer is still to come. -/
structure Found where
  ln : Lane
  l : Loc
  unc : Bool
  va : Nat
  deriving DecidableEq, Repr

/-- R14: the turn of a lane. -/
def Lane.turn : Lane → Nat
  | .thr t => t / 32
  | .uni => 0

/-- R263: the request of an access: its turn and its line, or its row of a bank (R119). -/
def Found.req (f : Found) : Nat × Loc :=
  (f.ln.turn, match f.l with | .mem pa => .mem (lineOf pa) | .slice c o => .slice c (o / 16))

/-- The requests of an instruction, each once, in ascending order of its lowest lane. -/
def requests (l : List Found) : List (Nat × Loc) := (l.map Found.req).eraseDups

/-- Does the access move bytes to or from the core (R11)? One of the core's own slice through the team window does not. -/
def Found.leaves (f : Found) : Bool := match f.l with | .mem _ => true | .slice _ _ => decide (0x10000000 ≤ f.va)

/-- R11: the credits of the bytes that an access moves: one per 64 bytes of each request, rounded up. Lanes of one request at one
place move its bytes once. -/
def lineCredits (n : Nat) (l : List Found) : Nat :=
  let ps := ((l.filter Found.leaves).map fun f => (f.req, f.l)).eraseDups
  ((ps.map (·.1)).eraseDups.map fun k => ceilDiv (n * (ps.filter fun x => x.1 == k).length) 64).foldl (· + ·) 0

/-- Take `n` credits (R11); memory activity never waits (R12). -/
def State.spend (s : State) (core n : Nat) : State :=
  if n = 0 then s else s.updCore core fun c => { c with activity := c.activity - n }

/-! ### Requests at the banks (R119) -/

/-- R119: what ranks a hand's request at a bank: class 3 in the team window (`near`), class 4 in the others, with the tie-break. -/
def State.bankRank (s : State) (i : Iss) (near : Bool) : BankRank :=
  { cls := if near then 3 else 4, since := s.cyc
    key := if near then (i.hd.resStart * 4 + i.hd.quad) * 16 + i.hd.slot else s.cyc * 512 + i.tm.core }

/-- The request of a hand for the row of a place in a slice, at the core of the slice. -/
def State.bankReq (s : State) (i : Iss) (f : Found) (ord : Nat) (read : Option ReadReq) : List (Nat × BankReq) :=
  match f.l with
  | .mem _ => []
  | .slice c o =>
    [(c, { bank := bankOf o, row := rowOf o, rank := s.bankRank i (decide (f.va < 0x10000000)), team := i.c.team, hix := i.c.hix,
           ord, read })]

/-- The requests reach their banks. -/
def State.toBanks (s : State) (l : List (Nat × BankReq)) : State :=
  l.foldl (fun s x => s.updCore x.1 fun c => { c with bankQ := c.bankQ ++ [x.2] }) s

/-- The writes of an instruction wait in the hand's buffer; those of slices have their requests at the banks, one a row (R119). -/
def State.buffer (s : State) (i : Iss) (ord : Nat) (ws : List (Found × BufWrite)) : State :=
  (s.updHand i.c.team i.c.hix fun hd => { hd with sbuf := hd.sbuf ++ ws.map (·.2) }).toBanks
    (ws.flatMap fun x => s.bankReq i x.1 ord none).eraseDups

/-- Check the accesses of all lanes (R264): those that pass, the faults, and whether one must wait. (DEDUCED, log 56.) -/
def checkAll (f : Lane → State → (Acc × Nat) × State) (hd : Hand) :
    List Lane → State → (List Found × List (Nat × Flt) × Bool) × State
  | [], s => (([], [], false), s)
  | ln :: r, s =>
    let ((a, va), s) := f ln s
    let ((ok, fs, w), s) := checkAll f hd r s
    match a with
    | .at l unc => ((⟨ln, l, unc, va⟩ :: ok, fs, w), s)
    | .flt e => ((ok, (hd.laneThreads ln).map (fun t => (t, e)) ++ fs, w), s)
    | .wait => ((ok, fs, true), s)

end Sys2Proof.Machine
end

