-- ==== Sys2Proof/Machine/Loads.lean ====
section
/-! DEFINITION. Loads, stores, constant loads and prefetch (R265 to R269), and the frame moves of `wlo` (R74). -/

namespace Sys2Proof.Machine

/-- Faults by thread, ascending. -/
def mergeFaults (a b : List (Nat × Flt)) : List (Nat × Flt) := sortBy (fun x y => x.1 ≤ y.1) (a ++ b)

/-- The registers of a load's result for one lane, and whether each takes the upper word. -/
def Hand.loadDsts (hd : Hand) (depth : Nat) (ln : Lane) (t : Ty) (d : Opnd) : List (Dst × Bool) :=
  ((hd.outT depth ln t d 0).mapIdx fun j x => (x.1, j == 1)).filter fun x => x.1 != Dst.drop

/-- The results of a load are pending, and its requests go out: for lines to their home slices, for rows of a slice to the banks
(R263, R119). They are answered once their bytes have been read. `home`: the load is strong at .d or wider. -/
def State.sendReads (s : State) (i : Iss) (t : Ty) (d : Opnd) (home : Bool) (ok : List Found) : State :=
  let (ord, s) := s.fresh
  let ps := ok.flatMap fun f => (i.hd.loadDsts i.tm.depth f.ln t d).map fun x => (f, x.1, x.2)
  let items (k : Nat × Loc) : List ReadItem := (ps.mapIdx fun j x =>
    (x.1.req, { pend := s.nextId + j, loc := x.1.l, ty := t, high := x.2.2, home := x.1.unc || home,
                tids := i.hd.laneThreads x.1.ln : ReadItem })).filterMap fun x => if x.1 == k then some x.2 else none
  let req (k : Nat × Loc) (l : Loc) : ReadReq :=
    { team := i.c.team, hix := i.c.hix, part := i.tm.part, core := i.tm.core, ord, code := i.c.addr, loc := l, items := items k }
  let ks := requests ok
  let lines := ks.flatMap fun k => match k.2 with
    | .mem l => [req k (.mem (l * 128))]
    | .slice _ _ => []
  let rows := ks.flatMap fun k => match k.2, ok.find? fun f => f.req == k with
    | .slice c r, some f => s.bankReq i f ord (some (req k (.slice c (r * 16))))
    | _, _ => []
  let s := s.post i.c.team i.c.hix (ps.map fun x => (x.2.1, none))
  let s := if lines.isEmpty then s
    else s.updCore i.tm.core fun c => { c with reads := c.reads ++ lines, slots := c.slots + lines.length }
  s.toBanks rows

/-- A load (R266): check every lane, send the requests of those that pass; a line marked uncorrectable raises Uncorrectable-Data for
its threads (R264). One whose requests for lines do not fit in the free slots is not ready (R263), and leaves `s0` as it was. -/
def loadOp (s0 : State) (h : Hdr) (i : Iss) (lanes : List Lane) (t : Ty) (d : Opnd) (home : Bool)
    (acc : Lane → State → (Acc × Nat) × State) (s : State) : Out :=
  let ((ok, fs, w), s) := checkAll acc i.hd lanes s
  let lines := (requests ok).filter fun k => match k.2 with | .mem _ => true | .slice _ _ => false
  if w || !s0.slotsFor i.tm.core lines.length then s0.stall
  else
    let s := s.spend i.tm.core (lineCredits (tySize t) ok)
    let bad (f : Found) : Bool := s.badLoc f.l (tySize t)
    let us := ((ok.filter bad).flatMap fun f => i.hd.laneThreads f.ln).map fun x => (x, { cause := 0x1A : Flt })
    .next (((s.sendReads i t d home (ok.filter fun f => !bad f)).takeFaults i.c.team i.c.hix i.c.addr (mergeFaults fs us)).advance i h)

/-- Is the access strong at .d or wider? -/
def MemModWide (m : MemMod) : Bool := m.ord != .plain && scopeWide m.scope

/-- A global load. -/
def globLoad (h : Hdr) (t : Ty) (m : MemMod) (d a : Opnd) (disp : Word) (s0 : State) : Out :=
  s0.onLanes h 0 [(rdst t, .o d), (.gbase, .o a)] noMore fun i lanes =>
    loadOp s0 h i lanes t d (MemModWide m)
      (fun ln s =>
        let va := eaG (i.hd.rdO64 ln a) disp
        let (r, s) := s.accG i.tm (i.hd.lanePriv ln) va (tySize t) .read
        ((r, va), s))

/-- A scratchpad load. -/
def spadLoad (h : Hdr) (t : Ty) (m : MemMod) (d a : Opnd) (disp : Word) (s0 : State) : Out :=
  s0.onLanes h 0 [(rdst t, .o d), (.sbase, .o a)] noMore fun i lanes =>
    loadOp s0 h i lanes t d (MemModWide m)
      (fun ln s =>
        let ea := eaS (i.hd.rdO ln a) disp
        let (r, s) := s.accS i.tm (i.hd.lanePriv ln) ea (tySize t) .read
        ((r, ea), s))

/-- R113, R268: the place of a constant: alignment, then the bound, then translation. -/
def State.accC (s : State) (tm : Team) (privT : Bool) (bank off n : Nat) : (Acc × Nat) × State :=
  let bs := match s.launch? tm.part tm.launch with | some l => l.banks | none => []
  let (base, size) := bs.getD bank (0, 0)
  let va := base + off
  if va % n ≠ 0 then ((.flt { cause := 7, d0 := BitVec.ofNat 64 va }, va), s)
  else if size ≤ off then ((.flt { cause := 9 }, va), s)
  else
    let (r, s) := s.accG tm privT va n .read
    ((r, va), s)

/-- A constant load (R268). -/
def constLoad (h : Hdr) (t : Ty) (bank : BitVec 4) (d a : Opnd) (disp : Word) (s0 : State) : Out :=
  s0.onLanes h 0 [(rdst t, .o d), (.src, .o a)] noMore fun i lanes =>
    loadOp s0 h i lanes t d false
      (fun ln s => s.accC i.tm (i.hd.lanePriv ln) bank.toNat (eaS (i.hd.rdO ln a) disp) (tySize t))

/-- The bytes that a lane stores (R267). (DEDUCED, log 37.) -/
def Hand.storeData (hd : Hand) (ln : Lane) (t : Ty) (b : Opnd) : List Byte :=
  toBytes (tySize t) (if t.is64 then (hd.rdO64 ln b).toNat else (hd.rdO ln b).toNat)

/-- R135: does a higher participating tid store to the lane's address? -/
def Found.beaten (f : Found) (l : List Found) : Bool :=
  l.any fun g => g.l == f.l && (match f.ln, g.ln with | .thr a, .thr b => decide (a < b) | _, _ => false)

/-- R267: the buffered write of each lane, in ascending tid. A lane that is beaten writes nothing (R135), but its request is made. -/
def storeBufs (i : Iss) (t : Ty) (b : Opnd) (wide : Bool) (org ord : Nat) (ok : List Found) : List (Found × BufWrite) :=
  ok.mapIdx fun j f =>
    let (pa, slice) := match f.l with | .mem pa => (pa, none) | .slice c o => (o, some c)
    (f, { ord, pa, slice, data := if f.beaten ok then [] else i.hd.storeData f.ln t b, red := none, wide := f.unc || wide, org,
          last := !((ok.drop (j + 1)).any fun g => g.req == f.req), team := i.c.team, hix := i.c.hix,
          lanes := maskOf (i.hd.laneThreads f.ln),
          req := maskOf ((ok.filter fun g => g.req == f.req).flatMap fun g => i.hd.laneThreads g.ln), code := i.c.addr,
          va := BitVec.ofNat 64 f.va })

/-- A store (R267): the writes wait in the hand's buffer until they are performed, in order with its other writes of both
spaces (R127, R130). `glob`: it holds an origin entry and request slots (R263). -/
def storeOp (h : Hdr) (t : Ty) (m : MemMod) (b : Opnd) (glob : Bool) (i : Iss) (lanes : List Lane)
    (acc : Lane → State → (Acc × Nat) × State) (s0 s : State) : Out :=
  let ((ok, fs, w), s) := checkAll acc i.hd lanes s
  let n := (requests ok).length
  if w || (glob && !s0.roomFor i.tm.core n) then s0.stall
  else if ok.isEmpty then .next ((s.takeFaults i.c.team i.c.hix i.c.addr fs).advance i h)
  else
    let (org, s) := if glob then s.newOrigin i (maskOf (i.hd.parts h)) n else (0, s)
    let (ord, s) := s.fresh
    let s := s.spend i.tm.core (lineCredits (tySize t) ok)
    let s := s.buffer i ord (storeBufs i t b (MemModWide m) org ord ok)
    .next ((s.takeFaults i.c.team i.c.hix i.c.addr fs).advance i h)

/-- A global store. -/
def globStore (h : Hdr) (t : Ty) (m : MemMod) (a b : Opnd) (disp : Word) (s0 : State) : Out :=
  s0.onLanes h 0 [(.gbase, .o a), (rsrc t, .o b)] noMore fun i lanes =>
    storeOp h t m b true i lanes (fun ln s =>
      let va := eaG (i.hd.rdO64 ln a) disp
      let (r, s) := s.accG i.tm (i.hd.lanePriv ln) va (tySize t) .write
      ((r, va), s)) s0

/-- An origin entry that stands for a write made at issue, for its report (R381). -/
def Iss.origin (i : Iss) (mask : BitVec 128) : Origin :=
  { id := 0, addr := i.c.addr, team := i.c.team, hix := i.c.hix, part := i.tm.part, launch := i.tm.launch, mask,
    undrained := 0, performed := 0 }

/-- Write a place at issue; a line that cannot be written is reported (R264). -/
def State.storeNow (s : State) (i : Iss) (f : Found) (data : List Byte) : State :=
  if s.badLoc f.l data.length then
    s.imprecise i.tm.core (i.origin (maskOf (i.hd.laneThreads f.ln))) (maskOf (i.hd.laneThreads f.ln)) (BitVec.ofNat 64 f.va)
      (s.badReason f.l data.length)
  else s.writeLoc (dieOf i.tm.core) f.l data

/-- A scratchpad store (R267, R119). -/
def spadStore (h : Hdr) (t : Ty) (m : MemMod) (a b : Opnd) (disp : Word) (s0 : State) : Out :=
  s0.onLanes h 0 [(.sbase, .o a), (rsrc t, .o b)] noMore fun i lanes =>
    storeOp h t m b false i lanes (fun ln s =>
      let ea := eaS (i.hd.rdO ln a) disp
      let (r, s) := s.accS i.tm (i.hd.lanePriv ln) ea (tySize t) .write
      ((r, ea), s)) s0

/-- PREF (R269): a hint. It makes no access that any rule can observe. -/
def prefOp (h : Hdr) (a : Opnd) (s : State) : Out :=
  s.onLanes h 0 [(.gbase, .o a)] noMore fun i _ s => .next (s.advance i h)

/-- LD (R265, R266). -/
def execLd (h : Hdr) (t : Ty) (m : MemMod) (d a : Opnd) (s : State) : Out := globLoad h t m d a 0 s
/-- LD (R265, R266). Long form, with a displacement (R200). -/
def execLdDisp (h : Hdr) (t : Ty) (m : MemMod) (d a : Opnd) (disp : Word) (s : State) : Out := globLoad h t m d a disp s
/-- ST (R265, R267). -/
def execSt (h : Hdr) (t : Ty) (m : MemMod) (a b : Opnd) (s : State) : Out := globStore h t m a b 0 s
/-- ST (R265, R267). Long form, with a displacement (R200). -/
def execStDisp (h : Hdr) (t : Ty) (m : MemMod) (a b : Opnd) (disp : Word) (s : State) : Out := globStore h t m a b disp s
/-- LDS (R265, R266). -/
def execLds (h : Hdr) (t : Ty) (m : MemMod) (d a : Opnd) (s : State) : Out := spadLoad h t m d a 0 s
/-- LDS (R265, R266). Long form, with a displacement (R200). -/
def execLdsDisp (h : Hdr) (t : Ty) (m : MemMod) (d a : Opnd) (disp : Word) (s : State) : Out := spadLoad h t m d a disp s
/-- STS (R265, R267). -/
def execSts (h : Hdr) (t : Ty) (m : MemMod) (a b : Opnd) (s : State) : Out := spadStore h t m a b 0 s
/-- STS (R265, R267). Long form, with a displacement (R200). -/
def execStsDisp (h : Hdr) (t : Ty) (m : MemMod) (a b : Opnd) (disp : Word) (s : State) : Out := spadStore h t m a b disp s
/-- LDC (R268). -/
def execLdc (h : Hdr) (t : Ty) (bank : BitVec 4) (d a : Opnd) (s : State) : Out := constLoad h t bank d a 0 s
/-- LDC (R268). Long form, with a displacement (R200). -/
def execLdcDisp (h : Hdr) (t : Ty) (bank : BitVec 4) (d a : Opnd) (disp : Word) (s : State) : Out := constLoad h t bank d a disp s
/-- PREF (R269). -/
def execPref (h : Hdr) (_l2 : Bool) (a : Opnd) (s : State) : Out := prefOp h a s
/-- PREF (R269). Long form. -/
def execPrefDisp (h : Hdr) (_l2 : Bool) (a : Opnd) (_disp : Word) (s : State) : Out := prefOp h a s

/-! ### `wlo` (R74) -/

/-- One spill word of a frame move: its entry, its place, and whether its page is uncached. -/
structure SpillWord where
  ent : Nat
  pa : Nat
  unc : Bool
  va : Nat
  deriving DecidableEq, Repr

/-- Translate the spill words of entries `es`, or give the first fault. -/
def State.spillAddrs (s : State) (tm : Team) (wsp : Nat) (k : AccKind) : List Nat → Except Res (List SpillWord) × State
  | [] => (.ok [], s)
  | e :: r =>
    match s.accG tm true (wsp + 4 * e) 4 k with
    | (.at (.mem pa) unc, s) => match s.spillAddrs tm wsp k r with
      | (.ok l, s) => (.ok (⟨e, pa, unc, wsp + 4 * e⟩ :: l), s)
      | x => x
    | (.at _ _, s) => (.ok [], s)
    | (.flt f, s) => (.error (.flt f), s)
    | (.wait, s) => (.error .wait, s)

/-- Store one spill word; a line that cannot be written is reported for the thread (R264, R381). -/
def State.spillPut (s : State) (i : Iss) (t : Nat) (w : SpillWord) (v : Word) : State :=
  s.apply i.tm.core
    { pa := w.pa, data := toBytes 4 v.toNat, red := none, wide := w.unc, org := 0, team := i.c.team, hix := i.c.hix,
      lanes := maskOf [t], req := maskOf [t], code := i.c.addr, va := BitVec.ofNat 64 w.va }

/-- Load one spill word, from the home when its page is uncached (R358). -/
def State.spillGet (s : State) (i : Iss) (w : SpillWord) : Word :=
  BitVec.ofNat 32 (ofBytes (if w.unc then s.bytesAt w.pa 4 else s.viewBytes (dieOf i.tm.core) w.pa 4))

/-- R11: the credits of the words that a thread's frame moves. -/
def spillCredits (t : Nat) (l : List SpillWord) : Nat := lineCredits 4 (l.map fun x => ⟨.thr t, .mem x.pa, x.unc, x.va⟩)

/-- R74: move a thread's resident low mark to `v`. The frames between are stored or loaded now; LO and the entries
change when the pending result is written (R88). (DEDUCED, log 7.) -/
def State.moveLo (s : State) (i : Iss) (t v : Nat) : Res × State :=
  match s.hand? i.c.team i.c.hix with
  | none => (.done, s)
  | some hd =>
    let th := hd.thr t
    let lo := th.lo
    let dp := i.tm.depth
    let move (s : State) (hi : Nat) (es : List Word) : State := s.post i.c.team i.c.hix [(.frame t v hi es, some 0)]
    if lo + dp < v ∨ v + dp < lo ∨ 2 ^ 24 < v + dp then (.flt { cause := 1 }, s)
    else if lo = v then (.done, s)
    else if lo < v then
      match s.spillAddrs i.tm th.wsp.toNat .write ((List.range (v - lo)).map (lo + ·)) with
      | (.error r, s) => (r, s)
      | (.ok l, s) =>
        (.done, move (l.foldl (fun s x => s.spillPut i t x (th.stack.get x.ent 0)) (s.spend i.tm.core (spillCredits t l))) (lo + dp) [])
    else
      match s.spillAddrs i.tm th.wsp.toNat .read ((List.range (lo - v)).map (v + ·)) with
      | (.error r, s) => (r, s)
      | (.ok l, s) =>
        if l.any fun x => s.badLoc (.mem x.pa) 4 then (.flt { cause := 0x1A }, s)
        else
          let s := if l.any (·.unc) then s.flushInbox (dieOf i.tm.core) else s
          (.done, move (s.spend i.tm.core (spillCredits t l)) (v + dp) (l.map (s.spillGet i)))

/-- WRSR wlo (R74, R83, R236): vector only, at privilege T. The hand's earlier stores are performed first. -/
def execWrsrWlo (h : Hdr) (a : Opnd) (s0 : State) : Out :=
  s0.onLanes h 2 [(.src, .o a)] noMore fun i lanes s =>
    if h.u then s.raiseAll i h { cause := 1 }
    else if !i.hd.privT then s.raiseAll i h { cause := 9 }
    else
      let s := s.flushHand i.c.team i.c.hix
      s0.finish i h false (runThreads (fun t s => s.moveLo i t (i.hd.rdO (.thr t) a).toNat) (laneTids lanes) s)

end Sys2Proof.Machine
end

