-- ==== Sys2Proof/Machine/Atomics.lean ====
section
/-! DEFINITION. Atomics, reductions and FENCE (R270 to R274, R133 to R136), and the reductions that D mode holds
(R69). -/

namespace Sys2Proof.Machine

/-- The checks of the lanes of an atomic access in one of the two spaces (R263, R264). -/
def atomAcc (sp : Space) (i : Iss) (t : Ty) (a : Opnd) (disp : Word) (ln : Lane) (s : State) : (Acc × Nat) × State :=
  match sp with
  | .glob =>
    let va := eaG (i.hd.rdO64 ln a) disp
    let (r, s) := s.accG i.tm (i.hd.lanePriv ln) va (tySize t) .atomic
    ((r, va), s)
  | .spad =>
    let ea := eaS (i.hd.rdO ln a) disp
    let (r, s) := s.accS i.tm (i.hd.lanePriv ln) ea (tySize t) .atomic
    ((r, ea), s)

/-- The role of the base in a space (R263). -/
def baseRole : Space → Role
  | .glob => .gbase
  | .spad => .sbase

/-- R133: the groups by place, in ascending order of their lowest tid. -/
def groupBy (l : List Found) : List (Loc × List Found) :=
  (l.map (·.l)).eraseDups.map fun k => (k, l.filter fun f => f.l == k)

/-- The place of a buffered write, by its address and its slice. -/
def Loc.parts : Loc → Nat × Option Nat
  | .mem pa => (pa, none)
  | .slice c o => (o, some c)

/-- The buffered form of a group (R133, R136): `rmw` is what it does. -/
def groupBuf (i : Iss) (wide : Bool) (org ord : Nat) (g : Loc × List Found) (rmw : Rmw) : BufWrite :=
  let lanes := maskOf (g.2.flatMap fun x => i.hd.laneThreads x.ln)
  { ord, pa := g.1.parts.1, slice := g.1.parts.2, data := [], red := some rmw, wide, org, team := i.c.team, hix := i.c.hix,
    lanes, req := lanes, code := i.c.addr, va := BitVec.ofNat 64 ((g.2.head?.map (·.va)).getD 0) }

/-- The first access of a group. -/
def groupHead (g : Loc × List Found) : Found := g.2.headD ⟨.uni, g.1, false, 0⟩

/-- The groups of an atomic, with the registers of their old values: the pending results are numbered from `first` on. -/
def atomGroups (i : Iss) (t : Ty) (d : Opnd) (first : Nat) (rmw : List Lane → Rmw) (gs : List (Loc × List Found)) :
    List ((Loc × List Found) × Rmw) × List Dst :=
  let outs := (gs.flatMap fun g => g.2.flatMap fun x => (i.hd.loadDsts i.tm.depth x.ln t d).map fun y => (x.ln, y)).mapIdx
    fun j x => (x.1, x.2.1, first + j, x.2.2)
  let olds (ln : Lane) : List (Nat × Bool) := (outs.filter fun x => x.1 == ln).map fun x => x.2.2
  (gs.map fun g => (g, { rmw (g.2.map (·.ln)) with ret := true, olds := g.2.map fun x => olds x.ln }), outs.map (·.2.1))

/-- ATOM and ATOMC (R133, R271, R272): each group is a request that waits in the hand's buffer, behind its earlier stores (R130 note
2), for its home or its bank, which returns the old values. In D mode a scope of .g or wider raises Deterministic-Scope (R69). -/
def atomOp (h : Hdr) (t : Ty) (m : MemMod) (sp : Space) (d a : Opnd) (vals : List Arg) (rmw : Iss → List Lane → Rmw)
    (disp : Word) (s0 : State) : Out :=
  s0.onLanes h 0 ([(rdst t, .o d), (baseRole sp, .o a)] ++ vals) noMore fun i lanes s =>
    let ((ok, fs, w), s) := checkAll (atomAcc sp i t a disp) i.hd lanes s
    let gs := groupBy ok
    let det := s.dmode i.tm != 0 && !(m.scope == .h || m.scope == .c)
    if w || (sp == .glob && !s0.roomFor i.tm.core gs.length) then s0.stall
    else if det then
      let es := (ok.flatMap fun x => i.hd.laneThreads x.ln).map fun x => (x, { cause := 0x15 : Flt })
      .next ((s.takeFaults i.c.team i.c.hix i.c.addr (mergeFaults fs es)).advance i h)
    else if gs.isEmpty then .next ((s.takeFaults i.c.team i.c.hix i.c.addr fs).advance i h)
    else
      let (org, s) := if sp == .glob then s.newOrigin i (maskOf (i.hd.parts h)) gs.length else (0, s)
      let (ord, s) := s.fresh
      let s := s.spend i.tm.core (lineCredits (tySize t) ok)
      let r := atomGroups i t d s.nextId (rmw i) gs
      let s := s.post i.c.team i.c.hix (r.2.map fun x => (x, none))
      let s := s.buffer i ord (r.1.map fun g => (groupHead g.1, groupBuf i (scopeWide m.scope) org ord g.1 g.2))
      .next ((s.takeFaults i.c.team i.c.hix i.c.addr fs).advance i h)

/-- R271: the operation of ATOM, or of RED, on its lanes' operands. -/
def rmwOf (t : Ty) (op : RedOp) (b : Opnd) (i : Iss) (lns : List Lane) : Rmw :=
  { op, ty := t, vals := lns.map fun ln => i.hd.rdT ln t b }
/-- R272: compare with B, then swap in C. -/
def casOf (t : Ty) (b c : Opnd) (i : Iss) (lns : List Lane) : Rmw :=
  { rmwOf t .xchg b i lns with swaps := lns.map fun ln => i.hd.rdT ln t c }

/-- ATOM (R271). -/
def execAtom (h : Hdr) (t : Ty) (m : MemMod) (sp : Space) (op : RedOp) (d a b : Opnd) (s : State) : Out :=
  atomOp h t m sp d a [(rsrc t, .o b)] (rmwOf t op b) 0 s
/-- ATOM (R271). Long form. -/
def execAtomDisp (h : Hdr) (t : Ty) (m : MemMod) (sp : Space) (op : RedOp) (d a b : Opnd) (disp : Word) (s : State) :
    Out := atomOp h t m sp d a [(rsrc t, .o b)] (rmwOf t op b) disp s
/-- ATOMC (R272). -/
def execAtomc (h : Hdr) (t : Ty) (m : MemMod) (sp : Space) (d a b c : Opnd) (s : State) : Out :=
  atomOp h t m sp d a [(rsrc t, .o b), (rsrc t, .o c)] (casOf t b c) 0 s
/-- ATOMC (R272). Long form. -/
def execAtomcDisp (h : Hdr) (t : Ty) (m : MemMod) (sp : Space) (d a b c : Opnd) (disp : Word) (s : State) : Out :=
  atomOp h t m sp d a [(rsrc t, .o b), (rsrc t, .o c)] (casOf t b c) disp s

/-! ### Reductions -/

/-- R69: the single lanes of a held group, with the key of their order: hix, tid, issue order. A uniform reduction stands at the lowest
active thread (DESIGN CHOICE, log 69). -/
def HeldRed.lanes (x : HeldRed) : List ((Nat × Nat × Nat) × HeldRed) :=
  match x.w.red with
  | none => []
  | some r =>
    (List.zip (bitsOf x.w.lanes 128) r.vals).map fun (t, v) =>
      ((x.w.hix, t, x.w.ord), { x with w := { x.w with red := some { r with vals := [v] }, req := maskOf [t] } })

/-- R69: the order of held reductions. -/
def heldLe (a b : (Nat × Nat × Nat) × HeldRed) : Bool :=
  if a.1.1 ≠ b.1.1 then decide (a.1.1 < b.1.1)
  else if a.1.2.1 ≠ b.1.2.1 then decide (a.1.2.1 < b.1.2.1) else decide (a.1.2.2 ≤ b.1.2.2)

/-- The PASID of the team that issued a write. -/
def State.writerPasid (s : State) (w : BufWrite) : Nat := match s.team? w.team with | some t => s.pasidOf t | none => 0

/-- A held reduction is applied. One in memory is translated at this step, so that it uses no translation that was removed while it
was held (R367); one whose page is gone is not made, and fails the launch with that cause (DESIGN CHOICE, log 69). -/
def State.applyOne (s : State) (core : Nat) (x : HeldRed) : State :=
  match x.gva with
  | none => s.apply core x.w
  | some va => match s.walkVa (s.writerPasid x.w) va .atomic x.privT with
    | ((.ok pa _, _), s) => s.apply core { x.w with pa }
    | ((.fail c d0 d1, _), s) =>
      let o := s.writer x.w
      s.failLaunch o.part o.launch
        { cause := c, cls := 6, core, hix := x.w.hix, addr := x.w.code, mask := x.w.req, d0, d1
          lid := match s.team? x.w.team with | some t => t.lid | none => 0 }
    | ((.wait, _), s) => s

/-- R69: apply held float reductions in ascending (hix, tid, issue order). -/
def State.applyHeld (s : State) (core : Nat) (l : List HeldRed) : State :=
  (sortBy heldLe (l.flatMap HeldRed.lanes)).foldl (fun s x => s.applyOne core x.2) s

/-- Does the reduction lie in a share that no core has, its team being saved (R70)? -/
def HeldRed.away (x : HeldRed) : Bool := match x.w.slice with | some c => decide (Config.cores ≤ c) | none => false

/-- R368: has the host still to translate the page of a held reduction? What applies it waits for the answer (DESIGN CHOICE, log 69). -/
def State.heldWaits (s : State) (l : List HeldRed) : Bool :=
  l.any fun x => match x.gva with
    | some va => (s.walkVa (s.writerPasid x.w) va .atomic x.privT).1.1 == .wait
    | none => false

/-- The .c reductions that the cores hold for a team, and that have not come due. -/
def State.coreHeld (s : State) (t : Nat) : List HeldRed := s.cores.flatMap fun c => c.2.heldRed.filter fun x => x.w.team == t && !x.due

/-- R69: the .c reductions that the cores hold for a team are applied. Those to the share of a saved team are applied as that comes
back to a core (R70; DESIGN CHOICE, log 69). -/
def State.applyHeldCore (s : State) (tm : Team) : State :=
  let l := s.coreHeld tm.id
  if l.isEmpty then s
  else
    let left (l : List HeldRed) : List HeldRed :=
      (l.filter fun x => x.due || x.w.team != tm.id || x.away).map fun x => if x.w.team == tm.id then { x with due := true } else x
    ({ s with cores := s.cores.map fun (c : Nat × Core) => (c.1, { c.2 with heldRed := left c.2.heldRed }) }).applyHeld tm.core
      (l.filter fun x => !x.away)

/-- R69, R70: the reductions that came due while their place was saved are applied, as it is back on a core. -/
def State.applyDue (s : State) (core : Nat) (place : Loc → Bool) : State :=
  let mine (x : HeldRed) : Bool := x.due && place x.w.loc
  let l := s.cores.flatMap fun c => c.2.heldRed.filter mine
  if l.isEmpty then s
  else ({ s with cores := s.cores.map fun (c : Nat × Core) => (c.1, { c.2 with heldRed := c.2.heldRed.filter fun x => !mine x }) }).applyHeld
    core l

/-- R69: the .g and wider reductions held for the given teams are applied, in ascending team LID. -/
def State.applyHeldTeams (s : State) (ids : List Nat) : State :=
  let ts := sortBy (fun (a b : Team) => a.lid.toNat ≤ b.lid.toNat) (s.teams.filter fun t => ids.contains t.id)
  ts.foldl (fun s t => (s.updTeam t.id fun x => { x with heldRed := [] }).applyHeld t.core t.heldRed) s

/-- The entries of a core's holding store: one a group (R69; DESIGN CHOICE, log 69). -/
def heldMax : Nat := 256

/-- RED (R273): a group waits in the hand's buffer for its home or its bank, in order with the hand's stores (R136). In D mode a
float group is held (R69): its request is performed as the holding store takes it, and the groups of one instruction that do not all
fit are none of them held (DESIGN CHOICE, log 69). -/
def redGroups (h : Hdr) (t : Ty) (m : MemMod) (sp : Space) (op : RedOp) (a b : Opnd) (disp : Word) (s0 : State) : Out :=
  s0.onLanes h 0 [(baseRole sp, .o a), (rsrc t, .o b)] noMore fun i lanes s =>
    let ((ok, fs, w), s) := checkAll (atomAcc sp i t a disp) i.hd lanes s
    let gs := groupBy ok
    let hold := s.dmode i.tm != 0 && t == .f32
    let near := m.scope == .h || m.scope == .c
    let bufs (org ord : Nat) : List (Found × BufWrite) :=
      gs.map fun g => (groupHead g, groupBuf i true org ord g (rmwOf t op b i (g.2.map (·.ln))))
    let done (s : State) (fs : List (Nat × Flt)) : Out :=
      .next ((s.takeFaults i.c.team i.c.hix i.c.addr fs).advance i h)
    if w || (sp == .glob && !s0.roomFor i.tm.core gs.length) then s0.stall
    else if gs.isEmpty then done s fs
    else if hold && near && decide (heldMax < (s.core i.tm.core).heldRed.length + gs.length) then
      done s (mergeFaults fs ((ok.flatMap fun x => i.hd.laneThreads x.ln).map fun x => (x, { cause := 0x15 })))
    else
      let (org, s) := if sp == .glob then
          (if hold then s.performedOrigin i (maskOf (i.hd.parts h)) gs.length else s.newOrigin i (maskOf (i.hd.parts h)) gs.length)
        else (0, s)
      let (ord, s) := s.fresh
      let s := s.spend i.tm.core (lineCredits (tySize t) ok)
      let held := (bufs org ord).map fun x =>
        { w := x.2, privT := i.hd.lanePriv x.1.ln,
          gva := (match x.1.l, sp with | .slice _ _, _ => none | _, .glob => some x.1.va | _, .spad => some (s.overVa i.tm x.1.va)) : HeldRed }
      if !hold then done (s.buffer i ord (bufs org ord)) fs
      else if near then done (s.updCore i.tm.core fun c => { c with heldRed := c.heldRed ++ held }) fs
      else done (s.updTeam i.c.team fun x => { x with heldRed := x.heldRed ++ held }) fs

/-- RED (R273). -/
def execRed (h : Hdr) (t : Ty) (m : MemMod) (sp : Space) (op : RedOp) (a b : Opnd) (s : State) : Out :=
  redGroups h t m sp op a b 0 s
/-- RED (R273). Long form. -/
def execRedDisp (h : Hdr) (t : Ty) (m : MemMod) (sp : Space) (op : RedOp) (a b : Opnd) (disp : Word) (s : State) : Out :=
  redGroups h t m sp op a b disp s

/-! ### Requests at home and their acknowledgements -/

/-- A request to a home slice: on a miss it enters its HBM channel's queue, when that has room, and the budgets allow (R121, R340).
`none`: it waits. -/
def State.request (s : State) (core part pa : Nat) (miss write : Bool) (read : Option ReadReq) : Option State :=
  let unit := paDie pa * 64 + paChan pa
  let q := s.chanQ.get unit []
  let hbm := miss && decide (pa < hbmEnd)
  let us := s.requestUnits core pa hbm
  if hbm && decide (64 ≤ q.length) || !s.inBudgets part us then none
  else
    let s := s.countAll part us
    some (if hbm then { s with chanQ := s.chanQ.set unit (q ++ [⟨paRow pa, write, s.cyc, read⟩]) [] } else s)

/-- The answer to a load's request for a line: its results are formed, and its slot is free (R263, R90). -/
def State.answerRead (s : State) (r : ReadReq) : State :=
  (s.formRead r).updCore r.core fun c => { c with slots := c.slots - 1 }

/-- The oldest request of a hand's loads for a line. -/
def State.readOf (s : State) (t h : Nat) : Option (Nat × ReadReq) :=
  s.cores.findSome? fun c => (c.2.reads.find? fun r => r.of t h).map fun r => (c.1, r)

/-- R120: a load's request is accepted at its slice: its bytes are read, and it is answered, on a miss once its channel has served it.
What other requests of the load ask of the line is read with it (R135). -/
def State.acceptRead (s0 : State) (t h : Nat) (miss : Bool) (r : ReadReq) : State :=
  let pa := r.loc.parts.1
  let s := s0.takeBytes t h r.ord (·.near r.loc)
  match s.readOf t h with
  | none => s0
  | some (c, r) =>
    match s.request r.core r.part pa miss false (some r) with
    | none => s0
    | some s =>
      let s := s.updCore c fun x => { x with reads := x.reads.erase r }
      if miss && decide (pa < hbmEnd) then s else s.answerRead r

/-- R120, R130: the oldest request of the hand's buffer is accepted at its home, once everything that it comes after is performed; its
writes are made. -/
def State.acceptWrite (s : State) (t h : Nat) (miss : Bool) : State :=
  match s.team? t, s.hand? t h with
  | some tm, some hd =>
    match hd.sbuf with
    | [] => s
    | w :: _ =>
      if s.appending t h || w.slice.isSome || s.readBefore t h w.ord then s
      else match s.request tm.core tm.part w.pa miss true none with
        | none => s
        | some s =>
          let mine (x : BufWrite) : Bool := x.ord == w.ord && x.req == w.req
          (hd.sbuf.filter mine).foldl (fun s x => s.perform tm.core x)
            (s.updHand t h fun hd => { hd with sbuf := hd.sbuf.filter fun x => !mine x })
  | _, _ => s

/-- HOME_SLICE_REQUEST (R120, R271): the oldest request of the hand that can be made is accepted at its home slice: that of a load, else
that of its oldest buffered write or atomic. Which hand's request comes next is its arrival at the slice (DEDUCED, log 18). -/
def execHomeSliceRequest (t h : Nat) (miss : Bool) (s : State) : Out :=
  match s.readOf t h with
  | some (_, r) => .next (if s.readReady r then s.acceptRead t h miss r else s.acceptWrite t h miss)
  | none => .next (s.acceptWrite t h miss)

/-- REQUEST_DRAIN (R263, R380): the acknowledgement of a performed request returns; its slot is freed, and its
origin entry with the last of them. -/
def execRequestDrain (core index : Nat) (s : State) : Out :=
  match (s.core core).origins[index]? with
  | none => .next s
  | some o =>
    if o.performed = 0 then .next s
    else
      .next (s.updCore core fun c =>
        { c with
          slots := c.slots - 1
          origins := if o.undrained ≤ 1 then c.origins.eraseIdx index
            else setAt c.origins index fun o => { o with undrained := o.undrained - 1, performed := o.performed - 1 } })

/-- HBM_ACCESS (R121): a channel starts the oldest request that has waited 512 cycles, else the oldest that hits the
open row, else the oldest; a read goes before a write of the same arrival cycle. -/
def execHbmAccess (die chan : Nat) (s : State) : Out :=
  let unit := die * 64 + chan
  let q := s.chanQ.get unit []
  let key (r : ChanReq) : Nat := r.since * 2 + (if r.write then 1 else 0)
  let old := q.filter fun r => r.since + 512 ≤ s.cyc
  let hit := q.filter fun r => s.openRow.get unit 0 == r.row
  let cands := if !old.isEmpty then old else if !hit.isEmpty then hit else q
  match minBy key cands with
  | none => .next s
  | some r =>
    let s := { s with
      chanQ := s.chanQ.set unit (q.erase r) []
      openRow := s.openRow.set unit r.row 0 }
    .next (match r.read with | some x => s.answerRead x | none => s)

/-- R127, R130: is the request at its bank: a load's that may be read, or that of the instruction whose writes the hand performs
next? -/
def State.bankReady (s : State) (r : BankReq) : Bool :=
  match r.read with
  | some x => s.readReady x
  | none => !s.appending r.team r.hix && !s.readBefore r.team r.hix r.ord &&
      (match s.hand? r.team r.hix with
        | some hd => (match hd.sbuf with | w :: _ => w.ord == r.ord | [] => true)
        | none => true)

/-- R119: the order in which a bank serves its requests, the first least: one that has waited 64 cycles, the oldest of these
first, then by requester and tie-break. -/
def State.rankLe (s : State) (a b : BankRank) : Bool :=
  let old (r : BankRank) : Bool := decide (r.since + 64 ≤ s.cyc)
  if old a != old b then old a
  else if old a && a.since ≠ b.since then decide (a.since < b.since)
  else if a.cls ≠ b.cls then decide (a.cls < b.cls) else decide (a.key ≤ b.key)

/-- Is it the same hand-instruction's request for the same row, of the same kind? -/
def BankReq.like (a b : BankReq) : Bool :=
  a.team == b.team && a.hix == b.hix && a.ord == b.ord && a.bank == b.bank && a.row == b.row && a.read.isSome == b.read.isSome

/-- A bank serves a request: a load's bytes are read and its results formed; the writes of a hand-instruction to the row are made. -/
def State.serveBank (s : State) (core : Nat) (r : BankReq) : State :=
  let here (l : Loc) : Bool := match l with | .slice c o => c == core && bankOf o == r.bank && rowOf o == r.row | .mem _ => false
  let drop (s : State) : State := s.updCore core fun c => { c with bankQ := c.bankQ.filter fun x => !x.like r }
  if r.read.isSome then
    let s := s.takeBytes r.team r.hix r.ord here
    (((s.core core).bankQ.filter fun x => x.like r).filterMap (·.read)).foldl State.formRead (drop s)
  else match s.team? r.team, s.hand? r.team r.hix with
    | some tm, some hd =>
      let mine (w : BufWrite) : Bool := w.ord == r.ord && here w.loc
      (hd.sbuf.filter mine).foldl (fun s w => s.perform tm.core w)
        ((drop s).updHand r.team r.hix fun hd => { hd with sbuf := hd.sbuf.filter fun w => !mine w })
    | _, _ => drop s

/-- SCRATCHPAD_BANK_ACCESS (R119, R271): a bank serves one row: that of the request which comes first; every request for that row is
served with it. -/
def execScratchpadBankAccess (core bank : Nat) (s : State) : Out :=
  let q := sortBy (fun (a b : BankReq) => s.rankLe a.rank b.rank) ((s.core core).bankQ.filter fun r => r.bank == bank && s.bankReady r)
  match q with
  | [] => .next s
  | r :: _ => .next ((q.filter fun x => x.row == r.row).foldl (fun s x => s.serveBank core x) s)

/-- REMOTE_WRITE_APPLY (R116): die `d` applies a write of another die, once it has applied every write that the
carried clock counts; writes to one byte are applied in the order of their homes. -/
def execRemoteWriteApply (die index : Nat) (s : State) : Out :=
  match s.die? die with
  | none => .next s
  | some d =>
    match d.inbox[index]? with
    | none => .next s
    | some m =>
      let before := (d.inbox.take index).any fun x => x.covers m.pa m.old.length
      if before || !clockReady d.clock m then .next s
      else .next (s.updDie die fun d => { d with clock := joinClock d.clock m.clock, inbox := d.inbox.eraseIdx index })

end Sys2Proof.Machine
end

