-- ==== Sys2Proof/Machine/Control.lean ====
section
/-! DEFINITION. Sweep and control (R212 to R224), and the system-call ring (R347, R350). -/

namespace Sys2Proof.Machine

/-! ### The system-call ring -/

/-- A write of the hub (R350, R376): performed at .s. -/
def State.hubWrite (s : State) (pa : Nat) (data : List Byte) : State := s.flushAll.poke pa data

/-- R350: the system-call interrupt, by the vector number that stands for it in `irqs`. -/
def sysIrq : Nat := 4096

/-- R350: are 4096 records of the ring unread? -/
def Part.ringFull (p : Part) : Bool := p.scProd - p.scCons == BitVec.ofNat 32 Config.ringRecords

/-- The bytes of eight words. -/
def RingRec.bytes (r : RingRec) : List Byte :=
  [r.w0, r.w1, r.w2, r.w3, r.w4, r.w5, r.w6, r.w7].flatMap fun w => toBytes 8 w.toNat

/-- R350: write a record into the ring, advance SCPROD, raise the system-call interrupt. -/
def State.ringPut (s : State) (p : Nat) (r : RingRec) : State :=
  let x := s.part p
  let s := s.hubWrite (x.scBase.toNat + x.scProd.toNat % Config.ringRecords * 64) r.bytes
  { s.updPart p fun x => { x with scProd := x.scProd + 1 } with irqs := s.irqs ++ [(p, sysIrq)] }

/-- R375: FAULT_RECORD_APPEND, the record that waits longest at the hub enters the ring. -/
def execFaultRecordAppend (part : Nat) (s : State) : Out :=
  match (s.part part).ringWait with
  | [] => .next s
  | r :: rest =>
    if (s.part part).ringFull then .next s
    else .next ((s.updPart part fun x => { x with ringWait := rest }).ringPut part r)

/-- A release of a hand at a wide scope (R132, R143, R223): its earlier stores and reductions are performed, and
every die applies them. -/
def State.release (s : State) (t h : Nat) : State := (s.flushHand t h).flushAll

/-! ### Instructions -/

/-- R197: the target of a J-format word. -/
def jTarget (i : Iss) (off : BitVec 22) : CodeAddr := i.c.addr + off.signExtend 30

/-- GO (R214). -/
def execGo (h : Hdr) (off : BitVec 22) (s : State) : Out :=
  s.issuing fun i =>
    s.finish i h false (runThreads (fun t s => s.goTo i.tm i.c.hix t (jTarget i off)) (i.hd.parts h) s)

/-- A 32-bit plain load of one thread (R124, R264). -/
def State.load32 (s : State) (i : Iss) (t va : Nat) : (Res × Word) × State :=
  match s.accG i.tm (i.hd.lanePriv (.thr t)) va 4 .read with
  | (.at (.mem pa) unc, s) =>
    if s.badLoc (.mem pa) 4 then ((.flt { cause := 0x1A }, 0), s)
    else
      let (bs, s) := s.loadNow i.tm i.c.hix pa 4 unc
      ((.done, BitVec.ofNat 32 (ofBytes bs)), s)
  | (.at _ _, s) => ((.done, 0), s)
  | (.flt f, s) => ((.flt f, 0), s)
  | (.wait, s) => ((.wait, 0), s)

/-- GOT (R215), one thread. (DEDUCED, log 39.) -/
def State.gotThread (s : State) (i : Iss) (t : Nat) (base : Dword) (idx : Word) : Res × State :=
  if base.toNat % 8 ≠ 0 then (.flt { cause := 7, d0 := base }, s)
  else match s.load32 i t base.toNat with
    | ((.done, n), s) =>
      if n ≤ idx then (.flt { cause := 4 }, s)
      else match s.load32 i t ((base.toNat + 4 + 4 * idx.toNat) % 2 ^ 64) with
        | ((.done, e), s) =>
          if fld e 31 30 ≠ 0 then (.flt { cause := 1 }, s) else s.goTo i.tm i.c.hix t (e.extractLsb' 0 30)
        | ((r, _), s) => (r, s)
    | ((r, _), s) => (r, s)

/-- R11: the credits of the bytes that GOT reads: the count of each table, then the entry of each thread that names one; the lines
are told by their virtual addresses. -/
def State.gotCredits (s : State) (i : Iss) (a b : Opnd) (ts : List Nat) : Nat :=
  let base (t : Nat) : Nat := (i.hd.rdO64 (.thr t) a).toNat
  let idx (t : Nat) : Word := i.hd.rdO (.thr t) b
  let place (t va : Nat) : Found := ⟨.thr t, .mem va, false, va⟩
  let ok (x : (Res × Word) × State) : Bool := x.1.1 == .done
  let heads := ts.filter fun t => base t % 8 == 0 && ok (s.load32 i t (base t))
  let ent (t : Nat) : Nat := (base t + 4 + 4 * (idx t).toNat) % 2 ^ 64
  let ents := heads.filter fun t => idx t < (s.load32 i t (base t)).1.2 && ok (s.load32 i t (ent t))
  lineCredits 4 (heads.map fun t => place t (base t)) + lineCredits 4 (ents.map fun t => place t (ent t))

/-- GOT (R215). -/
def execGot (h : Hdr) (a b : Opnd) (s0 : State) : Out :=
  s0.onLanes h 0 [(.jbase, .o a), (.src, .o b)] noMore fun i lanes s =>
    let ts := laneTids lanes
    s0.finish i h false
      (runThreads (fun t s => s.gotThread i t (i.hd.rdO64 (.thr t) a) (i.hd.rdO (.thr t) b)) ts
        (s.spend i.tm.core (s.gotCredits i a b ts)))

/-- R31: the window slide of a code, and the code. -/
def slideOf : Slide → Int
  | .s8 => 8 | .s16 => 16 | .s24 => 24
def slideCode : Slide → Word
  | .s8 => 1 | .s16 => 2 | .s24 => 3
/-- R32: the slide that a link word asks for. -/
def linkSlide (w : Word) : Int := 8 * (fld w 1 0 : Int)

/-- R74: a participant's g30 that is not resident reads zero and sets `hs.nr`. -/
def State.touchLink (s : State) (i : Iss) (h : Hdr) : State :=
  if i.hd.touchesNr i.tm.depth ((i.hd.parts h).map .thr) [(.src, .o (.g 30))] then
    s.updHand i.c.team i.c.hix fun hd => hd.setHs hsNr else s

/-- CALL (R31, R216). -/
def execCall (h : Hdr) (off : BitVec 22) (sl : Slide) (s : State) : Out :=
  s.issuing fun i =>
    let link : Word := i.hd.nextHdr.setWidth 32 <<< 2 ||| slideCode sl
    s.finish i h false
      (runThreads (fun t s => s.transfer i.tm i.c.hix t (slideOf sl) link (jTarget i off) 1) (i.hd.parts h) s)

/-- CALLT (R216). -/
def execCallt (h : Hdr) (off : BitVec 22) (sl : Slide) (s : State) : Out :=
  s.issuing fun i =>
    s.finish i h false (runThreads (fun t s =>
      let g30 := i.hd.rdO (.thr t) (.g 30)
      s.transfer i.tm i.c.hix t (slideOf sl - linkSlide g30) (g30 >>> 2 <<< 2 ||| slideCode sl) (jTarget i off) 2)
      (i.hd.parts h) (s.touchLink i h))

/-- RET (R32, R217). -/
def execRet (h : Hdr) (s : State) : Out :=
  s.issuing fun i =>
    s.finish i h false (runThreads (fun t s =>
      let g30 := i.hd.rdO (.thr t) (.g 30)
      s.transfer i.tm i.c.hix t (- linkSlide g30) g30 (g30.extractLsb' 2 30) 0) (i.hd.parts h) (s.touchLink i h))

/-- EXIT (R218). -/
def execExit (h : Hdr) (s : State) : Out :=
  s.issuing fun i =>
    .next ((s.updHand i.c.team i.c.hix fun hd => (i.hd.parts h).foldl (fun hd t => hd.retire t) hd).advance i h)

/-- PARK (R219, R30). With the hand's timer pending the wait is complete at issue: the threads unpark at the end of the cycle. -/
def execPark (h : Hdr) (off : BitVec 22) (s : State) : Out :=
  s.issuing fun i =>
    let ts := i.hd.parts h
    let r := runThreads (fun t s => s.parkAt i.tm i.c.hix t (jTarget i off) .park) ts s
    let parked := ts.filter fun t => !(r.1.2.any fun x => x.1 == t)
    s.finish i h true (r.1, if i.hd.tp then r.2.updHand i.c.team i.c.hix fun hd => parked.foldl Hand.unpark hd else r.2)

/-- YIELD (R220): the participants fall through, and the team becomes due. (DEDUCED, log 38.) -/
def execYield (h : Hdr) (s : State) : Out :=
  s.issuing fun i =>
    let ts := i.hd.parts h
    let r := runThreads (fun t s => s.goTo i.tm i.c.hix t i.hd.nextHdr) ts s
    s.finish i h false (r.1, if ts.isEmpty then r.2 else r.2.makeDue i.c.team)

/-- NOP (R221). -/
def execNop (h : Hdr) (s : State) : Out := s.issuing fun i => .next (s.advance i h)

/-- TRAP (R222). -/
def execTrap (h : Hdr) (a : Opnd) (s : State) : Out :=
  s.onLanes h 0 [(.src, .o a)] noMore fun i lanes s =>
    .next ((s.takeFaults i.c.team i.c.hix i.c.addr ((laneTids lanes).map fun t =>
      (t, { cause := 0x18, arg := i.hd.rdO (.thr t) a }))).advance i h)

/-- SYSC (R223, R347): the participants park with the next header as continuation, and one request record enters
the ring, behind every fault record. Not ready while the ring is full or records wait at the hub. The issue is a
release at .s. -/
def execSysc (h : Hdr) (a : Opnd) (s0 : State) : Out :=
  s0.onLanes h 0 [(.src, .o a)] noMore fun i lanes s =>
    let p := s.part i.tm.part
    let ts := laneTids lanes
    if i.hd.privT then s.raiseAll i h { cause := 1 }
    else if !ts.isEmpty && (p.ringFull || !p.ringWait.isEmpty) then s0.stall
    else
      let r := runThreads (fun t s => s.parkAt i.tm i.c.hix t i.hd.nextHdr (.sysc (i.hd.rdO (.thr t) a))) ts s
      let callers := ts.filter fun t => !(r.1.2.any fun x => x.1 == t)
      let req (s : State) : State :=
        let n := (s.part i.tm.part).seqNext
        let s := s.release i.c.team i.c.hix
        let s := s.updPart i.tm.part fun x => { x with seqNext := n + 1 }
        s.ringPut i.tm.part
          (mkRecord { cause := 0x19, cls := 0, core := i.tm.core, hix := i.c.hix, addr := i.c.addr, lid := i.tm.lid,
                      launch := i.tm.launch, mask := maskOf callers } |> fun x =>
            { x with w2 := x.w2 ||| n.setWidth 64 })
      s0.finish i h true (r.1, if callers.isEmpty then r.2 else req r.2)

/-- TRET (R224, R374). -/
def execTret (h : Hdr) (s : State) : Out :=
  s.issuing fun i =>
    if !i.hd.privT then s.raiseAll i h { cause := 1 }
    else s.finish i h false (runThreads (fun t s => s.returnTrap i.tm i.c.hix t) (i.hd.parts h) s)

end Sys2Proof.Machine
end

