-- ==== Sys2Proof/Machine/Sync.lean ====
section
/-! DEFINITION. FENCE (R274) and the barrier words (R137 to R140, R275 to R278). -/

namespace Sys2Proof.Machine

/-! ### FENCE -/

/-- Is a barrier operation of the hand on its way, or held (R132)? -/
def State.arriving (s : State) (t h : Nat) : Bool :=
  let mine (a : Arrival) : Bool := a.team == t && a.hix == h
  s.arrivals.any mine || s.heldArr.any mine

/-- R274: the barrier operations of these threads of the hand that are still to be performed: on their way, or held. -/
def State.arrivalsOf (s : State) (i : Iss) (ts : List Nat) : List Nat :=
  ((s.arrivals ++ s.heldArr).filter fun a => a.team == i.c.team && a.hix == i.c.hix && (a.mask &&& maskOf ts) != 0).map (·.id)

/-- R274: the hand's earlier stores and reductions are performed at the scope; until the barrier operations of its participants
are performed as well, the hand issues no further instruction of R274's list (`State.memHeld`). -/
def State.fenceAt (s : State) (i : Iss) (wide : Bool) (ts : List Nat) : State :=
  let ids := s.arrivalsOf i ts
  let s := s.flushHand i.c.team i.c.hix
  let s := if ids.isEmpty then s else s.updHand i.c.team i.c.hix fun hd => { hd with fence := ids }
  if wide then s.flushAll else s

/-- FENCE (R274, R128, R132). -/
def execFence (h : Hdr) (scope : Scope) (s : State) : Out :=
  s.issuing fun i =>
    let ts := i.hd.parts h
    if ts.isEmpty then .next (s.advance i h) else .next ((s.fenceAt i (scopeWide scope) ts).advance i h)

/-! ### The barrier word -/

/-- A barrier word (R137), as its two 64-bit words. -/
structure BarWord where
  w0 : Dword
  w1 : Dword
  deriving DecidableEq, Repr

def BarWord.expect (b : BarWord) : Nat := fld b.w0 15 0
def BarWord.phase (b : BarWord) : Nat := fld b.w0 31 16
/-- Counter ARR(j), j from 0 to 3. -/
def BarWord.arr (b : BarWord) (j : Nat) : Nat :=
  if j = 0 then fld b.w0 47 32 else if j = 1 then fld b.w0 63 48 else if j = 2 then fld b.w1 15 0 else fld b.w1 31 16
/-- The reserved field, which must be zero (R138). -/
def BarWord.rsv (b : BarWord) : Nat := fld b.w1 63 32

/-- The word of an EXPECT, a PHASE and four counters. -/
def mkBar (expect phase a0 a1 a2 a3 : Nat) : BarWord :=
  ⟨BitVec.ofNat 64 (expect % 65536 + phase % 65536 * 2 ^ 16 + a0 % 65536 * 2 ^ 32 + a1 % 65536 * 2 ^ 48),
   BitVec.ofNat 64 (a2 % 65536 + a3 % 65536 * 2 ^ 16)⟩

/-- Set one counter. -/
def BarWord.setArr (b : BarWord) (j v : Nat) : BarWord :=
  let a (k : Nat) : Nat := if k = j then v else b.arr k
  mkBar b.expect b.phase (a 0) (a 1) (a 2) (a 3)

/-- δ of R138. -/
def BarWord.delta (b : BarWord) (p : Nat) : Nat := (p + 65536 - b.phase) % 65536

/-- What an arrival finds (R138). -/
inductive Arrive
  | counted (b : BarWord)
  | held
  | misuse
  deriving DecidableEq, Repr

/-- R138: an arrival at phase `p` with weight `n`. -/
def BarWord.arrive (b : BarWord) (p n : Nat) : Arrive :=
  let j := p % 4
  if b.rsv ≠ 0 ∨ b.expect = 0 ∨ 0x8000 ≤ b.delta p then .misuse
  else if 4 ≤ b.delta p then .held
  else if b.expect < b.arr j + n then .misuse
  else .counted (b.setArr j (b.arr j + n))

/-- R139: does the oldest open phase complete? -/
def BarWord.full (b : BarWord) : Bool := b.expect != 0 && b.arr (b.phase % 4) == b.expect
/-- R139: the word after phase PHASE has completed. -/
def BarWord.complete (b : BarWord) : BarWord :=
  let c := b.setArr (b.phase % 4) 0
  mkBar c.expect (c.phase + 1) (c.arr 0) (c.arr 1) (c.arr 2) (c.arr 3)

/-- The word at a place. -/
def State.barAt (s : State) (l : Loc) : BarWord :=
  let bs := s.readLoc l 16
  ⟨BitVec.ofNat 64 (ofBytes (bs.take 8)), BitVec.ofNat 64 (ofBytes (bs.drop 8))⟩

/-- The die on which the place's bank or home lies. -/
def Loc.die : Loc → Nat
  | .slice c _ => dieOf c
  | .mem pa => paDie pa

/-- The writer of a barrier word, for its report (R264, R381). -/
def State.barWriter (s : State) (a : Arrival) : Origin :=
  let (part, launch) := match s.team? a.team with | some t => (t.part, t.launch) | none => (0, 0)
  { id := 0, addr := a.code, team := a.team, hix := a.hix, part, launch, mask := a.mask, undrained := 0, performed := 0 }

/-- Write the word at its bank. -/
def State.setBar (s : State) (l : Loc) (b : BarWord) : State :=
  s.writeLoc l.die l (toBytes 8 b.w0.toNat ++ toBytes 8 b.w1.toNat)

/-! ### Effects on hands -/

/-- Barrier-Misuse reaches the hand: every participant that has not retired takes it (R275). (DEDUCED, log 40.) -/
def State.misuse (s : State) (a : Arrival) : State :=
  match s.hand? a.team a.hix with
  | none => s
  | some hd =>
    let ts := (bitsOf a.mask 128).filter fun t => (hd.thr t).st != .retired
    s.takeFaults a.team a.hix a.code (ts.map fun t => (t, { cause := 0x13 }))

/-- R277: the arrival is applied; the threads that it held are released, and those that it parked unpark. -/
def State.releaseHeld (s : State) (a : Arrival) : State :=
  s.updHand a.team a.hix fun hd =>
    let free (x : Thread) : Thread :=
      let x := { x with bheld := x.bheld.filter fun b => b != a.id }
      if x.st == .parked && x.wait == .heldArr a.id then
        (match x.bheld with
          | [] => { x with st := .unparked, wait := .none }
          | b :: _ => { x with wait := .heldArr b })
      else x
    hd.settle { hd with threads := hd.threads.map free }

/-- R139, R277: the threads that wait for the completion of phase `p` of the word at `l` unpark. -/
def State.phaseDone (s : State) (l : Loc) (p : Nat) : State :=
  let wake (x : Thread) : Thread := match x.wait with
    | .barw l' _ p' => if x.st == .parked && l' == l && p' == p then { x with st := .unparked, wait := .none } else x
    | _ => x
  { s with hands := s.hands.map fun hd =>
      let hd' := { hd with threads := hd.threads.map wake }
      if hd' == hd then hd else hd.settle hd' }

/-- R69: in D mode a counted arrival notes its team at its phase. (DEDUCED, log 36.) -/
def State.notePhase (s : State) (a : Arrival) : State :=
  match s.team? a.team with
  | some tm =>
    if s.dmode tm = 0 ∨ s.phases.contains (a.loc, a.b, a.team) then s else { s with phases := s.phases ++ [(a.loc, a.b, a.team)] }
  | none => s

/-- R69: phase `p` of the word has completed: for the teams that arrived at it the reductions that their cores hold are applied, in
ascending LID. (DEDUCED, log 36.) -/
def State.phaseHeld (s : State) (l : Loc) (p : Nat) : State :=
  let here (x : Loc × Nat × Nat) : Bool := x.1 == l && x.2.1 == p
  let ids := (s.phases.filter here).map (·.2.2)
  if ids.isEmpty then s
  else
    let ts := sortBy (fun (a b : Team) => a.lid.toNat ≤ b.lid.toNat) (s.teams.filter fun t => ids.contains t.id)
    ts.foldl (fun s t => s.applyHeldCore t) { s with phases := s.phases.filter fun x => !here x }

/-- R138, R139: apply, in arrival order, the held arrivals at `l` that are inside the window now. -/
def State.applyWindow (s : State) (l : Loc) : List Arrival → State
  | [] => s
  | a :: r =>
    if a.loc != l then s.applyWindow l r
    else
      match (s.barAt l).arrive a.b a.c with
      | .held => s.applyWindow l r
      | .counted b =>
        ((({ s with heldArr := s.heldArr.filter fun x => x.id != a.id }).setBar l b |>.releaseHeld a).notePhase a).applyWindow l r
      | .misuse =>
        ((({ s with heldArr := s.heldArr.filter fun x => x.id != a.id }).releaseHeld a).misuse a).applyWindow l r

/-- R139: complete phases at the word of `l` while the oldest open one is full. Each completion empties a counter;
at most four are full and each held arrival can fill one more, which bounds the fuel. -/
def State.completePhases (l : Loc) : Nat → State → State
  | 0, s => s
  | n + 1, s =>
    let b := s.barAt l
    if !b.full then s
    else
      let s := (s.setBar l b.complete).phaseHeld l b.phase
      let s := (s.applyWindow l s.heldArr).phaseDone l b.phase
      s.completePhases l n

/-! ### Operations at the bank -/

/-- R264: the word's line cannot be read or written: a test faults its threads, any other operation is reported. -/
def State.arrivalBad (s : State) (a : Arrival) : State :=
  match a.kind, s.hand? a.team a.hix with
  | .test, some hd =>
    let ts := (bitsOf a.mask 128).filter fun t => (hd.thr t).st != .retired
    (s.dropResults a.team a.hix a.pend).takeFaults
      a.team a.hix a.code (ts.map fun t => (t, { cause := 0x1A }))
  | _, _ =>
    let core := match s.team? a.team with | some t => t.core | none => 0
    s.imprecise core (s.barWriter a) a.mask (a.addr.setWidth 64) (s.badReason a.loc 16)

/-- R275, R276, R278: an operation reaches its bank. The PHASE that a BARI sets can bring held arrivals into the window, which are then
applied (R138). -/
def State.applyArrival (s : State) (a : Arrival) : State :=
  let b := s.barAt a.loc
  if s.badLoc a.loc 16 then s.arrivalBad a
  else match a.kind with
  | .init =>
    if b.arr 0 ≠ 0 ∨ b.arr 1 ≠ 0 ∨ b.arr 2 ≠ 0 ∨ b.arr 3 ≠ 0 then s.misuse a
    else ((s.setBar a.loc (mkBar a.b a.c 0 0 0 0)).applyWindow a.loc s.heldArr).completePhases a.loc (s.heldArr.length + 5)
  | .arrive =>
    match b.arrive a.b a.c with
    | .misuse => s.misuse a
    | .held => { s with heldArr := s.heldArr ++ [a] }
    | .counted b' => ((s.setBar a.loc b').notePhase a).completePhases a.loc (s.heldArr.length + 5)
  | .test =>
    let v : Word := if 0x8000 ≤ b.delta a.b then 1 else 0
    s.form a.team a.hix a.pend v

/-- R131: may the operation be made: BARI, and the read of BART, come after all that the hand issued before them; an arrival is a
release, and issued with all of it performed (R140). One waits for the host's answers to the reductions that a completion applies (log
69). (DEDUCED, log 40.) -/
def State.arrivalReady (s : State) (a : Arrival) : Bool :=
  (a.kind == .arrive || s.handClear a.team a.hix) &&
    !s.heldWaits ((s.phases.filter fun x => x.1 == a.loc).flatMap fun x => s.coreHeld x.2.2)

/-- R138, R119: does the operation at place `index` come before the one at place `j` at their word? Those of one hand come in the order
of their issue; those of other hands in that of R119, of which only those count that may be made. -/
def State.arrivesFirst (s : State) (index : Nat) (a : Arrival) (j : Nat) (b : Arrival) : Bool :=
  if j = index || b.loc != a.loc then true
  else if b.team == a.team && b.hix == a.hix then decide (index < j)
  else !s.arrivalReady b || !s.rankLe b.rank a.rank || (s.rankLe a.rank b.rank && decide (index < j))

/-- BARRIER_ARRIVAL_APPLY (R138, R139, R275, R278): one operation reaches its bank, when none at its word comes before it. -/
def execBarrierArrivalApply (index : Nat) (s : State) : Out :=
  match s.arrivals[index]? with
  | none => .next s
  | some a =>
    if !s.arrivalReady a || !((s.arrivals.mapIdx fun j b => s.arrivesFirst index a j b).all id) then .next s
    else .next (({ s with arrivals := s.arrivals.eraseIdx index }).applyArrival a)

/-- BARRIER_HELD_REPORT (R277): the report of a held arrival reaches its hand: the participants that have not retired
are barrier-held. -/
def execBarrierHeldReport (index : Nat) (s : State) : Out :=
  match s.heldArr[index]? with
  | none => .next s
  | some a =>
    if a.reported then .next s
    else
      let s := { s with heldArr := setAt s.heldArr index fun a => { a with reported := true } }
      .next (s.updHand a.team a.hix fun hd =>
        let hold (t : Nat) (x : Thread) : Thread :=
          if a.mask.getLsbD t && x.st != .retired then { x with bheld := x.bheld ++ [a.id] } else x
        hd.settle { hd with threads := hd.threads.mapIdx hold })

/-! ### The instructions -/

/-- Check 5 for the operands of a barrier instruction, which are uniform in both forms (R275). -/
def barArgs (a b c : Opnd) : List Arg := [(.usrc, .o a), (.usrc, .o b), (.usrc, .o c)]

/-- R275: the place of the barrier word; it is 16 bytes, 16-byte aligned, and checked by R264. -/
def State.barLoc (s : State) (i : Iss) (a : Opnd) : Acc × State :=
  s.accS i.tm i.hd.inTrap (i.hd.rdO .uni a).toNat 16 .atomic

/-- R11: the credits of a barrier operation: the 16 bytes of its word, when that is not in the team window's slice. -/
def State.barSpend (s : State) (i : Iss) (a : Opnd) (l : Loc) : State :=
  s.spend i.tm.core (lineCredits 16 [⟨.uni, l, false, (i.hd.rdO .uni a).toNat⟩])

/-- One barrier operation for the whole hand (R275), if it has a participant: address, then values, then `k` with
the place. (DEDUCED, log 44.) -/
def State.barOp (s0 : State) (h : Hdr) (args : List Arg) (more : Bool → Bool) (a : Opnd) (bad : Iss → Bool)
    (k : Iss → Loc → List Nat → State → Out) : Out :=
  s0.onLanes h 0 args more fun i _ s =>
    let ts := i.hd.parts h
    if ts.isEmpty then .next (s.advance i h)
    else match s.barLoc i a with
      | (.wait, _) => s0.stall
      | (.flt f, s) => s.raiseAll i h f
      | (.at l _, s) => if bad i then s.raiseAll i h { cause := 0x13 } else k i l ts (s.barSpend i a l)

/-- R30: the continuation of a waiting instruction is checked first: the threads that pass, the faults of the others, and whether an
answer is still to come. -/
def State.contCheck (s : State) (i : Iss) (cont : CodeAddr) (ts : List Nat) : (Bool × List Nat × List (Nat × Flt)) × State :=
  let r := runThreads (fun t s => s.checkWa i.tm (i.hd.thr t).tl cont) ts s
  ((r.1.1, ts.filter (fun t => !(r.1.2.any fun x => x.1 == t)), r.1.2), r.2)

/-- Send an operation to the bank of its word. -/
def State.sendArrival (s : State) (i : Iss) (kind : ArrKind) (l : Loc) (addr : Word) (b c : Nat) (ts : List Nat)
    (waiter : Bool) (pend : List Nat) : State :=
  let (id, s) := s.fresh
  let a : Arrival := { id, kind, loc := l, addr, b, c, team := i.c.team, hix := i.c.hix, mask := maskOf ts,
                       waiter, code := i.c.addr, pend, rank := s.bankRank i (decide (addr.toNat < 0x10000000)) }
  { s with arrivals := s.arrivals ++ [a] }

/-- The hand's reading of a uniform operand (R275). -/
def Iss.u (i : Iss) (o : Opnd) : Nat := (i.hd.rdO .uni o).toNat

/-- BARI (R276). -/
def execBari (h : Hdr) (a b c : Opnd) (s : State) : Out :=
  s.barOp h (barArgs a b c) noMore a
    (fun i => decide (i.u b = 0 ∨ 0xFFFF < i.u b ∨ 0xFFFF < i.u c))
    fun i l ts s => .next ((s.sendArrival i .init l (i.hd.rdO .uni a) (i.u b) (i.u c) ts false []).advance i h)

/-- BARA (R277): an arrival, which is a release (R140). -/
def execBara (h : Hdr) (a b c : Opnd) (s : State) : Out :=
  s.barOp h (barArgs a b c) noMore a
    (fun i => decide (0xFFFF < i.u b ∨ i.u c = 0 ∨ 0xFFFF < i.u c))
    fun i l ts s =>
      let s := s.release i.c.team i.c.hix
      .next ((s.sendArrival i .arrive l (i.hd.rdO .uni a) (i.u b) (i.u c) ts false []).advance i h)

/-- BARW for the threads whose continuation is good: they park until phase B completes; with a weight they arrive as well. With
weight 0 and the phase complete they unpark at the end of the cycle. -/
def State.barWait (s : State) (i : Iss) (l : Loc) (a b c : Opnd) (cont : CodeAddr) (ts : List Nat) : State :=
  let w : Wait := .barw l (i.hd.rdO .uni a) (i.u b)
  let s := s.updHand i.c.team i.c.hix fun hd => ts.foldl (fun hd t => hd.park t cont w) hd
  if i.u c ≠ 0 then (s.release i.c.team i.c.hix).sendArrival i .arrive l (i.hd.rdO .uni a) (i.u b) (i.u c) ts true []
  else if 0x8000 ≤ (s.barAt l).delta (i.u b) then s.updHand i.c.team i.c.hix fun hd => ts.foldl Hand.unpark hd
  else s

/-- BARW (R277, R30): continuation, then address, then values (R30; log 44). -/
def execBarw (h : Hdr) (a b c : Opnd) (cont : BitVec 22) (s0 : State) : Out :=
  s0.onLanes h 0 (barArgs a b c) noMore fun i _ s =>
    let ((w, ok, fs), s) := s.contCheck i (jTarget i cont) (i.hd.parts h)
    let all (s : State) (f : Flt) : Out :=
      s0.finish i h true ((w, mergeFaults fs (ok.map fun t => (t, f))), s)
    if ok.isEmpty then s0.finish i h true ((w, fs), s)
    else match s.barLoc i a with
      | (.wait, _) => s0.stall
      | (.flt f, s) => all s f
      | (.at l _, s) =>
        if decide (0xFFFF < i.u b ∨ 0xFFFF < i.u c) then all s { cause := 0x13 }
        else s0.finish i h true ((w, fs), (s.barSpend i a l).barWait i l a b c (jTarget i cont) ok)

/-- BART (R278): long-class; in D mode it raises Deterministic-Scope. -/
def execBart (h : Hdr) (d : POpnd) (a b : Opnd) (s : State) : Out :=
  s.barOp h [(.usrc, .o a), (.usrc, .o b)] (fun u => pdstOk u d) a (fun i => decide (0xFFFF < i.u b))
    fun i l ts s =>
      if s.dmode i.tm != 0 then s.raiseAll i h { cause := 0x15 }
      else
        let ds := ((i.hd.lanes h).map fun ln => (pdstOf ln d, none)).filter fun x => x.1 != Dst.drop
        let ids := (List.range ds.length).map (s.nextId + ·)
        let s := s.post i.c.team i.c.hix ds
        .next ((s.sendArrival i .test l (i.hd.rdO .uni a) (i.u b) 0 ts false ids).advance i h)

end Sys2Proof.Machine
end

