-- ==== Sys2Proof/Machine/Engines.lean ====
section
/-! DEFINITION. Engine queues, completion records and the copy engine (R141 to R143, R279 to R286). -/

namespace Sys2Proof.Machine

/-! ### Queues -/

/-- The entry at the head of a queue: the oldest that has not completed (R141). -/
def State.headOf (s : State) (core queue : Nat) : Option Entry := (s.core core).entries.find? fun e => e.queue == queue
def State.updEntry (s : State) (core id : Nat) (f : Entry → Entry) : State :=
  s.updCore core fun c => { c with entries := c.entries.map fun e => if e.id == id then f e else e }
def State.dropEntry (s : State) (core id : Nat) : State :=
  s.updCore core fun c => { c with entries := c.entries.filter fun e => e.id != id }
/-- May an engine go on for the team: it is resident, no save was requested, its launch has not failed (R382 to R384)? -/
def State.engLive (s : State) (tm : Team) : Bool := tm.st == .running && !s.launchDead tm.part tm.launch
/-- R320: of the entries of a core, those that `pick` names, and those that they must come after: the entries ahead of one in its
queue, and those that a QFENCE among them waits for. -/
def mustRun (pick : Entry → Bool) : List Entry → List Entry
  | [] => []
  | e :: r =>
    let l := mustRun pick r
    if pick e || l.any (fun x => x.queue == e.queue || x.await.contains e.id) then e :: l else l
/-- R384: must this entry complete before its class acknowledges? MLDV, DRPN, DRUN and DRSV complete (R320). -/
def Entry.completes (e : Entry) : Bool :=
  (e.kind == .meld && e.op == 0xA4#8) || (e.kind == .delta && e.op != 0xBA#8)
/-- R320, R141: is the entry, or one that comes after it, one that completes before the save of its team? (DEDUCED, log 64.) -/
def State.mustEnd (s : State) (core : Nat) (e : Entry) : Bool :=
  let saving (x : Entry) : Bool := x.completes && s.teams.any fun t => t.id == x.team && t.st == .saving
  (mustRun saving (s.core core).entries).any fun x => x.id == e.id
/-- The class of an entry (R384). -/
def Entry.cls (e : Entry) : Nat :=
  if e.completes then 4
  else match e.kind with
    | .delta => 3
    | .matrix | .meld => 1
    | .copy => 2
    | .qfence => if e.queue < 8 then 2 else if e.queue < 10 then 1 else 3

/-- May an engine go on with an entry of the team? Not once its class has acknowledged a save (R384): what comes after it then waits for
the end of that save. -/
def State.engGo (s : State) (core : Nat) (tm : Team) (e : Entry) : Bool :=
  s.engLive tm || (tm.st == .saving && !s.launchDead tm.part tm.launch && !tm.acks.contains e.cls && s.mustEnd core e)
/-- The entries in a queue. -/
def State.queueLen (s : State) (core queue : Nat) : Nat := ((s.core core).entries.filter fun e => e.queue == queue).length
/-- R281, R283, R297: the capacity of a queue. -/
def queueCap (q : Nat) : Nat := if q < 8 then 128 else if q < 10 then 32 else 16
/-- R280: event slots that resident teams hold on a core. -/
def State.slotsHeld (s : State) (core : Nat) : Nat :=
  ((s.teams.filter fun t => t.resident && t.core == core).map (·.evRes)).foldl (· + ·) 0

/-! ### Submission (R141, R143, R280, R297) -/

/-- The fields of a submission that the frame below fills in, for `mk`. -/
structure Sub where
  queue : Nat
  kind : EKind
  a : Dword
  b : Dword
  c : Dword

/-- A submission as an entry, of one lane. -/
def Iss.entry (i : Iss) (ln : Lane) (x : Sub) (id org : Nat) : Entry :=
  { id, queue := x.queue, kind := x.kind, op := i.c.w0.extractLsb' 56 8, team := i.c.team, hix := i.c.hix,
    tid := (match ln with | .thr t => t | .uni => 0xFF), addr := i.c.addr, w0 := i.c.w0, w1 := i.c.w1,
    a := x.a, b := x.b, c := x.c, fmt := i.hd.fmt, tag := lo32 i.c.w1, sub := id, org, privT := i.hd.inTrap }

/-- Add the entries of the lanes, in ascending order (R141). Each takes as many submission numbers as it reserves
event slots (R280, R286). -/
def submitAll (i : Iss) (slots org : Nat) (mk : Lane → Sub) (fin : Entry → Entry) : List Lane → State → State
  | [], s => s
  | ln :: r, s =>
    let id := s.nextId
    let e := fin { i.entry ln (mk ln) id org with pasid := s.pasidOf i.tm }
    let s := { s with nextId := id + slots }
    let s := s.updTeam i.c.team fun t => { t with subs := t.subs ++ (List.range slots).map (id + ·) }
    let s := s.updCore i.tm.core fun c => { c with entries := c.entries ++ [e] }
    submitAll i slots org mk fin r s

/-- Reserve and submit (R280): over the team's limit, Event-Overflow for every participant; with too few free slots
on the core, or no room in the queue, not ready. `bad`: lanes that fault instead. Submission is a release at .c
(R143): the hand's earlier writes are performed. -/
def State.submit (s0 s : State) (h : Hdr) (i : Iss) (lanes : List Lane) (slots : Nat) (copies : Bool)
    (bad : Lane → Option Flt) (mk : Lane → Sub) (fin : Entry → Entry := id) : Out :=
  let good := lanes.filter fun ln => (bad ln).isNone
  let fs := lanes.flatMap fun ln => match bad ln with
    | some f => (i.hd.laneThreads ln).map fun t => (t, f)
    | none => []
  let n := good.length * slots
  let stop (fs : List (Nat × Flt)) : Out := .next ((s.takeFaults i.c.team i.c.hix i.c.addr fs).advance i h)
  if good.isEmpty then stop fs
  else if Config.teamEventSlots < i.tm.evRes + n then
    stop (mergeFaults fs ((good.flatMap i.hd.laneThreads).map fun t => (t, { cause := 0x14 })))
  else if Config.eventSlots < s.slotsHeld i.tm.core + n
      || good.any (fun ln => decide (queueCap (mk ln).queue <
          s.queueLen i.tm.core (mk ln).queue + (good.filter fun l => (mk l).queue == (mk ln).queue).length))
      || (copies && !s.roomFor i.tm.core good.length) then s0.stall
  else
    let s := s.flushHand i.c.team i.c.hix
    let (org, s) := if copies then s.newOrigin i (maskOf (good.flatMap i.hd.laneThreads)) good.length else (0, s)
    let s := s.updTeam i.c.team fun t => { t with evRes := t.evRes + n }
    let s := submitAll i slots org mk fin good s
    .next ((s.takeFaults i.c.team i.c.hix i.c.addr fs).advance i h)

/-! ### Completion records -/

/-- R279: the KIND of a record. -/
def EKind.code : EKind → Nat
  | .copy => 0 | .matrix => 1 | .meld => 2 | .delta => 3 | .qfence => 7

/-- R279: ADDR is kept for four causes only. -/
def recAddr (cause : Nat) (addr : Dword) : Dword :=
  if cause = 8 ∨ cause = 9 ∨ cause = 0x0A ∨ cause = 0x1A then addr &&& 0xFFFFFFFFFFFFF#64 else 0

/-- The record of an entry (R279). -/
def Entry.record (e : Entry) (cause : Nat) (addr : Dword) : EvRec :=
  { w0 := BitVec.ofNat 64 (e.kind.code * 2 ^ 61 + e.queue * 2 ^ 56 + cause % 256 * 2 ^ 48 + e.hix * 2 ^ 40
            + e.tid * 2 ^ 32 + e.tag.toNat)
    w1 := recAddr cause addr, sub := e.sub, addr := e.addr }

/-- R284, R286: the records that may be taken, in the order of taking. -/
def availRecords (dmode : Bool) (tm : Team) : List EvRec :=
  if !dmode then tm.records
  else
    (sortBy (fun (a b : EvRec) => a.sub ≤ b.sub) tm.records).filter fun r => tm.subs.all fun n => r.sub < n

/-- A waiting EVWAIT of one lane. -/
structure Waiter where
  hix : Nat
  order : Nat
  tids : List Nat
  lo : Dst
  hi : Dst
  deriving DecidableEq, Repr

/-- The waiting EVWAITs of a hand for a tag: one per thread, or one for the hand under U. -/
def Hand.waiters (hd : Hand) (tag : Word) : List Waiter :=
  let one (t : Nat) : List Waiter := match (hd.thr t).wait with
    | .evwait g lo hi order uni =>
      if g != tag || (hd.thr t).st != .parked then []
      else
        let same (u : Nat) : Bool := match (hd.thr u).wait with
          | .evwait _ _ _ o _ => o == order && (hd.thr u).st == .parked
          | _ => false
        if uni then
          let ts := idxs hd.threads.length same
          if ts.head? == some t then [⟨hd.hix, order, ts, lo, hi⟩] else []
        else [⟨hd.hix, order, [t], lo, hi⟩]
    | _ => []
  (List.range hd.threads.length).flatMap one

/-- R285: the earliest-issued EVWAIT, and within one instruction the lowest tid. -/
def State.firstWaiter (s : State) (team : Nat) (tag : Word) : Option Waiter :=
  minBy (·.order) ((s.handsOf team).flatMap fun hd => hd.waiters tag)

/-- A record is taken (R280, R284, R285). -/
def State.removeRecord (s : State) (team : Nat) (r : EvRec) : State :=
  s.updTeam team fun t => { t with records := t.records.erase r, evRes := t.evRes - 1 }

/-- R166: the fault that a taken record raises. -/
def EvRec.fault (r : EvRec) : Option Flt :=
  if fld r.w0 55 48 = 0 then none else some { cause := fld r.w0 55 48, d0 := r.w0, d1 := r.w1 }

/-- A thread's fault with its hand, as a taken record raises it: hix, thread, code address of the submission (R166). -/
abbrev RecFault := Nat × Nat × CodeAddr × Flt

/-- R285: the record goes to a waiting EVWAIT: D is written, then the threads unpark. A failure is theirs to take. -/
def State.deliver (s : State) (team : Nat) (w : Waiter) (r : EvRec) : List RecFault × State :=
  let s := s.removeRecord team r
  ((match r.fault with | none => [] | some f => w.tids.map fun t => (w.hix, t, r.addr, f)),
   s.updHand team w.hix fun hd => w.tids.foldl Hand.unpark ((hd.put w.lo (lo32 r.w0)).put w.hi (hi32 r.w0)))

/-- R285, R286: give the available records to the EVWAITs that wait for them; the faults that these raise. -/
def State.matchWaits (team : Nat) : List EvRec → State → List RecFault × State
  | [], s => ([], s)
  | r :: rest, s =>
    match s.firstWaiter team (lo32 r.w0) with
    | none => State.matchWaits team rest s
    | some w =>
      let (fs, s) := s.deliver team w r
      let (gs, s) := State.matchWaits team rest s
      (fs ++ gs, s)

/-- The faults of one hand among these, in ascending thread order. -/
def faultsOf (hix : Nat) (l : List RecFault) : List (Nat × CodeAddr × Flt) :=
  sortBy (fun a b => a.1 ≤ b.1) ((l.filter fun x => x.1 == hix).map (·.2))

/-- The faults of taken records reach their threads, those of one hand together (R166, R375). -/
def State.raiseRecords (s : State) (team : Nat) (l : List RecFault) : State :=
  ((l.map (·.1)).eraseDups).foldl (fun s h => s.takeFaultsAt team h (faultsOf h l)) s

/-- R279, R285: write an entry's record; a failed launch's entries write none (R382). -/
def State.writeRecord (s : State) (e : Entry) (cause : Nat) (addr : Dword) : State :=
  match s.team? e.team with
  | none => s
  | some tm =>
    if s.launchDead tm.part tm.launch then s
    else
      let r := e.record cause addr
      let s := s.updTeam e.team fun t => { t with records := t.records ++ [r], subs := t.subs.filter fun n => n != e.sub }
      match s.team? e.team with
      | none => s
      | some tm =>
        let (fs, s) := State.matchWaits e.team (availRecords (s.dmode tm != 0) tm) s
        s.raiseRecords e.team fs

/-- EVPOP (R284): each lane takes the oldest record, in ascending order. -/
def popAll (i : Iss) (d : Opnd) : List Lane → State → (List (Dst × Option Word) × List (Nat × CodeAddr × Flt)) × State
  | [], s => (([], []), s)
  | ln :: r, s =>
    let out (v : Dword) : List (Dst × Option Word) := i.hd.halves i.tm.depth ln d v
    match (s.team? i.c.team).bind fun tm => (availRecords (s.dmode tm != 0) tm).head? with
    | none =>
      let ((ps, fs), s) := popAll i d r s
      ((out 0xFFFFFFFFFFFFFFFF#64 ++ ps, fs), s)
    | some x =>
      let ((ps, fs), s) := popAll i d r (s.removeRecord i.c.team x)
      ((out x.w0 ++ ps, (match x.fault with | some f => (i.hd.laneThreads ln).map fun t => (t, x.addr, f) | none => []) ++ fs), s)

/-- EVPOP (R284, R286). In D mode it is not ready while a record of the team is still to be written. -/
def execEvpop (h : Hdr) (d : Opnd) (s0 : State) : Out :=
  s0.onLanes h 0 [(.dst64, .o d)] noMore fun i lanes s =>
    if !lanes.isEmpty && s.dmode i.tm != 0 && !i.tm.subs.isEmpty then s0.stall
    else
      let ((ps, fs), s) := popAll i d lanes s
      let s := s.post i.c.team i.c.hix ps
      .next ((s.takeFaultsAt i.c.team i.c.hix fs).advance i h)

/-- EVWAIT (R285, R30): the participants park; a record that is there already is taken at once. The faults of its records and of its
continuations are one instruction's (R375). -/
def execEvwait (h : Hdr) (d b : Opnd) (cont : BitVec 22) (s0 : State) : Out :=
  s0.onLanes h 0 [(.dst64, .o d), (.src, .o b)] noMore fun i lanes s =>
    let (order, s) := s.fresh
    let w (ln : Lane) (t : Nat) : Wait :=
      let pr := match i.hd.halves i.tm.depth ln d 0 with
        | [(lo, _), (hi, _)] => (lo, hi)
        | _ => (Dst.drop, Dst.drop)
      .evwait (i.hd.rdO (match ln with | .uni => .uni | .thr _ => .thr t) b) pr.1 pr.2 order h.u
    let ts := lanes.flatMap i.hd.laneThreads
    let laneOf (t : Nat) : Lane := if h.u then .uni else .thr t
    let r := runThreads (fun t s => s.parkAt i.tm i.c.hix t (jTarget i cont) (w (laneOf t) t)) ts s
    let recs (s : State) : List EvRec := match s.team? i.c.team with
      | some tm => availRecords (s.dmode tm != 0) tm
      | none => []
    let (fs, s) := State.matchWaits i.c.team (recs r.2) r.2
    let own : List RecFault := r.1.2.map fun x => (i.c.hix, x.1, i.c.addr, x.2)
    if r.1.1 then s0.stall
    else .next ((s.raiseRecords i.c.team (own ++ fs)).advance i h r.1.2.isEmpty)

/-! ### QFENCE -/

/-- QFENCE (R283, R142). -/
def execQfence (h : Hdr) (a b : Opnd) (s0 : State) : Out :=
  s0.onLanes h 0 [(.src, .o a), (.src, .o b)] noMore fun i lanes s =>
    let q := i.u a
    let m := i.hd.rdO .uni b
    if lanes.isEmpty then .next (s.advance i h)
    else if 10 < q ∨ m >>> 11 ≠ 0 then s.raiseAll i h { cause := 1 }
    else if queueCap q ≤ s.queueLen i.tm.core q then s0.stall
    else
      let s := s.flushHand i.c.team i.c.hix
      let (id, s) := s.fresh
      let await := ((s.core i.tm.core).entries.filter fun e => m.getLsbD e.queue).map (·.id)
      let e := { i.entry .uni ⟨q, .qfence, BitVec.ofNat 64 q, m.setWidth 64, 0⟩ id 0 with await, tag := 0, pasid := s.pasidOf i.tm }
      .next ((s.updCore i.tm.core fun c => { c with entries := c.entries ++ [e] }).advance i h)

/-- QFENCE_COMPLETE (R142). -/
def execQfenceComplete (core queue : Nat) (s : State) : Out :=
  match s.headOf core queue with
  | none => .next s
  | some e =>
    let open_ := (s.core core).entries.any fun x => e.await.contains x.id
    if e.kind != .qfence || open_ then .next s else .next (s.dropEntry core e.id)

/-! ### The copy engine's accesses -/

/-- Cut `n` bytes from address `a` at multiples of `step`. -/
def pieces (step : Nat) : Nat → Nat → Nat → List (Nat × Nat)
  | 0, _, _ => []
  | fuel + 1, a, n =>
    if n = 0 then []
    else
      let k := min n (step - a % step)
      (a, k) :: pieces step fuel (a + k) (n - k)

/-- The pieces of an engine's range: no page and no scratchpad window boundary lies inside one (R47, R112, R368). -/
def spacePieces (sp : Space) (a n : Nat) : List (Nat × Nat) :=
  let step := match sp with | .glob => 4096 | .spad => 1024
  pieces step (n / step + 2) a n

/-- One piece of an engine's range, found at address `va`. -/
structure Piece where
  va : Nat
  l : Loc
  unc : Bool
  len : Nat
  deriving DecidableEq, Repr

/-- What checking a range answers. -/
inductive Gather
  | ok (l : List Piece)
  | bad (cause addr : Nat)
  | wait
  deriving DecidableEq, Repr

/-- R281: checks 2 and 3 of R264 on one piece. -/
def State.engAcc (s : State) (tm : Team) (privT : Bool) (sp : Space) (a : Nat) (k : AccKind) : Acc × State :=
  match sp with
  | .glob => s.accG tm privT a 1 k
  | .spad => s.accS tm privT a 1 k

/-- The first byte of the piece that cannot be read (R393, R354), if any. -/
def State.badByte (s : State) (l : Loc) (n : Nat) : Option Nat :=
  (List.range n).find? fun i => match l with
    | .mem pa => s.badLoc (.mem (pa + i)) 1
    | .slice _ _ => false

/-- Check a range, piece after piece, in ascending address. -/
def gather (tm : Team) (privT : Bool) (sp : Space) (k : AccKind) : List (Nat × Nat) → State → Gather × State
  | [], s => (.ok [], s)
  | (a, n) :: r, s =>
    match s.engAcc tm privT sp a k with
    | (.wait, s) => (.wait, s)
    | (.flt f, s) => (.bad f.cause a, s)
    | (.at l unc, s) =>
      match (if k == .read then s.badByte l n else none) with
      | some i => (.bad 0x1A (a + i), s)
      | none =>
        match gather tm privT sp k r s with
        | (.ok ps, s) => (.ok (⟨a, l, unc, n⟩ :: ps), s)
        | x => x

/-- The bytes of pieces, in the view of die `d` (R281: plain accesses); one that reads a slice of another die has seen what that die
has (R127). -/
def State.readPieces (s : State) (d : Nat) (ps : List Piece) : List Byte × State :=
  let s := if ps.any (·.unc) then s.flushInbox d else s
  let s := ps.foldl (fun s p => match p.l with | .slice c _ => s.meetSlice d c | .mem _ => s) s
  (ps.flatMap fun p => match p.l with
    | .mem pa => s.viewBytes d pa p.len
    | l => s.readLoc l p.len, s)

/-- The lines of a piece. -/
def Piece.lines (p : Piece) : List Piece :=
  match p.l with
  | .mem pa => (pieces 128 (p.len / 128 + 2) pa p.len).map fun x => ⟨p.va + (x.1 - pa), .mem x.1, p.unc, x.2⟩
  | .slice _ _ => [p]

/-- The threads that submitted an entry: one, or the hand's (R297). -/
def State.submitters (s : State) (e : Entry) : BitVec 128 :=
  if e.tid ≠ 0xFF then maskOf [e.tid]
  else match s.hand? e.team e.hix with
    | some hd => maskOf (List.range hd.threads.length)
    | none => 0

/-- A write of an entry that fails is reported through its origin entry, with the failing address (R381). An entry that has none is
reported as its submitter (DESIGN CHOICE, log 70). -/
def State.engImprecise (s : State) (core : Nat) (e : Entry) (p : Piece) : State :=
  let (part, launch) := match s.team? e.team with | some t => (t.part, t.launch) | none => (0, 0)
  let o := ((s.core core).origins.find? fun o => o.id == e.org).getD
    { id := 0, addr := e.addr, team := e.team, hix := e.hix, part, launch, mask := s.submitters e, undrained := 0, performed := 0 }
  s.imprecise core o (if e.tid = 0xFF then o.mask else maskOf [e.tid]) (BitVec.ofNat 64 p.va) (s.badReason p.l p.len)

/-- Write one run of bytes for an engine. A line that cannot be written is reported, and the others are written (R393). -/
def State.engWrite (s : State) (core : Nat) (e : Entry) (p : Piece) (data : List Byte) : State :=
  let put (s : State) (p : Piece) (data : List Byte) : State :=
    match p.l with
    | .mem pa => if p.unc then s.writeHome (dieOf core) pa data else s.writePlain (dieOf core) pa data
    | l => s.writeLoc (dieOf core) l data
  if s.badLoc p.l p.len then
    p.lines.foldl (fun s q =>
      if s.badLoc q.l q.len then s.engImprecise core e q else put s q ((data.drop (q.va - p.va)).take q.len)) s
  else put s p data

/-- Write bytes over pieces. -/
def writePieces (core : Nat) (e : Entry) : List Piece → List Byte → State → State
  | [], _, s => s
  | p :: r, data, s => writePieces core e r (data.drop p.len) (s.engWrite core e p (data.take p.len))

/-- Write bytes over pieces, but for those at addresses `lo` up to `hi` (R281: overlapping destination bytes wait for the
end). -/
def State.writeOutside (s : State) (core : Nat) (e : Entry) (lo hi : Nat) : List Piece → List Byte → State
  | [], _ => s
  | p :: r, data =>
    let n0 := min p.len (lo - p.va)
    let n1 := max n0 (min p.len (hi - p.va))
    let s := if n0 = 0 then s else s.engWrite core e { p with len := n0 } (data.take n0)
    let s := if p.len ≤ n1 then s
      else s.engWrite core e ⟨p.va + n1, p.l.plus n1, p.unc, p.len - n1⟩ ((data.take p.len).drop n1)
    s.writeOutside core e lo hi r (data.drop p.len)

/-! ### Copies -/

/-- The destination and source spaces of a copy (R281, R282). -/
def Entry.dsp (e : Entry) : Space := if bit e.w0 0 then .spad else .glob
def Entry.ssp (e : Entry) : Space := if bit e.w0 1 then .spad else .glob
/-- Is the entry the copy of a CPYX (R282)? -/
def Entry.isX (e : Entry) : Bool := e.op == 0xF4#8
/-- The bytes to copy: C, or COUNT of the follow-on record. -/
def Entry.count (e : Entry) : Nat := if e.isX then fld (e.copy.getD 0 0) 31 0 else fld e.c 31 0

/-- CPY (R281). -/
def execCpy (h : Hdr) (dsp ssp : Space) (a b c : Opnd) (x : EngExt) (s0 : State) : Out :=
  s0.onLanes h 0 [(baseRole dsp, .o a), (baseRole ssp, .o b), (.src, .o c)] noMore fun i lanes s =>
    let base (sp : Space) (ln : Lane) (o : Opnd) : Dword := match sp with
      | .glob => i.hd.rdO64 ln o
      | .spad => (i.hd.rdO ln o).setWidth 64
    s0.submit s h i lanes 1 true (fun _ => none) fun ln =>
      ⟨x.queue.toNat, .copy, base dsp ln a, base ssp ln b, (i.hd.rdO ln c).setWidth 64⟩

/-- CPYX (R282): two event slots, the copy's and the follow-on's (R280). -/
def execCpyx (h : Hdr) (ssp : Space) (a b c : Opnd) (x : EngExt) (s0 : State) : Out :=
  s0.onLanes h 0 [(.sbase, .o a), (baseRole ssp, .o b), (.gbase, .o c)] noMore fun i lanes s =>
    let src (ln : Lane) : Dword := match ssp with
      | .glob => i.hd.rdO64 ln b
      | .spad => (i.hd.rdO ln b).setWidth 64
    s0.submit s h i lanes 2 true
      (fun ln =>
        let r := i.hd.rdO64 ln c
        if r.toNat % 32 ≠ 0 then some { cause := 7, d0 := r } else none)
      fun ln => ⟨x.queue.toNat, .copy, (i.hd.rdO ln a).setWidth 64, src ln, i.hd.rdO64 ln c⟩

/-- Read `n` 64-bit words of a record for an engine: the words, or the failure. -/
def State.engRecord (s : State) (tm : Team) (privT : Bool) (va n : Nat) : Except (Option (Nat × Nat)) (List Dword) × State :=
  match gather tm privT .glob .read (spacePieces .glob va (8 * n)) s with
  | (.wait, s) => (.error none, s)
  | (.bad c a, s) => (.error (some (c, a)), s)
  | (.ok ps, s) =>
    let (bs, s) := s.readPieces (dieOf tm.core) ps
    (.ok ((List.range n).map fun j => BitVec.ofNat 64 (ofBytes ((bs.drop (8 * j)).take 8))), s)

/-- R282, R198: has the follow-on record a nonzero reserved field, or a reserved MC, NQ or KC? -/
def followBad (l : List Dword) : Bool :=
  let m := l.getD 2 0
  fld (l.getD 1 0) 63 52 != 0 || fld (l.getD 3 0) 63 32 != 0 || fld m 37 32 != 0 || fld m 63 62 == 3 || fld m 61 56 == 0 || fld m 55 50 == 0

/-- An entry has done its work, or failed. -/
def State.finishEntry (s : State) (core : Nat) (e : Entry) (cause addr : Nat) : State :=
  s.updEntry core e.id fun x => { x with phase := .done cause (BitVec.ofNat 64 addr) }

/-- R281: the destination bytes that lie in the source range, as an interval of addresses. -/
def Entry.overlap (e : Entry) : Nat × Nat :=
  let a := e.a.toNat
  let b := e.b.toNat
  if e.dsp == e.ssp && a < b + e.count && b < a + e.count then (max a b, min a b + e.count) else (0, 0)

/-- R281: the overlapping destination bytes, each either the old byte or a source byte: nothing says which (DESIGN CHOICE,
log 8). Their checks and reads are those of the last chunk. -/
def State.copyOverlap (s : State) (core : Nat) (tm : Team) (e : Entry) : Except (Option (Nat × Nat)) State :=
  let (lo, hi) := e.overlap
  if hi ≤ lo then .ok s
  else
    match gather tm e.privT e.dsp .write (spacePieces e.dsp lo (hi - lo)) s with
    | (.wait, _) => .error none
    | (.bad c a, _) => .error (some (c, a))
    | (.ok dst, s) =>
      match gather tm e.privT e.ssp .read (spacePieces e.ssp (e.b.toNat + (lo - e.a.toNat)) (hi - lo)) s with
      | (.wait, _) => .error none
      | (.bad c a, _) => .error (some (c, a))
      | (.ok src, s) =>
        let (new, s) := s.readPieces (dieOf core) src
        let (old, s) := s.readPieces (dieOf core) dst
        let (n, s) := s.drawFree
        let pick := (List.zip old new).mapIdx fun i x => if Config.freeBit n i then x.1 else x.2
        .ok (writePieces core e dst pick s)

/-- R11: the credits of the pieces of one side of a chunk, those of the core's own scratchpad apart. (DESIGN CHOICE, log 63.) -/
def sideCredits (core : Nat) (ps : List Piece) : Nat :=
  ceilDiv ((ps.map fun p => match p.l with | .slice c _ => if c = core then 0 else p.len | .mem _ => p.len).foldl (· + ·) 0) 64

/-- R281: one chunk of a copy: check and read every byte, then write. `follow`: what the copy's last byte brings
with it (R282); with no answer yet, the chunk waits. -/
def State.chunk (s0 : State) (core : Nat) (tm : Team) (e : Entry) (follow : State → Option State) : State :=
  let off := e.prog * 4096
  let n := min 4096 (e.count - off)
  let last := decide (e.count ≤ off + n)
  if n = 0 then (follow (s0.finishEntry core e 0 0)).getD s0
  else
    let (src, s) := gather tm e.privT e.ssp .read (spacePieces e.ssp (e.b.toNat + off) n) s0
    let (dst, s) := gather tm e.privT e.dsp .write (spacePieces e.dsp (e.a.toNat + off) n) s
    match src, dst with
    | .wait, _ | _, .wait => s0
    | .bad c a, .bad c' a' => if a' < a then s.finishEntry core e c' a' else s.finishEntry core e c a
    | .bad c a, .ok _ | .ok _, .bad c a => s.finishEntry core e c a
    | .ok src, .ok dst =>
      let (data, s) := s.readPieces (dieOf core) src
      let s := s.writeOutside core e e.overlap.1 e.overlap.2 dst data
      let s := s.spend core (sideCredits core src + sideCredits core dst)
      let s := s.updEntry core e.id fun x => { x with phase := .begun, prog := x.prog + 1, counted := 0 }
      if last then
        match s.copyOverlap core tm e with
        | .error none => s0
        | .error (some (c, a)) => s0.finishEntry core e c a
        | .ok s => (follow (s.finishEntry core e 0 0)).getD s0
      else s

/-- COPY_COMPLETE (R281, R279): the record is written at the scope that the entry names (R143). A failed CPYX copy
releases its follow-on's slot (R282). -/
def execCopyComplete (core queue : Nat) (s : State) : Out :=
  match s.headOf core queue with
  | none => .next s
  | some e =>
    match e.kind, e.phase with
    | .copy, .done cause addr =>
      let s := s.dropEntry core e.id
      let s := if 3 ≤ fld e.w1 60 58 then s.flushAll else s
      let s := s.ackReq core e.org
      let s := if e.isX && cause != 0 then
        s.updTeam e.team fun t => { t with evRes := t.evRes - 1, subs := t.subs.filter fun n => n != e.sub + 1 } else s
      .next (s.writeRecord e cause addr)
    | _, _ => .next s

end Sys2Proof.Machine
end

