-- ==== Sys2Proof/Machine/Accum.lean ====
section
/-! DEFINITION. Accumulator banks (R158 to R162, R307 to R311), and SPZ (R169, R170, R306). -/

namespace Sys2Proof.Machine

/-! ### Hand-wide instructions (R297) -/

/-- A hand-wide instruction makes one operation for the hand, and only when it has a participant. -/
def State.handWide (s : State) (h : Hdr) (args : List Arg) (body : Iss → List Nat → State → Out) : Out :=
  s.onLanes h 0 args noMore fun i _ s =>
    let ts := i.hd.parts h
    if ts.isEmpty then .next (s.advance i h) else body i ts s

/-- R307: is the range empty, or does it reach past the reservation? -/
def Team.badRange (t : Team) (first count : Nat) : Bool := count == 0 || decide (t.acc < first + count)

/-- The numbers of a range. -/
def runOf (first count : Nat) : List Nat := (List.range count).map (first + ·)

/-- R158, R173: the lowest first number of a run of `n` that satisfies `free`, below `limit`. -/
def freeRun (free : Nat → Bool) (limit n : Nat) : Option Nat :=
  (List.range limit).find? fun f => decide (f + n ≤ limit) && (runOf f n).all free

/-- Set or clear allocation bits. -/
def setAlloc (a : BitVec 256) (first count : Nat) (b : Bool) : BitVec 256 :=
  (runOf first count).foldl (fun a j => setBit a j b) a

/-- Does the hand hold the bank (R160)? -/
def Team.holds (t : Team) (hix bank : Nat) : Bool := t.claims.get bank 0 == hix + 1

/-- R161: may the hand touch the bank: allocated banks must be claimed by it. -/
def Team.mayTouch (t : Team) (hix bank : Nat) : Bool := !t.alloc.getLsbD bank || t.holds hix bank

/-! ### Allocation and claims -/

/-- AALC (R158, R308). -/
def execAalc (h : Hdr) (d a : Opnd) (s : State) : Out :=
  s.handWide h [(.dst, .o d), (.usrc, .o a)] fun i _ s =>
    let n := i.u a
    let lanes := i.hd.lanes h
    let out (s : State) (v : Word) : Out :=
      .next ((s.post i.c.team i.c.hix (lanes.flatMap fun ln => i.hd.half i.tm.depth ln d v)).advance i h)
    if n = 0 ∨ i.tm.acc < n then out s 0xFFFFFFFF#32
    else match freeRun (fun b => !i.tm.alloc.getLsbD b) i.tm.acc n with
      | none => out s 0xFFFFFFFF#32
      | some f =>
        out (s.updTeam i.c.team fun t =>
          { t with alloc := setAlloc t.alloc f n true, accMem := t.accMem.drop (f * 1024) ((f + n) * 1024) })
          (BitVec.ofNat 32 f)

/-- AFRE (R158, R308): it also ends the hand's claims on the banks. -/
def execAfre (h : Hdr) (a b : Opnd) (s : State) : Out :=
  s.handWide h [(.usrc, .o a), (.usrc, .o b)] fun i _ s =>
    let f := i.u a
    let n := i.u b
    let bad (j : Nat) : Bool :=
      !i.tm.alloc.getLsbD j || !(i.tm.claims.get j 0 == 0 || i.tm.holds i.c.hix j)
    if i.tm.badRange f n || (runOf f n).any bad then s.raiseAll i h { cause := 0x10 }
    else
      let s := s.updTeam i.c.team fun t =>
        { t with alloc := setAlloc t.alloc f n false, claims := t.claims.setRun 0 f (List.replicate n 0) }
      .next ((s.grantClaims i.c.team).advance i h)

/-- R160: the place of an ACLM among the waiting claims: its cycle, then the quadrant, then the slot of its hand. -/
def State.claimOrder (s : State) (hd : Hand) : Nat := (s.cyc * 4 + hd.quad) * 16 + hd.slot

/-- ACLM (R160, R309): every participant parks, its continuation checked first (R30); a claim that can be granted at once is. -/
def execAclm (h : Hdr) (a b : Opnd) (cont : BitVec 22) (s0 : State) : Out :=
  s0.handWide h [(.usrc, .o a), (.usrc, .o b)] fun i ts s =>
    let f := i.u a
    let n := i.u b
    let ((w, ok, fs), s) := s.contCheck i (jTarget i cont) ts
    if ok.isEmpty then s0.finish i h true ((w, fs), s)
    else if i.tm.badRange f n then s0.finish i h true ((w, mergeFaults fs (ok.map fun t => (t, { cause := 0x10 }))), s)
    else
      let order := s.claimOrder i.hd
      let s := s.updHand i.c.team i.c.hix fun hd => ok.foldl (fun hd t => hd.park t (jTarget i cont) (.aclm f n order)) hd
      s0.finish i h true ((w, fs), s.tryClaim i.c.team ⟨i.c.hix, order, f, n, ok⟩)

/-- AREL (R160, R309): a release (R162): the hand's earlier writes are performed first. -/
def execArel (h : Hdr) (a b : Opnd) (s : State) : Out :=
  s.handWide h [(.usrc, .o a), (.usrc, .o b)] fun i _ s =>
    let f := i.u a
    let n := i.u b
    if i.tm.badRange f n || !(runOf f n).all (i.tm.holds i.c.hix) then s.raiseAll i h { cause := 0x10 }
    else
      let s := (s.flushHand i.c.team i.c.hix).updTeam i.c.team fun t =>
        { t with claims := t.claims.setRun 0 f (List.replicate n 0) }
      .next ((s.grantClaims i.c.team).advance i h)

/-! ### Access -/

/-- R310: the element that a lane names, or the fault. -/
def Iss.element (i : Iss) (ln : Lane) (a b : Opnd) : Except Flt Nat :=
  let e := (i.hd.rdO ln a).toNat * 1024 + (i.hd.rdO ln b).toNat
  if i.tm.acc ≤ e / 1024 ∨ !i.tm.mayTouch i.c.hix (e / 1024) then .error { cause := 0x10 } else .ok e

/-- The faults of the lanes whose element is refused (R310). -/
def Iss.elementFaults (i : Iss) (lanes : List Lane) (a b : Opnd) : List (Nat × Flt) :=
  lanes.flatMap fun ln => match i.element ln a b with
    | .error f => (i.hd.laneThreads ln).map fun t => (t, f)
    | .ok _ => []

/-- R161: does some lane touch a bank that is not allocated? -/
def Iss.touchesUa (i : Iss) (lanes : List Lane) (a b : Opnd) : Bool :=
  lanes.any fun ln => match i.element ln a b with
    | .ok e => !i.tm.alloc.getLsbD (e / 1024)
    | .error _ => false

/-- Set `hs.ua` (R87, R161). -/
def State.setUa (s : State) (i : Iss) (b : Bool) : State :=
  if b then s.updHand i.c.team i.c.hix fun hd => hd.setHs hsUa else s

/-- ARD (R310, R161): long-class. -/
def execArd (h : Hdr) (_t : Ty) (d a b : Opnd) (s : State) : Out :=
  s.onLanes h 0 [(.dst, .o d), (.src, .o a), (.src, .o b)] noMore fun i lanes s =>
    let ps := lanes.flatMap fun ln => match i.element ln a b with
      | .ok e => i.hd.half i.tm.depth ln d (if i.tm.alloc.getLsbD (e / 1024) then i.tm.accMem.get e 0 else 0)
      | .error _ => []
    let s := (s.setUa i (i.touchesUa lanes a b)).post i.c.team i.c.hix ps
    .next ((s.takeFaults i.c.team i.c.hix i.c.addr (i.elementFaults lanes a b)).advance i h)

/-- AWR (R310, R161): of the participants that write one element, the highest tid's value stays. -/
def execAwr (h : Hdr) (_t : Ty) (a b c : Opnd) (s : State) : Out :=
  s.onLanes h 0 [(.src, .o a), (.src, .o b), (.src, .o c)] noMore fun i lanes s =>
    let w (m : SMap Word) (ln : Lane) : SMap Word := match i.element ln a b with
      | .ok e => if i.tm.alloc.getLsbD (e / 1024) then m.set e (i.hd.rdO ln c) 0 else m
      | .error _ => m
    let s := (s.setUa i (i.touchesUa lanes a b)).updTeam i.c.team fun t => { t with accMem := lanes.foldl w t.accMem }
    .next ((s.takeFaults i.c.team i.c.hix i.c.addr (i.elementFaults lanes a b)).advance i h)

/-- AZRO (R311). -/
def execAzro (h : Hdr) (a b : Opnd) (s : State) : Out :=
  s.handWide h [(.usrc, .o a), (.usrc, .o b)] fun i _ s =>
    let f := i.u a
    let n := i.u b
    if i.tm.badRange f n || !(runOf f n).all (i.tm.mayTouch i.c.hix) then s.raiseAll i h { cause := 0x10 }
    else
      let zero (m : SMap Word) (j : Nat) : SMap Word :=
        if i.tm.alloc.getLsbD j then m.drop (j * 1024) ((j + 1) * 1024) else m
      let s := s.setUa i ((runOf f n).any fun j => !i.tm.alloc.getLsbD j)
      .next ((s.updTeam i.c.team fun t => { t with accMem := (runOf f n).foldl zero t.accMem }).advance i h)

/-- R311: the bytes that ADRN writes for an element. -/
def drainBytes (t : Ty) (x : Word) : List Byte :=
  match t with
  | .bf16 => toBytes 2 (FF.bf16.round .ne false (f32 x))
  | .f16 => toBytes 2 (FF.f16.round .ne false (f32 x))
  | _ => toBytes 4 x.toNat

/-- R311: the runs that ADRN writes: bank u, row i, with the address of the run. -/
def drainRuns (base dp size count : Nat) : List (Nat × Nat × Nat) :=
  (List.range count).flatMap fun u => (List.range 16).map fun r => (u, r, base + r * dp + 64 * u * size)

/-- Check the pieces of scratchpad runs, in order: the places, or the first failure. -/
def State.spadRuns (s : State) (tm : Team) (privT : Bool) : List (Nat × Nat) → Except Res (List (Nat × Loc × Nat)) × State
  | [] => (.ok [], s)
  | (a, n) :: r =>
    match s.accS tm privT (a % 2 ^ 32) 1 .write with
    | (.at l _, s) => match s.spadRuns tm privT r with
      | (.ok ps, s) => (.ok ((a, l, n) :: ps), s)
      | x => x
    | (.flt f, s) => (.error (.flt f), s)
    | (.wait, s) => (.error .wait, s)

/-- R11: the credits of a run of bytes, a request for each line. -/
def runCredits (a n : Nat) : Nat :=
  ((List.range (n / 128 + 2)).map fun k =>
    ceilDiv (min (a + n) ((a / 128 + k + 1) * 128) - max a ((a / 128 + k) * 128)) 64).foldl (· + ·) 0

/-- R11: the credits of the pieces that ADRN stores outside the core's own share. -/
def drainCredits (ps : List (Nat × Loc × Nat)) : Nat :=
  (ps.map fun p => if Found.leaves ⟨.uni, p.2.1, false, p.1⟩ then runCredits p.2.1.parts.1 p.2.2 else 0).foldl (· + ·) 0

/-- ADRN (R311): read the banks as one band and store them, converted; the banks are checked first, then every
destination byte. -/
def execAdrn (h : Hdr) (t : Ty) (zero : Bool) (pitch : BitVec 8) (a b c : Opnd) (s0 : State) : Out :=
  s0.handWide h [(.usrc, .o a), (.usrc, .o b), (.usrc, .o c)] fun i _ s =>
    let f := i.u b
    let n := i.u c
    let size := tySize t
    let dp := if pitch = 0 then 64 * n * size else 16 * pitch.toNat
    if i.tm.badRange f n || !(runOf f n).all (i.tm.mayTouch i.c.hix) then s.raiseAll i h { cause := 0x10 }
    else if i.u a % size ≠ 0 then s.raiseAll i h { cause := 7, d0 := BitVec.ofNat 64 (i.u a), d1 := 1 }
    else
      let runs := drainRuns (i.u a) dp size n
      match s.spadRuns i.tm i.hd.inTrap (runs.flatMap fun x => spacePieces .spad x.2.2 (64 * size)) with
      | (.error (.flt e), s) => s.raiseAll i h e
      | (.error _, _) => s0.stall
      | (.ok ps, s) =>
        let el (u r j : Nat) : Word :=
          if i.tm.alloc.getLsbD (f + u) then i.tm.accMem.get ((f + u) * 1024 + r * 64 + j) 0 else 0
        let data := runs.flatMap fun x => (List.range 64).flatMap fun j => drainBytes t (el x.1 x.2.1 j)
        let s := (s.flushHand i.c.team i.c.hix).spend i.tm.core (drainCredits ps)
        let s := (ps.foldl (fun (x : State × List Byte) p =>
          (x.1.storeNow i ⟨.uni, p.2.1, false, p.1⟩ (x.2.take p.2.2), x.2.drop p.2.2)) (s, data)).1
        let wipe (m : SMap Word) (j : Nat) : SMap Word :=
          if i.tm.alloc.getLsbD j then m.drop (j * 1024) ((j + 1) * 1024) else m
        let s := s.setUa i ((runOf f n).any fun j => !i.tm.alloc.getLsbD j)
        .next ((s.updTeam i.c.team fun t =>
          { t with accMem := if zero then (runOf f n).foldl wipe t.accMem else t.accMem }).advance i h)

/-! ### SPZ -/

/-- R169: does element `i` of magnitude `a` rank above element `j` of magnitude `b`? -/
def outranks (i j : Nat) (a b : Num) : Bool :=
  if a.isNan || b.isNan then (if a.isNan && b.isNan then decide (i < j) else a.isNan)
  else if a.eqv b then decide (i < j) else b.lt a

/-- R169: the indices of the four elements that rank highest, ascending. -/
def topFour (xs : List Num) : List Nat :=
  let m (i : Nat) : Num := (xs.getD i .nan).abs
  idxs 8 fun i => decide (((List.range 8).filter fun j => j != i && outranks j i (m j) (m i)).length < 4)

/-- R306: the two words that SPZ writes. -/
def spzWords (t : Ty) (x : Dword) : Word × Word :=
  let w := tyWidth t
  let el (i : Nat) : Nat := x.toNat / 2 ^ (w * i) % 2 ^ w
  let ks := topFour ((List.range 8).map fun i => valueOf t (el i))
  let pack (w : Nat) (l : List Nat) : Nat := (l.mapIdx fun j v => v * 2 ^ (w * j)).foldl (· + ·) 0
  (BitVec.ofNat 32 (pack w (ks.map el)), BitVec.ofNat 32 (pack 3 ks))

/-- SPZ (R306). A small immediate fills all eight elements of the source pair of .e4m3 and .e5m2 (DESIGN CHOICE, log 72). -/
def execSpz (h : Hdr) (t : Ty) (d a : Opnd) (s : State) : Out :=
  s.shortOp h [(.dst64, .o d), (if t == .i4 then .src else .src64, .o a)] noMore fun hd depth ln =>
    let x := if t == .i4 then (hd.rdO ln a).setWidth 64
      else if t.float then hd.rdE64 ln t (.o a) else hd.rdO64 ln a
    let (e, o) := spzWords t x
    hd.wr64 depth ln d (pair64 o e)

end Sys2Proof.Machine
end

