-- ==== Sys2Proof/Machine/Melds.lean ====
section
/-! DEFINITION. Meld descriptors, residencies and their fills (R146 to R157, R163, R298 to R301). -/

namespace Sys2Proof.Machine

/-! ### Formats (R163) and descriptors (R148) -/

def efOk (c : Nat) : Bool := decide (c < 10)
def efWidth (c : Nat) : Nat := if c < 2 then 16 else if c = 6 ∨ c = 9 then 4 else 8
def efInt (c : Nat) : Bool := decide (7 ≤ c)
def efTwin (c : Nat) : Bool := decide (4 ≤ c ∧ c ≤ 6)
/-- Decode an element of a format under a scale word. -/
def efDecode (c scale x : Nat) : Num :=
  match c with
  | 0 => FF.bf16.decode x
  | 1 => FF.f16.decode x
  | 2 => FF.e4m3.decode x
  | 3 => FF.e5m2.decode x
  | 4 => twinDecode .te8 scale x
  | 5 => twinDecode .te6 scale x
  | 6 => twinDecode .te4 scale x
  | 7 => valueOf .i8 x
  | 8 => valueOf .z8 x
  | _ => valueOf .i4 x

/-- R146: logical positions of a K step. -/
def kstepOf (ef : Nat) (sparse : Bool) : Nat := 2048 / efWidth ef * (if sparse then 2 else 1)

/-- A descriptor, as its eight words. -/
abbrev Desc := List Dword

namespace Desc
def w (d : Desc) (j : Nat) : Dword := List.getD d j 0
def valid (d : Desc) : Bool := bit (d.w 0) 63
def refresh (d : Desc) : Bool := bit (d.w 0) 62
def spad (d : Desc) : Bool := bit (d.w 0) 61
def sparse (d : Desc) : Bool := bit (d.w 0) 60
def kitty (d : Desc) : Nat := fld (d.w 0) 59 56
def ef (d : Desc) : Nat := fld (d.w 0) 55 52
def src (d : Desc) : Nat := fld (d.w 0) 51 0
def k (d : Desc) : Nat := fld (d.w 1) 63 48
def n (d : Desc) : Nat := fld (d.w 1) 47 32
def pitch (d : Desc) : Nat := fld (d.w 1) 31 0
def scale (d : Desc) : Nat := fld (d.w 2) 51 0
def meta_ (d : Desc) : Nat := fld (d.w 3) 51 0
def kstep (d : Desc) : Nat := kstepOf d.ef d.sparse
/-- R147: K steps, column groups, slots. -/
def ks (d : Desc) : Nat := ceilDiv d.k d.kstep
def ns (d : Desc) : Nat := ceilDiv d.n 128
def count (d : Desc) : Nat := d.ks * d.ns
/-- Stored rows, and the bytes of a row (R149). -/
def rows (d : Desc) : Nat := if d.sparse then d.k / 2 else d.k
def rowBytes (d : Desc) : Nat := ceilDiv (d.n * efWidth d.ef) 8
/-- Blocks of a line (R99), groups of a column (R149). -/
def blocks (d : Desc) : Nat := ceilDiv d.k 32
def groups (d : Desc) : Nat := d.k / 8
/-- The space in which the source lies. -/
def space (d : Desc) : Space := if d.spad then .spad else .glob

/-- R149: the conditions that the words alone decide. -/
def shapeOk (d : Desc) : Bool :=
  d.valid && fld (d.w 2) 63 52 == 0 && fld (d.w 3) 63 52 == 0
    && d.w 4 == 0 && d.w 5 == 0 && d.w 6 == 0 && d.w 7 == 0
    && (!d.spad || (decide (d.src < 2 ^ 32 ∧ d.scale < 2 ^ 32 ∧ d.meta_ < 2 ^ 32)))
    && decide (1 ≤ d.k ∧ 1 ≤ d.n) && efOk d.ef && (efTwin d.ef == (d.scale != 0))
    && decide (d.count ≤ 16) && (!d.sparse || (d.k % 8 == 0 && d.meta_ != 0 && d.ef != 5))

/-- The ranges that a fill reads: rows of the source, the scale array, the metadata array (R149). -/
def ranges (d : Desc) : List (Nat × Nat) :=
  ((List.range d.rows).map fun r => (d.src + r * d.pitch, d.rowBytes))
    ++ (if efTwin d.ef then [(d.scale, 2 * d.n * d.blocks)] else [])
    ++ (if d.sparse then [(d.meta_, 2 * d.n * d.groups)] else [])
end Desc

/-- Is each range wholly in HBM of this package mapped to the partition (R149)? `none`: an answer is to come. A page that the submitter
may not read counts as not mapped (DESIGN CHOICE, log 72). -/
def allHbm (tm : Team) (privT : Bool) : List (Nat × Nat) → State → Option Bool × State
  | [], s => (some true, s)
  | (a, _) :: r, s =>
    match s.engAcc tm privT .glob a .read with
    | (.at (.mem pa) _, s) => if pa < hbmEnd then allHbm tm privT r s else (some false, s)
    | (.at _ _, s) => (some false, s)
    | (.flt _, s) => (some false, s)
    | (.wait, s) => (none, s)

/-- R149: is the descriptor usable? -/
def State.usable (s : State) (tm : Team) (privT : Bool) (d : Desc) : Option Bool × State :=
  if !d.shapeOk then (some false, s)
  else if d.spad then (some (d.ranges.all fun x => decide (x.1 + x.2 ≤ tm.spad)), s)
  else allHbm tm privT (d.ranges.flatMap fun x => spacePieces .glob x.1 x.2) s

/-! ### Residencies -/

/-- R150: is `r` the residency of the meld that `team` names? -/
def Resid.isFor (r : Resid) (pasid team desc : Nat) (spad : Bool) : Bool :=
  !r.dead && r.pasid == pasid && r.desc.toNat == desc && (if spad then r.team == some team else r.team == none)

def State.findResid (s : State) (core pasid team desc : Nat) (spad : Bool) : Option Resid :=
  (s.core core).resid.find? fun r => r.isFor pasid team desc spad

def State.updResid (s : State) (core id : Nat) (f : Resid → Resid) : State :=
  s.updCore core fun c => { c with resid := c.resid.map fun r => if r.id == id then f r else r }

/-- The descriptor address that a matrix or meld entry names, and its kept copy's SPAD. -/
def Entry.desc (e : Entry) : Nat := match e.kind with | .matrix => fld e.b 51 0 | _ => fld e.a 51 0
def Entry.names (e : Entry) (r : Resid) : Bool :=
  (e.queue == 8 || e.queue == 9) && (e.kind == .matrix || e.kind == .meld) &&
    (e.resid == r.id || (r.desc.toNat == e.desc && r.pasid == e.pasid && (match r.team with | some t => t == e.team | none => true)))

/-- R152: is the residency in use: named by an entry of a matrix queue, other than entry `but`? -/
def Core.inUse (c : Core) (r : Resid) (but : Nat) : Bool :=
  c.entries.any fun e => e.id != but && (if r.dead then e.resid == r.id else e.names r)

/-- Does the residency hold a slot of the position? -/
def Resid.overlaps (r : Resid) (arr first count : Nat) : Bool :=
  r.arr == arr && decide (r.first < first + count ∧ first < r.first + r.count)

/-- R152: may the position be taken; `ignoreUse`: residencies in use count as free (R300). -/
def Core.legal (c : Core) (but : Nat) (ignoreUse : Bool) (arr first count : Nat) : Bool :=
  decide (first + count ≤ 16) && !(c.resid.any fun r =>
    r.overlaps arr first count && (r.pinned || (!ignoreUse && c.inUse r but)))

/-- R152: the position that the core chooses among the given arrays. -/
def Core.position (c : Core) (but : Nat) (ignoreUse : Bool) (arrs : List Nat) (count : Nat) : Option (Nat × Nat) :=
  let held (arr first : Nat) : Nat :=
    (idxs 16 fun i => decide (first ≤ i ∧ i < first + count) && (c.resid.any fun r => r.overlaps arr i 1)).length
  let ps := arrs.flatMap fun a => (List.range 16).map fun f => (a, f)
  minBy (fun p => held p.1 p.2 * 64 + p.1 * 16 + p.2) (ps.filter fun p => c.legal but ignoreUse p.1 p.2 count)

/-- R155: a filled ephemeral residency that goes makes its meld lost for its team. -/
def State.loseResid (s : State) (r : Resid) : State :=
  match r.team with
  | some t => if r.filled then s.updTeam t fun x => { x with lost := r.desc.toNat :: x.lost } else s
  | none => s

/-- Remove a residency; an entry that holds it keeps its slots until it completes (R156). -/
def State.dropResid (s : State) (core : Nat) (r : Resid) : State :=
  let held := (s.core core).entries.any fun e => e.resid == r.id
  let kill (x : Resid) : Resid := if x.id == r.id then { x with dead := true, pinned := false } else x
  s.updCore core fun c =>
    { c with resid := if held then c.resid.map kill else c.resid.filter (fun x => x.id != r.id) }

/-- R152: make a residency at a position; every residency that overlaps it is evicted. -/
def State.makeResid (s : State) (core pasid team desc : Nat) (d : Desc) (pos : Nat × Nat) : Nat × State :=
  let out := (s.core core).resid.filter fun r => r.overlaps pos.1 pos.2 d.count
  let s := out.foldl (fun s r => (s.loseResid r).dropResid core r) s
  let (id, s) := s.fresh
  let r : Resid := { id, pasid, desc := BitVec.ofNat 64 desc, team := if d.spad then some team else none,
                     arr := pos.1, first := pos.2, count := d.count, copy := d }
  (id, s.updCore core fun c => { c with resid := c.resid ++ [r] })

/-- R155: use by another team makes an ephemeral residency lost. -/
def State.useMeld (s : State) (core pasid team desc : Nat) (d : Desc) : State :=
  if !d.spad then s
  else
    let other (r : Resid) : Bool :=
      !r.dead && r.pasid == pasid && r.desc.toNat == desc && (match r.team with | some t => t != team | none => false)
    ((s.core core).resid.filter other).foldl (fun s r => (s.loseResid r).dropResid core r) s

/-- R300: the queue that an entry enters: the residency's array, a pin's MA1, or the array that R152 picks. (DEDUCED, log 41.) -/
def State.meldQueue (s : State) (core pasid team desc : Nat) (d : Desc) (pin : Bool) : Nat :=
  match s.findResid core pasid team desc d.spad with
  | some r => if pin then 9 else 8 + r.arr
  | none =>
    if pin then 9
    else
      let c := s.core core
      match c.position 0 false [0, 1] d.count with
      | some p => 8 + p.1
      | none => match c.position 0 true [0, 1] d.count with
        | some p => 8 + p.1
        | none => 8

/-- R150: the word of MLDQ. -/
def Resid.word (r : Resid) : Word :=
  BitVec.ofNat 32 (2 ^ 31 + (if r.pinned then 2 ^ 30 else 0) + (if r.stale then 2 ^ 29 else 0)
    + (if r.fill then 2 ^ 28 else 0) + r.arr * 2 ^ 27 + r.first * 2 ^ 23 + r.count * 2 ^ 18)

/-! ### Instructions (R298, R299) -/

/-- Is the meld a lost ephemeral one (R155)? -/
def Team.lostMeld (t : Team) (desc : Nat) (d : Desc) : Bool := d.spad && t.lost.contains desc

/-- R299: read the descriptor, and make checks 1 and 2: the words, a fault, or an answer to come. -/
def State.readDesc (s : State) (tm : Team) (privT : Bool) (a : Dword) : Except (Option Flt) Desc × State :=
  if a.toNat % 64 ≠ 0 then (.error (some { cause := 7, d0 := a }), s)
  else match s.engRecord tm privT a.toNat 8 with
    | (.error none, s) => (.error none, s)
    | (.error (some _), s) => (.error (some { cause := 0x0E }), s)
    | (.ok d, s) =>
      match s.usable tm privT d with
      | (none, s) => (.error none, s)
      | (some false, s) => (.error (some { cause := 0x0E }), s)
      | (some true, s) =>
        if tm.lostMeld a.toNat d then (.error (some { cause := 0x0E }), s) else (.ok d, s)

/-- The parts of a hand-wide submission, whose participants are `ts` (R297). -/
def Iss.wide (i : Iss) (ts : List Nat) : Iss := { i with hd := { i.hd with act := maskOf ts } }

/-- A meld instruction with a descriptor that must be usable. `form`: check 3 of R299. -/
def meldOp (h : Hdr) (a b : Opnd) (pin : Bool) (form : Desc → Bool) (s0 : State) : Out :=
  s0.handWide h [(.ugbase, .o a), (.usrc, .o b)] fun i ts s =>
    let addr := i.hd.rdO64 .uni a
    match (s.flushHand i.c.team i.c.hix).readDesc i.tm i.hd.inTrap addr with
    | (.error none, _) => s0.stall
    | (.error (some f), s) => s.raiseAll i h f
    | (.ok d, s) =>
      if !form d then s.raiseAll i h { cause := 0x0C }
      else if Config.teamEventSlots < i.tm.evRes + 1 then s.raiseAll i h { cause := 0x14 }
      else
        let pasid := s.pasidOf i.tm
        let s := s.useMeld i.tm.core pasid i.tm.id addr.toNat d
        let q := s.meldQueue i.tm.core pasid i.tm.id addr.toNat d pin
        s0.submit s h (i.wide ts) [.uni] 1 false (fun _ => none) (fun _ => ⟨q, .meld, addr, 0, 0⟩)
          fun e => { e with copy := d, tag := i.hd.rdO .uni b }

/-- MLDA (R151, R298). -/
def execMlda (h : Hdr) (a b : Opnd) (s : State) : Out := meldOp h a b false (fun _ => true) s
/-- MLDL (R151, R298). -/
def execMldl (h : Hdr) (a b : Opnd) (s : State) : Out := meldOp h a b false (fun d => !d.sparse) s
/-- MLDS (R151, R298). -/
def execMlds (h : Hdr) (a b : Opnd) (s : State) : Out := meldOp h a b false (fun d => d.sparse) s
/-- MLDP, pin (R153, R298). -/
def execMldpPin (h : Hdr) (a b : Opnd) (s : State) : Out := meldOp h a b true (fun _ => true) s
/-- MLDP, unpin (R153, R298). -/
def execMldpUnpin (h : Hdr) (a b : Opnd) (s : State) : Out := meldOp h a b false (fun _ => true) s
/-- MLDV (R156, R298). -/
def execMldv (h : Hdr) (a b : Opnd) (s : State) : Out := meldOp h a b false (fun _ => true) s

/-- MLDQ (R301): long-class; in D mode it raises Deterministic-Scope. -/
def execMldq (h : Hdr) (d a : Opnd) (s0 : State) : Out :=
  s0.handWide h [(.dst, .o d), (.ugbase, .o a)] fun i _ s =>
    let addr := i.hd.rdO64 .uni a
    match (s.flushHand i.c.team i.c.hix).readDesc i.tm i.hd.inTrap addr with
    | (.error none, _) => s0.stall
    | (.error (some f), s) => s.raiseAll i h f
    | (.ok x, s) =>
      if s.dmode i.tm != 0 then s.raiseAll i h { cause := 0x15 }
      else
        let w := match s.findResid i.tm.core (s.pasidOf i.tm) i.tm.id addr.toNat x.spad with
          | some r => r.word
          | none => 0
        .next ((s.post i.c.team i.c.hix ((i.hd.lanes h).flatMap fun ln => i.hd.half i.tm.depth ln d w)).advance i h)

/-- R153: the slots that a kitty has pinned on a core. -/
def Core.kittySlots (c : Core) (k : Nat) : Nat :=
  ((c.resid.filter fun r => r.pinned && r.kitty == k).map (·.count)).foldl (· + ·) 0

/-- R339: unpins or a pin have brought the kitty's count below its limit. -/
def State.easeKitty (s : State) (core part kitty : Nat) : State :=
  s.updCore core fun c =>
    if c.kittySlots kitty < (s.part part).kitty.get kitty 0 then { c with overLimit := c.overLimit.filter fun k => k != kitty } else c

/-! ### Fills (R147, R149, R157, R170) -/

/-- Where a global source lies: physical address and length of each run. -/
def State.sourceSpans (s : State) (tm : Team) (privT : Bool) (d : Desc) : List (Nat × Nat) × State :=
  let span (acc : List (Nat × Nat) × State) (p : Nat × Nat) : List (Nat × Nat) × State :=
    match acc.2.engAcc tm privT .glob p.1 .read with
    | (.at (.mem pa) _, s) => (acc.1 ++ [(pa, p.2)], s)
    | (_, s) => (acc.1, s)
  if d.spad then ([], s) else (d.ranges.flatMap fun x => spacePieces .glob x.1 x.2).foldl span ([], s)

/-- R370: does a part of the source lie outside this package's HBM? -/
def spansLeft (l : List (Nat × Nat)) : Bool := l.any fun x => decide (hbmEnd ≤ x.1)

/-- Start a fill with a descriptor: STALE is cleared and FILL set, and the source is recorded (R144, R151). -/
def State.startFill (s : State) (core id : Nat) (d : Desc) (spans : List (Nat × Nat)) : State :=
  s.updResid core id fun r =>
    { r with stale := false, fill := true, copy := d, spans, elems := [], scales := [], metas := [] }

/-- R151, R170, R300: a fill that fails or is abandoned leaves the residency allocated but empty. -/
def State.stopFill (s : State) (core id : Nat) : State :=
  s.updResid core id fun r => { r with fill := false, stale := true, elems := [], scales := [], metas := [] }

/-- Read bytes of a range of the source. -/
def State.readRange (s : State) (tm : Team) (privT : Bool) (sp : Space) (a n : Nat) :
    Except (Option (Nat × Nat)) (List Byte) × State :=
  match gather tm privT sp .read (spacePieces sp a n) s with
  | (.wait, s) => (.error none, s)
  | (.bad c a, s) => (.error (some (c, a)), s)
  | (.ok ps, s) =>
    let (bs, s) := s.readPieces (dieOf tm.core) ps
    (.ok bs, s)

/-- Read several ranges, in order. -/
def readRanges (tm : Team) (privT : Bool) (sp : Space) :
    List (Nat × Nat) → State → Except (Option (Nat × Nat)) (List (List Byte)) × State
  | [], s => (.ok [], s)
  | (a, n) :: r, s =>
    match s.readRange tm privT sp a n with
    | (.error e, s) => (.error e, s)
    | (.ok b, s) => match readRanges tm privT sp r s with
      | (.error e, s) => (.error e, s)
      | (.ok l, s) => (.ok (b :: l), s)

/-- Element `i` of packed `w`-bit elements (R96). -/
def packed (w : Nat) (bs : List Byte) (i : Nat) : Nat :=
  if w = 4 then (bs.getD (i / 2) 0).toNat / (if i % 2 = 0 then 1 else 16) % 16
  else if w = 8 then (bs.getD i 0).toNat
  else (bs.getD (2 * i) 0).toNat + 256 * (bs.getD (2 * i + 1) 0).toNat

/-- R170: is the metadata word malformed? -/
def metaBad (x : Nat) : Bool :=
  let i (j : Nat) : Nat := x / 8 ^ j % 8
  decide (4096 ≤ x) || !decide (i 0 < i 1 ∧ i 1 < i 2 ∧ i 2 < i 3)

/-- What one slot holds: the stored rows, columns, blocks and groups of slot `j` (R146, R147). -/
structure SlotPart where
  r0 : Nat
  r1 : Nat
  n0 : Nat
  n1 : Nat
  b0 : Nat
  b1 : Nat
  g0 : Nat
  g1 : Nat
  deriving DecidableEq, Repr

def Desc.part (d : Desc) (j : Nat) : SlotPart :=
  let s := j / d.ns
  let nb := j % d.ns
  let kr := if d.sparse then d.kstep / 2 else d.kstep
  ⟨s * kr, min ((s + 1) * kr) d.rows, nb * 128, min (nb * 128 + 128) d.n,
   s * d.kstep / 32, min ((s + 1) * d.kstep / 32) d.blocks, s * d.kstep / 8, min ((s + 1) * d.kstep / 8) d.groups⟩

/-- Set the entries of a table row: column `c0 + i` takes value `i`. -/
def setRow (m : SMap (BitVec 16)) (row c0 : Nat) (vs : List Nat) : SMap (BitVec 16) :=
  (vs.mapIdx fun i v => (row * 65536 + c0 + i, v)).foldl (fun m x => m.set x.1 (BitVec.ofNat 16 x.2) 0) m

/-- R147, R149: read one slot of a fill: its rows, then its columns' scale and metadata words. The last component
says that a metadata word is malformed. -/
def State.readSlot (s : State) (tm : Team) (privT : Bool) (d : Desc) (j : Nat) (r : Resid) :
    Except (Option (Nat × Nat)) (Resid × Bool) × State :=
  let p := d.part j
  let w := efWidth d.ef
  let rowOf (k : Nat) : Nat × Nat := (d.src + k * d.pitch + p.n0 * w / 8, ceilDiv (p.n1 * w) 8 - p.n0 * w / 8)
  let rows := (List.range (p.r1 - p.r0)).map (p.r0 + ·)
  let cols := (List.range (p.n1 - p.n0)).map (p.n0 + ·)
  match readRanges tm privT d.space (rows.map rowOf) s with
  | (.error e, s) => (.error e, s)
  | (.ok rb, s) =>
    let elems := (List.zip rows rb).foldl (fun m x => setRow m x.1 p.n0 ((List.range cols.length).map (packed w x.2))) r.elems
    match readRanges tm privT d.space
        (if efTwin d.ef then cols.map fun n => (d.scale + 2 * (n * d.blocks + p.b0), 2 * (p.b1 - p.b0)) else []) s with
    | (.error e, s) => (.error e, s)
    | (.ok sb, s) =>
      match readRanges tm privT d.space
          (if d.sparse then cols.map fun n => (d.meta_ + 2 * (n * d.groups + p.g0), 2 * (p.g1 - p.g0)) else []) s with
      | (.error e, s) => (.error e, s)
      | (.ok mb, s) =>
        let words (lo hi : Nat) (tab : List (Nat × List Byte)) : List (Nat × Nat × Nat) :=
          tab.flatMap fun x => (List.range (hi - lo)).map fun b => (lo + b, x.1, packed 16 x.2 b)
        let put (m : SMap (BitVec 16)) (x : Nat × Nat × Nat) : SMap (BitVec 16) :=
          m.set (x.1 * 65536 + x.2.1) (BitVec.ofNat 16 x.2.2) 0
        let ms := words p.g0 p.g1 (List.zip cols mb)
        (.ok ({ r with elems, scales := (words p.b0 p.b1 (List.zip cols sb)).foldl put r.scales,
                       metas := ms.foldl put r.metas }, ms.any fun x => metaBad x.2.2), s)

/-- R149, R171: element (k, j) of the meld that a residency holds. -/
def Resid.element (r : Resid) (d : Desc) (k j : Nat) : Num :=
  let z : Num := .fin false 0 0
  if d.k ≤ k ∨ d.n ≤ j then z
  else
    let sc := (r.scales.get (k / 32 * 65536 + j) 0).toNat
    if !d.sparse then efDecode d.ef sc (r.elems.get (k * 65536 + j) 0).toNat
    else
      let m := (r.metas.get (k / 8 * 65536 + j) 0).toNat
      match (List.range 4).find? fun x => m / 8 ^ x % 8 == k % 8 with
      | none => z
      | some x => efDecode d.ef sc (r.elems.get ((k / 8 * 4 + x) * 65536 + j) 0).toNat

/-- MELD_FILL_SLOT (R157): the next slot of the fill of the entry at the head of a matrix queue is read and written.
A failing address or a malformed metadata word stops the fill (R170, R300). Charged as copied bytes by R11. -/
def execMeldFillSlot (core queue : Nat) (s0 : State) : Out :=
  match s0.headOf core queue with
  | none => .next s0
  | some e =>
    match s0.team? e.team, (s0.core core).resid.find? fun r => r.id == e.resid with
    | some tm, some r =>
      let d : Desc := r.copy
      if !e.filling || !s0.engGo core tm e then .next s0
      else match s0.readSlot tm e.privT d e.slot r with
        | (.error none, _) => .next s0
        | (.error (some (c, a)), s) =>
          .next (((s.stopFill core r.id).updEntry core e.id fun x => { x with filling := false }).finishEntry core e c a)
        | (.ok (r', bad), s) =>
          let s := s.spend core 512
          if bad then
            .next (((s.stopFill core r.id).updEntry core e.id fun x => { x with filling := false }).finishEntry core e 0x11 0)
          else
            let last := decide (d.count ≤ e.slot + 1)
            let pin := e.kind == .meld && e.op == 0xA3#8
            let s := s.updResid core r.id fun x =>
              { x with elems := r'.elems, scales := r'.scales, metas := r'.metas, fill := !last,
                       filled := x.filled || last, pinned := x.pinned || (last && pin && !x.dead)
                       kitty := if last && pin && !x.pinned then d.kitty else x.kitty }
            let s := s.updEntry core e.id fun x => { x with slot := x.slot + 1, filling := !last }
            let s := if last && pin then s.easeKitty core tm.part d.kitty else s
            .next (if last && e.kind == .meld then s.finishEntry core e 0 0 else s)
    | _, _ => .next s0

/-! ### The head of the queue (R151 to R157, R300) -/

/-- Find the residency that the entry names, or make it in the array of its queue (R151, R152). `none`: no position
is legal now. The flag says that it was made. -/
def State.takeResid (s : State) (core : Nat) (pasid : Nat) (e : Entry) (d : Desc) : Option (Resid × Bool) × State :=
  match s.findResid core pasid e.team e.desc d.spad with
  | some r => (some (r, false), s)
  | none =>
    match (s.core core).position e.id false [e.queue - 8] d.count with
    | none => (none, s)
    | some pos =>
      let (id, s) := s.makeResid core pasid e.team e.desc d pos
      (((s.core core).resid.find? fun r => r.id == id).map fun r => (r, true), s)

/-- The entry begins its fill. A source that has left this package's HBM is no longer usable (R370). -/
def State.beginFill (s : State) (core : Nat) (tm : Team) (e : Entry) (id : Nat) (d : Desc) : State :=
  let (spans, s) := s.sourceSpans tm e.privT d
  if spansLeft spans then s.finishEntry core e 0x0E 0
  else (s.startFill core id d spans).updEntry core e.id fun x =>
    { x with phase := .begun, resid := id, filling := true, slot := 0, again := .fresh }

/-- R153, R339: pin a meld, under the kitty limit that the entry reached the head with; under one that was lowered below the kitty's
count no pin is made until the count is below it. A pin whose fill a save abandoned fills
again (R168). A source that has left this package's HBM is no longer usable (R370). A filled ephemeral copy that a pin drops cannot be refilled: the meld is lost (R155). (DEDUCED, log 41.) -/
def State.pinHead (s : State) (core pasid : Nat) (tm : Team) (e : Entry) (d : Desc) : State :=
  let limit := e.limit.getD ((s.part tm.part).kitty.get d.kitty 0)
  let held := (s.core core).kittySlots d.kitty
  let full := decide (limit < held + d.count)
  let lowered := e.limit.isNone && (s.core core).overLimit.contains d.kitty && decide (limit ≤ held)
  let quota := s.finishEntry core e 0x0F 0
  let old := s.findResid core pasid e.team e.desc d.spad
  match old with
  | some r =>
    if r.arr = 1 then
      if spansLeft r.spans then s.finishEntry core e 0x0E 0
      else if r.pinned then (if lowered || limit < held then quota else s.finishEntry core e 0 0)
      else if full then quota
      else if e.again == .stopped && r.stale then s.beginFill core tm e r.id r.copy
      else ((s.updResid core r.id fun x => { x with pinned := true, kitty := d.kitty }).easeKitty core tm.part d.kitty).finishEntry core e 0 0
    else place full quota old
  | none => place full quota old
where
  /-- In MA0 or not resident: fill it into MA1. -/
  place (full : Bool) (quota : State) (old : Option Resid) : State :=
    if full || !((List.range 16).any fun f => (s.core core).legal e.id true 1 f d.count) then quota
    else match (s.core core).position e.id false [1] d.count with
      | none => s
      | some pos =>
        let lost := match old with | some r => r.team.isSome && r.filled | none => false
        let s := match old with | some r => (s.loseResid r).dropResid core r | none => s
        if lost then s.finishEntry core e 0x0E 0
        else
          let (id, s) := s.makeResid core pasid e.team e.desc d pos
          s.beginFill core tm e id d

/-- MELD_ENTRY_HEAD (R151 to R156, R300): a meld entry at the head of its queue. MLDL or MLDS of an ephemeral meld that has completed a
fill, which cannot be refilled (R155), completes and fills nothing (DESIGN CHOICE, log 72). -/
def execMeldEntryHead (core queue : Nat) (s : State) : Out :=
  match s.headOf core queue with
  | none => .next s
  | some e =>
    match s.team? e.team with
    | none => .next s
    | some tm =>
      let d : Desc := e.copy
      let pasid := s.pasidOf tm
      let mldv := e.op == 0xA4#8
      if e.kind != .meld || e.phase != .waiting || !(s.engGo core tm e || (tm.st == .saving && mldv)) then .next s
      else if mldv then
        .next (s.updEntry core e.id fun x =>
          { x with phase := .acking (idxs Config.cores fun c => (s.part tm.part).hasCore c) })
      else if e.op == 0xA3#8 then
        if bit e.w0 12 then .next (if tm.lostMeld e.desc d then s.finishEntry core e 0x0E 0 else s.pinHead core pasid tm e d)
        else
          let s := match s.findResid core pasid e.team e.desc d.spad with
            | some r => (s.updResid core r.id fun x => { x with pinned := false }).easeKitty core tm.part r.kitty
            | none => s
          .next (s.finishEntry core e 0 0)
      else if tm.lostMeld e.desc d then .next (s.finishEntry core e 0x0E 0)
      else match s.takeResid core pasid e d with
        | (none, _) => .next s
        | (some (r, _), s') =>
          if r.fill then .next s
          else if e.op == 0xA0#8 && spansLeft r.spans then .next (s'.finishEntry core e 0x0E 0)
          else if e.op == 0xA0#8 || (d.spad && r.filled) then .next (s'.finishEntry core e 0 0)
          else .next (s'.beginFill core tm e r.id d)

/-- MLDV_ACK (R156): the next core of the partition removes its residencies of the meld and acknowledges. -/
def execMldvAck (core queue : Nat) (s : State) : Out :=
  match s.headOf core queue with
  | none => .next s
  | some e =>
    match e.phase with
    | .acking (c :: rest) =>
      let pasid := match s.team? e.team with | some tm => s.pasidOf tm | none => 0
      let mine := (s.core c).resid.filter fun r => !r.dead && r.pasid == pasid && r.desc.toNat == e.desc
      let s := mine.foldl (fun s r => (s.loseResid r).dropResid c r) s
      .next (if rest.isEmpty then s.finishEntry core e 0 0
        else s.updEntry core e.id fun x => { x with phase := .acking rest })
    | .acking [] => .next (s.finishEntry core e 0 0)
    | _ => .next s

/-- An entry leaves its matrix queue: a removed residency that it alone held goes (R156). -/
def State.leaveMatrix (s : State) (core : Nat) (e : Entry) : State :=
  (s.dropEntry core e.id).updCore core fun c =>
    { c with resid := c.resid.filter fun r => !r.dead || c.entries.any fun x => x.resid == r.id }

/-- MELD_ENTRY_COMPLETE (R157, R279): the record is written. -/
def execMeldEntryComplete (core queue : Nat) (s : State) : Out :=
  match s.headOf core queue with
  | none => .next s
  | some e =>
    match e.kind, e.phase with
    | .meld, .done cause addr => .next ((s.leaveMatrix core e).writeRecord e cause addr)
    | _, _ => .next s

end Sys2Proof.Machine
end

