-- ==== Sys2Proof/Machine/Matrix.lean ====
section
/-! DEFINITION. MMA and MMAS (R159, R164 to R168, R302 to R305), the follow-on of CPYX (R282), and COPY_CHUNK. -/

namespace Sys2Proof.Machine

/-! ### The operands of a matrix entry -/

/-- R164: is the format word malformed, for MMA or for MMAS? -/
def fmtBad (w : Word) (sp : Bool) : Bool :=
  let af := fld w 31 28
  let bf := fld w 27 24
  fld w 22 0 != 0 || !efOk af || !efOk bf || efInt af != efInt bf || efWidth af != efWidth bf || bit w 23 != sp

/-- The fields of the MATRIX extension (R198), and APITCH of word 0 (R302). -/
structure MatOp where
  m : Nat
  n : Nat
  kc : Nat
  kf : Nat
  bank : Nat
  apitch : Nat
  deriving DecidableEq, Repr

/-- R198, R302: read them from the two words of a matrix entry. -/
def matOp (w0 w1 : Dword) : MatOp :=
  { m := 16 * 2 ^ fld w1 63 62, n := 16 * fld w1 61 56, kc := fld w1 55 50, kf := fld w1 49 46, bank := fld w1 45 38,
    apitch := if fld w0 7 0 = 0 then 16384 else 64 * fld w0 7 0 }

/-- R303: positions of a row that are read: up to the meld's K. -/
def MatOp.positions (x : MatOp) (d : Desc) : Nat := min (x.kc * d.kstep) (d.k - x.kf * d.kstep)

/-- R159: the banks of a tile's row band, and the bank of element (i, j). -/
def MatOp.cn (x : MatOp) : Nat := ceilDiv x.n 64
def MatOp.tile (x : MatOp) : Nat := ceilDiv x.m 16 * x.cn
def tileAt (bank cn i j : Nat) : Nat := (bank + i / 16 * cn + j / 64) * 1024 + i % 16 * 64 + j % 64

/-- R303: where the rows of A and its scale words lie. -/
def MatOp.spans (x : MatOp) (d : Desc) (af a : Nat) : List (Nat × Nat) :=
  let p := x.positions d
  ((List.range x.m).map fun i => (a + i * x.apitch, ceilDiv (p * efWidth af) 8))
    ++ (if efTwin af then (List.range x.m).map fun i =>
          (a + x.m * x.apitch + 2 * (i * x.kc * d.kstep / 32), 2 * ceilDiv p 32) else [])

/-- R304 check 6 for one address of A. -/
def State.aAddr (s : State) (tm : Team) (privT : Bool) (a : Nat) : Option Flt × State :=
  let a := a % 2 ^ 32
  let bounds : Flt := { cause := 0x0A, d0 := BitVec.ofNat 64 a, d1 := 1 }
  if a < 0x10000000 then (if a < tm.share then none else some bounds, s)
  else if a < 0x1C000000 ∧ clusterOf ((a - 0x10000000) / 0x80000) ≠ clusterOf tm.core then (some { cause := 9 }, s)
  else match s.accS tm privT a 1 .read with
    | (.at (.slice _ _) _, s) => (none, s)
    | (.flt f, s) => (some f, s)
    | (_, s) => (some bounds, s)

/-- The first address of A that fails, with its fault. (DEDUCED, log 50.) -/
def aCheck (tm : Team) (privT : Bool) : List (Nat × Nat) → State → Option (Flt × Nat) × State
  | [], s => (none, s)
  | (a, _) :: r, s =>
    match s.aAddr tm privT a with
    | (some f, s) => (some (f, a % 2 ^ 32), s)
    | (none, s) => aCheck tm privT r s

/-- R304: checks 2 to 6, in order: the descriptor, or the fault with the failing address, or an answer to come. -/
def State.mmaCheck (s : State) (tm : Team) (privT : Bool) (sp : Bool) (x : MatOp) (fmt : Word) (desc : Dword) (a : Nat) :
    Except (Option (Flt × Nat)) Desc × State :=
  let no (f : Flt) : Except (Option (Flt × Nat)) Desc := .error (some (f, 0))
  if fmtBad fmt sp then (no { cause := 0x0C }, s)
  else match s.readDesc tm privT desc with
    | (.error none, s) => (.error none, s)
    | (.error (some f), s) => (no f, s)
    | (.ok d, s) =>
      if fld fmt 27 24 ≠ d.ef ∨ bit fmt 23 ≠ d.sparse then (no { cause := 0x0C }, s)
      else if !((runOf x.bank x.tile).all fun b => decide (b < tm.acc) && tm.alloc.getLsbD b) then (no { cause := 0x10 }, s)
      else if d.ks < x.kf + x.kc ∨ 128 * d.ns < x.n then (no { cause := 0x0C }, s)
      else if a % 16 ≠ 0 then (no { cause := 7, d0 := BitVec.ofNat 64 a, d1 := 1 }, s)
      else match aCheck tm privT ((x.spans d (fld fmt 31 28) a).flatMap fun q => spacePieces .spad q.1 q.2) s with
        | (some e, s) => (.error (some e), s)
        | (none, s) => (.ok d, s)

/-! ### Issue -/

/-- MMA and MMAS at issue (R165, R303, R304). -/
def mmaOp (h : Hdr) (sp : Bool) (apitch : BitVec 8) (a b c : Opnd) (e : MatExt) (s0 : State) : Out :=
  s0.handWide h [(.usrc, .o a), (.ugbase, .o b), (.fsrc, .o c)] fun i ts s =>
    let ws := if h.u then [i.hd.rdO .uni c] else ts.map fun t => i.hd.rdO (.thr t) c
    let w := ws.headD 0
    let mc : Nat := match e.mc with | .r16 => 16 | .r32 => 32 | .r64 => 64
    let x : MatOp :=
      { m := mc, n := 16 * e.nq.toNat, kc := e.kc.toNat, kf := e.kf.toNat, bank := e.bank.toNat,
        apitch := if apitch = 0 then 16384 else 64 * apitch.toNat }
    let addr := i.hd.rdO64 .uni b
    if !ws.all (· == w) then s.raiseAll i h { cause := 0x0B }
    else match (s.flushHand i.c.team i.c.hix).mmaCheck i.tm i.hd.inTrap sp x w addr (i.u a) with
      | (.error none, _) => s0.stall
      | (.error (some (f, _)), s) => s.raiseAll i h f
      | (.ok d, s) =>
        if Config.teamEventSlots < i.tm.evRes + 1 then s.raiseAll i h { cause := 0x14 }
        else
          let pasid := s.pasidOf i.tm
          let s := s.useMeld i.tm.core pasid i.tm.id addr.toNat d
          let q := s.meldQueue i.tm.core pasid i.tm.id addr.toNat d false
          let s := s.updHand i.c.team i.c.hix fun hd => { hd with fmt := w }
          s0.submit s h (i.wide ts) [.uni] 1 false (fun _ => none)
            (fun _ => ⟨q, .matrix, (i.hd.rdO .uni a).setWidth 64, addr, 0⟩)
            fun x => { x with copy := d, fmt := w, tag := e.tag }

/-- MMA (R302, R303). -/
def execMma (h : Hdr) (apitch : BitVec 8) (a b c : Opnd) (e : MatExt) (s : State) : Out := mmaOp h false apitch a b c e s
/-- MMAS (R302, R303). -/
def execMmas (h : Hdr) (apitch : BitVec 8) (a b c : Opnd) (e : MatExt) (s : State) : Out := mmaOp h true apitch a b c e s

/-! ### The head of the queue -/

/-- MMA_ENTRY_HEAD (R144, R151, R154, R155, R303): find or make the residency and check it; the entry begins, with a
fill when one is needed or a save abandoned it (R168), or completes with a failure. -/
def execMmaEntryHead (core queue : Nat) (s : State) : Out :=
  match s.headOf core queue with
  | none => .next s
  | some e =>
    match s.team? e.team with
    | none => .next s
    | some tm =>
      let d : Desc := e.copy
      let pasid := s.pasidOf tm
      if e.kind != .matrix || e.phase != .waiting || !s.engGo core tm e then .next s
      else if tm.lostMeld e.desc d || (d.spad && e.prog != 0 && (s.findResid core pasid e.team e.desc true).isNone) then
        .next (s.finishEntry core e 0x0E 0)
      else match s.takeResid core pasid e d with
        | (none, _) => .next s
        | (some (r, made), s') =>
          if r.fill then .next s
          else if made || (r.stale && d.spad && !r.filled) then .next (s'.beginFill core tm e r.id d)
          else if r.stale && e.again == .stopped then .next (s'.beginFill core tm e r.id r.copy)
          else if r.stale then
            if Desc.refresh r.copy then .next (s'.beginFill core tm e r.id r.copy)
            else .next (s'.finishEntry core e 0x0D 0)
          else if spansLeft r.spans then .next (s'.finishEntry core e 0x0E 0)
          else .next (s'.updEntry core e.id fun x => { x with phase := .begun, resid := r.id, again := .fresh })

/-! ### K steps -/

/-- The integer that an element of an integer format holds. -/
def Num.int : Num → Int
  | .fin n m e => scaled n m e 0
  | _ => 0

/-- R105, R106: one block of 32 positions applied to a tile element. -/
def blockStep (isInt : Bool) (acc : Word) (l : List (Num × Num)) : Word :=
  if isInt then BitVec.ofInt 32 (acc.toInt + (l.map fun p => p.1.int * p.2.int).foldl (· + ·) 0) else accBlock acc l

/-- What a K step reads of A: for each row, its elements of the step and its scale words. -/
structure ARow where
  bytes : List Byte
  scale : List Byte
  deriving DecidableEq, Repr

/-- R303: element of A at position `q` within the step. -/
def ARow.element (r : ARow) (af q : Nat) : Num :=
  efDecode af (packed 16 r.scale (q / 32)) (packed (efWidth af) r.bytes q)

/-- R303: the tile element (i, j) after the blocks of K step `ks`. `n`: positions of the step below K. -/
def stepElement (d : Desc) (r : Resid) (af ks n : Nat) (row : ARow) (j : Nat) (acc : Word) : Word :=
  let z : Num := .fin false 0 0
  (List.range (d.kstep / 32)).foldl (fun acc b =>
    blockStep (efInt af) acc ((List.range 32).map fun o =>
      let q := 32 * b + o
      (if q < n then row.element af q else z, r.element d (ks * d.kstep + q) j))) acc

/-- R303: the ranges of A that step `s` reads: rows, then scale words. -/
def stepRanges (x : MatOp) (d : Desc) (af a s n : Nat) : List (Nat × Nat) × List (Nat × Nat) :=
  ((List.range x.m).map fun i => ((a + i * x.apitch + s * d.kstep * efWidth af / 8) % 2 ^ 32, ceilDiv (n * efWidth af) 8),
   if efTwin af then (List.range x.m).map fun i =>
     ((a + x.m * x.apitch + 2 * (i * x.kc * d.kstep / 32 + s * d.kstep / 32)) % 2 ^ 32, 2 * ceilDiv n 32) else [])

/-- MMA_K_STEP (R167, R303): one K step of the entry that has begun. A failing read leaves the rest undone (R166).
Charged 12 credits a cycle (R11). -/
def execMmaKStep (core queue : Nat) (s0 : State) : Out :=
  match s0.headOf core queue with
  | none => .next s0
  | some e =>
    match s0.team? e.team, (s0.core core).resid.find? fun r => r.id == e.resid with
    | some tm, some r =>
      let x := matOp e.w0 e.w1
      let d : Desc := r.copy
      let af := fld e.fmt 31 28
      let n := min d.kstep (x.positions d - e.prog * d.kstep)
      let rg := stepRanges x d af e.a.toNat e.prog n
      if e.kind != .matrix || e.phase != .begun || e.filling || !s0.engGo core tm e then .next s0
      else if x.kc ≤ e.prog then .next (s0.finishEntry core e 0 0)
      else match readRanges tm e.privT .spad rg.1 s0 with
        | (.error none, _) => .next s0
        | (.error (some (c, a)), s) => .next (s.finishEntry core e c a)
        | (.ok rows, s) =>
          match readRanges tm e.privT .spad rg.2 s with
          | (.error none, _) => .next s0
          | (.error (some (c, a)), s) => .next (s.finishEntry core e c a)
          | (.ok scs, s) =>
            let row (i : Nat) : ARow := ⟨rows.getD i [], scs.getD i []⟩
            let el (m : SMap Word) (i j : Nat) : SMap Word :=
              let at_ := tileAt x.bank x.cn i j
              m.set at_ (stepElement d r af (x.kf + e.prog) n (row i) j (m.get at_ 0)) 0
            let m := (List.range x.m).foldl (fun m i => (List.range x.n).foldl (fun m j => el m i j) m) tm.accMem
            let s := (s.updTeam tm.id fun t => { t with accMem := m }).spend core (12 * x.m * d.ns)
            let s := s.updEntry core e.id fun y => { y with prog := y.prog + 1 }
            .next (if x.kc ≤ e.prog + 1 then s.finishEntry core e 0 0 else s)
    | _, _ => .next s0

/-- MMA_COMPLETE (R166, R167, R279): after the drain the record is written. -/
def execMmaComplete (core queue : Nat) (s : State) : Out :=
  match s.headOf core queue with
  | none => .next s
  | some e =>
    match e.kind, e.phase with
    | .matrix, .done cause addr => .next ((s.leaveMatrix core e).writeRecord e cause addr)
    | _, _ => .next s

/-! ### CPYX and COPY_CHUNK -/

/-- R282, R304: the follow-on of a CPYX whose last byte is written makes checks 2 to 6 and enters its matrix queue,
with A at the copy's destination; a failure goes into its own record. `none`: the host has still to translate (R368).
(DEDUCED, log 43.) -/
def State.followOn (s0 : State) (core : Nat) (tm : Team) (e : Entry) : Option State :=
  let w (j : Nat) : Dword := e.copy.getD j 0
  let fmt := hi32 (w 0)
  let sp := bit fmt 23
  let ap := fld (w 3) 31 0
  let apOk := ap % 64 == 0 && decide (64 ≤ ap ∧ ap ≤ 16384)
  let w0 : Dword := BitVec.ofNat 64 ((if sp then 0xF6 else 0xF5) * 2 ^ 56 + ap / 64 % 256)
  let desc := w 1
  let a := fld e.a 31 0
  let (r, s) := s0.mmaCheck tm e.privT sp (matOp w0 (w 2)) fmt desc a
  let (id, s) := s.fresh
  let m : Entry :=
    { e with id, queue := 8, kind := .matrix, op := if sp then 0xF6#8 else 0xF5#8, w0, w1 := w 2, a := BitVec.ofNat 64 a,
             b := desc, c := 0, fmt, tag := lo32 (w 2), sub := e.sub + 1, prog := 0, phase := .waiting, copy := [],
             follow := true, org := 0 }
  let add (s : State) (m : Entry) : State := s.updCore core fun c => { c with entries := c.entries ++ [m] }
  let fail (s : State) (c a : Nat) : State := add s { m with phase := .done c (BitVec.ofNat 64 a) }
  if !apOk then some (fail s 0x0C 0)
  else match r with
    | .error none => none
    | .error (some (f, a)) => some (fail s f.cause a)
    | .ok d =>
      let pasid := s.pasidOf tm
      let s := s.useMeld core pasid tm.id desc.toNat d
      some (add s { m with queue := s.meldQueue core pasid tm.id desc.toNat d false, copy := d })

/-- COPY_CHUNK (R281, R282): the copy at the head of a copy queue does its next chunk. A CPYX first reads its
follow-on record, whose 32 bytes are delivered to the core too (R11). The pieces of a chunk are counted as the partition's budget allows, and the chunk waits for the last (R340). -/
def execCopyChunk (core queue : Nat) (s : State) : Out :=
  match s.headOf core queue with
  | none => .next s
  | some e =>
    match s.team? e.team with
    | none => .next s
    | some tm =>
      let open_ := e.kind == .copy && (e.phase == .waiting || e.phase == .begun)
      let run (s0 : State) (e : Entry) : State :=
        let n := ceilDiv (min 4096 (e.count - e.prog * 4096)) 128 - e.counted
        let k := min n (s0.budgetLeft actCopy (dieOf core) tm.part capCopy)
        let s0 := if k = 0 then s0 else
          (s0.countUnits actCopy (dieOf core) tm.part k).updEntry core e.id fun x => { x with counted := x.counted + k }
        if k < n then s0
        else s0.chunk core tm e fun s => if e.isX then s.followOn core tm e else some s
      if !open_ || !s.engGo core tm e then .next s
      else if e.isX && e.copy.isEmpty then
        match s.engRecord tm e.privT e.c.toNat 4 with
        | (.error none, _) => .next s
        | (.error (some (c, a)), s') => .next (s'.finishEntry core e c a)
        | (.ok l, s') =>
          let s' := s'.spend core 1
          if followBad l then .next (s'.finishEntry core e 1 0)
          else
            let e := { e with copy := l }
            .next (run (s'.updEntry core e.id fun x => { x with copy := l }) e)
      else .next (run s e)

end Sys2Proof.Machine
end

