-- ==== Sys2Proof/Machine/Drones.lean ====
section
/-! DEFINITION. Drones and the delta unit (R172 to R176, R313 to R317). -/

namespace Sys2Proof.Machine

/-! ### Tables and banks -/

/-- The handle's entry in the partition's drone table, when VALID (R172). -/
def State.droneEnt (s : State) (p h : Nat) : Option DroneEnt := (s.part p).drones.find? fun d => d.handle == h
/-- Replace or clear the handle's entry. -/
def State.setDroneEnt (s : State) (p h : Nat) (d : Option DroneEnt) : State :=
  s.updPart p fun x => { x with drones := (x.drones.filter fun y => y.handle != h) ++ d.toList }
def State.droneAt (s : State) (core p h : Nat) : Option Drone :=
  (s.core core).drones.find? fun d => d.part == p && d.handle == h
def State.dropDrone (s : State) (core p h : Nat) : State :=
  s.updCore core fun c => { c with drones := c.drones.filter fun d => !(d.part == p && d.handle == h) }
def State.addDrone (s : State) (core : Nat) (d : Drone) : State :=
  (s.dropDrone core d.part d.handle).updCore core fun c => { c with drones := c.drones ++ [d] }

/-- R172: rows, columns and banks of a drone. -/
def dimOf (q : Nat) : Nat := 16 * (q + 1)
def droneBanksOf (dvq dkq : Nat) : Nat := (dvq + 1) * ceilDiv (dimOf dkq) 64
/-- The banks of a core that drones hold (R172). -/
def Core.droneTotal (c : Core) : Nat := (c.drones.map fun d => droneBanksOf d.dvq d.dkq).foldl (· + ·) 0
/-- R173: is the physical bank outside every reservation and every drone? -/
def State.bankFree (s : State) (core b : Nat) : Bool :=
  !(s.teams.any fun t => t.resident && t.core == core && t.accPhys.contains b) &&
  !((s.core core).drones.any fun d => decide (d.bank ≤ b ∧ b < d.bank + droneBanksOf d.dvq d.dkq))
/-- R173: the lowest run of free banks that a drone fits. -/
def State.droneRun (s : State) (core dvq dkq : Nat) : Option Nat :=
  freeRun (s.bankFree core) Config.accBanks (droneBanksOf dvq dkq)
/-- R172: would the drone take the core over its cap? -/
def State.droneCap (s : State) (core dvq dkq : Nat) : Bool :=
  decide (Config.droneBanks < (s.core core).droneTotal + droneBanksOf dvq dkq)

/-! ### Spill images (R176) -/

/-- The header words of an image. -/
def droneHeader (d : Drone) (pend : Bool) (next cnt : Nat) : List Dword :=
  [BitVec.ofNat 64 (2 ^ 56 + d.dvq * 2 ^ 53 + d.dkq * 2 ^ 50 + d.handle * 2 ^ 32 + d.tokens.toNat),
   BitVec.ofNat 64 ((if pend then 2 ^ 63 else 0) + next * 2 ^ 59 + cnt * 2 ^ 55), 0, 0, 0, 0, 0, 0]

/-- The elements of S in the order of the image. -/
def Drone.cells (d : Drone) : List Word :=
  (List.range (dimOf d.dvq)).flatMap fun j => (List.range (dimOf d.dkq)).map fun i => d.s.get (j * 128 + i) 0

/-- The bytes of an image. -/
def droneImage (d : Drone) (pend : Bool) (next cnt : Nat) : List Byte :=
  (droneHeader d pend next cnt).flatMap (fun w => toBytes 8 w.toNat) ++ d.cells.flatMap fun w => toBytes 4 w.toNat

/-- R176: does the header agree with the handle and its dimensions? -/
def headerOk (l : List Dword) (handle dvq dkq : Nat) : Bool :=
  let w (j : Nat) : Dword := l.getD j 0
  fld (w 0) 63 56 == 1 && fld (w 0) 55 53 == dvq && fld (w 0) 52 50 == dkq && fld (w 0) 49 44 == 0
    && fld (w 0) 43 32 == handle && fld (w 1) 54 0 == 0 && (List.range 6).all fun j => w (j + 2) == 0

/-- S as the image's bytes after the header give it. -/
def cellsOf (dvq dkq : Nat) (bs : List Byte) : SMap Word :=
  (List.range (dimOf dvq)).foldl (fun m j => (List.range (dimOf dkq)).foldl (fun m i =>
    m.set (j * 128 + i) (BitVec.ofNat 32 (ofBytes ((bs.drop (4 * (j * dimOf dkq + i))).take 4))) 0) m) []

/-- Check a range in a context, as an engine of a core (R281's form). -/
def gatherIn (core pasid : Nat) (privT : Bool) (k : AccKind) : List (Nat × Nat) → State → Gather × State
  | [], s => (.ok [], s)
  | (a, n) :: r, s =>
    match s.translateOpnd core pasid a k privT with
    | (.wait, s) => (.wait, s)
    | (.fail c _ _, s) => (.bad c a, s)
    | (.ok pa unc, s) =>
      match (if k == .read then s.badByte (.mem pa) n else none) with
      | some i => (.bad 0x1A (a + i), s)
      | none =>
        match gatherIn core pasid privT k r s with
        | (.ok ps, s) => (.ok (⟨a, .mem pa, unc, n⟩ :: ps), s)
        | x => x

/-- Write the spill image of a drone of core `core` (R315): `none` when it is written, otherwise the failure; a
failing page stops the write there. -/
def State.spill (s : State) (core pasid : Nat) (privT : Bool) (va : Nat) (data : List Byte) :
    List (Nat × Nat) → Option (Option (Nat × Nat)) × State
  | [] => (none, s)
  | (a, n) :: r =>
    match gatherIn core pasid privT .write [(a, n)] s with
    | (.wait, s) => (some none, s)
    | (.bad c x, s) => (some (some (c, x)), s)
    | (.ok ps, s) =>
      let bs := (data.drop (a - va)).take n
      let s := ps.foldl (fun s p => match p.l with
        | .mem pa => if p.unc then s.writeHome (dieOf core) pa bs else s.writePlain (dieOf core) pa bs
        | .slice _ _ => s) s
      s.spill core pasid privT va data r

/-- Read a whole image. -/
def State.readImage (s : State) (core pasid : Nat) (privT : Bool) (va dvq dkq : Nat) :
    Except (Option (Nat × Nat)) (List Dword × List Byte) × State :=
  match gatherIn core pasid privT .read (spacePieces .glob va (64 + 4 * dimOf dvq * dimOf dkq)) s with
  | (.wait, s) => (.error none, s)
  | (.bad c a, s) => (.error (some (c, a)), s)
  | (.ok ps, s) =>
    let (bs, s) := s.readPieces (dieOf core) ps
    (.ok ((List.range 8).map fun j => BitVec.ofNat 64 (ofBytes ((bs.drop (8 * j)).take 8)), bs.drop 64), s)

/-! ### Instructions (R313) -/

/-- A drone instruction: the handle check, then alignment, then the entry. -/
def droneOp (h : Hdr) (args : List Arg) (a b : Opnd) (align : Iss → Option Flt) (c : Iss → Dword)
    (d : Option Opnd) (s0 : State) : Out :=
  s0.handWide h ([(.usrc, .o a), (.usrc, .o b)] ++ args) fun i ts s =>
    if 4095 < i.u a then s.raiseAll i h { cause := 1 }
    else match align i with
      | some f => s.raiseAll i h f
      | none =>
        if Config.teamEventSlots < i.tm.evRes + 1 then s.raiseAll i h { cause := 0x14 }
        else
          let ds := match d with
            | some o => ((i.hd.lanes h).map fun ln => (i.hd.dstOf i.tm.depth ln o, (none : Option Word))).filter fun x => x.1 != Dst.drop
            | none => []
          let ids := (List.range ds.length).map (s.nextId + ·)
          let s := s.post i.c.team i.c.hix ds
          s0.submit s h (i.wide ts) [.uni] 1 false (fun _ => none)
            (fun _ => ⟨10, .delta, BitVec.ofNat 64 (i.u a), (i.hd.rdO .uni b).setWidth 64, c i⟩)
            fun e => { e with tag := i.hd.rdO .uni b, pends := ids }

/-- DRPN (R173, R313, R314). -/
def execDrpn (h : Hdr) (_load : Bool) (_dvq _dkq : BitVec 3) (d a b c : Opnd) (s : State) : Out :=
  droneOp h [(.dst, .o d), (.ugbase, .o c)] a b
    (fun i => let v := i.hd.rdO64 .uni c; if v.toNat % 64 ≠ 0 then some { cause := 7, d0 := v } else none)
    (fun i => i.hd.rdO64 .uni c) (some d) s
/-- DRUN (R173, R313). -/
def execDrun (h : Hdr) (a b : Opnd) (s : State) : Out := droneOp h [] a b (fun _ => none) (fun _ => 0) none s
/-- DRSV (R173, R313). -/
def execDrsv (h : Hdr) (a b : Opnd) (s : State) : Out := droneOp h [] a b (fun _ => none) (fun _ => 0) none s
/-- DELTA (R173, R313, R316). -/
def execDelta (h : Hdr) (_tm1 : BitVec 4) (a b c : Opnd) (s : State) : Out :=
  droneOp h [(.usrc, .o c)] a b
    (fun i => if i.u c % 16 ≠ 0 then some { cause := 7, d0 := BitVec.ofNat 64 (i.u c), d1 := 1 } else none)
    (fun i => (i.hd.rdO .uni c).setWidth 64) none s

/-! ### The delta queue -/

def Entry.handle (e : Entry) : Nat := fld e.a 31 0

/-- R315: entries of a core's delta queue for a drone of the partition. -/
def State.deltaBusy (s : State) (core p h : Nat) : Bool :=
  (s.core core).entries.any fun e => e.queue == 10 && e.kind == .delta && e.handle == h &&
    (match s.team? e.team with | some t => t.part == p | none => false)

/-- DRPN's status, held in the entry until it completes (R314). -/
def State.drpnDone (s : State) (core : Nat) (e : Entry) (status : Nat) (cause addr : Nat) : State :=
  (s.updEntry core e.id fun x => { x with c := BitVec.ofNat 64 status }).finishEntry core e cause addr

/-- R314: DRPN at the head of the queue. `none`: an answer is to come. -/
def State.drpnHead (s : State) (core : Nat) (tm : Team) (e : Entry) : Option State :=
  let h := e.handle
  let dvq := fld e.w0 5 3
  let dkq := fld e.w0 2 0
  let pasid := s.pasidOf tm
  let det := s.dmode tm != 0
  let no (n : Nat) : State := if det then s.drpnDone core e 0xFFFFFFFF 0x1C 0 else s.drpnDone core e n 0 0
  if (s.droneEnt tm.part h).isSome then some (s.drpnDone core e 1 0 0)
  else if s.droneCap core dvq dkq then some (no 3)
  else match s.droneRun core dvq dkq with
    | none => some (no 2)
    | some bank =>
      let ent : DroneEnt := ⟨h, true, core, bank, dvq, dkq, pasid, e.c⟩
      let pin (s : State) (tokens : Word) (m : SMap Word) : State :=
        ((s.setDroneEnt tm.part h (some ent)).addDrone core ⟨tm.part, h, bank, dvq, dkq, tokens, m⟩).drpnDone core e 0 0 0
      if !bit e.w0 12 then some (pin s 0 [])
      else match s.readImage core pasid e.privT e.c.toNat dvq dkq with
        | (.error none, _) => none
        | (.error (some (c, a)), s) => some (s.drpnDone core e 0xFFFFFFFF c a)
        | (.ok (hd, bs), s) =>
          if !headerOk hd h dvq dkq || bit (hd.getD 1 0) 63 then
            some (s.drpnDone core e 0xFFFFFFFF 0x12 0)
          else some (pin s (lo32 (hd.getD 0 0)) (cellsOf dvq dkq bs))

/-- R315: DRSV of a drone that is resident here. -/
def State.drsvHead (s : State) (core : Nat) (e : Entry) (d : Drone) (ent : DroneEnt) : Option State :=
  let data := droneImage d false 0 0
  match s.spill core ent.pasid e.privT ent.spill.toNat data (spacePieces .glob ent.spill.toNat data.length) with
  | (none, s) => some (s.finishEntry core e 0 0)
  | (some none, _) => none
  | (some (some (c, a)), s) => some (s.finishEntry core e c a)

/-- DRONE_ENTRY_HEAD (R173, R314, R315): the entry at the head of the delta queue consults the drone table. DELTA, and
DRSV of a drone on another core, wait for the drone to be brought. -/
def execDroneEntryHead (core : Nat) (s : State) : Out :=
  match s.headOf core 10 with
  | none => .next s
  | some e =>
    match s.team? e.team with
    | none => .next s
    | some tm =>
      let whole := s.engLive tm || tm.st == .saving
      let h := e.handle
      if e.kind != .delta || e.phase != .waiting then .next s
      else if e.op == 0xB7#8 then
        if whole then .next ((s.drpnHead core tm e).getD s) else .next s
      else match s.droneEnt tm.part h with
        | none => if whole then .next (s.finishEntry core e 0x12 0) else .next s
        | some ent =>
          if e.op == 0xB8#8 then
            if !whole || (ent.res && ent.core != core && s.deltaBusy ent.core tm.part h) then .next s
            else .next (((s.setDroneEnt tm.part h none).dropDrone ent.core tm.part h).finishEntry core e 0 0)
          else if e.op == 0xB9#8 then
            if !whole then .next s
            else if !ent.res then .next (s.finishEntry core e 0 0)
            else match s.droneAt core tm.part h with
              | some d => .next ((s.drsvHead core e d ent).getD s)
              | none => .next s
          else if s.engGo core tm e && (s.droneAt core tm.part h).isSome then
            .next (s.updEntry core e.id fun x => { x with phase := .begun })
          else .next s

/-- R173: the core that holds the drone spills it, after its own delta entries for it. `none`: not yet. -/
def State.spillOther (s : State) (p h : Nat) (ent : DroneEnt) : Option (Option (Nat × Nat) × State) :=
  if !ent.res then some (none, s)
  else if s.deltaBusy ent.core p h then none
  else match s.droneAt ent.core p h with
    | none => some (none, s)
    | some d =>
      let data := droneImage d false 0 0
      match s.spill ent.core ent.pasid false ent.spill.toNat data (spacePieces .glob ent.spill.toNat data.length) with
      | (none, s) => some (none, (s.dropDrone ent.core p h).setDroneEnt p h (some { ent with res := false }))
      | (some none, _) => none
      | (some (some x), s) => some (some x, s)

/-- R175, R317: does a DELTA that finds this word 1 in the drone's image resume: it was stopped in its work, or its image says so? -/
def Entry.resumes (e : Entry) (w1 : Dword) : Bool :=
  e.op == 0xBA#8 && (e.prog != 0 || e.again == .stopped || (e.again == .image && bit w1 63))

/-- R173, R175: fill a spilled drone into the lowest free run of this core, from the image as the core that spilled it left it. A
resumed DELTA checks PEND, NEXT (DEDUCED, log 74) and CNT, clears PEND, and has begun. -/
def State.fillDrone (s : State) (core : Nat) (tm : Team) (e : Entry) (ent : DroneEnt) : Option State :=
  let h := e.handle
  if s.droneCap core ent.dvq ent.dkq then some (s.finishEntry core e 0x1C 0)
  else match s.droneRun core ent.dvq ent.dkq with
    | none => some (s.finishEntry core e 0x1C 0)
    | some bank =>
      match (s.catchUp (dieOf core) (s.clockOf (dieOf ent.core))).readImage core ent.pasid e.privT ent.spill.toNat ent.dvq ent.dkq with
      | (.error none, _) => none
      | (.error (some (c, a)), s) => some (s.finishEntry core e c a)
      | (.ok (hd, bs), s) =>
        let w1 := hd.getD 1 0
        let resumed := e.resumes w1
        let agree := bit w1 63 && fld w1 62 59 == e.prog && fld w1 58 55 == fld e.w0 3 0
        if !headerOk hd h ent.dvq ent.dkq || (resumed && !agree) then some (s.finishEntry core e 0x12 0)
        else
          let fill (s : State) : State := (s.setDroneEnt tm.part h (some { ent with res := true, core, bank })).addDrone core
            ⟨tm.part, h, bank, ent.dvq, ent.dkq, lo32 (hd.getD 0 0), cellsOf ent.dvq ent.dkq bs⟩
          if !resumed then some (fill s)
          else
            let at_ := ent.spill.toNat + 8
            match s.spill core ent.pasid e.privT at_ (toBytes 8 (w1.toNat % 2 ^ 63)) [(at_, 8)] with
            | (some none, _) => none
            | (some (some (c, a)), s) => some (s.finishEntry core e c a)
            | (none, s) => some ((fill s).updEntry core e.id fun x => { x with phase := .begun, again := .fresh })

/-- DRONE_BRING (R173, R175, R315): the drone of a DELTA or a DRSV is brought to the issuing core. -/
def execDroneBring (core : Nat) (s : State) : Out :=
  match s.headOf core 10 with
  | none => .next s
  | some e =>
    match s.team? e.team with
    | none => .next s
    | some tm =>
      let h := e.handle
      match s.droneEnt tm.part h with
      | none => .next s
      | some ent =>
        let wanted := (e.op == 0xBA#8 && s.engGo core tm e) || (e.op == 0xB9#8 && ent.res && (s.engLive tm || tm.st == .saving))
        if e.kind != .delta || e.phase != .waiting || !wanted || (ent.res && ent.core == core) then .next s
        else match s.spillOther tm.part h ent with
          | none => .next s
          | some (some (c, a), s') => .next (s'.finishEntry core e c a)
          | some (none, s') => .next ((s'.fillDrone core tm e { ent with res := false }).getD s)

/-! ### Tokens (R174, R316, R317) -/

/-- Words of a record from a byte offset. -/
def wordsAt (bs : List Byte) (off n : Nat) : List Word :=
  (List.range n).map fun i => BitVec.ofNat 32 (ofBytes ((bs.drop (off + 4 * i)).take 4))

/-- R174: the FMA chain of a row with a vector. -/
def dotChain (row : Nat → Word) (v : List Word) : Word :=
  (v.mapIdx fun i x => (row i, x)).foldl (fun acc p => f32Fma p.1 p.2 acc) 0

/-- R174: one token: the new S and the output o. -/
def deltaStep (dv dk : Nat) (s : SMap Word) (al be : Word) (k q v : List Word) : SMap Word × List Word :=
  let w (j : Nat) : Word :=
    let u := dotChain (fun i => s.get (j * 128 + i) 0) k
    f32Mul be (f32Sub (v.getD j 0) (f32Mul al u))
  let ws := (List.range dv).map w
  let cell (j i : Nat) : Word := f32Fma (ws.getD j 0) (k.getD i 0) (f32Mul al (s.get (j * 128 + i) 0))
  let s' := (List.range dv).foldl (fun m j => (List.range dk).foldl (fun m i => m.set (j * 128 + i) (cell j i) 0) m) s
  (s', (List.range dv).map fun j => dotChain (fun i => s'.get (j * 128 + i) 0) q)

/-- DELTA_TOKEN (R174, R316, R317): the next token of the DELTA that has begun. A failing address stops the entry
before the token. Charged 4 credits a cycle (R11). -/
def execDeltaToken (core : Nat) (s0 : State) : Out :=
  match s0.headOf core 10 with
  | none => .next s0
  | some e =>
    match s0.team? e.team with
    | none => .next s0
    | some tm =>
      match s0.droneAt core tm.part e.handle with
      | none => .next s0
      | some d =>
        let dv := dimOf d.dvq
        let dk := dimOf d.dkq
        let rs := 16 + 8 * dk + 8 * dv
        let base := (e.c.toNat + e.prog * rs) % 2 ^ 32
        let inLen := 16 + 8 * dk + 4 * dv
        if e.kind != .delta || e.op != 0xBA#8 || e.phase != .begun || !s0.engGo core tm e then .next s0
        else match gather tm e.privT .spad .read (spacePieces .spad base inLen) s0 with
          | (.wait, _) => .next s0
          | (.bad c a, s) => .next (s.finishEntry core e c a)
          | (.ok ps, s) =>
            match gather tm e.privT .spad .write (spacePieces .spad (base + inLen) (4 * dv)) s with
            | (.wait, _) => .next s0
            | (.bad c a, s) => .next (s.finishEntry core e c a)
            | (.ok os, s) =>
              let (bs, s) := s.readPieces (dieOf core) ps
              let f (off n : Nat) : List Word := wordsAt bs off n
              let (m, o) := deltaStep dv dk d.s ((f 0 1).headD 0) ((f 4 1).headD 0) (f 16 dk) (f (16 + 4 * dk) dk)
                (f (16 + 8 * dk) dv)
              let s := s.addDrone core { d with s := m, tokens := d.tokens + 1 }
              let s := writePieces core e os (o.flatMap fun x => toBytes 4 x.toNat) s
              let s := s.spend core (4 * (3 * ceilDiv (dv * dk) 256 + 24))
              let s := s.updEntry core e.id fun y => { y with prog := y.prog + 1 }
              .next (if fld e.w0 3 0 + 1 ≤ e.prog + 1 then s.finishEntry core e 0 0 else s)

/-- DELTA_COMPLETE (R173, R279, R314): the entry's record is written, and DRPN's status with it. -/
def execDeltaComplete (core : Nat) (s : State) : Out :=
  match s.headOf core 10 with
  | none => .next s
  | some e =>
    match e.kind, e.phase with
    | .delta, .done cause addr =>
      let s := s.updHand e.team e.hix fun hd =>
        { hd with pend := hd.pend.map fun p => if e.pends.contains p.id then { p with val := some (lo32 e.c) } else p }
      .next ((s.dropEntry core e.id).writeRecord e cause addr)
    | _, _ => .next s

end Sys2Proof.Machine
end

