-- ==== Sys2Proof/Machine/Work.lean ====
section
/-! DEFINITION. Work: cards and deal queues (R49 to R53), join counters (R58), work lists (R59 to R61), active
messages (R62), and the instructions that make them (R287 to R293). -/

namespace Sys2Proof.Machine

/-! ### Cards (R49, R52) -/

def Card.entry (c : Card) : CodeAddr := c.w0.extractLsb' 34 30
def Card.level (c : Card) : Nat := fld c.w0 33 31
/-- Threads of each team. -/
def Card.threads (c : Card) : Nat := fld c.w0 30 18 + 1
def Card.am (c : Card) : Bool := bit c.w0 17
def Card.root (c : Card) : Bool := bit c.w0 16
def Card.join (c : Card) : Nat := fld c.w2 51 0
def Card.aff (c : Card) : Nat := fld c.w3 51 0
def Card.x (c : Card) : Half := c.w4.extractLsb' 48 16
def Card.y (c : Card) : Half := c.w4.extractLsb' 32 16
def Card.z (c : Card) : Half := c.w4.extractLsb' 16 16
def Card.reserved (c : Card) : Bool :=
  fld c.w0 14 0 != 0 || fld c.w1 63 52 != 0 || fld c.w2 63 52 != 0 || fld c.w3 63 52 != 0 || fld c.w4 15 0 != 0

/-- The card of eight words. -/
def cardOf (l : List Dword) : Card :=
  ⟨l.getD 0 0, l.getD 1 0, l.getD 2 0, l.getD 3 0, l.getD 4 0, l.getD 5 0, l.getD 6 0, l.getD 7 0⟩
def Card.words (c : Card) : List Dword := [c.w0, c.w1, c.w2, c.w3, c.w4, c.w5, c.w6, c.w7]

/-- R52: does the dealer reject a card that the front end did not form? `msg`: it came by AMSG; a message with AM = 0
or another LEVEL is rejected too (R293). -/
def Card.rejected (c : Card) (msg : Bool) : Bool :=
  c.level == 0 || 3 ≤ c.level || c.root || c.reserved || (c.level == 1 && 128 < c.threads) ||
    (if msg then !c.am || c.level != 1 else c.am)

/-! ### Deal queues (R53, R288) -/

/-- The dies in whose order the partition's cards are dealt; the first of them serves a die without cores (R53). -/
def State.dieFor (s : State) (p d : Nat) : Nat :=
  let ds := (s.part p).dies
  if ds.contains d then d else ds.headD d

/-- R53: the home of a usable affinity address: its physical address, in the partition's HBM, on a die that holds one
of its cores. -/
def State.affinity (s : State) (pasid p aff : Nat) : Option Nat :=
  if aff = 0 then none
  else match (s.walkVa pasid aff .read true).1.1 with
    | .ok pa _ => if pa < hbmEnd && (s.part p).dies.contains (paDie pa) then some pa else none
    | _ => none

/-- R53: the die of a card that the front end did not form. -/
def State.dealDie (s : State) (pasid p : Nat) (c : Card) (d : Nat) : Nat :=
  match s.affinity pasid p c.aff with
  | some pa => paDie pa
  | none => s.dieFor p d

/-- The priority class of a launch. -/
def State.prioOf (s : State) (p h : Nat) : Nat := match s.launch? p h with | some l => fld l.record.w0 29 27 | none => 0

/-- R288: cards of a launch that one deal queue holds at most. -/
def dealMax : Nat := 2 ^ 20

/-- Push a card into the launch's deal queue on a die. A queue that is full fails the launch; a failed launch takes
no card. -/
def State.pushDeal (s : State) (d : Nat) (c : DealCard) (who : RecArgs) : State :=
  if s.launchDead c.part c.launch then s
  else
    let mine (x : DealCard) : Bool := x.part == c.part && x.launch == c.launch
    let n := match s.die? d with | some x => (x.deal.filter mine).length | none => 0
    if dealMax ≤ n then s.failLaunch c.part c.launch { who with cause := 0x1C, cls := 6 }
    else
      let (id, s) := s.fresh
      s.updDie d fun x => { x with deal := x.deal ++ [{ c with id, since := s.cyc }] }

/-- R52, R53: a card reaches the dealers; one that R52 rejects fails the launch. -/
def State.pushCard (s : State) (p h pasid : Nat) (c : Card) (d : Nat) (who : RecArgs) : State :=
  if c.rejected false then s.failLaunch p h { who with cause := 1, cls := 6 }
  else s.pushDeal (s.dealDie pasid p c d) { part := p, launch := h, card := c, prio := s.prioOf p h, since := s.cyc } who

/-! ### Join counters (R58) -/

/-- An address that a home slice uses in a PASID: aligned, translated and in this package's HBM; or the fault, with its DETAIL (R373).
`none`: the host has still to answer (R368). -/
def State.homeAcc (s : State) (pasid va align : Nat) (k : AccKind) : Except (Option Flt) Nat × State :=
  if va % align ≠ 0 then (.error (some { cause := 7, d0 := BitVec.ofNat 64 va }), s)
  else if 2 ^ 52 ≤ va then (.error (some { cause := 8 }), s)
  else match s.walkVa pasid va k false with
    | ((.ok pa _, _), s) => (if pa < hbmEnd then .ok pa else .error (some { cause := 9 }), s)
    | ((.fail c d0 d1, _), s) => (.error (some { cause := c, d0, d1 }), s)
    | ((.wait, _), s) => (.error none, s)

/-- The record of a launch that fails by a fault. -/
def RecArgs.of (who : RecArgs) (f : Flt) : RecArgs := { who with cause := f.cause, cls := 6, d0 := f.d0, d1 := f.d1 }

/-- Does the virtual address name the counter at `pa`? -/
def State.names (s : State) (pasid va pa : Nat) : Bool :=
  va != 0 && (match (s.walkVa pasid va .read true).1.1 with | .ok x _ => x == pa | _ => false)

/-- R61: the tag order of staged items. -/
def tagLe (a b : Append) : Bool :=
  if a.lid ≠ b.lid then decide (a.lid.toNat ≤ b.lid.toNat)
  else if a.hix ≠ b.hix then decide (a.hix ≤ b.hix)
  else if a.tid ≠ b.tid then decide (a.tid ≤ b.tid)
  else decide (a.order ≤ b.order)

/-- The items that a die has staged for the lists whose RJOIN is the counter at `pa`. -/
def State.roundItems (s : State) (x : Die) (part h pasid pa : Nat) : List Append :=
  x.staged.filter fun a => a.part == part && a.launch == h && s.names pasid (s.listAt a.desc).rjoin pa

/-- R61, R368: a round closes only when every staged item can get its slot: what tells the counter waits for the host's answers.
(DESIGN CHOICE, log 58.) -/
def State.roundReady (s : State) (part h pasid pa : Nat) : Bool :=
  !s.launchD part h || (List.range Config.dies).all fun d => match s.die? d with
    | none => true
    | some x =>
      ((sortBy tagLe (s.roundItems x part h pasid pa)).foldl (fun (r : Bool × State) a => match r.2.assign d a with
        | none => (false, r.2)
        | some (_, s') => (r.1, s')) (true, s)).1

/-- R58, R368: has the host still to answer for the card that a decrement of the counter releases? -/
def State.contWaits (s : State) (pasid pa : Nat) : Bool :=
  let cont := fld (s.wordAt (pa + 8)) 51 0
  fld (s.wordAt pa) 31 0 == 1 && cont != 0 && (match (s.homeAcc pasid cont 64 .read).1 with | .error none => true | _ => false)

/-- R69: the teams whose held reductions are applied as the counter at `pa` reaches zero. -/
def State.joinTeams (s : State) (part h pasid pa : Nat) : List Team :=
  if s.launchD part h then (s.teamsOf part h).filter fun t => !t.heldRed.isEmpty && s.names pasid t.card.join pa else []

/-- May the counter at `pa` be told now: everything that it does at zero can be done in the same operation (R58, R61, R69)? -/
def State.zeroReady (s : State) (part h pasid pa : Nat) : Bool :=
  s.roundReady part h pasid pa && !s.contWaits pasid pa && !s.heldWaits ((s.joinTeams part h pasid pa).flatMap (·.heldRed))

/-- ROUND_CLOSE (R61): RJOIN at `pa` reached zero: the staged items of its lists get their slots in tag order. -/
def State.roundClose (s : State) (part h pasid pa : Nat) : State :=
  (List.range Config.dies).foldl (fun s d => match s.die? d with
    | none => s
    | some x =>
      let r := (sortBy tagLe (s.roundItems x part h pasid pa)).foldl (fun (r : List (Append × Flt) × State) a =>
        match r.2.assign d a with
        | none => r
        | some (f, s') => (r.1 ++ (match f with | some f => [(a, f)] | none => []),
            s'.updDie d fun y => { y with staged := y.staged.erase a })) ([], s)
      r.2.raiseAppends r.1) s

/-- R58: at zero, the card at CONT is read, its CONT flag set, and it is pushed by R53. -/
def State.releaseCard (s : State) (p h pasid cont d : Nat) (who : RecArgs) : State :=
  if cont = 0 then s
  else match s.homeAcc pasid cont 64 .read with
    | (.error none, s) => s
    | (.error (some f), s) => s.failLaunch p h (who.of f)
    | (.ok pa, s) =>
      if s.poisoned pa 64 then s.failLaunch p h { who with cause := 0x1A, cls := 6 }
      else
        let c := cardOf ((List.range 8).map fun j => s.wordAt (pa + 8 * j))
        s.pushCard p h pasid { c with w0 := c.w0 ||| 0x8000#64 } d who

/-- JOIN_COUNTER_RELEASE (R58, R61, R69): COUNT is zero. In D mode the rounds that it closes are assigned first, and
the reductions held for the teams that retire into it are applied. (DEDUCED, log 58.) -/
def State.counterZero (s : State) (p h pasid pa cont : Nat) (who : RecArgs) : State :=
  let s := s.updLaunch p h fun l => { l with armed := l.armed.filter fun x => x != pa }
  let s := if s.launchD p h then
      let s := s.roundClose p h pasid pa
      s.applyHeldTeams ((s.joinTeams p h pasid pa).map (·.id))
    else s
  s.releaseCard p h pasid cont (paDie pa) who

/-- The two words of a counter, and its reserved fields (R58). -/
def State.joinBad (s : State) (pa : Nat) : Bool :=
  fld (s.wordAt pa) 63 32 != 0 || fld (s.wordAt (pa + 8)) 63 52 != 0

/-- One decrement at the home slice (R58). -/
def State.joinDec (s : State) (p h pasid pa : Nat) (who : RecArgs) : State :=
  let n := fld (s.wordAt pa) 31 0
  if s.joinBad pa then s.failLaunch p h { who with cause := 1, cls := 6 }
  else if n = 0 then s.failLaunch p h { who with cause := 0x13, cls := 6 }
  else
    let s := s.writeHome (paDie pa) pa (toBytes 4 (n - 1))
    if n = 1 then s.counterZero p h pasid pa (fld (s.wordAt (pa + 8)) 51 0) who else s

/-- One arming at the home slice (R289). -/
def State.joinSet (s : State) (p h pasid pa count cont : Nat) (who : RecArgs) : State :=
  if s.joinBad pa then s.failLaunch p h { who with cause := 1, cls := 6 }
  else if fld (s.wordAt pa) 31 0 ≠ 0 then s.failLaunch p h { who with cause := 0x13, cls := 6 }
  else
    let s := s.writeHome (paDie pa) pa (toBytes 4 count)
    let s := s.writeHome (paDie pa) (pa + 8) (toBytes 8 cont)
    if count = 0 then s.counterZero p h pasid pa cont who
    else if cont = 0 then s
    else s.updLaunch p h fun l => { l with armed := if l.armed.contains pa then l.armed else l.armed ++ [pa] }

/-! ### The instructions -/

/-- R287, R264: an address of this chapter: aligned, translated, and in this package's HBM. -/
def State.accHome (s : State) (i : Iss) (ln : Lane) (va n : Nat) (k : AccKind) : Acc × State :=
  match s.accG i.tm (i.hd.lanePriv ln) va n k with
  | (.at (.mem pa) unc, s) => (if pa < hbmEnd then .at (.mem pa) unc else .flt { cause := 9 }, s)
  | r => r

/-- The physical address of a place in memory. -/
def Loc.pa : Loc → Nat
  | .mem pa => pa
  | .slice _ o => o

/-- A line read by a thread that cannot be read (R393). -/
def Found.unread (f : Found) (s : State) (n : Nat) : Bool := s.badLoc f.l n

/-- The launch-class record of a failure that an instruction causes (R375). (DEDUCED, log 49.) -/
def Iss.who (i : Iss) (ln : Lane) : RecArgs :=
  { cause := 0, cls := 6, core := i.tm.core, hix := i.c.hix, tl := i.hd.lanePriv ln, addr := i.c.addr, lid := i.tm.lid,
    mask := maskOf (i.hd.laneThreads ln) }

/-- R58, R61: may the lane tell the counter at its address? -/
def tellReady (a : Opnd) (i : Iss) (ln : Lane) (s : State) : Res × State :=
  match (s.accHome i ln (i.hd.rdO64 ln a).toNat 16 .atomic).1 with
  | .at l _ => (if s.zeroReady i.tm.part i.tm.launch (s.pasidOf i.tm) l.pa then .done else .wait, s)
  | _ => (.done, s)

/-- R263: each request of the instruction holds a slot until its reply, which brings nothing more. -/
def State.holdSlots (s : State) (i : Iss) (ok : List Found) : State :=
  let rs := (requests ok).filterMap fun k => match k.2 with
    | .mem l => some { team := i.c.team, hix := i.c.hix, part := i.tm.part, core := i.tm.core, ord := s.nextId, code := i.c.addr,
                       loc := .mem (l * 128), items := [] : ReadReq }
    | .slice _ _ => none
  s.updCore i.tm.core fun c => { c with reads := c.reads ++ rs, slots := c.slots + rs.length }

/-- The frame of the work instructions: what the hand has issued is performed, every lane's address (`n` bytes) is checked, and then
it acts lane after lane in ascending tid. `slots`: it writes global memory, and holds an origin entry; each request holds a slot
(R263). `read`: the lane reads the line, so an uncorrectable one faults. Its bytes are charged (R11). An append of the hand that waits
for the host holds it (R61). -/
def workOp (h : Hdr) (args : List Arg) (n : Nat) (k : AccKind) (a : Opnd) (slots read : Bool)
    (more : Iss → Lane → State → Res × State) (act : Iss → List Found → State → State) (s0 : State) : Out :=
  s0.onLanes h 0 args noMore fun i lanes s =>
    let s1 := s.flushHand i.c.team i.c.hix
    let chk (ln : Lane) (s : State) : (Acc × Nat) × State :=
      let va := (i.hd.rdO64 ln a).toNat
      match s.accHome i ln va n k with
      | (.at l unc, s) =>
        if read && s.badLoc l n then ((.flt { cause := 0x1A }, va), s)
        else match more i ln s with
          | (.done, s) => ((.at l unc, va), s)
          | (.flt f, s) => ((.flt f, va), s)
          | (.wait, s) => ((.wait, va), s)
      | (x, s) => ((x, va), s)
    let ((ok, fs, w), s) := checkAll chk i.hd lanes s1
    let rs := (requests ok).length
    if w || s1.appending i.c.team i.c.hix || (!ok.isEmpty && !(if slots then s1.roomFor i.tm.core rs else s1.slotsFor i.tm.core rs))
      then s0.stall
    else
      let s := s.spend i.tm.core (lineCredits n ok)
      let s := if ok.isEmpty then s else act i ok (if slots then s else s.holdSlots i ok)
      .next ((s.takeFaults i.c.team i.c.hix i.c.addr fs).advance i h)

/-- Nothing more to check. -/
def noCheck (_ : Iss) (_ : Lane) (s : State) : Res × State := (.done, s)

/-- CARD (R288): a release; a copy of each lane's card is pushed. -/
def execCard (h : Hdr) (a : Opnd) (s : State) : Out :=
  workOp h [(.gbase, .o a)] 64 .read a false true noCheck
    (fun i ok s => ok.foldl (fun s f =>
        let bs := s.viewBytes (dieOf i.tm.core) f.l.pa 64
        let c := cardOf ((List.range 8).map fun j => BitVec.ofNat 64 (ofBytes ((bs.drop (8 * j)).take 8)))
        s.pushCard i.tm.part i.tm.launch (s.pasidOf i.tm) c (dieOf i.tm.core) (i.who f.ln)) s.flushAll) s

/-- A failing write of a join counter is reported as an imprecise store (R264, R381). -/
def State.joinAt (s : State) (i : Iss) (f : Found) (k : State → State) : State :=
  if s.badLoc f.l 16 then
    let m := maskOf (i.hd.laneThreads f.ln)
    s.imprecise i.tm.core (i.origin m) m (BitVec.ofNat 64 f.va) (if s.poisoned f.l.pa 16 then 0 else 3)
  else k s

/-- JOIN, decrement (R289): a release; one decrement a lane, in ascending tid. -/
def execJoinDecrement (h : Hdr) (a : Opnd) (s : State) : Out :=
  workOp h [(.gbase, .o a)] 16 .atomic a true false (tellReady a)
    (fun i ok s =>
      let s := (s.performedOrigin i (maskOf (ok.flatMap fun f => i.hd.laneThreads f.ln)) (requests ok).length).2
      ok.foldl (fun s f => s.joinAt i f fun s =>
        s.joinDec i.tm.part i.tm.launch (s.pasidOf i.tm) f.l.pa (i.who f.ln)) s.flushAll) s

/-- JOIN, arm (R289): C is checked as the address of the card's 64 bytes, unless it is 0 (R58; DEDUCED, log 23). -/
def execJoinArm (h : Hdr) (a b c : Opnd) (s : State) : Out :=
  workOp h [(.gbase, .o a), (.src, .o b), (.gbase, .o c)] 16 .atomic a true false
    (fun i ln s =>
      let va := (i.hd.rdO64 ln c).toNat
      if va = 0 then tellReady a i ln s
      else match s.accHome i ln va 64 .read with
        | (.at _ _, s) => tellReady a i ln s
        | (.flt f, s) => (.flt f, s)
        | (.wait, s) => (.wait, s))
    (fun i ok s =>
      let s := (s.performedOrigin i (maskOf (ok.flatMap fun f => i.hd.laneThreads f.ln)) (requests ok).length).2
      ok.foldl (fun s f => s.joinAt i f fun s =>
        s.joinSet i.tm.part i.tm.launch (s.pasidOf i.tm) f.l.pa (i.hd.rdO f.ln b).toNat (i.hd.rdO64 f.ln c).toNat
          (i.who f.ln)) s) s

/-- R290: the item of a lane: its register bytes, or the place that the unit reads. -/
def State.itemOf (s : State) (i : Iss) (ln : Lane) (w : WList) (b : Opnd) : Except Res (List Byte × Option (Nat × Bool)) × State :=
  let v := i.hd.rdO64 ln b
  if w.isz = 0 then (.ok (toBytes 4 (lo32 v).toNat, none), s)
  else if w.isz = 1 then (.ok (toBytes 8 v.toNat, none), s)
  else match s.accG i.tm (i.hd.lanePriv ln) v.toNat w.size .read with
    | (.at (.mem pa) unc, s) => (.ok ([], some (pa, unc)), s)
    | (.at _ _, s) => (.ok ([], none), s)
    | (.flt f, s) => (.error (.flt f), s)
    | (.wait, s) => (.error .wait, s)

/-- WLAPP (R290): each lane sends one append to the unit of its list's die; a release at .p. A uniform one stands after every thread of
its hand in the order of tags, as tid 0xFF (R61; DESIGN CHOICE, log 72). -/
def execWlapp (h : Hdr) (d a b : Opnd) (s : State) : Out :=
  workOp h [(.dst, .o d), (.gbase, .o a), (.src64, .o b)] 32 .atomic a true true
    (fun i ln s =>
      match s.accHome i ln (i.hd.rdO64 ln a).toNat 32 .atomic with
      | (.at l _, s) =>
        let w := s.listAt l.pa
        if w.bad then (.flt { cause := 1 }, s)
        else match s.itemOf i ln w b with
          | (.error r, s) => (r, s)
          | (.ok _, s) => (if s.dmode i.tm != 0 && w.rjoin == 0 then .flt { cause := 0x15 } else .done, s)
      | (_, s) => (.done, s))
    (fun i ok s =>
      let (org, s) := s.newOrigin i (maskOf (ok.flatMap fun f => i.hd.laneThreads f.ln)) (requests ok).length
      let (order, s) := s.fresh
      ok.foldl (fun s f =>
        let (id, s) := s.fresh
        let ds := (i.hd.half i.tm.depth f.ln d 0).filter fun x => x.1 != Dst.drop
        let s := s.updHand i.c.team i.c.hix fun hd => { hd with pend := hd.pend ++ ds.map fun x => { id, dst := x.1, val := none : Pend } }
        let (item, src) := match (s.itemOf i f.ln (s.listAt f.l.pa) b).1 with | .ok x => x | .error _ => ([], none)
        let ap : Append :=
          { team := i.c.team, hix := i.c.hix, tids := i.hd.laneThreads f.ln,
            tid := (match f.ln with | .thr t => t | .uni => 0xFF), order, desc := f.l.pa, item, src := src.map (·.1), unc := (src.map (·.2)).getD false,
            pend := ds.map fun _ => id, lid := i.tm.lid, core := i.tm.core, part := i.tm.part, launch := i.tm.launch,
            pasid := s.pasidOf i.tm, org, code := i.c.addr, privT := i.hd.lanePriv f.ln }
        s.updDie (paDie f.l.pa) fun x => { x with appends := x.appends ++ [ap] }) s.flushAll) s

/-- COMPACTION_APPEND (R60, R61): the unit of a die takes the batch of one hand-instruction for one list. -/
def execCompactionAppend (die index : Nat) (s : State) : Out :=
  match (s.die? die).bind fun d => d.appends[index]? with
  | none => .next s
  | some a =>
    .next (match s.die? die with | some d => State.appendBatch die (d.appends.filter fun x => x.batch == a.batch) s | none => s)

/-- In D mode every lane that passes its checks takes Deterministic-Scope (R291, R292). -/
def notInD (i : Iss) (_ : Lane) (s : State) : Res × State :=
  (if s.dmode i.tm != 0 then .flt { cause := 0x15 } else .done, s)

/-- WLPOP (R291): one pop a lane, an acquire of the append that filled the slot. -/
def execWlpop (h : Hdr) (d a : Opnd) (s : State) : Out :=
  workOp h [(.dst, .o d), (.gbase, .o a)] 32 .atomic a false true notInD
    (fun i ok s =>
      let s := s.flushInbox (dieOf i.tm.core)
      let r := ok.foldl (fun (x : List (Dst × Option Word) × State) f =>
        let s := x.2
        let w := s.listAt f.l.pa
        let (v, s) := if w.head = w.tail then (0xFFFFFFFF#32, s)
          else
            let (ix, s) := s.itemIndex w w.head
            (BitVec.ofNat 32 ix, s.writeHome (paDie f.l.pa) (f.l.pa + 20) (toBytes 4 ((w.head + 1) % 2 ^ 32)))
        (x.1 ++ i.hd.half i.tm.depth f.ln d v, s)) ([], s)
      r.2.post i.c.team i.c.hix r.1) s

/-- QSCN (R292): a strong relaxed read of the list's state. -/
def execQscn (h : Hdr) (d a : Opnd) (s : State) : Out :=
  workOp h [(.dst64, .o d), (.gbase, .o a)] 32 .read a false true notInD
    (fun i ok s =>
      let s := s.flushInbox (dieOf i.tm.core)
      s.post i.c.team i.c.hix (ok.flatMap fun f =>
        let w := s.listAt f.l.pa
        i.hd.halves i.tm.depth f.ln d (pair64 (if w.ovf then 1 else 0) (BitVec.ofNat 32 w.count)))) s

/-- AMSG (R293, R62): a release; a copy of each lane's card is sent to core B. -/
def execAmsg (h : Hdr) (a b : Opnd) (s : State) : Out :=
  workOp h [(.gbase, .o a), (.src, .o b)] 64 .read a false true
    (fun i ln s => (if (s.part i.tm.part).hasCore (i.hd.rdO ln b).toNat then .done else .flt { cause := 9 }, s))
    (fun i ok s =>
      ok.foldl (fun s f =>
        let bs := s.viewBytes (dieOf i.tm.core) f.l.pa 64
        let c := cardOf ((List.range 8).map fun j => BitVec.ofNat 64 (ofBytes ((bs.drop (8 * j)).take 8)))
        let m : Msg := { part := i.tm.part, launch := i.tm.launch, core := (i.hd.rdO f.ln b).toNat, card := c, x := i.tm.x,
                         y := i.tm.y, z := i.tm.z, n := i.tm.n, lix := i.tm.lix, team := i.c.team, hix := i.c.hix }
        { s with amFlight := s.amFlight ++ [m] }) s.flushAll) s

end Sys2Proof.Machine
end

