-- ==== Sys2Proof/Machine/System.lean ====
section
/-! DEFINITION. System: ICINV and TLBH (R294, R295), and the steps of address translation: contexts, walks, ATS, the
stage map, teardown and migration (R356 to R370, R406). -/

namespace Sys2Proof.Machine

/-! ### Instruction caches and TLBs -/

/-- R295: remove translations from the L1 TLBs of the cores that `on` names and from the TLB of every die, and what the walkers keep for
the PASIDs of `pas` (log 13). -/
def State.dropTlb (s : State) (on : Nat → Bool) (out : Tlb → Bool) (pas : Nat → Bool) : State :=
  { s with
    cores := s.cores.map fun c => if on c.1 then (c.1, { c.2 with tlb := c.2.tlb.filter fun t => !out t }) else c
    dies := s.dies.map fun d => { d with tlb := d.tlb.filter fun t => !out t, walks := d.walks.filter fun x => !pas x.pasid } }

/-- R367: does the entry overlap a range of 64 KiB pages of a PASID? A count of 0xFFFF_FFFF takes all, one of 0 none. -/
def Tlb.inRange (t : Tlb) (pasid va count : Nat) : Bool :=
  let lo := va / 65536 * 65536
  t.pasid == pasid && (count == 0xFFFFFFFF || decide (count ≠ 0 ∧ t.vbase < lo + count * 65536 ∧ lo < t.vbase + t.size))

/-- R367: every access of the hands that `p` picks is accepted at its home. -/
def State.acceptAll (s : State) (p : Team → Bool) : State :=
  s.hands.foldl (fun s hd => match s.team? hd.team with
    | some tm => if p tm then s.flushHand hd.team hd.hix else s
    | none => s) s

/-- R367: have the teams that `p` picks no load to read, no barrier operation and no append on its way to an address that `use` names?
A reduction that D mode holds has yet to use a translation, as it is applied (log 69). -/
def State.accepted (s : State) (p : Team → Bool) (use : Nat → Bool) : Bool :=
  let mine (t : Nat) : Bool := match s.team? t with | some tm => p tm | none => false
  !(s.arrivals.any fun a => mine a.team && (match a.loc with | .mem pa => use pa | .slice _ _ => false)) &&
    !(s.dies.any fun d => d.appends.any fun a => mine a.team && (use a.desc || a.src.any use)) &&
    !(s.readReqs.any fun r => mine r.team && r.items.any fun x => x.got.isNone && (match x.loc with | .mem pa => use pa | .slice _ _ => false))

/-- R361: a physical address of this package's HBM through the package's own id, as the address in its HBM. -/
def State.ownPa (s : State) (pa : Nat) : Nat :=
  if peerBase ≤ pa ∧ (pa - peerBase) / 2 ^ 40 = s.pkgId then (pa - peerBase) % 2 ^ 40 else pa
/-- Was the translation built from the 64 KiB page at `page` of this package's HBM? -/
def State.builtFrom (s : State) (page : Nat) (t : Tlb) : Bool :=
  decide (s.ownPa t.pbase < page + 65536 ∧ page < s.ownPa t.pbase + t.size)

/-- R294, R295: the frame of ICINV and TLBH: at privilege T only, for the hand; the result is 0. `inval`: what is invalidated once more as
it is written. -/
def sysOp (h : Hdr) (args : List Arg) (d : Opnd) (check : Iss → Option Flt) (ready : Iss → Bool)
    (act : Iss → State → State) (inval : Iss → Option (Nat × Nat)) (s0 : State) : Out :=
  s0.handWide h args fun i _ s =>
    if !i.hd.privT then s.raiseAll i h { cause := 9 }
    else match check i with
      | some f => s.raiseAll i h f
      | none =>
        if !ready i then s0.stall
        else
          let s := act i s
          let own (p : Pend) : Pend := if p.id = s.nextId then { p with inval := inval i } else p
          .next (((s.post i.c.team i.c.hix (i.hd.half i.tm.depth .uni d 0)).updHand i.c.team i.c.hix fun hd =>
            { hd with pend := hd.pend.map own }).advance i h)

/-- ICINV (R294): first as FENCE at .p, then the invalidation, which is made again as D is written. While the fence waits for barrier
operations the hand issues nothing of R274's list, and D is not written. -/
def execIcinv (h : Hdr) (d a b : Opnd) (s : State) : Out :=
  sysOp h [(.dst, .o d), (.src, .o a), (.src, .o b)] d (fun _ => none)
    (fun _ => true)
    (fun i s => (s.fenceAt i true i.hd.actives).dropCode i.tm.part (i.u a) (i.u b)) (fun i => some (i.u a, i.u b)) s

/-- TLBH (R295, R367): it completes once the accesses that used the translations are accepted. (DEDUCED, log 53.) -/
def execTlbh (h : Hdr) (d a b : Opnd) (s : State) : Out :=
  sysOp h [(.dst, .o d), (.src64, .o a), (.src, .o b)] d
    (fun i => if 2 ^ 52 ≤ (i.hd.rdO64 .uni a).toNat then some { cause := 8 } else none)
    (fun i => s.accepted (fun t => s.pasidOf t == s.pasidOf i.tm) fun _ => true)
    (fun i s =>
      let pasid := s.pasidOf i.tm
      (s.acceptAll fun t => s.pasidOf t == pasid).dropTlb (s.part i.tm.part).hasCore
        (·.inRange pasid (i.hd.rdO64 .uni a).toNat (i.u b)) (fun x => x == pasid && i.u b != 0)) (fun _ => none) s

/-! ### Contexts and walks -/

/-- Replace a context descriptor. -/
def State.setCtx (s : State) (pasid : Nat) (c : Context) : State :=
  { s with contexts := (pasid, c) :: s.contexts.filter fun x => x.1 != pasid }

/-- R369: are origin entries of the PASID still held? -/
def State.pasidBusy (s : State) (pasid : Nat) : Bool :=
  s.cores.any fun c => c.2.origins.any fun o => match s.launch? o.part o.launch with
    | some l => l.pasid == pasid
    | none => false

/-- R338: is the PASID one of the partition's? -/
def Part.ownsPasid (x : Part) (pasid : Nat) : Bool := decide (x.pasidBase ≤ pasid ∧ pasid < x.pasidBase + x.pasidCount)

/-- R338: has the partition a resident or saved team? -/
def State.hasTeams (s : State) (p : Nat) : Bool := s.teams.any fun t => t.part == p && t.st != .gone

/-- CONTEXT_DESCRIPTOR_WRITE (R356). A PASID is given only to the partition whose range it lies in, while that has no team (R338); a
dead PASID whose origin entries have not drained is not reused (R369). -/
def execContextDescriptorWrite (pasid : Nat) (w0 w1 w2 : Dword) (s : State) : Out :=
  let dead := match s.ctx? pasid with | some c => c.dead | none => false
  let p := fld w0 61 58
  if 2 ^ 20 ≤ pasid || (dead && s.pasidBusy pasid) ||
      (bit w0 63 && (!(s.part p).ownsPasid pasid || s.hasTeams p)) then .next s
  else .next (s.setCtx pasid
    { valid := bit w0 63, dead := bit w0 62, part := fld w0 61 58, root := fld w0 51 12 * 4096,
      code := BitVec.ofNat 64 (fld w1 51 0), hpasid := fld w2 19 0 })

/-- PAGE_WALK (R364, R357 to R362): a walker of a die translates a page, sets A and D, and fills the die's TLB. -/
def execPageWalk (die pasid : Nat) (va : Dword) (kind : AccKind) (privT : Bool) (s : State) : Out :=
  if 2 ^ 52 ≤ va.toNat then .next s
  else .next (s.walkDie die pasid va.toNat kind privT).2

/-- R368: entries of the ATC. -/
def atcEntries : Nat := 4096

/-- ATS_RESPONSE (R368): the host's answer for a page: its translation, or a refusal. Without a host none comes, and none is waited for
(R351). -/
def execAtsResponse (hpasid page : Nat) (out : Option Nat) (s : State) : Out :=
  if !s.host then .next s else .next { s with atc := ((hpasid, page, out) :: s.atc.filter fun e => !(e.1 == hpasid && e.2.1 == page)).take atcEntries }

/-- ATS_INVALIDATION (R368): it completes after the requests that used the entries have been sent. -/
def execAtsInvalidation (hpasid page count : Nat) (s : State) : Out :=
  let uses (t : Team) : Bool := match s.ctx? (s.pasidOf t) with | some c => c.hpasid == hpasid | none => false
  let ats (pa : Nat) : Bool := decide (hostKey ≤ pa)
  if !s.accepted uses ats then .next s
  else
  let s := s.acceptAll uses
  .next { s with atc := s.atc.filter fun e => !(e.1 == hpasid && decide (page ≤ e.2.1 ∧ e.2.1 < page + count)) }

/-- STAGE_MAP_UPDATE (R362): it returns after the TLB entries built from the page are gone, and the accesses that used them are
accepted (R367). A page is given to no partition that has a team (R338). -/
def execStageMapUpdate (page : Nat) (mask : BitVec 16) (s : State) : Out :=
  let a := page * 65536
  let old := s.stageMap.get page 0
  let busy := (List.range 16).any fun p => mask.getLsbD p && !old.getLsbD p && s.hasTeams p
  if hbmEnd ≤ a || busy || !s.accepted (fun _ => true) (fun pa => decide (a ≤ pa ∧ pa < a + 65536)) then .next s
  else
    let s := s.acceptAll fun _ => true
    .next ({ s with stageMap := s.stageMap.set page mask 0 }.dropTlb (fun _ => true) (s.builtFrom a) fun _ => true)

/-! ### Teardown (R369, R406) -/

/-- R403, R405: the started command is a launch in flight: it has neither ended nor been saved. -/
def State.flying (s : State) (q : Queue) (c : Cmd) : Bool :=
  c.cmd == 1 && c.status.isNone && match s.launch? q.part c.launch with
    | some l => !(l.st == .ended || l.st == .endedFailed || l.st == .saved)
    | none => true

/-- R406: a queue is marked dead: its launches in flight fail with Translation, REASON 5, and their completions are not written;
other commands that have started go on. -/
def State.killQueue (s : State) (qid : Nat) : State :=
  match s.queue? qid with
  | none => s
  | some q =>
    if q.dead then s
    else
      let left := q.cmds.filter fun c => !s.flying q c
      let s := s.updQueue qid fun q => { q with dead := true, cmds := left }
      let mine := s.launches.filter fun l => l.part == q.part && l.qid == qid
      mine.foldl (fun s l =>
        s.failLaunch l.part l.handle { cause := 8, cls := 6, d0 := 0x5000000000000000#64 }) s

/-- Remove the residencies that `p` picks, on every core. -/
def State.dropResids (s : State) (p : Resid → Bool) : State :=
  s.cores.foldl (fun s c => (c.2.resid.filter fun r => !r.dead && p r).foldl
    (fun s r => (s.loseResid r).dropResid c.1 r) s) s

/-- R369: at the call, the PASID is dead, its translations and residencies go, and its queues are dead. -/
def State.teardown (s : State) (pasid : Nat) : State :=
  let s := match s.ctx? pasid with
    | none => s
    | some c =>
      let s := s.setCtx pasid { c with dead := true }
      let s := s.dropTlb (fun _ => true) (fun t => t.pasid == pasid) (· == pasid)
      let s := { s with atc := s.atc.filter fun e => e.1 != c.hpasid, dumped := s.dumped.filter fun d => d.pasid != pasid }
      s.dropResids fun r => r.pasid == pasid
  (s.queues.filter fun q => q.pasid == pasid).foldl (fun s q => s.killQueue q.qid) s

/-- PASID_TEARDOWN (R369). The reply says whether it reports completion: its origin entries have drained. -/
def execPasidTeardown (pasid : Nat) (s : State) : Out :=
  let s := s.teardown pasid
  .next { s with reply := [if s.pasidBusy pasid then 0 else 1] }

/-! ### Migration (R370) -/

/-- The address `pa`, moved with its page. -/
def moved (old new pa : Nat) : Nat := if old ≤ pa ∧ pa < old + 65536 then pa - old + new else pa

/-- A place, moved with its page. -/
def Loc.moved (old new : Nat) : Loc → Loc
  | .mem pa => .mem (Machine.moved old new pa)
  | l => l

/-- R370 step 2: copy the page at its home. -/
def State.copyPage (s : State) (old new : Nat) : State :=
  let src := s.mem.filter fun e => decide (old ≤ e.1 ∧ e.1 < old + 65536)
  let s := s.markStale new 65536
  { s with
    mem := src.foldl (fun m e => m.set (e.1 - old + new) e.2 Config.memFill) (s.mem.drop new (new + 65536))
    poison := s.poison.map fun l => moved old new (l * 128) / 128 }

/-- R370 step 5: the requests that the old home refused are retried at the new one. -/
def State.retryMoved (s : State) (old new : Nat) : State :=
  let mv := moved old new
  let buf (w : BufWrite) : BufWrite := if w.slice.isNone then { w with pa := mv w.pa } else w
  let wait (t : Thread) : Thread := match t.wait with
    | .barw l a p => { t with wait := .barw (l.moved old new) a p }
    | _ => t
  let arr (a : Arrival) : Arrival := { a with loc := a.loc.moved old new }
  let req (r : ReadReq) : ReadReq :=
    { r with loc := r.loc.moved old new, items := r.items.map fun x => { x with loc := x.loc.moved old new } }
  let app (a : Append) : Append := { a with desc := mv a.desc, src := a.src.map mv }
  { s with
    hands := s.hands.map fun h => { h with sbuf := h.sbuf.map buf, threads := h.threads.map wait }
    phases := s.phases.map fun x => (x.1.moved old new, x.2)
    cores := s.cores.map fun (c : Nat × Core) => (c.1, { c.2 with
      reads := c.2.reads.map req, bankQ := c.2.bankQ.map fun b => { b with read := b.read.map req } })
    launches := s.launches.map fun l => { l with armed := l.armed.map mv }
    arrivals := s.arrivals.map arr
    heldArr := s.heldArr.map arr
    dies := s.dies.map fun d => { d with staged := d.staged.map app, appends := d.appends.map app } }

/-- Apply a function to every listed core. -/
def State.updCores (s : State) (f : Core → Core) : State := { s with cores := s.cores.map fun c => (c.1, f c.2) }

/-- R370 step 4: the residencies' recorded source pages follow the page. -/
def State.moveSpans (s : State) (old new : Nat) : State :=
  let cut (q : Nat × Nat) : List (Nat × Nat) := (pieces 65536 (q.2 / 65536 + 2) q.1 q.2).map fun p => (moved old new p.1, p.2)
  s.updCores fun c => { c with
    resid := c.resid.map fun r => if r.touched old 65536 then { r with spans := r.spans.flatMap cut } else r }

/-- PAGE_MIGRATION (R370): the 64 KiB page that `va` has in a context moves to a new page. (DEDUCED, log 21.) -/
def execPageMigration (pasid : Nat) (va : Dword) (new : Nat) (s : State) : Out :=
  match s.ctx? pasid with
  | none => .next s
  | some c =>
    match s.walkFrom va.toNat 3 c.root, s.reach c.part c.hpasid new with
    | .leaf at_ tier e, .key dst =>
      let old := s.ownPa (pageBase tier e va.toNat).toNat
      if tier ≠ 0 ∨ pageSize tier e ≠ 65536 ∨ new % 65536 ≠ 0 ∨ hostKey ≤ dst ∨ hbmEnd ≤ old then .next s
      else
        let s := (s.flushAll.copyPage old dst).moveSpans old dst
        let e' := BitVec.ofNat 64 (e.toNat - entOut e + new)
        let s := s.writeHome (paDie at_) at_ (toBytes 8 e'.toNat)
        .next ((s.dropTlb (fun _ => true) (s.builtFrom old) fun _ => true).retryMoved old dst)
    | _, _ => .next s

end Sys2Proof.Machine
end

