-- ==== Sys2Proof/Machine/Ports.lean ====
section
/-! DEFINITION. The ports: peers and scale-up planes (R354, R362), Ethernet (R353) and NVMe (R352), with their budgets
(R340). What comes from outside the package stands in the operands of a step (DEDUCED, log 16). -/

namespace Sys2Proof.Machine

/-- R362: may the partition use every page of this run of the package's HBM? -/
def State.stageRun (s : State) (p pa n : Nat) : Bool :=
  decide (pa + n ≤ hbmEnd) && (spacePieces .glob pa n).all fun x => s.stageOk p x.1

/-- Bytes as the words of a reply. -/
def replyWords (l : List Byte) : List Dword := l.map fun b => b.setWidth 64

/-- PEER_REQUEST (R362): a peer reads or writes memory for the partition that its flit carries. The reply is 0 with
the bytes read, 1 for a page that the stage map refuses, 2 for a line that is uncorrectable. A write is performed at
its home and marks melds (R154). -/
def execPeerRequest (part : Nat) (write : Bool) (pa : Nat) (data : List Byte) (s : State) : Out :=
  if !s.stageRun part pa data.length then .next { s with reply := [1] }
  else if s.poisoned pa data.length then .next { s with reply := [2] }
  else if write then .next { s.writeHome (paDie pa) pa data with reply := [0] }
  else .next { s with reply := 0 :: replyWords (s.bytesAt pa data.length) }

/-- LINK_FAILURE (R354): a plane toward a peer is no longer live; its flits are resent on the others. -/
def execLinkFailure (peer plane : Nat) (s : State) : Out :=
  if 192 ≤ peer || 18 ≤ plane || s.deadPlanes.contains (peer, plane) then .next s
  else .next { s with deadPlanes := s.deadPlanes ++ [(peer, plane)] }

/-- LINK_RESTORED (R354). -/
def execLinkRestored (peer plane : Nat) (s : State) : Out :=
  .next { s with deadPlanes := s.deadPlanes.filter fun x => x != (peer, plane) }

/-! ### Ethernet (R353) -/

/-- The sum of bytes as 16-bit words, the first byte of each the higher. -/
def pairSum : List Byte → Nat
  | a :: b :: r => a.toNat * 256 + b.toNat + pairSum r
  | [a] => a.toNat * 256
  | [] => 0
/-- A sum in ones' complement arithmetic of 16 bits. -/
def onesSum (n : Nat) : Nat := if n = 0 then 0 else (n - 1) % 65535 + 1

/-- The TCP or UDP segment of a frame: where it starts, its length and protocol, the packet's addresses, and where its checksum
lies in it. -/
structure Segment where
  at_ : Nat
  len : Nat
  proto : Nat
  addrs : List Byte
  field : Nat
  deriving DecidableEq, Repr

/-- R353: the segment of an IPv4 packet that is no fragment, or of an IPv6 packet without extension headers (the packet formats are
those of IPv4, IPv6, TCP and UDP; PRESUMED, log 68). -/
def segmentOf (d : List Byte) : Option Segment :=
  let b (i : Nat) : Nat := (d.getD i 0).toNat
  let half (i : Nat) : Nat := b i * 256 + b (i + 1)
  let seg (at_ len proto : Nat) (addrs : List Byte) : Option Segment :=
    let field := if proto = 6 then 16 else 6
    if (proto = 6 ∨ proto = 17) ∧ field + 2 ≤ len ∧ at_ + len ≤ d.length then some ⟨at_, len, proto, addrs, field⟩ else none
  if half 0 = 0x0800 ∧ b 2 / 16 = 4 then
    let ihl := b 2 % 16 * 4
    if 20 ≤ ihl ∧ half 8 % 0x4000 = 0 then seg (2 + ihl) (half 4 - ihl) (b 11) ((d.drop 14).take 8) else none
  else if half 0 = 0x86DD ∧ b 2 / 16 = 6 then seg 42 (half 6) (b 8) ((d.drop 10).take 32)
  else none

/-- The sum of the pseudo header and the segment. -/
def Segment.sum (g : Segment) (d : List Byte) : Nat :=
  onesSum (pairSum g.addrs + g.proto + g.len + pairSum ((d.drop g.at_).take g.len))

/-- R353: checksum offload on receive: does the frame's checksum verify? A UDP checksum of 0 says that there is none. -/
def checksumOk (d : List Byte) : Option Bool :=
  (segmentOf d).map fun g =>
    let c := (d.drop (g.at_ + g.field)).take 2
    g.sum d == 65535 || (g.proto == 17 && c == [0, 0])

/-- R353: checksum offload on transmit: the checksum is put into the frame. -/
def checksumPut (d : List Byte) : List Byte :=
  match segmentOf d with
  | none => d
  | some g =>
    let i := g.at_ + g.field
    let put (c : Nat) : List Byte := d.take i ++ [BitVec.ofNat 8 (c / 256), BitVec.ofNat 8 c] ++ d.drop (i + 2)
    let c := 65535 - g.sum (put 0)
    put (if c = 0 ∧ g.proto = 17 then 65535 else c)

/-- R353: does the interface take the frame? -/
def Iface.takes (i : Iface) (port : Nat) (f : Frame) : Bool := i.port == port && i.mac == f.dst && i.vlans.contains f.vlan

/-- ETH_FRAME_RECEIVE (R353, R340, R362): the frame goes to the partition whose filter it matches, by DMA to its buffer within its
pages; with no match, over the budget, or outside the pages, it is dropped. -/
def execEthFrameReceive (port : Nat) (r : RxFrame) (s : State) : Out :=
  let f := r.frame
  let n := ceilDiv f.data.length 64
  match s.parts.find? fun p => p.2.ifaces.any fun i => i.takes port f with
  | none => .next s
  | some (p, _) =>
    if 2 ≤ port || !s.inBudget actEth port p n capEth then .next s
    else
      let s := s.countUnits actEth port p n
      if !s.stageRun p r.buf f.data.length then .next s
      else .next ((s.writeHome (paDie r.buf) r.buf f.data).updPart p fun x =>
        { x with rx := x.rx ++ [(port, f)], rxSums := x.rxSums ++ [checksumOk f.data] })

/-- ETH_FRAME_TRANSMIT (R353, R340, R362): a frame of a partition, which DMA reads in its buffer within its pages, leaves its port with
its checksum when the budget allows. -/
def execEthFrameTransmit (port part : Nat) (f : TxFrame) (s : State) : Out :=
  let n := ceilDiv f.len 64
  if decide (port < 2) && (s.part part).ifaces.any (fun i => i.port == port) && s.inBudget actEth port part n capEth
      && s.stageRun part f.buf f.len && !s.poisoned f.buf f.len then
    .next ((s.countUnits actEth port part n).updPart part fun x =>
      { x with tx := x.tx ++ [(port, ⟨f.dst, f.vlan, checksumPut (s.bytesAt f.buf f.len)⟩)] })
  else .next s

/-! ### NVMe (R352) -/

/-- NVME_DMA (R352, R340): a device transfers for a partition; outside its pages the transfer is aborted with a data
transfer error (reply 1). It waits while the budget is spent. -/
def execNvmeDma (port part : Nat) (toMem : Bool) (pa : Nat) (data : List Byte) (s : State) : Out :=
  let n := ceilDiv data.length 4096
  if 2 ≤ port ∨ (s.part part).nvme.get port 0 = 0 ∨ !s.inBudget actNvme port part n capNvme then .next s
  else
    let s := s.countUnits actNvme port part n
    if !s.stageRun part pa data.length then .next { s with reply := [1] }
    else if s.poisoned pa data.length then .next { s with reply := [2] }
    else if toMem then .next { s.writeHome (paDie pa) pa data with reply := [0] }
    else .next { s with reply := 0 :: replyWords (s.bytesAt pa data.length) }

end Sys2Proof.Machine
end

