-- ==== Sys2Proof/Machine/Dealer.lean ====
section
/-! DEFINITION. Dealers: choosing and placing cards (R46 to R56, R391), the trace of D mode (R66, R67), and due teams
(R64, R379). -/

namespace Sys2Proof.Machine

/-! ### The launch record (R44) -/

def LaunchRec.entry (r : LaunchRec) : CodeAddr := r.w0.extractLsb' 34 30
/-- D of DEPTH. -/
def LaunchRec.depth (r : LaunchRec) : Nat := 32 * (fld r.w0 33 32 + 1)
def LaunchRec.gx (r : LaunchRec) : Nat := fld r.w1 63 48 + 1
def LaunchRec.gy (r : LaunchRec) : Nat := fld r.w1 47 32 + 1
def LaunchRec.gz (r : LaunchRec) : Nat := fld r.w1 31 16 + 1
/-- N, the teams of the grid (R43). -/
def LaunchRec.grid (r : LaunchRec) : Nat := r.gx * r.gy * r.gz
/-- The scratchpad of a team, in bytes. -/
def LaunchRec.spad (r : LaunchRec) : Nat := fld r.w2 63 48 * 1024
def LaunchRec.acc (r : LaunchRec) : Nat := fld r.w2 47 39
def LaunchRec.threads (r : LaunchRec) : Nat := fld r.w2 38 26 + 1
def LaunchRec.s4 (r : LaunchRec) : Nat := fld r.w3 63 32
def LaunchRec.s5 (r : LaunchRec) : Nat := fld r.w3 31 0
/-- The trace buffer, in bytes and by its address. -/
def LaunchRec.tlen (r : LaunchRec) : Nat := fld r.w4 31 0 * 1024
def LaunchRec.trace (r : LaunchRec) : Nat := fld r.w5 51 0

/-- R43: the linear index of a card's X, Y and Z. -/
def linear (r : LaunchRec) (x y z : Half) : Nat := x.toNat + r.gx * (y.toNat + r.gy * z.toNat)
/-- R43: `lix2` to `lix6` of a linear index. -/
def lixOf (r : LaunchRec) (n : Nat) : List Nat :=
  n :: [r.s3, r.s4, r.s5, r.s6].map fun s => if s = 0 then 0xFFFFFFFF else n / s

/-! ### What a team needs, and whether a core can take it (R45 to R48, R55) -/

/-- What a team needs of a core. `fixed`: its D' is given by a section (R391). -/
structure Need where
  hands : Nat
  depth : Nat
  fixed : Bool
  share : Nat
  acc : Nat
  deriving DecidableEq, Repr

/-- Where a team goes on a core. -/
structure Plan where
  quads : List (Nat × Nat)
  sbase : Nat
  accPhys : List Nat
  depth : Nat
  deriving DecidableEq, Repr

/-- R45. -/
def handsOfThreads (n : Nat) : Nat := ceilDiv n 128

/-- R50: what the team of a card needs: active-message teams have no scratchpad and no accumulator banks. (DEDUCED, log 45.) -/
def needOf (r : LaunchRec) (c : Card) : Need :=
  { hands := handsOfThreads c.threads, depth := r.depth, fixed := false,
    share := if c.am then 0 else min r.spad Config.sliceBytes, acc := if c.am then 0 else r.acc }

/-- R46, R391: D' on a core with these quadrant capacities. (DEDUCED, log 46.) -/
def depthOn (caps : List Nat) (n : Need) : Nat :=
  let cap := (caps.foldl min Config.regBytes)
  if n.fixed then n.depth
  else ([128, 96, 64, 32].find? fun d => decide (d ≤ n.depth ∧ ceilDiv n.hands 4 * 512 * d ≤ cap)).getD 32

/-- A hand in a quadrant's slot, with its charge. -/
structure Used where
  quad : Nat
  slot : Nat
  charge : Nat
  deriving DecidableEq, Repr

/-- The teams resident on a core, but for those `gone` names. -/
def State.residents (s : State) (core : Nat) (gone : Nat → Bool) : List Team :=
  s.teams.filter fun t => t.resident && t.core == core && !gone t.id

/-- The hands that these teams hold. -/
def usedBy (ts : List Team) : List Used := ts.flatMap fun t => t.quads.map fun q => ⟨q.1, q.2, 512 * t.depth⟩

/-- R46, R55: the quadrant with the most free storage among those that can take a hand, and its lowest free slot. -/
def pickQuad (caps : List Nat) (used : List Used) (charge : Nat) : Option (Nat × Nat) :=
  let here (q : Nat) : List Used := used.filter fun u => u.quad == q
  let taken (q : Nat) : Nat := ((here q).map (·.charge)).foldl (· + ·) 0
  let ok (q : Nat) : Bool := decide ((here q).length < 16 ∧ taken q + charge ≤ caps.getD q 0)
  (minBy (fun q => Config.regBytes - (caps.getD q 0 - taken q)) (idxs 4 ok)).bind fun q =>
    ((List.range 16).find? fun i => !((here q).any fun u => u.slot == i)).map fun i => (q, i)

/-- Place `n` hands, in ascending hix. -/
def pickQuads (caps : List Nat) (charge : Nat) : Nat → List Used → Option (List (Nat × Nat))
  | 0, _ => some []
  | n + 1, used => (pickQuad caps used charge).bind fun p =>
      (pickQuads caps charge n (⟨p.1, p.2, charge⟩ :: used)).map fun r => p :: r

/-- R47: the lowest free offset of the slice for a share. -/
def shareAt (ts : List Team) (share : Nat) : Option Nat :=
  if share = 0 then some 0
  else
    let ok (o : Nat) : Bool := decide (o + share ≤ Config.sliceBytes) &&
      ts.all fun t => decide (t.share = 0 ∨ t.sbase + t.share ≤ o ∨ o + share ≤ t.sbase)
    minBy id ((0 :: ts.map fun t => t.sbase + t.share).filter ok)

/-- R55: can the core take the team, when the teams that `gone` names are gone; `drones`: do its drones count? (DEDUCED, log 14.) -/
def State.fits (s : State) (core : Nat) (gone : Nat → Bool) (drones : Bool) (n : Need) : Option Plan :=
  let c := s.core core
  let ts := s.residents core gone
  let d := depthOn c.regCap n
  let freeBank (b : Nat) : Bool := !(ts.any fun t => t.accPhys.contains b) &&
    !(drones && c.drones.any fun x => decide (x.bank ≤ b ∧ b < x.bank + droneBanksOf x.dvq x.dkq))
  let banks := (idxs Config.accBanks freeBank).take n.acc
  match pickQuads c.regCap (512 * d) n.hands (usedBy ts), shareAt ts n.share with
  | some quads, some sbase => if banks.length = n.acc then some ⟨quads, sbase, banks, d⟩ else none
  | _, _ => none

def noneGone (_ : Nat) : Bool := false

/-! ### Accesses of the front end and the dealers, in a launch's PASID (DEDUCED, log 25) -/

/-- Translate every piece of a range; the first fault, or `none` when the host has still to translate (R368). -/
def vpieces (pasid : Nat) (k : AccKind) : List (Nat × Nat) → State → Except (Option Flt) (List (Nat × Nat)) × State
  | [], s => (.ok [], s)
  | (a, n) :: r, s =>
    if 2 ^ 52 ≤ a then (.error (some { cause := 8 }), s)
    else match s.walkVa pasid a k true with
      | ((.ok pa _, _), s) => match vpieces pasid k r s with
        | (.ok l, s) => (.ok ((pa, n) :: l), s)
        | x => x
      | ((.fail c d0 d1, _), s) => (.error (some { cause := c, d0, d1 }), s)
      | ((.wait, _), s) => (.error none, s)

/-- Read a range of virtual memory. -/
def State.vread (s : State) (pasid va n : Nat) : Except (Option Flt) (List Byte) × State :=
  match vpieces pasid .read (spacePieces .glob va n) s with
  | (.error c, s) => (.error c, s)
  | (.ok ps, s) =>
    if ps.any fun p => s.poisoned p.1 p.2 || s.unreachable p.1 then (.error (some { cause := 0x1A }), s)
    else (.ok (ps.flatMap fun p => s.bytesAt p.1 p.2), s)

/-- Write the bytes of pieces, each at its home. -/
def pokePieces : List (Nat × Nat) → List Byte → State → State
  | [], _, s => s
  | p :: r, bs, s => pokePieces r (bs.drop p.2) (s.poke p.1 (bs.take p.2))

/-- R381, R393: the failure of a write of the front end to the first of the pieces that cannot be written, at virtual address `va`. -/
def State.lostWrite (s : State) (va : Nat) : List (Nat × Nat) → Option Flt
  | [] => none
  | p :: r =>
    if s.badLoc (.mem p.1) p.2 then
      some { cause := 0x1B, d0 := BitVec.ofNat 64 va, d1 := BitVec.ofNat 64 (s.badReason (.mem p.1) p.2) }
    else s.lostWrite (va + p.2) r

/-- Write a range of virtual memory, performed everywhere (R385, R390, R404). One with a line that cannot be written writes nothing
(DESIGN CHOICE, log 70). -/
def State.vwrite (s : State) (pasid va : Nat) (bs : List Byte) : Except (Option Flt) State :=
  match vpieces pasid .write (spacePieces .glob va bs.length) s with
  | (.error c, _) => .error c
  | (.ok ps, s) => match s.lostWrite va ps with
    | some f => .error (some f)
    | none => .ok (pokePieces ps bs s.flushAll)

/-- 64-bit words of bytes. -/
def dwords (bs : List Byte) : List Dword :=
  (List.range (bs.length / 8)).map fun j => BitVec.ofNat 64 (ofBytes ((bs.drop (8 * j)).take 8))

/-! ### The Twimet trace (R66, R67) -/

/-- The entry of a core that is to be placed next. -/
def Launch.nextEnt (l : Launch) (core : Nat) : Option TraceEnt := l.trace.find? fun e => e.core == core && !e.placed
/-- R67: the core whose next entry holds this team. -/
def Launch.traced (l : Launch) (kind : Nat) (lid : Dword) : Option Nat :=
  ((l.trace.filter fun e => e.kind == kind && e.lid == lid && !e.placed).map (·.core)).find? fun c =>
    match l.nextEnt c with
    | some e => e.kind == kind && e.lid == lid
    | none => false
/-- R67: has the team no unplaced entry? -/
def Launch.untraced (l : Launch) (kind : Nat) (lid : Dword) : Bool :=
  !(l.trace.any fun e => e.kind == kind && e.lid == lid && !e.placed)

/-- Mark the core's next entry as placed. -/
def markPlaced (core : Nat) : List TraceEnt → List TraceEnt
  | [] => []
  | e :: r => if e.core == core && !e.placed then { e with placed := true } :: r else e :: markPlaced core r

/-- The bytes of word `i` of a trace entry. -/
def traceBytes (e : TraceEnt) : List Byte := toBytes 8 (e.core * 2 ^ 55 + e.kind * 2 ^ 53) ++ toBytes 8 e.lid.toNat

/-- Must a placement of `n` teams wait for the host's answer to the pages of its trace entries (R368)? -/
def State.traceWaits (s : State) (l : Launch) (n : Nat) : Bool :=
  let i := l.trace.length
  let waits (va len : Nat) : Bool := match (vpieces l.pasid .write (spacePieces .glob va len) s).1 with
    | .error none => true
    | _ => false
  l.dmode == 1 && (waits l.record.trace 8 ||
    waits (l.record.trace + 8 + 16 * i) (16 * min n ((l.record.tlen - 8) / 16 - i)))

/-- A first placement in D mode: recorded in the trace buffer, or its entry consumed (R66, R67). An entry that cannot
be written in the launch's context is left out of memory (DEDUCED, log 26). -/
def State.tracePlace (s : State) (p h core kind : Nat) (lid : Dword) : State :=
  match s.launch? p h with
  | none => s
  | some l =>
    if l.dmode = 2 then s.updLaunch p h fun l => { l with trace := markPlaced core l.trace }
    else if l.dmode = 1 then
      let i := l.trace.length
      let put (va : Nat) (bs : List Byte) (s : State) : State := match s.vwrite l.pasid va bs with
        | .ok s => s
        | .error (some f) => if f.cause = 0x1B then s.failL p h f else s
        | .error none => s
      if l.record.tlen < 8 + 16 * (i + 1) then
        put l.record.trace (toBytes 8 (2 ^ 63 + i)) (s.updLaunch p h fun l => { l with truncated := true })
      else
        let e : TraceEnt := ⟨core, kind, lid, true⟩
        let s := s.updLaunch p h fun l => { l with trace := l.trace ++ [e] }
        put l.record.trace (toBytes 8 ((if l.truncated then 2 ^ 63 else 0) + i + 1))
          (put (l.record.trace + 8 + 16 * i) (traceBytes e) s)
    else s

/-! ### Choosing cores (R55) -/

/-- The mesh distance of two clusters of a die. -/
def hops (a b : Nat) : Nat := (a / 4 - b / 4) + (b / 4 - a / 4) + (a % 4 - b % 4) + (b % 4 - a % 4)

/-- R55: the order of a die's cores for a card: fewest hops to the affinity's cluster when its page lies on the die, or fewest
resident hands; then the lowest index. -/
def State.coreKey (s : State) (aff : Option Nat) (core : Nat) : Nat :=
  (match aff.filter fun pa => paDie pa == dieOf core with
    | some pa => hops (core % Config.coresPerDie / Config.coresPerCluster) (paChan pa / 8)
    | none => ((s.residents core noneGone).map (·.hands)).foldl (· + ·) 0) * 1024 + core

/-- R62, R70: the message that the core starts next: the first, or in replay the one that the trace gives. -/
def State.nextMsg (s : State) (core : Nat) : Option (Nat × Msg) :=
  let ms := (s.core core).msgs
  match ms with
  | [] => none
  | m :: _ =>
    match s.launch? m.part m.launch with
    | some l =>
      if l.dmode = 2 then
        match l.nextEnt core with
        | some e => if e.kind = 1 then
            (ms.findIdx? fun x => x.card.w5 == e.lid && x.launch == m.launch && x.part == m.part).bind fun i =>
              ms[i]?.map fun x => (i, x)
          else none
        | none => none
      else some (0, m)
    | none => some (0, m)

/-- R62, R64: may the card of this number take the core now: it is not held for another card, and no message that the
core could start is its next. `ahead`: a resumption in replay goes before every message, whose start the trace orders (R67). -/
def State.openCore (s : State) (d : Die) (card : Nat) (ahead : Bool) (core : Nat) : Bool :=
  !(d.heldFor.any fun x => x.2 == core && x.1 != card) &&
    (match s.nextMsg core with
      | none => true
      | some (_, m) => match s.launch? m.part m.launch with
        | some l => (ahead && l.dmode == 2) || (s.fits core noneGone true (needOf l.record m.card)).isNone
        | none => true)

/-- The partition's cores of a die. -/
def State.coresOn (s : State) (p die : Nat) : List Nat :=
  (idxs Config.coresPerDie fun i => (s.part p).hasCore (die * Config.coresPerDie + i)).map (die * Config.coresPerDie + ·)

/-- The cores and plans of the teams of a card, in ascending LID. -/
abbrev Places := List (Nat × Plan)

/-- R55: a gang: the cluster that its first team chooses among those with enough cores; its lowest cores. (DEDUCED, log 47.) -/
def gangPlaces (cores : List Nat) (key : Nat → Nat) (fit : Nat → Option Plan) (n : Nat) : Option Places :=
  let can := cores.filter fun c => (fit c).isSome
  let mates (c : Nat) : List Nat := can.filter fun x => clusterOf x == clusterOf c
  (minBy key (can.filter fun c => decide (n ≤ (mates c).length))).map fun c =>
    ((mates c).take n).flatMap fun x => match fit x with | some p => [(x, p)] | none => []

/-- R55: one team. -/
def onePlace (cores : List Nat) (key : Nat → Nat) (fit : Nat → Option Plan) : Option Places :=
  (minBy key (cores.filter fun c => (fit c).isSome)).bind fun c => (fit c).map fun p => [(c, p)]

/-- The teams of a card, each by LID and grid index, or of a saved gang. -/
structure Seat where
  lid : Dword
  n : Nat
  x : Half
  y : Half
  z : Half
  lix : List Nat

/-- R43, R50: the teams that a card starts. -/
def seatsOf (r : LaunchRec) (c : Card) : List Seat :=
  if c.root then
    (List.range (if c.level = 3 then r.s3 else 1)).map fun j =>
      let n := c.w5.toNat + j
      ⟨BitVec.ofNat 64 n, n, BitVec.ofNat 16 (n % r.gx), BitVec.ofNat 16 (n / r.gx % r.gy),
        BitVec.ofNat 16 (n / r.gx / r.gy), lixOf r n⟩
  else
    let n := linear r c.x c.y c.z
    [⟨c.w5, n, c.x, c.y, c.z, lixOf r n⟩]

/-- The empty share of a placed team: what it held before is gone (R342; DESIGN CHOICE, log 2). -/
def State.clearShare (s : State) (core sbase share : Nat) : State :=
  if share = 0 then s else s.updCore core fun c => { c with spad := c.spad.drop sbase (sbase + share) }

/-- A team on its core, before it starts. -/
def newTeam (l : Launch) (c : Card) (id : Nat) (x : Seat) (core : Nat) (p : Plan) (gang : Option Nat) (st : TeamSt) : Team :=
  { id, part := l.part, launch := l.handle, card := c, lid := x.lid, n := x.n, x := x.x, y := x.y, z := x.z, lix := x.lix,
    st, core, sbase := p.sbase, share := (needOf l.record c).share, spad := if c.am then 0 else l.record.spad,
    depth := p.depth, hands := handsOfThreads c.threads, threads := c.threads, quads := p.quads,
    acc := (needOf l.record c).acc, accPhys := p.accPhys, gang, joined := c.am }

/-- Put the teams of a card on their cores (R56). -/
def State.seat (l : Launch) (c : Card) (gang : Option Nat) : List (Seat × Nat × Plan) → State → State
  | [], s => s
  | (x, core, p) :: r, s =>
    let (id, s) := s.fresh
    let t := newTeam l c id x core p gang .placed
    let s := ({ s with teams := s.teams ++ [t] }.clearShare core p.sbase t.share).tracePlace l.part l.handle core 0 x.lid
    State.seat l c gang r s

/-! ### The pop (R54) -/

/-- R67: the traced core of each team, when all are next on theirs. -/
def tracedCores (l : Launch) : List Seat → Option (List Nat)
  | [] => some []
  | x :: r => (l.traced 0 x.lid).bind fun c => (tracedCores l r).map fun t => c :: t

/-- The first card of each launch in a list of cards with their index. -/
def headCards : List (Nat × DealCard) → List (Nat × Nat) → List (Nat × DealCard)
  | [], _ => []
  | (i, c) :: r, seen =>
    if seen.contains (c.part, c.launch) then headCards r seen
    else (i, c) :: headCards r ((c.part, c.launch) :: seen)

/-- Is the card's launch in replay? -/
def State.replays (s : State) (c : DealCard) : Bool :=
  match s.launch? c.part c.launch with | some l => l.dmode == 2 | none => false

/-- R67: is the card, in replay, one whose teams are all next on their cores, or one that has no entry? -/
def State.isNext (s : State) (c : DealCard) : Bool :=
  s.replays c && c.resume.isNone && (match s.launch? c.part c.launch with
    | some l =>
      let seats := seatsOf l.record c.card
      seats.any (fun x => l.untraced 0 x.lid) || (tracedCores l seats).isSome
    | none => false)

/-- The head cards of a die's deal queues, with their index: the oldest of each launch. A launch in replay has two: its oldest
resumption (R67), and the oldest card that its trace has next, wherever it stands, so that no card waits for one behind it (R65, R68). -/
def State.heads (s : State) (d : Die) : List (Nat × DealCard) :=
  let l := d.deal.mapIdx fun i c => (i, c)
  let early (x : Nat × DealCard) : Bool := x.2.resume.isSome && s.replays x.2
  headCards (l.filter early) [] ++ headCards (l.filter (fun x => s.isNext x.2) ++ l.filter fun x => !early x && !s.isNext x.2) []

/-- R54: the class at which a head card is served. -/
def State.classOf (s : State) (c : DealCard) : Nat := if c.since + Config.agingCycles ≤ s.cyc then 7 else c.prio

/-- R54: classes from the highest; within one, launches in ascending handle after the one last served, and of equal handles in
ascending partition (DESIGN CHOICE, log 66). -/
def State.popKey (s : State) (d : Die) (c : DealCard) : Nat :=
  let k := c.launch * 16 + c.part
  let turn := match d.lastServed with
    | some (p, h) => (k + 2 ^ 36 - (h * 16 + p) - 1) % 2 ^ 36
    | none => k
  (7 - s.classOf c) * 2 ^ 36 + turn

/-- The head cards in the dealer's order. -/
def State.headOrder (s : State) (d : Die) : List (Nat × DealCard) :=
  sortBy (fun (a b : Nat × DealCard) => s.popKey d a.2 ≤ s.popKey d b.2) (s.heads d)

/-- The cards that are popped with a card: itself, or those of its saved gang. -/
def DealCard.goes (c x : DealCard) : Bool :=
  x.id == c.id || (c.gang.isSome && x.resume.isSome && x.part == c.part && x.launch == c.launch && x.gang == c.gang)

/-- Take a card out of a die's deal queue, with those popped with it; when it was the head of its launch, the next card becomes that. -/
def dropCard (cyc i : Nat) (c : DealCard) (l : List DealCard) : List DealCard :=
  let mine (x : DealCard) : Bool := x.part == c.part && x.launch == c.launch
  let first := !(l.take i).any mine
  let l := (l.eraseIdx i).filter fun x => !c.goes x
  match l.findIdx? mine with
  | some j => if first then setAt l j fun c => { c with since := cyc } else l
  | none => l

/-- The team header of a section, and its card: what a restore needs of a core (R387, R391). -/
def sectionNeed (ws : List Dword) (acc : Nat) : Need :=
  let h := ws.getD 9 0
  { hands := fld h 63 56, depth := 32 * (fld h 55 54 + 1), fixed := true, share := fld h 31 0, acc }

/-- What trying to place a card comes to. -/
inductive Try
  | placed (s : State)
  | failed (s : State)
  | stays

/-- Plans on given cores, one a team. -/
def plansOn (fit : Nat → Option Plan) : List Nat → Option Places
  | [] => some []
  | c :: r => (fit c).bind fun p => (plansOn fit r).map fun t => (c, p) :: t

/-- R391: could some core of the partition, or some cluster, take the card's teams when empty? -/
def State.everFits (s : State) (p : Nat) (n : Need) (teams : Nat) : Bool :=
  let can (c : Nat) : Bool := (s.part p).hasCore c && (s.fits c (fun _ => true) false n).isSome
  (List.range 64).any fun k => decide (teams ≤ ((List.range 6).filter fun i => can (6 * k + i)).length)

/-- R54, R55, R67: place a card that is not a resumption. -/
def State.placeCard (s : State) (die : Nat) (d : Die) (l : Launch) (c : DealCard) : Try :=
  let n := needOf l.record c.card
  let seats := seatsOf l.record c.card
  let fail (cause : Nat) : Try := .failed (s.failL c.part c.launch { cause })
  let openTo (x : Nat) : Option Plan := if s.openCore d c.id false x then s.fits x noneGone true n else none
  let places : Option Places :=
    if s.traceWaits l seats.length then none else
    if l.dmode = 2 then (tracedCores l seats).bind (plansOn openTo)
    else
      let key := s.coreKey (s.affinity l.pasid c.part c.card.aff)
      if c.card.level = 3 then gangPlaces (s.coresOn c.part die) key openTo seats.length
      else onePlace (s.coresOn c.part die) key openTo
  if l.dmode = 2 && seats.any (fun x => l.untraced 0 x.lid) then fail 0x16
  else match places with
    | some ps =>
      let gang := if c.card.level = 3 then some c.card.w5.toNat else none
      .placed (State.seat l c.card gang (List.zip seats ps) s)
    | none => if s.everFits c.part n seats.length then .stays else fail 0x1C

/-- R390: the teams that are placed with a resumption card: its own, or those of its saved gang, in ascending LID. -/
def State.resumeTeams (s : State) (c : DealCard) : List Nat :=
  match c.gang with
  | some g =>
    (sortBy (fun (a b : Team) => a.lid.toNat ≤ b.lid.toNat)
      ((s.teamsOf c.part c.launch).filter fun t => t.st == .saved && t.gang == some g)).map (·.id)
  | none => [c.team]

/-- Put saved teams on their cores; TEAM_RESTORE reads their sections (R390). -/
def State.reseat (s : State) : List (Nat × Nat × Plan) → State
  | [] => s
  | (id, core, p) :: r =>
    ((s.updTeam id fun t => { t with
        st := .restoring, core, sbase := p.sbase, quads := p.quads, accPhys := p.accPhys, depth := p.depth
        share := t.share }).clearShare core p.sbase (match s.team? id with | some t => t.share | none => 0)).reseat r

/-- Read a section's card and header. -/
def State.sectionHead (s : State) (l : Launch) (va : Nat) : Except (Option Flt) (List Dword) × State :=
  match s.vread l.pasid va 128 with
  | (.ok bs, s) => (.ok (dwords bs), s)
  | (.error c, s) => (.error c, s)

/-- R387: the ACC banks of a section's team. -/
def accOf (l : Launch) (c : Card) : Nat := if c.am then 0 else l.record.acc

/-- A section of an image, at `va` and with this LID, becomes a saved team (R390 step 4); its indices come from its card (R43). -/
def State.adopt (s : State) (l : Launch) (va : Nat) (lid : Dword) (ws : List Dword) : Nat × State :=
  let card := cardOf ws
  let n := sectionNeed ws (accOf l card)
  let gang := if card.level = 3 then some card.w5.toNat else none
  let k := if card.root then lid.toNat else linear l.record card.x card.y card.z
  let r := l.record
  let seat : Seat :=
    if card.root then ⟨lid, k, BitVec.ofNat 16 (k % r.gx), BitVec.ofNat 16 (k / r.gx % r.gy), BitVec.ofNat 16 (k / r.gx / r.gy), lixOf r k⟩
    else ⟨lid, k, card.x, card.y, card.z, lixOf r k⟩
  let (id, s) := s.fresh
  let t := newTeam l card id seat 0 ⟨[], 0, [], n.depth⟩ gang .saved
  (id, { s with teams := s.teams ++ [{ t with section_ := va, share := n.share, hands := n.hands }] })

/-- R390, R391: what each section of a resumption card needs, in the order of its teams. -/
def sectionNeeds (l : Launch) : List Nat → State → Except (Option Flt) (List Need) × State
  | [], s => (.ok [], s)
  | id :: r, s =>
    match s.sectionHead l (match s.team? id with | some t => t.section_ | none => 0) with
    | (.error e, s) => (.error e, s)
    | (.ok ws, s) =>
      let n := sectionNeed ws (accOf l (cardOf ws))
      if n.hands = 0 ∨ 64 < n.hands ∨ Config.sliceBytes < n.share then (.error (some { cause := 1 }), s)
      else match sectionNeeds l r s with
        | (.ok ns, s) => (.ok (n :: ns), s)
        | x => x

/-- What every one of them fits with: a core that takes this takes each. -/
def needMax (ns : List Need) : Need :=
  ns.foldl (fun a b => ⟨max a.hands b.hands, max a.depth b.depth, true, max a.share b.share, max a.acc b.acc⟩) ⟨0, 0, true, 0, 0⟩

/-- Where the teams of a resumption card can go: one to a core; a gang to a cluster (R55), each with its own need. -/
def State.resumePlaces (s : State) (die : Nat) (l : Launch) (c : DealCard) (fit : Nat → Need → Option Plan) (ns : List Need) :
    Option Places :=
  let n := needMax ns
  let key := s.coreKey (s.affinity l.pasid c.part c.card.aff)
  if c.gang.isNone then onePlace (s.coresOn c.part die) key fun x => fit x n
  else (gangPlaces (s.coresOn c.part die) key (fun x => fit x n) ns.length).map fun ps =>
    (List.zip ps ns).map fun x => (x.1.1, (fit x.1.1 x.2).getD x.1.2)

/-- R64, R390, R67: place a resumption card, with those of its gang. In replay it goes to any core that can take it, as without D mode. -/
def State.placeResume (s : State) (die : Nat) (d : Die) (l : Launch) (c : DealCard) : Try :=
  let ids := s.resumeTeams c
  match sectionNeeds l ids s with
  | (.error none, _) => .stays
  | (.error (some cause), s) => .failed (s.failL c.part c.launch cause)
  | (.ok ns, s) =>
    let open_ := s.openCore d c.id true
    match s.resumePlaces die l c (fun x n => if open_ x then s.fits x noneGone true n else none) ns with
    | none => if s.everFits c.part (needMax ns) ns.length then .stays else .failed (s.failL c.part c.launch { cause := 0x1C })
    | some ps => .placed (s.reseat (List.zip ids ps))

/-- Is DUMP saving the launch (R403)? -/
def State.dumping (s : State) (p h : Nat) : Bool :=
  s.queues.any fun q => q.part == p && q.cmds.any fun c => c.cmd == 5 && c.launch == h && c.status.isNone

/-- R54: try the head cards in order; the first that can be placed is popped, within the dealer's budget (R340). No card
of a launch that DUMP saves is placed (R403). -/
def popFirst (die : Nat) (d : Die) : List (Nat × DealCard) → State → State
  | [], s => s
  | (i, c) :: r, s =>
    match s.launch? c.part c.launch with
    | none => popFirst die d r s
    | some l =>
      if !s.inBudget actDealer die c.part 1 capDealer || l.st != .live || s.dumping c.part c.launch then popFirst die d r s
      else match (if c.resume.isSome then s.placeResume die d l c else s.placeCard die d l c) with
        | .stays => popFirst die d r s
        | .failed s => s
        | .placed s =>
          (s.countUnits actDealer die c.part 1).updDie die fun x =>
            { x with
              deal := dropCard s.cyc i c x.deal
              lastServed := some (c.part, c.launch)
              heldFor := x.heldFor.filter fun y => !(x.deal.any fun z => c.goes z && z.id == y.1) }

/-- DEALER_POP (R54, R55, R67, R391). -/
def execDealerPop (die : Nat) (s : State) : Out :=
  match s.die? die with
  | none => .next s
  | some d => .next (popFirst die d (s.headOrder d) s)

/-- CARD_AGED (R54): a card that has waited 2^23 cycles at the head of its queue is served as class 7. -/
def execCardAged (die index : Nat) (s : State) : Out :=
  match s.die? die with
  | none => .next s
  | some d =>
    if (s.heads d).any fun x => x.1 == index && decide (x.2.since + Config.agingCycles ≤ s.cyc) then
      .next (s.updDie die fun d => { d with deal := setAt d.deal index fun c => { c with prio := 7 } })
    else .next s

/-! ### Due teams (R64, R379) -/

/-- R379: every unretired thread is parked or fault-parked, and one is fault-parked. -/
def State.allFaultParked (s : State) (t : Nat) : Bool :=
  let ths := ((s.handsOf t).flatMap (·.threads)).filter fun x => x.st != .retired
  ths.all (fun x => x.st == .parked || x.st == .faultParked) && ths.any fun x => x.st == .faultParked

/-- Is the team due: it has run its quantum since its last placement, asked for it (R220), or only waits for a fault? -/
def State.isDue (s : State) (t : Team) : Bool :=
  t.due || decide (t.rcyc0 + Config.quantum ≤ t.rcyc) || s.allFaultParked t.id

/-- TEAM_DUE (R64, R379). -/
def execTeamDue (team : Nat) (s : State) : Out :=
  match s.team? team with
  | none => .next s
  | some t => if t.st == .running && s.isDue t then .next (s.makeDue team) else .next s

/-- The teams that leave together: a gang as a whole (R64). -/
def State.mates (s : State) (t : Team) : List Team :=
  match t.gang with
  | none => [t]
  | some g => s.teams.filter fun x => x.resident && x.part == t.part && x.launch == t.launch && x.gang == some g

/-- R64, R68: would the departure of `out` alone let its core, or its cluster, take the waiting card? In replay a traced card goes to
no core but its own. -/
def State.freesFor (s : State) (die : Nat) (d : Die) (l : Launch) (c : DealCard) (out : List Team) : Bool :=
  let gone (id : Nat) : Bool := out.any fun t => t.id == id
  let near (x : Nat) : Bool := out.any fun t => if c.card.level = 3 then clusterOf t.core == clusterOf x else t.core == x
  let fit (ahead : Bool) (x : Nat) (n : Need) : Option Plan :=
    if near x && s.openCore d c.id ahead x then s.fits x gone true n else none
  if c.resume.isSome then
    match (sectionNeeds l (s.resumeTeams c) s).1 with
    | .ok ns => (s.resumePlaces die l c (fit true) ns).isSome
    | .error _ => false
  else
    let n := needOf l.record c.card
    let seats := seatsOf l.record c.card
    if l.dmode = 2 then ((tracedCores l seats).bind (plansOn fun x => fit false x n)).isSome
    else if c.card.level = 3 then (gangPlaces (s.coresOn c.part die) id (fun x => fit false x n) seats.length).isSome
    else (onePlace (s.coresOn c.part die) id fun x => fit false x n).isSome

/-- R64: is a team being saved for the card? -/
def State.savingFor (s : State) (d : Die) (c : DealCard) : Bool :=
  d.heldFor.any fun x => x.1 == c.id && s.teams.any fun t => t.core == x.2 && t.st == .saving

/-- R64: the team that the dealer of a die saves for the first head card that it cannot place: due, of the same
partition, of a class not above the card's, whose departure alone makes room; a gang for a gang. The earliest residency start, then
the lowest core. -/
def State.victimOf (s : State) (die : Nat) (d : Die) (c : DealCard) : Option Team :=
  match s.launch? c.part c.launch with
  | none => none
  | some l =>
    let placed := match (if c.resume.isSome then s.placeResume die d l c else s.placeCard die d l c) with
      | .stays => false
      | _ => true
    if s.savingFor d c || placed || l.st != .live then none
    else
      let cand (t : Team) : Bool := t.st == .running && t.part == c.part && dieOf t.core == die
        && decide (s.prioOf t.part t.launch ≤ s.classOf c) && s.isDue t
        && (c.card.level != 3 || t.gang.isSome) && s.freesFor die d l c (if c.card.level = 3 then s.mates t else [t])
      minBy (fun t => t.placeAt * 1024 + t.core) (s.teams.filter cand)

/-- The victim of a die, with the card that waits for it. A card that the trace of a replay has next comes before the resumptions of its
launch, which could else take the room of every team saved (R68; DESIGN CHOICE, log 71). -/
def State.victim (s : State) (die : Nat) : Option (Team × DealCard) :=
  match s.die? die with
  | none => none
  | some d =>
    let l := s.headOrder d
    let early (x : Nat × DealCard) : Bool := x.2.resume.isSome && s.replays x.2 &&
      l.any fun y => y.2.resume.isNone && y.2.part == x.2.part && y.2.launch == x.2.launch
    (l.filter (fun x => !early x) ++ l.filter early).findSome? fun x => (s.victimOf die d x.2).map fun t => (t, x.2)

end Sys2Proof.Machine
end

