-- ==== Sys2Proof/Decode.lean ====
section
/-! DEFINITION. The decoder: from an instruction word (and its extension) to an instruction, by R195 to R206,
total, with the failing check of R207 named; after it the encoder, from the same tables. -/

namespace Sys2Proof

/-- Why a word is no instruction (R207 checks 1, 3 and 4; each raises Illegal-Instruction). -/
inductive DecodeErr
  | unassigned   -- check 1: OP is 0x00, 0x01 in a body, or unassigned (R205)
  | form         -- check 3: U, PR[2] and the mnemonic's forms
  | reserved     -- check 4: a reserved field or code
  deriving DecidableEq, Repr

/-- Word 0 in R-format (R196) with the extension word of a long form. -/
structure Raw where
  op : BitVec 8
  h : Hdr
  d : BitVec 7
  a : BitVec 7
  b : BitVec 7
  c : BitVec 7
  sub : BitVec 6
  t : BitVec 4
  md : BitVec 8
  ext : Dword
  deriving DecidableEq, Repr

/-- OP 0xC0 to 0xFF are two-word long forms (R195). -/
def isLong (op : BitVec 8) : Bool := decide (0xC0 ≤ op.toNat)

/-- The fields of word 0 (R196); a one-word form has no extension. -/
def Raw.ofWords (w ext : Dword) : Raw :=
  let op := w.extractLsb' 56 8
  let h : Hdr := ⟨w.getLsbD 55, w.getLsbD 54, w.getLsbD 53, w.extractLsb' 50 3, w.extractLsb' 46 4⟩
  ⟨op, h, w.extractLsb' 39 7, w.extractLsb' 32 7, w.extractLsb' 25 7, w.extractLsb' 18 7, w.extractLsb' 12 6,
    w.extractLsb' 8 4, w.extractLsb' 0 8, if isLong op then ext else 0#64⟩

/-- Word 0 put together from its fields (R196). -/
def Raw.word (r : Raw) : Dword :=
  r.op ++ BitVec.ofBool r.h.u ++ BitVec.ofBool r.h.sw ++ BitVec.ofBool r.h.pn ++ r.h.pr ++ r.h.hint ++ r.d ++ r.a
    ++ r.b ++ r.c ++ r.sub ++ r.t ++ r.md

/-! ### Codes of the fields -/

/-- Specifier of R80. -/
def opnd (x : BitVec 7) : Opnd :=
  let n := x.toNat
  if h1 : n < 0x1F then .g ⟨n, h1⟩
  else if n = 0x1F then .gz
  else if h2 : n < 0x40 then .k ⟨n - 0x20, by omega⟩
  else if h3 : n < 0x48 then .a ⟨n - 0x40, by omega⟩
  else if h4 : n < 0x50 then .x ⟨n - 0x48, by omega⟩
  else if h5 : n < 0x60 then .rsv ⟨n - 0x50, by omega⟩
  else .imm ⟨n - 0x60, by have h6 : n < 2 ^ 7 := x.isLt; omega⟩

/-- The specifier's code (R80). -/
def Opnd.code : Opnd → BitVec 7
  | .g n => BitVec.ofNat 7 n
  | .gz => 0x1F#7
  | .k n => BitVec.ofNat 7 (0x20 + n)
  | .a n => BitVec.ofNat 7 (0x40 + n)
  | .x n => BitVec.ofNat 7 (0x48 + n)
  | .rsv n => BitVec.ofNat 7 (0x50 + n)
  | .imm v => BitVec.ofNat 7 (0x60 + v)

/-- Predicate specifier of R201. -/
def popnd (x : BitVec 7) : POpnd :=
  let n := x.toNat
  if h1 : n < 8 then .p ⟨n, h1⟩
  else if h2 : n < 0x0C then .q ⟨n - 8, by omega⟩
  else .rsv ⟨n - 0x0C, by have h3 : n < 2 ^ 7 := x.isLt; omega⟩

/-- The predicate specifier's code (R201). -/
def POpnd.code : POpnd → BitVec 7
  | .p n => BitVec.ofNat 7 n
  | .q n => BitVec.ofNat 7 (8 + n)
  | .rsv n => BitVec.ofNat 7 (0x0C + n)

/-- Type code of R202; 0xE and 0xF are reserved. -/
def tyOf (x : BitVec 4) : Option Ty :=
  match x.toNat with
  | 0x0 => some .i32 | 0x1 => some .z32 | 0x2 => some .i64 | 0x3 => some .z64 | 0x4 => some .i16
  | 0x5 => some .z16 | 0x6 => some .i8 | 0x7 => some .z8 | 0x8 => some .i4 | 0x9 => some .f32
  | 0xA => some .f16 | 0xB => some .bf16 | 0xC => some .e4m3 | 0xD => some .e5m2 | _ => none

/-- The type's code (R202). -/
def Ty.code : Ty → BitVec 4
  | .i32 => 0x0#4 | .z32 => 0x1#4 | .i64 => 0x2#4 | .z64 => 0x3#4 | .i16 => 0x4#4 | .z16 => 0x5#4 | .i8 => 0x6#4
  | .z8 => 0x7#4 | .i4 => 0x8#4 | .f32 => 0x9#4 | .f16 => 0xA#4 | .bf16 => 0xB#4 | .e4m3 => 0xC#4 | .e5m2 => 0xD#4

/-- Compare conditions (R204). -/
def condOf (x : BitVec 6) : Option Cond :=
  match x.toNat with
  | 0 => some .eq | 1 => some .ne | 2 => some .lt | 3 => some .le | 4 => some .gt | 5 => some .ge | 6 => some .num
  | 7 => some .nan | _ => none
def Cond.code : Cond → BitVec 6
  | .eq => 0#6 | .ne => 1#6 | .lt => 2#6 | .le => 3#6 | .gt => 4#6 | .ge => 5#6 | .num => 6#6 | .nan => 7#6

/-- Atomic, reduction and REDUX operations (R204). -/
def redOf (x : BitVec 6) : Option RedOp :=
  match x.toNat with
  | 0 => some .add | 1 => some .min | 2 => some .max | 3 => some .and | 4 => some .or | 5 => some .xor
  | 6 => some .xchg | 7 => some .cadd | _ => none
def RedOp.code : RedOp → BitVec 6
  | .add => 0#6 | .min => 1#6 | .max => 2#6 | .and => 3#6 | .or => 4#6 | .xor => 5#6 | .xchg => 6#6 | .cadd => 7#6

/-- PSET's operations (R234). -/
def psetOf (x : BitVec 6) : Option PsetOp :=
  match x.toNat with
  | 3 => some .and | 4 => some .or | 5 => some .xor | _ => none
def PsetOp.code : PsetOp → BitVec 6
  | .and => 3#6 | .or => 4#6 | .xor => 5#6

/-- SHFL's modes (R204). -/
def shflOf (x : BitVec 6) : Option ShflMode :=
  match x.toNat with
  | 0 => some .idx | 1 => some .up | 2 => some .down | 3 => some .bfly | _ => none
def ShflMode.code : ShflMode → BitVec 6
  | .idx => 0#6 | .up => 1#6 | .down => 2#6 | .bfly => 3#6

/-- VOTE's modes (R204). -/
def voteOf (x : BitVec 6) : Option VoteMode :=
  match x.toNat with
  | 0 => some .all | 1 => some .any | 2 => some .uni | _ => none
def VoteMode.code : VoteMode → BitVec 6
  | .all => 0#6 | .any => 1#6 | .uni => 2#6

/-- Twin formats in SUB (R202). -/
def twinOf (x : BitVec 6) : Option Twin :=
  match x.toNat with
  | 0 => some .te8 | 1 => some .te6 | 2 => some .te4 | _ => none
def Twin.code : Twin → BitVec 6
  | .te8 => 0#6 | .te6 => 1#6 | .te4 => 2#6

/-- Slide codes (R197); 0b00 is reserved. -/
def slideOf (x : BitVec 6) : Option Slide :=
  match x.toNat with
  | 1 => some .s8 | 2 => some .s16 | 3 => some .s24 | _ => none
def Slide.code : Slide → BitVec 6
  | .s8 => 1#6 | .s16 => 2#6 | .s24 => 3#6

/-- Rounding selectors (R203). -/
def rndOf (x : BitVec 2) : Rnd :=
  match x.toNat with
  | 0 => .dflt | 1 => .rz | 2 => .ru | _ => .rd
def Rnd.code : Rnd → BitVec 2
  | .dflt => 0#2 | .rz => 1#2 | .ru => 2#2 | .rd => 3#2

/-- Orders (R203). -/
def ordOf (x : BitVec 2) : Ord :=
  match x.toNat with
  | 0 => .plain | 1 => .rlx | 2 => .acq | _ => .rel
def Ord.code : Ord → BitVec 2
  | .plain => 0#2 | .rlx => 1#2 | .acq => 2#2 | .rel => 3#2

/-- Scopes (R203); 6 and 7 are reserved. -/
def scopeOf (x : BitVec 3) : Option Scope :=
  match x.toNat with
  | 0 => some .h | 1 => some .c | 2 => some .g | 3 => some .d | 4 => some .p | 5 => some .s | _ => none
def Scope.code : Scope → BitVec 3
  | .h => 0#3 | .c => 1#3 | .g => 2#3 | .d => 3#3 | .p => 4#3 | .s => 5#3

/-- ORD and SCOPE of MOD (R203). -/
def memModOf (x : BitVec 8) : Option MemMod :=
  match scopeOf (x.extractLsb' 3 3) with
  | some s => some ⟨ordOf (x.extractLsb' 6 2), s⟩
  | none => none
def MemMod.code (m : MemMod) (low : BitVec 3) : BitVec 8 := m.ord.code ++ m.scope.code ++ low

/-- MOD[2], the space of an atomic (R263). -/
def spaceOf (b : Bool) : Space := if b then .spad else .glob
def Space.code : Space → Bool
  | .glob => false | .spad => true

/-- The ENGINE extension (R198); its bits [57:32] are reserved. -/
def engOf (x : Dword) : Option EngExt :=
  if x.extractLsb' 32 26 = 0#26 then
    match scopeOf (x.extractLsb' 58 3) with
    | some s => some ⟨x.extractLsb' 61 3, s, x.extractLsb' 0 32⟩
    | none => none
  else none
def EngExt.code (e : EngExt) : Dword := e.queue ++ e.scope.code ++ 0#26 ++ e.tag

/-- MC (R198); 0b11 is reserved. -/
def rowsOf (x : BitVec 2) : Option Rows :=
  match x.toNat with
  | 0 => some .r16 | 1 => some .r32 | 2 => some .r64 | _ => none
def Rows.code : Rows → BitVec 2
  | .r16 => 0#2 | .r32 => 1#2 | .r64 => 2#2
/-- The number of rows M (R198). -/
def Rows.num : Rows → Nat
  | .r16 => 16 | .r32 => 32 | .r64 => 64

/-- The MATRIX extension (R198); its bits [37:32] are reserved. -/
def matOf (x : Dword) : Option MatExt :=
  if x.extractLsb' 32 6 = 0#6 then
    match rowsOf (x.extractLsb' 62 2) with
    | some m => some ⟨m, x.extractLsb' 56 6, x.extractLsb' 50 6, x.extractLsb' 46 4, x.extractLsb' 38 8, x.extractLsb' 0 32⟩
    | none => none
  else none
def MatExt.code (e : MatExt) : Dword := e.mc.code ++ e.nq ++ e.kc ++ e.kf ++ e.bank ++ 0#6 ++ e.tag

/-- IMM32 and DISP: bits [63:32] are reserved (R198). -/
def immOf (x : Dword) : Option Word := if x.extractLsb' 32 32 = 0#32 then some (x.extractLsb' 0 32) else none
def immCode (x : Word) : Dword := 0#32 ++ x
/-- CONT: bits [63:22] are reserved (R198). -/
def contOf (x : Dword) : Option (BitVec 22) :=
  if x.extractLsb' 22 42 = 0#42 then some (x.extractLsb' 0 22) else none
def contCode (x : BitVec 22) : Dword := 0#42 ++ x

/-- OFFSET of a J-format word: bits [45:24], that is D, A and B[31:24 of the word] (R197). -/
def Raw.joff (r : Raw) : BitVec 22 := (r.d ++ r.a ++ r.b ++ r.c).extractLsb' 6 22
/-- Bits [23:18] of a J-format word (R197), reserved. -/
def Raw.jres (r : Raw) : BitVec 6 := r.c.extractLsb' 0 6

/-! ### The rows of the opcode map (R205) -/

/-- A row whose reserved fields must hold `ok` (check 4), after check 3, and whose codes are the entry's. -/
def row (r : Raw) (uf : UForm) (ok : Bool) (i : Instr) : Except DecodeErr Instr :=
  if !r.h.ok uf then .error .form
  else if !ok || !i.wf then .error .reserved
  else .ok i
/-- A row with a code that the entry does not list: check 3 still goes first. -/
def bad (r : Raw) (uf : UForm) : Except DecodeErr Instr := if !r.h.ok uf then .error .form else .error .reserved

/-- Row 0x0_ of R205. -/
def decodeRow0 (r : Raw) (lo : Nat) : Except DecodeErr Instr :=
    match lo with
    | 2 => row r .both (r.jres == 0#6 && r.sub == 0#6 && r.t == 0#4 && r.md == 0#8) (.go r.h r.joff)
    | 3 => row r .vecOnly (r.d == 0x1F#7 && r.c == 0x1F#7 && r.sub == 0#6 && r.t == 0#4 && r.md == 0#8) (.got r.h (opnd r.a) (opnd r.b))
    | 4 => match slideOf r.sub with
      | some sl => row r .vecOnly (r.jres == 0#6 && r.t == 0#4 && r.md == 0#8) (.call r.h r.joff sl)
      | _ => bad r .vecOnly
    | 5 => match slideOf r.sub with
      | some sl => row r .vecOnly (r.jres == 0#6 && r.t == 0#4 && r.md == 0#8) (.callt r.h r.joff sl)
      | _ => bad r .vecOnly
    | 6 => row r .vecOnly (r.d == 0x1F#7 && r.a == 0x1F#7 && r.b == 0x1F#7 && r.c == 0x1F#7 && r.sub == 0#6 && r.t == 0#4 && r.md == 0#8) (.ret r.h)
    | 7 => row r .both (r.d == 0x1F#7 && r.a == 0x1F#7 && r.b == 0x1F#7 && r.c == 0x1F#7 && r.sub == 0#6 && r.t == 0#4 && r.md == 0#8) (.exit r.h)
    | 8 => row r .vecOnly (r.jres == 0#6 && r.sub == 0#6 && r.t == 0#4 && r.md == 0#8) (.park r.h r.joff)
    | 9 => row r .both (r.d == 0x1F#7 && r.a == 0x1F#7 && r.b == 0x1F#7 && r.c == 0x1F#7 && r.sub == 0#6 && r.t == 0#4 && r.md == 0#8) (.yield r.h)
    | 10 => row r .both (r.d == 0x1F#7 && r.a == 0x1F#7 && r.b == 0x1F#7 && r.c == 0x1F#7 && r.sub == 0#6 && r.t == 0#4 && r.md == 0#8) (.nop r.h)
    | 11 => row r .vecOnly (r.d == 0x1F#7 && r.b == 0x1F#7 && r.c == 0x1F#7 && r.sub == 0#6 && r.t == 0#4 && r.md == 0#8) (.trap r.h (opnd r.a))
    | 12 => row r .vecOnly (r.d == 0x1F#7 && r.b == 0x1F#7 && r.c == 0x1F#7 && r.sub == 0#6 && r.t == 0#4 && r.md == 0#8) (.sysc r.h (opnd r.a))
    | 13 => row r .vecOnly (r.d == 0x1F#7 && r.a == 0x1F#7 && r.b == 0x1F#7 && r.c == 0x1F#7 && r.sub == 0#6 && r.t == 0#4 && r.md == 0#8) (.tret r.h)
    | _ => .error .unassigned

/-- Row 0x1_ of R205. -/
def decodeRow1 (r : Raw) (lo : Nat) : Except DecodeErr Instr :=
    match lo with
    | 0 => match tyOf r.t with
      | some t => row r .both (r.c == 0x1F#7 && r.sub == 0#6 && r.md == 0#8) (.iadd r.h t (opnd r.d) (opnd r.a) (opnd r.b))
      | _ => bad r .both
    | 1 => match tyOf r.t with
      | some t => row r .both (r.c == 0x1F#7 && r.sub == 0#6 && r.md == 0#8) (.isub r.h t (opnd r.d) (opnd r.a) (opnd r.b))
      | _ => bad r .both
    | 2 => match tyOf r.t with
      | some t => row r .both (r.sub == 0#6 && r.md == 0#8) (.iaddc r.h t (opnd r.d) (opnd r.a) (opnd r.b) (popnd r.c))
      | _ => bad r .both
    | 3 => match tyOf r.t with
      | some t => row r .both (r.sub == 0#6 && r.md == 0#8) (.isubb r.h t (opnd r.d) (opnd r.a) (opnd r.b) (popnd r.c))
      | _ => bad r .both
    | 4 => match tyOf r.t with
      | some t => row r .both (r.c == 0x1F#7 && r.sub == 0#6 && r.md == 0#8) (.imul r.h t (opnd r.d) (opnd r.a) (opnd r.b))
      | _ => bad r .both
    | 5 => match tyOf r.t with
      | some t => row r .both (r.c == 0x1F#7 && r.sub == 0#6 && r.md == 0#8) (.imulh r.h t (opnd r.d) (opnd r.a) (opnd r.b))
      | _ => bad r .both
    | 6 => match tyOf r.t with
      | some t => row r .both (r.sub == 0#6 && r.md == 0#8) (.imad r.h t (opnd r.d) (opnd r.a) (opnd r.b) (opnd r.c))
      | _ => bad r .both
    | 7 => match tyOf r.t with
      | some t => row r .both (r.c == 0x1F#7 && r.sub == 0#6 && r.md == 0#8) (.idiv r.h t (opnd r.d) (opnd r.a) (opnd r.b))
      | _ => bad r .both
    | 8 => match tyOf r.t with
      | some t => row r .both (r.c == 0x1F#7 && r.sub == 0#6 && r.md == 0#8) (.irem r.h t (opnd r.d) (opnd r.a) (opnd r.b))
      | _ => bad r .both
    | 9 => match tyOf r.t with
      | some t => row r .both (r.c == 0x1F#7 && r.sub == 0#6 && r.md == 0#8) (.imin r.h t (opnd r.d) (opnd r.a) (opnd r.b))
      | _ => bad r .both
    | 10 => match tyOf r.t with
      | some t => row r .both (r.c == 0x1F#7 && r.sub == 0#6 && r.md == 0#8) (.imax r.h t (opnd r.d) (opnd r.a) (opnd r.b))
      | _ => bad r .both
    | 11 => match tyOf r.t with
      | some t => row r .both (r.b == 0x1F#7 && r.c == 0x1F#7 && r.sub == 0#6 && r.md == 0#8) (.iabs r.h t (opnd r.d) (opnd r.a))
      | _ => bad r .both
    | 12 => match tyOf r.t with
      | some t => row r .both (r.b == 0x1F#7 && r.c == 0x1F#7 && r.sub == 0#6 && r.md == 0#8) (.ineg r.h t (opnd r.d) (opnd r.a))
      | _ => bad r .both
    | 13 => match tyOf r.t with
      | some t => row r .both (r.sub == 0#6 && r.md == 0#8) (.isel r.h t (opnd r.d) (opnd r.a) (opnd r.b) (popnd r.c))
      | _ => bad r .both
    | 14 => match tyOf r.t, condOf r.sub with
      | some t, some cond => row r .both (r.c == 0x1F#7 && r.md == 0#8) (.icmp r.h t cond (popnd r.d) (opnd r.a) (opnd r.b))
      | _, _ => bad r .both
    | _ => .error .unassigned

/-- Row 0x2_ of R205. -/
def decodeRow2 (r : Raw) (lo : Nat) : Except DecodeErr Instr :=
    match lo with
    | 0 => match tyOf r.t with
      | some t => row r .both (r.c == 0x1F#7 && r.sub == 0#6 && r.md == 0#8) (.and r.h t (opnd r.d) (opnd r.a) (opnd r.b))
      | _ => bad r .both
    | 1 => match tyOf r.t with
      | some t => row r .both (r.c == 0x1F#7 && r.sub == 0#6 && r.md == 0#8) (.or r.h t (opnd r.d) (opnd r.a) (opnd r.b))
      | _ => bad r .both
    | 2 => match tyOf r.t with
      | some t => row r .both (r.c == 0x1F#7 && r.sub == 0#6 && r.md == 0#8) (.xor r.h t (opnd r.d) (opnd r.a) (opnd r.b))
      | _ => bad r .both
    | 3 => match tyOf r.t with
      | some t => row r .both (r.c == 0x1F#7 && r.sub == 0#6 && r.md == 0#8) (.andn r.h t (opnd r.d) (opnd r.a) (opnd r.b))
      | _ => bad r .both
    | 4 => match tyOf r.t with
      | some t => row r .both (r.b == 0x1F#7 && r.c == 0x1F#7 && r.sub == 0#6 && r.md == 0#8) (.not r.h t (opnd r.d) (opnd r.a))
      | _ => bad r .both
    | 5 => match tyOf r.t with
      | some t => row r .both (r.c == 0x1F#7 && r.sub == 0#6 && r.md == 0#8) (.shl r.h t (opnd r.d) (opnd r.a) (opnd r.b))
      | _ => bad r .both
    | 6 => match tyOf r.t with
      | some t => row r .both (r.c == 0x1F#7 && r.sub == 0#6 && r.md == 0#8) (.shr r.h t (opnd r.d) (opnd r.a) (opnd r.b))
      | _ => bad r .both
    | 7 => match tyOf r.t with
      | some t => row r .both (r.c == 0x1F#7 && r.sub == 0#6 && r.md == 0#8) (.sar r.h t (opnd r.d) (opnd r.a) (opnd r.b))
      | _ => bad r .both
    | 8 => match tyOf r.t with
      | some t => row r .both (r.c == 0x1F#7 && r.sub == 0#6 && r.md == 0#8) (.rol r.h t (opnd r.d) (opnd r.a) (opnd r.b))
      | _ => bad r .both
    | 9 => match tyOf r.t with
      | some t => row r .both (r.sub == 0#6 && r.md == 0#8) (.bfx r.h t (opnd r.d) (opnd r.a) (opnd r.b) (opnd r.c))
      | _ => bad r .both
    | 10 => match tyOf r.t with
      | some t => row r .both (r.sub == 0#6 && r.md == 0#8) (.bfi r.h t (opnd r.d) (opnd r.a) (opnd r.b) (opnd r.c))
      | _ => bad r .both
    | 11 => match tyOf r.t with
      | some t => row r .both (r.b == 0x1F#7 && r.c == 0x1F#7 && r.sub == 0#6 && r.md == 0#8) (.popc r.h t (opnd r.d) (opnd r.a))
      | _ => bad r .both
    | 12 => match tyOf r.t with
      | some t => row r .both (r.b == 0x1F#7 && r.c == 0x1F#7 && r.sub == 0#6 && r.md == 0#8) (.clz r.h t (opnd r.d) (opnd r.a))
      | _ => bad r .both
    | 13 => match tyOf r.t with
      | some t => row r .both (r.b == 0x1F#7 && r.c == 0x1F#7 && r.sub == 0#6 && r.md == 0#8) (.ctz r.h t (opnd r.d) (opnd r.a))
      | _ => bad r .both
    | 14 => match tyOf r.t with
      | some t => row r .both (r.b == 0x1F#7 && r.c == 0x1F#7 && r.sub == 0#6 && r.md == 0#8) (.brev r.h t (opnd r.d) (opnd r.a))
      | _ => bad r .both
    | _ => .error .unassigned

/-- Row 0x3_ of R205. -/
def decodeRow3 (r : Raw) (lo : Nat) : Except DecodeErr Instr :=
    match lo with
    | 0 => match tyOf r.t with
      | some t => row r .both (r.b == 0x1F#7 && r.c == 0x1F#7 && r.sub == 0#6 && r.md == 0#8) (.mov r.h t (opnd r.d) (opnd r.a))
      | _ => bad r .both
    | 1 => match psetOf r.sub with
      | some op => row r .both (r.c == 0x1F#7 && r.t == 0#4 && r.md == 0#8) (.pset r.h op (popnd r.d) (popnd r.a) (popnd r.b))
      | _ => bad r .both
    | 2 => row r .uniOnly (r.c == 0x1F#7 && r.sub == 0#6 && r.t == 0#4 && r.md == 0#8) (.amov r.h (opnd r.d) (opnd r.a) (opnd r.b))
    | 3 => row r .uniOnly (r.c == 0x1F#7 && r.sub == 0#6 && r.t == 0#4 && r.md == 0#8) (.aadd r.h (opnd r.d) (opnd r.a) (opnd r.b))
    | 4 => row r .uniOnly (r.c == 0x1F#7 && r.sub == 0#6 && r.t == 0#4 && r.md == 0#8) (.amul r.h (opnd r.d) (opnd r.a) (opnd r.b))
    | 5 => row r .uniOnly (r.b == 0x1F#7 && r.c == 0x1F#7 && r.sub == 0#6 && r.t == 0#4 && r.md == 0#8) (.aget r.h (opnd r.d) (opnd r.a))
    | 6 => row r .uniOnly (r.sub == 0#6 && r.t == 0#4 && r.md == 0#8) (.alea r.h (opnd r.d) (opnd r.a) (opnd r.b) (opnd r.c))
    | 7 => row r .both (r.a == 0x1F#7 && r.b == 0x1F#7 && r.c == 0x1F#7 && r.sub == 0#6 && r.t == 0#4) (.rdsr r.h (opnd r.d) r.md)
    | 8 => row r .both (r.d == 0x1F#7 && r.b == 0x1F#7 && r.c == 0x1F#7 && r.sub == 0#6 && r.t == 0#4)
      (if r.md = 0x21#8 then .wrsrWlo r.h (opnd r.a) else if r.md = 0x16#8 then .wrsrTmr r.h (opnd r.a)
        else if r.md = 0x18#8 then .wrsrHs r.h (opnd r.a) else .wrsr r.h (opnd r.a) r.md)
    | _ => .error .unassigned

/-- Row 0x4_ of R205. -/
def decodeRow4 (r : Raw) (lo : Nat) : Except DecodeErr Instr :=
    match lo with
    | 0 => row r .both (r.c == 0x1F#7 && r.sub == 0#6 && r.t == 9#4 && r.md == 0#8) (.fadd r.h (opnd r.d) (opnd r.a) (opnd r.b))
    | 1 => row r .both (r.c == 0x1F#7 && r.sub == 0#6 && r.t == 9#4 && r.md == 0#8) (.fsub r.h (opnd r.d) (opnd r.a) (opnd r.b))
    | 2 => row r .both (r.c == 0x1F#7 && r.sub == 0#6 && r.t == 9#4 && r.md == 0#8) (.fmul r.h (opnd r.d) (opnd r.a) (opnd r.b))
    | 3 => row r .both (r.sub == 0#6 && r.t == 9#4 && r.md == 0#8) (.ffma r.h (opnd r.d) (opnd r.a) (opnd r.b) (opnd r.c))
    | 4 => row r .both (r.c == 0x1F#7 && r.sub == 0#6 && r.t == 9#4 && r.md == 0#8) (.fmin r.h (opnd r.d) (opnd r.a) (opnd r.b))
    | 5 => row r .both (r.c == 0x1F#7 && r.sub == 0#6 && r.t == 9#4 && r.md == 0#8) (.fmax r.h (opnd r.d) (opnd r.a) (opnd r.b))
    | 6 => match condOf r.sub with
      | some cond => row r .both (r.c == 0x1F#7 && r.t == 9#4 && r.md == 0#8) (.fcmp r.h cond (popnd r.d) (opnd r.a) (opnd r.b))
      | _ => bad r .both
    | 7 => row r .both (r.b == 0x1F#7 && r.c == 0x1F#7 && r.sub == 0#6 && r.t == 9#4 && r.md == 0#8) (.fclass r.h (opnd r.d) (opnd r.a))
    | 8 => row r .both (r.c == 0x1F#7 && r.sub == 0#6 && r.t == 9#4 && r.md == 0#8) (.frnd r.h (opnd r.d) (opnd r.a) (opnd r.b))
    | 9 => row r .both (r.c == 0x1F#7 && r.sub == 0#6 && r.t == 9#4 && r.md == 0#8) (.fscale r.h (opnd r.d) (opnd r.a) (opnd r.b))
    | 10 => row r .both (r.b == 0x1F#7 && r.c == 0x1F#7 && r.sub == 0#6 && r.t == 9#4 && r.md == 0#8) (.frcp r.h (opnd r.d) (opnd r.a))
    | 11 => row r .both (r.b == 0x1F#7 && r.c == 0x1F#7 && r.sub == 0#6 && r.t == 9#4 && r.md == 0#8) (.frsq r.h (opnd r.d) (opnd r.a))
    | 12 => row r .both (r.b == 0x1F#7 && r.c == 0x1F#7 && r.sub == 0#6 && r.t == 9#4 && r.md == 0#8) (.fsqrt r.h (opnd r.d) (opnd r.a))
    | 13 => row r .both (r.b == 0x1F#7 && r.c == 0x1F#7 && r.sub == 0#6 && r.t == 9#4 && r.md == 0#8) (.fexp2 r.h (opnd r.d) (opnd r.a))
    | 14 => row r .both (r.b == 0x1F#7 && r.c == 0x1F#7 && r.sub == 0#6 && r.t == 9#4 && r.md == 0#8) (.flog2 r.h (opnd r.d) (opnd r.a))
    | _ => .error .unassigned

/-- Row 0x5_ of R205. -/
def decodeRow5 (r : Raw) (lo : Nat) : Except DecodeErr Instr :=
    match lo with
    | 0 => row r .both (r.b == 0x1F#7 && r.c == 0x1F#7 && r.sub == 0#6 && r.t == 9#4 && r.md == 0#8) (.fsin r.h (opnd r.d) (opnd r.a))
    | 1 => row r .both (r.b == 0x1F#7 && r.c == 0x1F#7 && r.sub == 0#6 && r.t == 9#4 && r.md == 0#8) (.fcos r.h (opnd r.d) (opnd r.a))
    | 2 => match tyOf r.t with
      | some t => row r .both (r.c == 0x1F#7 && r.sub == 0#6 && r.md == 0#8) (.hadd2 r.h t (opnd r.d) (opnd r.a) (opnd r.b))
      | _ => bad r .both
    | 3 => match tyOf r.t with
      | some t => row r .both (r.c == 0x1F#7 && r.sub == 0#6 && r.md == 0#8) (.hmul2 r.h t (opnd r.d) (opnd r.a) (opnd r.b))
      | _ => bad r .both
    | 4 => match tyOf r.t with
      | some t => row r .both (r.sub == 0#6 && r.md == 0#8) (.hfma2 r.h t (opnd r.d) (opnd r.a) (opnd r.b) (opnd r.c))
      | _ => bad r .both
    | 5 => match tyOf r.t, tyOf (r.md.extractLsb' 4 4) with
      | some t, some src => row r .both (r.b == 0x1F#7 && r.c == 0x1F#7 && r.sub == 0#6 && r.md.extractLsb' 2 2 == 0#2) (.cvt r.h t src (rndOf (r.md.extractLsb' 0 2)) (opnd r.d) (opnd r.a))
      | _, _ => bad r .both
    | 6 => match tyOf r.t, tyOf (r.md.extractLsb' 4 4) with
      | some t, some src => row r .both (r.c == 0x1F#7 && r.sub.extractLsb' 1 5 == 0#5 && r.md.extractLsb' 2 2 == 0#2) (.cvtp r.h t src (rndOf (r.md.extractLsb' 0 2)) (r.sub.getLsbD 0) (opnd r.d) (opnd r.a) (opnd r.b))
      | _, _ => bad r .both
    | 7 => match twinOf r.sub with
      | some tw => row r .vecOnly (r.b == 0x1F#7 && r.c == 0x1F#7 && r.t == 9#4 && r.md == 0#8) (.tspack r.h tw (opnd r.d) (opnd r.a))
      | _ => bad r .vecOnly
    | 8 => match twinOf r.sub with
      | some tw => row r .both (r.c == 0x1F#7 && r.t == 9#4 && r.md == 0#8) (.tsunpack r.h tw (opnd r.d) (opnd r.a) (opnd r.b))
      | _ => bad r .both
    | _ => .error .unassigned

/-- Row 0x6_ of R205. -/
def decodeRow6 (r : Raw) (lo : Nat) : Except DecodeErr Instr :=
    match lo with
    | 0 => match tyOf r.t, shflOf r.sub with
      | some t, some mode => row r .vecOnly (r.c == 0x1F#7 && r.md.extractLsb' 3 5 == 0#5) (.shfl r.h t mode (r.md.extractLsb' 0 3) (opnd r.d) (opnd r.a) (opnd r.b))
      | _, _ => bad r .vecOnly
    | 1 => match voteOf r.sub with
      | some mode => row r .vecOnly (r.b == 0x1F#7 && r.c == 0x1F#7 && r.t == 0#4 && r.md == 0#8) (.vote r.h mode (popnd r.d) (popnd r.a))
      | _ => bad r .vecOnly
    | 2 => row r .vecOnly (r.b == 0x1F#7 && r.c == 0x1F#7 && r.sub == 0#6 && r.t == 0#4 && r.md.extractLsb' 2 6 == 0#6) (.ballot r.h (r.md.extractLsb' 0 2) (opnd r.d) (popnd r.a))
    | 3 => match tyOf r.t, redOf r.sub with
      | some t, some op => row r .vecOnly (r.b == 0x1F#7 && r.c == 0x1F#7 && r.md == 0#8) (.redux r.h t op (opnd r.d) (opnd r.a))
      | _, _ => bad r .vecOnly
    | 4 => match tyOf r.t, redOf r.sub with
      | some t, some op => row r .vecOnly (r.b == 0x1F#7 && r.c == 0x1F#7 && r.md == 0#8) (.scan r.h t op (opnd r.d) (opnd r.a))
      | _, _ => bad r .vecOnly
    | 5 => match tyOf r.t with
      | some t => row r .vecOnly (r.c == 0x1F#7 && r.sub == 0#6 && r.md == 0#8) (.bcast r.h t (opnd r.d) (opnd r.a) (opnd r.b))
      | _ => bad r .vecOnly
    | 6 => match tyOf r.t with
      | some t => row r .vecOnly (r.b == 0x1F#7 && r.c == 0x1F#7 && r.sub == 0#6 && r.md == 0#8) (.matchI r.h t (opnd r.d) (opnd r.a))
      | _ => bad r .vecOnly
    | _ => .error .unassigned

/-- Row 0x7_ of R205. -/
def decodeRow7 (r : Raw) (lo : Nat) : Except DecodeErr Instr :=
    match lo with
    | 0 => match tyOf r.t, memModOf r.md with
      | some t, some m => row r .both (r.b == 0x1F#7 && r.c == 0x1F#7 && r.sub == 0#6 && r.md.extractLsb' 0 3 == 0#3) (.ld r.h t m (opnd r.d) (opnd r.a))
      | _, _ => bad r .both
    | 1 => match tyOf r.t, memModOf r.md with
      | some t, some m => row r .both (r.d == 0x1F#7 && r.c == 0x1F#7 && r.sub == 0#6 && r.md.extractLsb' 0 3 == 0#3) (.st r.h t m (opnd r.a) (opnd r.b))
      | _, _ => bad r .both
    | 2 => match tyOf r.t, memModOf r.md with
      | some t, some m => row r .both (r.b == 0x1F#7 && r.c == 0x1F#7 && r.sub == 0#6 && r.md.extractLsb' 0 3 == 0#3) (.lds r.h t m (opnd r.d) (opnd r.a))
      | _, _ => bad r .both
    | 3 => match tyOf r.t, memModOf r.md with
      | some t, some m => row r .both (r.d == 0x1F#7 && r.c == 0x1F#7 && r.sub == 0#6 && r.md.extractLsb' 0 3 == 0#3) (.sts r.h t m (opnd r.a) (opnd r.b))
      | _, _ => bad r .both
    | 4 => match tyOf r.t with
      | some t => row r .both (r.b == 0x1F#7 && r.c == 0x1F#7 && r.sub.extractLsb' 4 2 == 0#2 && r.md == 0#8) (.ldc r.h t (r.sub.extractLsb' 0 4) (opnd r.d) (opnd r.a))
      | _ => bad r .both
    | 5 => row r .both (r.d == 0x1F#7 && r.b == 0x1F#7 && r.c == 0x1F#7 && r.sub == 0#6 && r.t == 0#4 && r.md.extractLsb' 1 7 == 0#7) (.pref r.h (r.md.getLsbD 0) (opnd r.a))
    | 6 => match tyOf r.t, memModOf r.md, redOf r.sub with
      | some t, some m, some op => row r .both (r.c == 0x1F#7 && r.md.extractLsb' 0 2 == 0#2) (.atom r.h t m (spaceOf (r.md.getLsbD 2)) op (opnd r.d) (opnd r.a) (opnd r.b))
      | _, _, _ => bad r .both
    | 7 => match tyOf r.t, memModOf r.md with
      | some t, some m => row r .both (r.sub == 0#6 && r.md.extractLsb' 0 2 == 0#2) (.atomc r.h t m (spaceOf (r.md.getLsbD 2)) (opnd r.d) (opnd r.a) (opnd r.b) (opnd r.c))
      | _, _ => bad r .both
    | 8 => match tyOf r.t, memModOf r.md, redOf r.sub with
      | some t, some m, some op => row r .both (r.d == 0x1F#7 && r.c == 0x1F#7 && r.md.extractLsb' 0 2 == 0#2) (.red r.h t m (spaceOf (r.md.getLsbD 2)) op (opnd r.a) (opnd r.b))
      | _, _, _ => bad r .both
    | 9 => match scopeOf (r.md.extractLsb' 3 3) with
      | some sc => row r .both (r.d == 0x1F#7 && r.a == 0x1F#7 && r.b == 0x1F#7 && r.c == 0x1F#7 && r.sub == 0#6 && r.t == 0#4 && (r.md.extractLsb' 0 3 == 0#3 && r.md.extractLsb' 6 2 == 1#2)) (.fence r.h sc)
      | _ => bad r .both
    | _ => .error .unassigned

/-- Row 0x8_ of R205. -/
def decodeRow8 (r : Raw) (lo : Nat) : Except DecodeErr Instr :=
    match lo with
    | 0 => row r .both (r.d == 0x1F#7 && r.sub == 0#6 && r.t == 0#4 && r.md == 0#8) (.bari r.h (opnd r.a) (opnd r.b) (opnd r.c))
    | 1 => row r .both (r.d == 0x1F#7 && r.sub == 0#6 && r.t == 0#4 && r.md == 0#8) (.bara r.h (opnd r.a) (opnd r.b) (opnd r.c))
    | 2 => row r .both (r.c == 0x1F#7 && r.sub == 0#6 && r.t == 0#4 && r.md == 0#8) (.bart r.h (popnd r.d) (opnd r.a) (opnd r.b))
    | 3 => row r .uniOnly (r.d == 0x1F#7 && r.c == 0x1F#7 && r.sub == 0#6 && r.t == 0#4 && r.md == 0#8) (.qfence r.h (opnd r.a) (opnd r.b))
    | 4 => row r .both (r.a == 0x1F#7 && r.b == 0x1F#7 && r.c == 0x1F#7 && r.sub == 0#6 && r.t == 0#4 && r.md == 0#8) (.evpop r.h (opnd r.d))
    | _ => .error .unassigned

/-- Row 0x9_ of R205. -/
def decodeRow9 (r : Raw) (lo : Nat) : Except DecodeErr Instr :=
    match lo with
    | 0 => row r .both (r.d == 0x1F#7 && r.b == 0x1F#7 && r.c == 0x1F#7 && r.sub == 0#6 && r.t == 0#4 && r.md == 0#8) (.card r.h (opnd r.a))
    | 1 => if r.sub = 1#6 then row r .both (r.d == 0x1F#7 && r.t == 0#4 && r.md == 0#8) (.joinArm r.h (opnd r.a) (opnd r.b) (opnd r.c))
      else row r .both (r.d == 0x1F#7 && r.b == 0x1F#7 && r.c == 0x1F#7 && r.sub == 0#6 && r.t == 0#4 && r.md == 0#8) (.joinDecrement r.h (opnd r.a))
    | 2 => row r .both (r.c == 0x1F#7 && r.sub == 0#6 && r.t == 0#4 && r.md == 0#8) (.wlapp r.h (opnd r.d) (opnd r.a) (opnd r.b))
    | 3 => row r .both (r.b == 0x1F#7 && r.c == 0x1F#7 && r.sub == 0#6 && r.t == 0#4 && r.md == 0#8) (.wlpop r.h (opnd r.d) (opnd r.a))
    | 4 => row r .both (r.b == 0x1F#7 && r.c == 0x1F#7 && r.sub == 0#6 && r.t == 0#4 && r.md == 0#8) (.qscn r.h (opnd r.d) (opnd r.a))
    | 5 => row r .both (r.d == 0x1F#7 && r.c == 0x1F#7 && r.sub == 0#6 && r.t == 0#4 && r.md == 0#8) (.amsg r.h (opnd r.a) (opnd r.b))
    | 6 => row r .uniOnly (r.c == 0x1F#7 && r.sub == 0#6 && r.t == 0#4 && r.md == 0#8) (.icinv r.h (opnd r.d) (opnd r.a) (opnd r.b))
    | 7 => row r .uniOnly (r.c == 0x1F#7 && r.sub == 0#6 && r.t == 0#4 && r.md == 0#8) (.tlbh r.h (opnd r.d) (opnd r.a) (opnd r.b))
    | _ => .error .unassigned

/-- Row 0xA_ of R205. -/
def decodeRowA (r : Raw) (lo : Nat) : Except DecodeErr Instr :=
    match lo with
    | 0 => row r .both (r.d == 0x1F#7 && r.c == 0x1F#7 && r.sub == 0#6 && r.t == 0#4 && r.md == 0#8) (.mlda r.h (opnd r.a) (opnd r.b))
    | 1 => row r .both (r.d == 0x1F#7 && r.c == 0x1F#7 && r.sub == 0#6 && r.t == 0#4 && r.md == 0#8) (.mldl r.h (opnd r.a) (opnd r.b))
    | 2 => row r .both (r.d == 0x1F#7 && r.c == 0x1F#7 && r.sub == 0#6 && r.t == 0#4 && r.md == 0#8) (.mlds r.h (opnd r.a) (opnd r.b))
    | 3 => if r.sub = 1#6 then row r .both (r.d == 0x1F#7 && r.c == 0x1F#7 && r.t == 0#4 && r.md == 0#8) (.mldpPin r.h (opnd r.a) (opnd r.b))
      else row r .both (r.d == 0x1F#7 && r.c == 0x1F#7 && r.sub == 0#6 && r.t == 0#4 && r.md == 0#8) (.mldpUnpin r.h (opnd r.a) (opnd r.b))
    | 4 => row r .both (r.d == 0x1F#7 && r.c == 0x1F#7 && r.sub == 0#6 && r.t == 0#4 && r.md == 0#8) (.mldv r.h (opnd r.a) (opnd r.b))
    | 5 => row r .both (r.b == 0x1F#7 && r.c == 0x1F#7 && r.sub == 0#6 && r.t == 0#4 && r.md == 0#8) (.mldq r.h (opnd r.d) (opnd r.a))
    | 6 => match tyOf r.t with
      | some t => row r .both (r.b == 0x1F#7 && r.c == 0x1F#7 && r.sub == 0#6 && r.md == 0#8) (.spz r.h t (opnd r.d) (opnd r.a))
      | _ => bad r .both
    | _ => .error .unassigned

/-- Row 0xB_ of R205. -/
def decodeRowB (r : Raw) (lo : Nat) : Except DecodeErr Instr :=
    match lo with
    | 0 => row r .both (r.b == 0x1F#7 && r.c == 0x1F#7 && r.sub == 0#6 && r.t == 0#4 && r.md == 0#8) (.aalc r.h (opnd r.d) (opnd r.a))
    | 1 => row r .both (r.d == 0x1F#7 && r.c == 0x1F#7 && r.sub == 0#6 && r.t == 0#4 && r.md == 0#8) (.afre r.h (opnd r.a) (opnd r.b))
    | 2 => row r .both (r.d == 0x1F#7 && r.c == 0x1F#7 && r.sub == 0#6 && r.t == 0#4 && r.md == 0#8) (.arel r.h (opnd r.a) (opnd r.b))
    | 3 => match tyOf r.t with
      | some t => row r .both (r.c == 0x1F#7 && r.sub == 0#6 && r.md == 0#8) (.ard r.h t (opnd r.d) (opnd r.a) (opnd r.b))
      | _ => bad r .both
    | 4 => match tyOf r.t with
      | some t => row r .both (r.d == 0x1F#7 && r.sub == 0#6 && r.md == 0#8) (.awr r.h t (opnd r.a) (opnd r.b) (opnd r.c))
      | _ => bad r .both
    | 5 => row r .both (r.d == 0x1F#7 && r.c == 0x1F#7 && r.sub == 0#6 && r.t == 0#4 && r.md == 0#8) (.azro r.h (opnd r.a) (opnd r.b))
    | 6 => match tyOf r.t with
      | some t => row r .both (r.d == 0x1F#7 && r.sub.extractLsb' 1 5 == 0#5) (.adrn r.h t (r.sub.getLsbD 0) r.md (opnd r.a) (opnd r.b) (opnd r.c))
      | _ => bad r .both
    | 7 => row r .both (r.sub.extractLsb' 1 5 == 0#5 && r.t == 0#4 && r.md.extractLsb' 6 2 == 0#2) (.drpn r.h (r.sub.getLsbD 0) (r.md.extractLsb' 3 3) (r.md.extractLsb' 0 3) (opnd r.d) (opnd r.a) (opnd r.b) (opnd r.c))
    | 8 => row r .both (r.d == 0x1F#7 && r.c == 0x1F#7 && r.sub == 0#6 && r.t == 0#4 && r.md == 0#8) (.drun r.h (opnd r.a) (opnd r.b))
    | 9 => row r .both (r.d == 0x1F#7 && r.c == 0x1F#7 && r.sub == 0#6 && r.t == 0#4 && r.md == 0#8) (.drsv r.h (opnd r.a) (opnd r.b))
    | 10 => row r .both (r.d == 0x1F#7 && r.sub == 0#6 && r.t == 0#4 && r.md.extractLsb' 4 4 == 0#4) (.delta r.h (r.md.extractLsb' 0 4) (opnd r.a) (opnd r.b) (opnd r.c))
    | _ => .error .unassigned

/-- Row 0xC_ of R205. -/
def decodeRowC (r : Raw) (lo : Nat) : Except DecodeErr Instr :=
    match lo with
    | 0 => match tyOf r.t, immOf r.ext with
      | some t, some imm => row r .both (r.b == 0x1F#7 && r.c == 0x1F#7 && r.sub == 0#6 && r.md == 0#8) (.iaddImm r.h t (opnd r.d) (opnd r.a) imm)
      | _, _ => bad r .both
    | 1 => match tyOf r.t, immOf r.ext with
      | some t, some imm => row r .both (r.b == 0x1F#7 && r.c == 0x1F#7 && r.sub == 0#6 && r.md == 0#8) (.isubImm r.h t (opnd r.d) (opnd r.a) imm)
      | _, _ => bad r .both
    | 2 => match tyOf r.t, immOf r.ext with
      | some t, some imm => row r .both (r.b == 0x1F#7 && r.c == 0x1F#7 && r.sub == 0#6 && r.md == 0#8) (.imulImm r.h t (opnd r.d) (opnd r.a) imm)
      | _, _ => bad r .both
    | 3 => match tyOf r.t, immOf r.ext with
      | some t, some imm => row r .both (r.b == 0x1F#7 && r.c == 0x1F#7 && r.sub == 0#6 && r.md == 0#8) (.iminImm r.h t (opnd r.d) (opnd r.a) imm)
      | _, _ => bad r .both
    | 4 => match tyOf r.t, immOf r.ext with
      | some t, some imm => row r .both (r.b == 0x1F#7 && r.c == 0x1F#7 && r.sub == 0#6 && r.md == 0#8) (.imaxImm r.h t (opnd r.d) (opnd r.a) imm)
      | _, _ => bad r .both
    | 5 => match tyOf r.t, condOf r.sub, immOf r.ext with
      | some t, some cond, some imm => row r .both (r.b == 0x1F#7 && r.c == 0x1F#7 && r.md == 0#8) (.icmpImm r.h t cond (popnd r.d) (opnd r.a) imm)
      | _, _, _ => bad r .both
    | 6 => match tyOf r.t, immOf r.ext with
      | some t, some imm => row r .both (r.b == 0x1F#7 && r.c == 0x1F#7 && r.sub == 0#6 && r.md == 0#8) (.andImm r.h t (opnd r.d) (opnd r.a) imm)
      | _, _ => bad r .both
    | 7 => match tyOf r.t, immOf r.ext with
      | some t, some imm => row r .both (r.b == 0x1F#7 && r.c == 0x1F#7 && r.sub == 0#6 && r.md == 0#8) (.orImm r.h t (opnd r.d) (opnd r.a) imm)
      | _, _ => bad r .both
    | 8 => match tyOf r.t, immOf r.ext with
      | some t, some imm => row r .both (r.b == 0x1F#7 && r.c == 0x1F#7 && r.sub == 0#6 && r.md == 0#8) (.xorImm r.h t (opnd r.d) (opnd r.a) imm)
      | _, _ => bad r .both
    | 9 => match tyOf r.t, immOf r.ext with
      | some t, some imm => row r .both (r.b == 0x1F#7 && r.c == 0x1F#7 && r.sub == 0#6 && r.md == 0#8) (.andnImm r.h t (opnd r.d) (opnd r.a) imm)
      | _, _ => bad r .both
    | 10 => match tyOf r.t, immOf r.ext with
      | some t, some imm => row r .both (r.a == 0x1F#7 && r.b == 0x1F#7 && r.c == 0x1F#7 && r.sub == 0#6 && r.md == 0#8) (.movi r.h t (opnd r.d) imm)
      | _, _ => bad r .both
    | 11 => match tyOf r.t with
      | some t => row r .both (r.a == 0x1F#7 && r.b == 0x1F#7 && r.c == 0x1F#7 && r.sub == 0#6 && r.md == 0#8) (.movw r.h t (opnd r.d) r.ext)
      | _ => bad r .both
    | 12 => row r .uniOnly (r.a == 0x1F#7 && r.b == 0x1F#7 && r.c == 0x1F#7 && r.sub == 0#6 && r.t == 0#4 && r.md == 0#8) (.amovImm r.h (opnd r.d) (r.ext.extractLsb' 0 32) (r.ext.extractLsb' 32 32))
    | 13 => row r .uniOnly (r.b == 0x1F#7 && r.c == 0x1F#7 && r.sub == 0#6 && r.t == 0#4 && r.md == 0#8) (.aaddImm r.h (opnd r.d) (opnd r.a) (r.ext.extractLsb' 0 32) (r.ext.extractLsb' 32 32))
    | 14 => match immOf r.ext with
      | some imm => row r .uniOnly (r.b == 0x1F#7 && r.c == 0x1F#7 && r.sub == 0#6 && r.t == 0#4 && r.md == 0#8) (.amulImm r.h (opnd r.d) (opnd r.a) imm)
      | _ => bad r .uniOnly
    | _ => .error .unassigned

/-- Row 0xD_ of R205. -/
def decodeRowD (r : Raw) (lo : Nat) : Except DecodeErr Instr :=
    match lo with
    | 0 => match immOf r.ext with
      | some imm => row r .both (r.b == 0x1F#7 && r.c == 0x1F#7 && r.sub == 0#6 && r.t == 9#4 && r.md == 0#8) (.faddImm r.h (opnd r.d) (opnd r.a) imm)
      | _ => bad r .both
    | 1 => match immOf r.ext with
      | some imm => row r .both (r.b == 0x1F#7 && r.c == 0x1F#7 && r.sub == 0#6 && r.t == 9#4 && r.md == 0#8) (.fmulImm r.h (opnd r.d) (opnd r.a) imm)
      | _ => bad r .both
    | 2 => match immOf r.ext with
      | some imm => row r .both (r.b == 0x1F#7 && r.sub == 0#6 && r.t == 9#4 && r.md == 0#8) (.ffmaImm r.h (opnd r.d) (opnd r.a) (opnd r.c) imm)
      | _ => bad r .both
    | 3 => match immOf r.ext with
      | some imm => row r .both (r.b == 0x1F#7 && r.c == 0x1F#7 && r.sub == 0#6 && r.t == 9#4 && r.md == 0#8) (.fminImm r.h (opnd r.d) (opnd r.a) imm)
      | _ => bad r .both
    | 4 => match immOf r.ext with
      | some imm => row r .both (r.b == 0x1F#7 && r.c == 0x1F#7 && r.sub == 0#6 && r.t == 9#4 && r.md == 0#8) (.fmaxImm r.h (opnd r.d) (opnd r.a) imm)
      | _ => bad r .both
    | 5 => match condOf r.sub, immOf r.ext with
      | some cond, some imm => row r .both (r.b == 0x1F#7 && r.c == 0x1F#7 && r.t == 9#4 && r.md == 0#8) (.fcmpImm r.h cond (popnd r.d) (opnd r.a) imm)
      | _, _ => bad r .both
    | _ => .error .unassigned

/-- Row 0xE_ of R205. -/
def decodeRowE (r : Raw) (lo : Nat) : Except DecodeErr Instr :=
    match lo with
    | 0 => match tyOf r.t, memModOf r.md, immOf r.ext with
      | some t, some m, some imm => row r .both (r.b == 0x1F#7 && r.c == 0x1F#7 && r.sub == 0#6 && r.md.extractLsb' 0 3 == 0#3) (.ldDisp r.h t m (opnd r.d) (opnd r.a) imm)
      | _, _, _ => bad r .both
    | 1 => match tyOf r.t, memModOf r.md, immOf r.ext with
      | some t, some m, some imm => row r .both (r.d == 0x1F#7 && r.c == 0x1F#7 && r.sub == 0#6 && r.md.extractLsb' 0 3 == 0#3) (.stDisp r.h t m (opnd r.a) (opnd r.b) imm)
      | _, _, _ => bad r .both
    | 2 => match tyOf r.t, memModOf r.md, immOf r.ext with
      | some t, some m, some imm => row r .both (r.b == 0x1F#7 && r.c == 0x1F#7 && r.sub == 0#6 && r.md.extractLsb' 0 3 == 0#3) (.ldsDisp r.h t m (opnd r.d) (opnd r.a) imm)
      | _, _, _ => bad r .both
    | 3 => match tyOf r.t, memModOf r.md, immOf r.ext with
      | some t, some m, some imm => row r .both (r.d == 0x1F#7 && r.c == 0x1F#7 && r.sub == 0#6 && r.md.extractLsb' 0 3 == 0#3) (.stsDisp r.h t m (opnd r.a) (opnd r.b) imm)
      | _, _, _ => bad r .both
    | 4 => match tyOf r.t, immOf r.ext with
      | some t, some imm => row r .both (r.b == 0x1F#7 && r.c == 0x1F#7 && r.sub.extractLsb' 4 2 == 0#2 && r.md == 0#8) (.ldcDisp r.h t (r.sub.extractLsb' 0 4) (opnd r.d) (opnd r.a) imm)
      | _, _ => bad r .both
    | 5 => match immOf r.ext with
      | some imm => row r .both (r.d == 0x1F#7 && r.b == 0x1F#7 && r.c == 0x1F#7 && r.sub == 0#6 && r.t == 0#4 && r.md.extractLsb' 1 7 == 0#7) (.prefDisp r.h (r.md.getLsbD 0) (opnd r.a) imm)
      | _ => bad r .both
    | 6 => match tyOf r.t, memModOf r.md, redOf r.sub, immOf r.ext with
      | some t, some m, some op, some imm => row r .both (r.c == 0x1F#7 && r.md.extractLsb' 0 2 == 0#2) (.atomDisp r.h t m (spaceOf (r.md.getLsbD 2)) op (opnd r.d) (opnd r.a) (opnd r.b) imm)
      | _, _, _, _ => bad r .both
    | 7 => match tyOf r.t, memModOf r.md, immOf r.ext with
      | some t, some m, some imm => row r .both (r.sub == 0#6 && r.md.extractLsb' 0 2 == 0#2) (.atomcDisp r.h t m (spaceOf (r.md.getLsbD 2)) (opnd r.d) (opnd r.a) (opnd r.b) (opnd r.c) imm)
      | _, _, _ => bad r .both
    | 8 => match tyOf r.t, memModOf r.md, redOf r.sub, immOf r.ext with
      | some t, some m, some op, some imm => row r .both (r.d == 0x1F#7 && r.c == 0x1F#7 && r.md.extractLsb' 0 2 == 0#2) (.redDisp r.h t m (spaceOf (r.md.getLsbD 2)) op (opnd r.a) (opnd r.b) imm)
      | _, _, _, _ => bad r .both
    | _ => .error .unassigned

/-- Row 0xF_ of R205. -/
def decodeRowF (r : Raw) (lo : Nat) : Except DecodeErr Instr :=
    match lo with
    | 0 => match contOf r.ext with
      | some cont => row r .both (r.d == 0x1F#7 && r.sub == 0#6 && r.t == 0#4 && r.md == 0#8) (.barw r.h (opnd r.a) (opnd r.b) (opnd r.c) cont)
      | _ => bad r .both
    | 1 => match contOf r.ext with
      | some cont => row r .both (r.a == 0x1F#7 && r.c == 0x1F#7 && r.sub == 0#6 && r.t == 0#4 && r.md == 0#8) (.evwait r.h (opnd r.d) (opnd r.b) cont)
      | _ => bad r .both
    | 2 => match contOf r.ext with
      | some cont => row r .both (r.d == 0x1F#7 && r.c == 0x1F#7 && r.sub == 0#6 && r.t == 0#4 && r.md == 0#8) (.aclm r.h (opnd r.a) (opnd r.b) cont)
      | _ => bad r .both
    | 3 => match engOf r.ext with
      | some e => row r .both (r.d == 0x1F#7 && r.sub == 0#6 && r.t == 0#4 && r.md.extractLsb' 2 6 == 0#6) (.cpy r.h (spaceOf (r.md.getLsbD 0)) (spaceOf (r.md.getLsbD 1)) (opnd r.a) (opnd r.b) (opnd r.c) e)
      | _ => bad r .both
    | 4 => match engOf r.ext with
      | some e => row r .both (r.d == 0x1F#7 && r.sub == 0#6 && r.t == 0#4 && (r.md.extractLsb' 2 6 == 0#6 && r.md.getLsbD 0)) (.cpyx r.h (spaceOf (r.md.getLsbD 1)) (opnd r.a) (opnd r.b) (opnd r.c) e)
      | _ => bad r .both
    | 5 => match matOf r.ext with
      | some e => row r .both (r.d == 0x1F#7 && r.sub == 0#6 && r.t == 0#4) (.mma r.h r.md (opnd r.a) (opnd r.b) (opnd r.c) e)
      | _ => bad r .both
    | 6 => match matOf r.ext with
      | some e => row r .both (r.d == 0x1F#7 && r.sub == 0#6 && r.t == 0#4) (.mmas r.h r.md (opnd r.a) (opnd r.b) (opnd r.c) e)
      | _ => bad r .both
    | _ => .error .unassigned

/-- The decoder on the fields of a word: the major opcode map (R205). -/
def decodeRaw (r : Raw) : Except DecodeErr Instr :=
  let lo := r.op.toNat % 16
  match r.op.toNat / 16 with
  | 0 => decodeRow0 r lo
  | 1 => decodeRow1 r lo
  | 2 => decodeRow2 r lo
  | 3 => decodeRow3 r lo
  | 4 => decodeRow4 r lo
  | 5 => decodeRow5 r lo
  | 6 => decodeRow6 r lo
  | 7 => decodeRow7 r lo
  | 8 => decodeRow8 r lo
  | 9 => decodeRow9 r lo
  | 10 => decodeRowA r lo
  | 11 => decodeRowB r lo
  | 12 => decodeRowC r lo
  | 13 => decodeRowD r lo
  | 14 => decodeRowE r lo
  | 15 => decodeRowF r lo
  | _ => .error .unassigned

/-- The decoder: the instruction that word `w`, with extension `ext` if its opcode is a long form, encodes. -/
def decode (w ext : Dword) : Except DecodeErr Instr := decodeRaw (Raw.ofWords w ext)

/-! ### The encoder -/

/-- A J-format word (R197): OFFSET in [45:24], bits [23:18] zero. -/
def jraw (op : BitVec 8) (h : Hdr) (off : BitVec 22) (sub : BitVec 6) : Raw :=
  let x : BitVec 28 := off ++ 0#6
  ⟨op, h, x.extractLsb' 21 7, x.extractLsb' 14 7, x.extractLsb' 7 7, x.extractLsb' 0 7, sub, 0#4, 0#8, 0#64⟩

/-- The fields of an instruction's word; a step of the device has none. -/
def encodeRaw : Instr → Option Raw
  | .go h off => some (jraw 0x02#8 h off 0#6)
  | .got h a b => some ⟨0x03#8, h, 0x1F#7, a.code, b.code, 0x1F#7, 0#6, 0#4, 0#8, 0#64⟩
  | .call h off sl => some (jraw 0x04#8 h off sl.code)
  | .callt h off sl => some (jraw 0x05#8 h off sl.code)
  | .ret h => some ⟨0x06#8, h, 0x1F#7, 0x1F#7, 0x1F#7, 0x1F#7, 0#6, 0#4, 0#8, 0#64⟩
  | .exit h => some ⟨0x07#8, h, 0x1F#7, 0x1F#7, 0x1F#7, 0x1F#7, 0#6, 0#4, 0#8, 0#64⟩
  | .park h off => some (jraw 0x08#8 h off 0#6)
  | .yield h => some ⟨0x09#8, h, 0x1F#7, 0x1F#7, 0x1F#7, 0x1F#7, 0#6, 0#4, 0#8, 0#64⟩
  | .nop h => some ⟨0x0a#8, h, 0x1F#7, 0x1F#7, 0x1F#7, 0x1F#7, 0#6, 0#4, 0#8, 0#64⟩
  | .trap h a => some ⟨0x0b#8, h, 0x1F#7, a.code, 0x1F#7, 0x1F#7, 0#6, 0#4, 0#8, 0#64⟩
  | .sysc h a => some ⟨0x0c#8, h, 0x1F#7, a.code, 0x1F#7, 0x1F#7, 0#6, 0#4, 0#8, 0#64⟩
  | .tret h => some ⟨0x0d#8, h, 0x1F#7, 0x1F#7, 0x1F#7, 0x1F#7, 0#6, 0#4, 0#8, 0#64⟩
  | .iadd h t d a b => some ⟨0x10#8, h, d.code, a.code, b.code, 0x1F#7, 0#6, t.code, 0#8, 0#64⟩
  | .isub h t d a b => some ⟨0x11#8, h, d.code, a.code, b.code, 0x1F#7, 0#6, t.code, 0#8, 0#64⟩
  | .iaddc h t d a b c => some ⟨0x12#8, h, d.code, a.code, b.code, c.code, 0#6, t.code, 0#8, 0#64⟩
  | .isubb h t d a b c => some ⟨0x13#8, h, d.code, a.code, b.code, c.code, 0#6, t.code, 0#8, 0#64⟩
  | .imul h t d a b => some ⟨0x14#8, h, d.code, a.code, b.code, 0x1F#7, 0#6, t.code, 0#8, 0#64⟩
  | .imulh h t d a b => some ⟨0x15#8, h, d.code, a.code, b.code, 0x1F#7, 0#6, t.code, 0#8, 0#64⟩
  | .imad h t d a b c => some ⟨0x16#8, h, d.code, a.code, b.code, c.code, 0#6, t.code, 0#8, 0#64⟩
  | .idiv h t d a b => some ⟨0x17#8, h, d.code, a.code, b.code, 0x1F#7, 0#6, t.code, 0#8, 0#64⟩
  | .irem h t d a b => some ⟨0x18#8, h, d.code, a.code, b.code, 0x1F#7, 0#6, t.code, 0#8, 0#64⟩
  | .imin h t d a b => some ⟨0x19#8, h, d.code, a.code, b.code, 0x1F#7, 0#6, t.code, 0#8, 0#64⟩
  | .imax h t d a b => some ⟨0x1a#8, h, d.code, a.code, b.code, 0x1F#7, 0#6, t.code, 0#8, 0#64⟩
  | .iabs h t d a => some ⟨0x1b#8, h, d.code, a.code, 0x1F#7, 0x1F#7, 0#6, t.code, 0#8, 0#64⟩
  | .ineg h t d a => some ⟨0x1c#8, h, d.code, a.code, 0x1F#7, 0x1F#7, 0#6, t.code, 0#8, 0#64⟩
  | .isel h t d a b c => some ⟨0x1d#8, h, d.code, a.code, b.code, c.code, 0#6, t.code, 0#8, 0#64⟩
  | .icmp h t cond d a b => some ⟨0x1e#8, h, d.code, a.code, b.code, 0x1F#7, cond.code, t.code, 0#8, 0#64⟩
  | .and h t d a b => some ⟨0x20#8, h, d.code, a.code, b.code, 0x1F#7, 0#6, t.code, 0#8, 0#64⟩
  | .or h t d a b => some ⟨0x21#8, h, d.code, a.code, b.code, 0x1F#7, 0#6, t.code, 0#8, 0#64⟩
  | .xor h t d a b => some ⟨0x22#8, h, d.code, a.code, b.code, 0x1F#7, 0#6, t.code, 0#8, 0#64⟩
  | .andn h t d a b => some ⟨0x23#8, h, d.code, a.code, b.code, 0x1F#7, 0#6, t.code, 0#8, 0#64⟩
  | .not h t d a => some ⟨0x24#8, h, d.code, a.code, 0x1F#7, 0x1F#7, 0#6, t.code, 0#8, 0#64⟩
  | .shl h t d a b => some ⟨0x25#8, h, d.code, a.code, b.code, 0x1F#7, 0#6, t.code, 0#8, 0#64⟩
  | .shr h t d a b => some ⟨0x26#8, h, d.code, a.code, b.code, 0x1F#7, 0#6, t.code, 0#8, 0#64⟩
  | .sar h t d a b => some ⟨0x27#8, h, d.code, a.code, b.code, 0x1F#7, 0#6, t.code, 0#8, 0#64⟩
  | .rol h t d a b => some ⟨0x28#8, h, d.code, a.code, b.code, 0x1F#7, 0#6, t.code, 0#8, 0#64⟩
  | .bfx h t d a b c => some ⟨0x29#8, h, d.code, a.code, b.code, c.code, 0#6, t.code, 0#8, 0#64⟩
  | .bfi h t d a b c => some ⟨0x2a#8, h, d.code, a.code, b.code, c.code, 0#6, t.code, 0#8, 0#64⟩
  | .popc h t d a => some ⟨0x2b#8, h, d.code, a.code, 0x1F#7, 0x1F#7, 0#6, t.code, 0#8, 0#64⟩
  | .clz h t d a => some ⟨0x2c#8, h, d.code, a.code, 0x1F#7, 0x1F#7, 0#6, t.code, 0#8, 0#64⟩
  | .ctz h t d a => some ⟨0x2d#8, h, d.code, a.code, 0x1F#7, 0x1F#7, 0#6, t.code, 0#8, 0#64⟩
  | .brev h t d a => some ⟨0x2e#8, h, d.code, a.code, 0x1F#7, 0x1F#7, 0#6, t.code, 0#8, 0#64⟩
  | .mov h t d a => some ⟨0x30#8, h, d.code, a.code, 0x1F#7, 0x1F#7, 0#6, t.code, 0#8, 0#64⟩
  | .pset h op d a b => some ⟨0x31#8, h, d.code, a.code, b.code, 0x1F#7, op.code, 0#4, 0#8, 0#64⟩
  | .amov h d a b => some ⟨0x32#8, h, d.code, a.code, b.code, 0x1F#7, 0#6, 0#4, 0#8, 0#64⟩
  | .aadd h d a b => some ⟨0x33#8, h, d.code, a.code, b.code, 0x1F#7, 0#6, 0#4, 0#8, 0#64⟩
  | .amul h d a b => some ⟨0x34#8, h, d.code, a.code, b.code, 0x1F#7, 0#6, 0#4, 0#8, 0#64⟩
  | .aget h d a => some ⟨0x35#8, h, d.code, a.code, 0x1F#7, 0x1F#7, 0#6, 0#4, 0#8, 0#64⟩
  | .alea h d a b c => some ⟨0x36#8, h, d.code, a.code, b.code, c.code, 0#6, 0#4, 0#8, 0#64⟩
  | .rdsr h d sr => some ⟨0x37#8, h, d.code, 0x1F#7, 0x1F#7, 0x1F#7, 0#6, 0#4, sr, 0#64⟩
  | .fadd h d a b => some ⟨0x40#8, h, d.code, a.code, b.code, 0x1F#7, 0#6, 9#4, 0#8, 0#64⟩
  | .fsub h d a b => some ⟨0x41#8, h, d.code, a.code, b.code, 0x1F#7, 0#6, 9#4, 0#8, 0#64⟩
  | .fmul h d a b => some ⟨0x42#8, h, d.code, a.code, b.code, 0x1F#7, 0#6, 9#4, 0#8, 0#64⟩
  | .ffma h d a b c => some ⟨0x43#8, h, d.code, a.code, b.code, c.code, 0#6, 9#4, 0#8, 0#64⟩
  | .fmin h d a b => some ⟨0x44#8, h, d.code, a.code, b.code, 0x1F#7, 0#6, 9#4, 0#8, 0#64⟩
  | .fmax h d a b => some ⟨0x45#8, h, d.code, a.code, b.code, 0x1F#7, 0#6, 9#4, 0#8, 0#64⟩
  | .fcmp h cond d a b => some ⟨0x46#8, h, d.code, a.code, b.code, 0x1F#7, cond.code, 9#4, 0#8, 0#64⟩
  | .fclass h d a => some ⟨0x47#8, h, d.code, a.code, 0x1F#7, 0x1F#7, 0#6, 9#4, 0#8, 0#64⟩
  | .frnd h d a b => some ⟨0x48#8, h, d.code, a.code, b.code, 0x1F#7, 0#6, 9#4, 0#8, 0#64⟩
  | .fscale h d a b => some ⟨0x49#8, h, d.code, a.code, b.code, 0x1F#7, 0#6, 9#4, 0#8, 0#64⟩
  | .frcp h d a => some ⟨0x4a#8, h, d.code, a.code, 0x1F#7, 0x1F#7, 0#6, 9#4, 0#8, 0#64⟩
  | .frsq h d a => some ⟨0x4b#8, h, d.code, a.code, 0x1F#7, 0x1F#7, 0#6, 9#4, 0#8, 0#64⟩
  | .fsqrt h d a => some ⟨0x4c#8, h, d.code, a.code, 0x1F#7, 0x1F#7, 0#6, 9#4, 0#8, 0#64⟩
  | .fexp2 h d a => some ⟨0x4d#8, h, d.code, a.code, 0x1F#7, 0x1F#7, 0#6, 9#4, 0#8, 0#64⟩
  | .flog2 h d a => some ⟨0x4e#8, h, d.code, a.code, 0x1F#7, 0x1F#7, 0#6, 9#4, 0#8, 0#64⟩
  | .fsin h d a => some ⟨0x50#8, h, d.code, a.code, 0x1F#7, 0x1F#7, 0#6, 9#4, 0#8, 0#64⟩
  | .fcos h d a => some ⟨0x51#8, h, d.code, a.code, 0x1F#7, 0x1F#7, 0#6, 9#4, 0#8, 0#64⟩
  | .hadd2 h t d a b => some ⟨0x52#8, h, d.code, a.code, b.code, 0x1F#7, 0#6, t.code, 0#8, 0#64⟩
  | .hmul2 h t d a b => some ⟨0x53#8, h, d.code, a.code, b.code, 0x1F#7, 0#6, t.code, 0#8, 0#64⟩
  | .hfma2 h t d a b c => some ⟨0x54#8, h, d.code, a.code, b.code, c.code, 0#6, t.code, 0#8, 0#64⟩
  | .cvt h t src rnd d a => some ⟨0x55#8, h, d.code, a.code, 0x1F#7, 0x1F#7, 0#6, t.code, (src.code ++ 0#2 ++ rnd.code), 0#64⟩
  | .cvtp h t src rnd hf d a b => some ⟨0x56#8, h, d.code, a.code, b.code, 0x1F#7, (0#5 ++ BitVec.ofBool hf), t.code, (src.code ++ 0#2 ++ rnd.code), 0#64⟩
  | .tspack h tw d a => some ⟨0x57#8, h, d.code, a.code, 0x1F#7, 0x1F#7, tw.code, 9#4, 0#8, 0#64⟩
  | .tsunpack h tw d a b => some ⟨0x58#8, h, d.code, a.code, b.code, 0x1F#7, tw.code, 9#4, 0#8, 0#64⟩
  | .shfl h t mode seg d a b => some ⟨0x60#8, h, d.code, a.code, b.code, 0x1F#7, mode.code, t.code, (0#5 ++ seg), 0#64⟩
  | .vote h mode d a => some ⟨0x61#8, h, d.code, a.code, 0x1F#7, 0x1F#7, mode.code, 0#4, 0#8, 0#64⟩
  | .ballot h turn d a => some ⟨0x62#8, h, d.code, a.code, 0x1F#7, 0x1F#7, 0#6, 0#4, (0#6 ++ turn), 0#64⟩
  | .redux h t op d a => some ⟨0x63#8, h, d.code, a.code, 0x1F#7, 0x1F#7, op.code, t.code, 0#8, 0#64⟩
  | .scan h t op d a => some ⟨0x64#8, h, d.code, a.code, 0x1F#7, 0x1F#7, op.code, t.code, 0#8, 0#64⟩
  | .bcast h t d a b => some ⟨0x65#8, h, d.code, a.code, b.code, 0x1F#7, 0#6, t.code, 0#8, 0#64⟩
  | .matchI h t d a => some ⟨0x66#8, h, d.code, a.code, 0x1F#7, 0x1F#7, 0#6, t.code, 0#8, 0#64⟩
  | .ld h t m d a => some ⟨0x70#8, h, d.code, a.code, 0x1F#7, 0x1F#7, 0#6, t.code, (m.code 0#3), 0#64⟩
  | .st h t m a b => some ⟨0x71#8, h, 0x1F#7, a.code, b.code, 0x1F#7, 0#6, t.code, (m.code 0#3), 0#64⟩
  | .lds h t m d a => some ⟨0x72#8, h, d.code, a.code, 0x1F#7, 0x1F#7, 0#6, t.code, (m.code 0#3), 0#64⟩
  | .sts h t m a b => some ⟨0x73#8, h, 0x1F#7, a.code, b.code, 0x1F#7, 0#6, t.code, (m.code 0#3), 0#64⟩
  | .ldc h t bank d a => some ⟨0x74#8, h, d.code, a.code, 0x1F#7, 0x1F#7, (0#2 ++ bank), t.code, 0#8, 0#64⟩
  | .pref h l2 a => some ⟨0x75#8, h, 0x1F#7, a.code, 0x1F#7, 0x1F#7, 0#6, 0#4, (0#7 ++ BitVec.ofBool l2), 0#64⟩
  | .atom h t m sp op d a b => some ⟨0x76#8, h, d.code, a.code, b.code, 0x1F#7, op.code, t.code, (m.code (BitVec.ofBool sp.code ++ 0#2)), 0#64⟩
  | .atomc h t m sp d a b c => some ⟨0x77#8, h, d.code, a.code, b.code, c.code, 0#6, t.code, (m.code (BitVec.ofBool sp.code ++ 0#2)), 0#64⟩
  | .red h t m sp op a b => some ⟨0x78#8, h, 0x1F#7, a.code, b.code, 0x1F#7, op.code, t.code, (m.code (BitVec.ofBool sp.code ++ 0#2)), 0#64⟩
  | .fence h sc => some ⟨0x79#8, h, 0x1F#7, 0x1F#7, 0x1F#7, 0x1F#7, 0#6, 0#4, (1#2 ++ sc.code ++ 0#3), 0#64⟩
  | .bari h a b c => some ⟨0x80#8, h, 0x1F#7, a.code, b.code, c.code, 0#6, 0#4, 0#8, 0#64⟩
  | .bara h a b c => some ⟨0x81#8, h, 0x1F#7, a.code, b.code, c.code, 0#6, 0#4, 0#8, 0#64⟩
  | .bart h d a b => some ⟨0x82#8, h, d.code, a.code, b.code, 0x1F#7, 0#6, 0#4, 0#8, 0#64⟩
  | .qfence h a b => some ⟨0x83#8, h, 0x1F#7, a.code, b.code, 0x1F#7, 0#6, 0#4, 0#8, 0#64⟩
  | .evpop h d => some ⟨0x84#8, h, d.code, 0x1F#7, 0x1F#7, 0x1F#7, 0#6, 0#4, 0#8, 0#64⟩
  | .card h a => some ⟨0x90#8, h, 0x1F#7, a.code, 0x1F#7, 0x1F#7, 0#6, 0#4, 0#8, 0#64⟩
  | .wlapp h d a b => some ⟨0x92#8, h, d.code, a.code, b.code, 0x1F#7, 0#6, 0#4, 0#8, 0#64⟩
  | .wlpop h d a => some ⟨0x93#8, h, d.code, a.code, 0x1F#7, 0x1F#7, 0#6, 0#4, 0#8, 0#64⟩
  | .qscn h d a => some ⟨0x94#8, h, d.code, a.code, 0x1F#7, 0x1F#7, 0#6, 0#4, 0#8, 0#64⟩
  | .amsg h a b => some ⟨0x95#8, h, 0x1F#7, a.code, b.code, 0x1F#7, 0#6, 0#4, 0#8, 0#64⟩
  | .icinv h d a b => some ⟨0x96#8, h, d.code, a.code, b.code, 0x1F#7, 0#6, 0#4, 0#8, 0#64⟩
  | .tlbh h d a b => some ⟨0x97#8, h, d.code, a.code, b.code, 0x1F#7, 0#6, 0#4, 0#8, 0#64⟩
  | .mlda h a b => some ⟨0xa0#8, h, 0x1F#7, a.code, b.code, 0x1F#7, 0#6, 0#4, 0#8, 0#64⟩
  | .mldl h a b => some ⟨0xa1#8, h, 0x1F#7, a.code, b.code, 0x1F#7, 0#6, 0#4, 0#8, 0#64⟩
  | .mlds h a b => some ⟨0xa2#8, h, 0x1F#7, a.code, b.code, 0x1F#7, 0#6, 0#4, 0#8, 0#64⟩
  | .mldv h a b => some ⟨0xa4#8, h, 0x1F#7, a.code, b.code, 0x1F#7, 0#6, 0#4, 0#8, 0#64⟩
  | .mldq h d a => some ⟨0xa5#8, h, d.code, a.code, 0x1F#7, 0x1F#7, 0#6, 0#4, 0#8, 0#64⟩
  | .spz h t d a => some ⟨0xa6#8, h, d.code, a.code, 0x1F#7, 0x1F#7, 0#6, t.code, 0#8, 0#64⟩
  | .aalc h d a => some ⟨0xb0#8, h, d.code, a.code, 0x1F#7, 0x1F#7, 0#6, 0#4, 0#8, 0#64⟩
  | .afre h a b => some ⟨0xb1#8, h, 0x1F#7, a.code, b.code, 0x1F#7, 0#6, 0#4, 0#8, 0#64⟩
  | .arel h a b => some ⟨0xb2#8, h, 0x1F#7, a.code, b.code, 0x1F#7, 0#6, 0#4, 0#8, 0#64⟩
  | .ard h t d a b => some ⟨0xb3#8, h, d.code, a.code, b.code, 0x1F#7, 0#6, t.code, 0#8, 0#64⟩
  | .awr h t a b c => some ⟨0xb4#8, h, 0x1F#7, a.code, b.code, c.code, 0#6, t.code, 0#8, 0#64⟩
  | .azro h a b => some ⟨0xb5#8, h, 0x1F#7, a.code, b.code, 0x1F#7, 0#6, 0#4, 0#8, 0#64⟩
  | .adrn h t z pitch a b c => some ⟨0xb6#8, h, 0x1F#7, a.code, b.code, c.code, (0#5 ++ BitVec.ofBool z), t.code, pitch, 0#64⟩
  | .drpn h load dvq dkq d a b c => some ⟨0xb7#8, h, d.code, a.code, b.code, c.code, (0#5 ++ BitVec.ofBool load), 0#4, (0#2 ++ dvq ++ dkq), 0#64⟩
  | .drun h a b => some ⟨0xb8#8, h, 0x1F#7, a.code, b.code, 0x1F#7, 0#6, 0#4, 0#8, 0#64⟩
  | .drsv h a b => some ⟨0xb9#8, h, 0x1F#7, a.code, b.code, 0x1F#7, 0#6, 0#4, 0#8, 0#64⟩
  | .delta h tm1 a b c => some ⟨0xba#8, h, 0x1F#7, a.code, b.code, c.code, 0#6, 0#4, (0#4 ++ tm1), 0#64⟩
  | .iaddImm h t d a imm => some ⟨0xc0#8, h, d.code, a.code, 0x1F#7, 0x1F#7, 0#6, t.code, 0#8, (immCode imm)⟩
  | .isubImm h t d a imm => some ⟨0xc1#8, h, d.code, a.code, 0x1F#7, 0x1F#7, 0#6, t.code, 0#8, (immCode imm)⟩
  | .imulImm h t d a imm => some ⟨0xc2#8, h, d.code, a.code, 0x1F#7, 0x1F#7, 0#6, t.code, 0#8, (immCode imm)⟩
  | .iminImm h t d a imm => some ⟨0xc3#8, h, d.code, a.code, 0x1F#7, 0x1F#7, 0#6, t.code, 0#8, (immCode imm)⟩
  | .imaxImm h t d a imm => some ⟨0xc4#8, h, d.code, a.code, 0x1F#7, 0x1F#7, 0#6, t.code, 0#8, (immCode imm)⟩
  | .icmpImm h t cond d a imm => some ⟨0xc5#8, h, d.code, a.code, 0x1F#7, 0x1F#7, cond.code, t.code, 0#8, (immCode imm)⟩
  | .andImm h t d a imm => some ⟨0xc6#8, h, d.code, a.code, 0x1F#7, 0x1F#7, 0#6, t.code, 0#8, (immCode imm)⟩
  | .orImm h t d a imm => some ⟨0xc7#8, h, d.code, a.code, 0x1F#7, 0x1F#7, 0#6, t.code, 0#8, (immCode imm)⟩
  | .xorImm h t d a imm => some ⟨0xc8#8, h, d.code, a.code, 0x1F#7, 0x1F#7, 0#6, t.code, 0#8, (immCode imm)⟩
  | .andnImm h t d a imm => some ⟨0xc9#8, h, d.code, a.code, 0x1F#7, 0x1F#7, 0#6, t.code, 0#8, (immCode imm)⟩
  | .movi h t d imm => some ⟨0xca#8, h, d.code, 0x1F#7, 0x1F#7, 0x1F#7, 0#6, t.code, 0#8, (immCode imm)⟩
  | .movw h t d imm => some ⟨0xcb#8, h, d.code, 0x1F#7, 0x1F#7, 0x1F#7, 0#6, t.code, 0#8, imm⟩
  | .amovImm h d base stride => some ⟨0xcc#8, h, d.code, 0x1F#7, 0x1F#7, 0x1F#7, 0#6, 0#4, 0#8, (stride ++ base)⟩
  | .aaddImm h d a base stride => some ⟨0xcd#8, h, d.code, a.code, 0x1F#7, 0x1F#7, 0#6, 0#4, 0#8, (stride ++ base)⟩
  | .amulImm h d a imm => some ⟨0xce#8, h, d.code, a.code, 0x1F#7, 0x1F#7, 0#6, 0#4, 0#8, (immCode imm)⟩
  | .faddImm h d a imm => some ⟨0xd0#8, h, d.code, a.code, 0x1F#7, 0x1F#7, 0#6, 9#4, 0#8, (immCode imm)⟩
  | .fmulImm h d a imm => some ⟨0xd1#8, h, d.code, a.code, 0x1F#7, 0x1F#7, 0#6, 9#4, 0#8, (immCode imm)⟩
  | .ffmaImm h d a c imm => some ⟨0xd2#8, h, d.code, a.code, 0x1F#7, c.code, 0#6, 9#4, 0#8, (immCode imm)⟩
  | .fminImm h d a imm => some ⟨0xd3#8, h, d.code, a.code, 0x1F#7, 0x1F#7, 0#6, 9#4, 0#8, (immCode imm)⟩
  | .fmaxImm h d a imm => some ⟨0xd4#8, h, d.code, a.code, 0x1F#7, 0x1F#7, 0#6, 9#4, 0#8, (immCode imm)⟩
  | .fcmpImm h cond d a imm => some ⟨0xd5#8, h, d.code, a.code, 0x1F#7, 0x1F#7, cond.code, 9#4, 0#8, (immCode imm)⟩
  | .ldDisp h t m d a imm => some ⟨0xe0#8, h, d.code, a.code, 0x1F#7, 0x1F#7, 0#6, t.code, (m.code 0#3), (immCode imm)⟩
  | .stDisp h t m a b imm => some ⟨0xe1#8, h, 0x1F#7, a.code, b.code, 0x1F#7, 0#6, t.code, (m.code 0#3), (immCode imm)⟩
  | .ldsDisp h t m d a imm => some ⟨0xe2#8, h, d.code, a.code, 0x1F#7, 0x1F#7, 0#6, t.code, (m.code 0#3), (immCode imm)⟩
  | .stsDisp h t m a b imm => some ⟨0xe3#8, h, 0x1F#7, a.code, b.code, 0x1F#7, 0#6, t.code, (m.code 0#3), (immCode imm)⟩
  | .ldcDisp h t bank d a imm => some ⟨0xe4#8, h, d.code, a.code, 0x1F#7, 0x1F#7, (0#2 ++ bank), t.code, 0#8, (immCode imm)⟩
  | .prefDisp h l2 a imm => some ⟨0xe5#8, h, 0x1F#7, a.code, 0x1F#7, 0x1F#7, 0#6, 0#4, (0#7 ++ BitVec.ofBool l2), (immCode imm)⟩
  | .atomDisp h t m sp op d a b imm => some ⟨0xe6#8, h, d.code, a.code, b.code, 0x1F#7, op.code, t.code, (m.code (BitVec.ofBool sp.code ++ 0#2)), (immCode imm)⟩
  | .atomcDisp h t m sp d a b c imm => some ⟨0xe7#8, h, d.code, a.code, b.code, c.code, 0#6, t.code, (m.code (BitVec.ofBool sp.code ++ 0#2)), (immCode imm)⟩
  | .redDisp h t m sp op a b imm => some ⟨0xe8#8, h, 0x1F#7, a.code, b.code, 0x1F#7, op.code, t.code, (m.code (BitVec.ofBool sp.code ++ 0#2)), (immCode imm)⟩
  | .barw h a b c cont => some ⟨0xf0#8, h, 0x1F#7, a.code, b.code, c.code, 0#6, 0#4, 0#8, (contCode cont)⟩
  | .evwait h d b cont => some ⟨0xf1#8, h, d.code, 0x1F#7, b.code, 0x1F#7, 0#6, 0#4, 0#8, (contCode cont)⟩
  | .aclm h a b cont => some ⟨0xf2#8, h, 0x1F#7, a.code, b.code, 0x1F#7, 0#6, 0#4, 0#8, (contCode cont)⟩
  | .cpy h dsp ssp a b c e => some ⟨0xf3#8, h, 0x1F#7, a.code, b.code, c.code, 0#6, 0#4, (0#6 ++ BitVec.ofBool ssp.code ++ BitVec.ofBool dsp.code), e.code⟩
  | .cpyx h ssp a b c e => some ⟨0xf4#8, h, 0x1F#7, a.code, b.code, c.code, 0#6, 0#4, (0#6 ++ BitVec.ofBool ssp.code ++ 1#1), e.code⟩
  | .mma h pitch a b c e => some ⟨0xf5#8, h, 0x1F#7, a.code, b.code, c.code, 0#6, 0#4, pitch, e.code⟩
  | .mmas h pitch a b c e => some ⟨0xf6#8, h, 0x1F#7, a.code, b.code, c.code, 0#6, 0#4, pitch, e.code⟩
  | .wrsr h a sr => some ⟨0x38#8, h, 0x1F#7, a.code, 0x1F#7, 0x1F#7, 0#6, 0#4, sr, 0#64⟩
  | .wrsrWlo h a => some ⟨0x38#8, h, 0x1F#7, a.code, 0x1F#7, 0x1F#7, 0#6, 0#4, 0x21#8, 0#64⟩
  | .wrsrTmr h a => some ⟨0x38#8, h, 0x1F#7, a.code, 0x1F#7, 0x1F#7, 0#6, 0#4, 0x16#8, 0#64⟩
  | .wrsrHs h a => some ⟨0x38#8, h, 0x1F#7, a.code, 0x1F#7, 0x1F#7, 0#6, 0#4, 0x18#8, 0#64⟩
  | .joinDecrement h a => some ⟨0x91#8, h, 0x1F#7, a.code, 0x1F#7, 0x1F#7, 0#6, 0#4, 0#8, 0#64⟩
  | .joinArm h a b c => some ⟨0x91#8, h, 0x1F#7, a.code, b.code, c.code, 1#6, 0#4, 0#8, 0#64⟩
  | .mldpPin h a b => some ⟨0xA3#8, h, 0x1F#7, a.code, b.code, 0x1F#7, 1#6, 0#4, 0#8, 0#64⟩
  | .mldpUnpin h a b => some ⟨0xA3#8, h, 0x1F#7, a.code, b.code, 0x1F#7, 0#6, 0#4, 0#8, 0#64⟩
  | _ => none

/-- The words of an instruction: word 0 and, for a long form, the extension (R195). -/
def encode (i : Instr) : Option (Dword × Option Dword) :=
  match encodeRaw i with
  | some r => some (r.word, if isLong r.op then some r.ext else none)
  | none => none

/-- How many words the instruction takes (R195). -/
def Instr.words (i : Instr) : Nat :=
  match encodeRaw i with
  | some r => if isLong r.op then 2 else 1
  | none => 0

/-- The instruction that the decoder reads from an instruction whose bits are `w`: bits [63:0] are word 0, bits
[127:64] the extension. A table row shorter than the instruction leaves the bits above it zero. -/
def decodeTableWord (nbits w : Nat) : Option Instr :=
  let v := w % 2 ^ nbits
  match decode (BitVec.ofNat 64 v) (BitVec.ofNat 64 (v / 2 ^ 64)) with
  | .ok i => some i
  | .error _ => none

end Sys2Proof
end

