-- ==== Sys2Proof/Machine/Sequencer.lean ====
section
/-! DEFINITION. The sequencer of a hand: the block choice (R17, R20 to R30, R34), the timer (R86), fetching and
decoding the next body word (R207, R365), and which hand issues when no schedule says so (R37). -/

namespace Sys2Proof.Machine

/-! ### Headers (R16, R17) -/

def hdrLen (w : Dword) : Nat := fld w 45 30
def hdrLabel (w : Dword) : BitVec 12 := w.extractLsb' 18 12
def hdrEntry (w : Dword) : Bool := bit w 16
def hdrTrapent (w : Dword) : Bool := bit w 15
def hdrVoid (w : Dword) : Bool := bit w 14
def hdrIdem (w : Dword) : Bool := bit w 13
def hdrHold (w : Dword) : Bool := bit w 12
/-- R17: a header that is malformed at address `a`. -/
def hdrMalformed (p : Part) (a : CodeAddr) (w : Dword) : Bool :=
  fld w 55 46 != 0 || fld w 11 0 != 0 || (hdrTrapent w && !p.inRegion a) || a == 0x3FFFFFFF#30

/-! ### The choice -/

/-- R28: is the block at `a` a HOLD block? The flag is what its header holds at the census, read at the privilege of
its domain; a header that cannot be read or is malformed is judged when it is chosen (R18), and is none here
(DESIGN CHOICE, log 59). -/
def State.isHold (s : State) (tm : Team) (region : Bool) (a : CodeAddr) : Bool :=
  match (s.fetch tm.core (s.pasidOf tm) tm.part a region).1 with
  | .word w => fld w 63 56 == 1 && !hdrMalformed (s.part tm.part) a w && hdrHold w
  | _ => false

/-- R23 steps 2 and 3, R28, R34: the block that one domain chooses, and whether the choice is a wrap. -/
def State.pickBlock (s : State) (tm : Team) (hd : Hand) (pos : Option CodeAddr) (region : Bool) :
    Option (CodeAddr × Bool) :=
  let p := s.part tm.part
  let here (x : Thread) : Bool := x.st != .retired && p.inRegion x.wa == region
  let wanted := (hd.threads.filter fun x => here x && x.st == .unparked).map (·.wa)
  let low := minBy BitVec.toNat ((hd.threads.filter here).map (·.wa))
  let free (a : CodeAddr) : Bool := (match low with | some l => decide (a.toNat ≤ l.toNat) | none => true)
    || !s.isHold tm region a
  let elig := wanted.eraseDups.filter free
  let fwd := match pos with
    | none => elig
    | some q => elig.filter fun a => q.toNat < a.toNat
  match minBy BitVec.toNat fwd with
  | some a => some (a, false)
  | none => (minBy BitVec.toNat elig).map fun a => (a, true)

/-- R26: the cycles of a move within one domain. -/
def Hand.moveCost (hd : Hand) (b : CodeAddr) (wrap : Bool) : Nat :=
  if wrap then 6 else if hd.how == .toEnd && b == hd.nextHdr then 0 else 2

/-- R21, R22, R17, R18: begin the visit of block `b`. The flag says that its header cannot be read yet (R368), or that the hand holds
before an IDEM block while an append of its has not passed check 3 (R264). -/
def State.beginVisit (s : State) (tm : Team) (h : Nat) (b : CodeAddr) (cost : Nat) (region : Bool) : Bool × State :=
  let s := s.updHand tm.id h fun hd =>
    let act := maskOf (idxs hd.threads.length fun t => (hd.thr t).st == .unparked && (hd.thr t).wa == b)
    let hd := { hd with phase := .visit, inTrap := region, pos := b, blen := 0, label := 0, off := 0, act,
                        busy := cost, how := .abandoned }
    if region then { hd with tpos := some b } else { hd with upos := some b }
  let all (s : State) (f : Flt) : Bool × State := match s.hand? tm.id h with
    | some hd => (false, s.takeFaults tm.id h b (hd.actives.map fun t => (t, f)))
    | none => (false, s)
  match s.fetch tm.core (s.pasidOf tm) tm.part b region with
  | (.wait, s) => (true, s)
  | (.fail c d0 d1, s) => all s { cause := c, d0, d1 }
  | (.word w, s) =>
    if fld w 63 56 ≠ 1 then all s { cause := 1 }
    else
      let s := s.updHand tm.id h fun hd => { hd with blen := hdrLen w, label := hdrLabel w,
                                                     how := if hdrLen w = 0 then .toEnd else .abandoned }
      if hdrVoid w then all s { cause := 3 }
      else if hdrMalformed (s.part tm.part) b w then all s { cause := 1 }
      else if hdrIdem w && s.appending tm.id h then (true, s)
      else if hdrIdem w then
        (false, s.updHand tm.id h fun hd =>
          { hd with threads := hd.threads.mapIdx fun i x => if hd.act.getLsbD i then { x with re := b } else x })
      else (false, s)

/-- R23, R34, R26: the choice at a boundary. -/
def State.choose (s : State) (tm : Team) (h : Nat) : Bool × State :=
  match s.hand? tm.id h with
  | none => (false, s)
  | some hd =>
    let entering := !hd.inTrap
    match s.pickBlock tm hd (if entering then none else hd.tpos) true with
    | some (b, wrap) => s.beginVisit tm h b (if entering then 6 else hd.moveCost b wrap) true
    | none =>
      let exiting := hd.inTrap
      match s.pickBlock tm hd hd.upos false with
      | some (b, wrap) =>
        let s := if wrap then s.updHand tm.id h fun hd => { hd with swc := hd.swc + 1 } else s
        s.beginVisit tm h b (if exiting then 6 else hd.moveCost b wrap) false
      | none =>
        let s := s.updHand tm.id h fun hd =>
          if exiting then { hd with phase := .boundary, inTrap := false, busy := 6, how := .unparked }
          else if hd.threads.all fun x => x.st == .retired then { hd with phase := .retired }
          else { hd with phase := .parked }
        match s.hand? tm.id h with
        | some hd => (false, if hd.phase == .retired then s.dropClaims tm.id h else s)
        | none => (false, s)

/-- R22: the threads still active at the end of the body fall through, as a GO to the next header would. (DEDUCED, log 32.) -/
def State.endBody (s : State) (tm : Team) (h : Nat) : Bool × State :=
  match s.hand? tm.id h with
  | none => (false, s)
  | some hd =>
    if hd.phase != .visit then (false, s)
    else
      let ((w, fs), s) := runThreads (fun t s => s.goTo tm h t hd.nextHdr) hd.actives s
      let s := s.takeFaults tm.id h (hd.pos + BitVec.ofNat 30 hd.blen) fs
      (w, s.updHand tm.id h fun x =>
        ({ x with phase := .boundary, how := if hd.act == 0 then x.how else .toEnd }).parkHeld)

/-- R86: at a boundary the unparked threads that are not at trap level take Timer. (DEDUCED, log 33.) -/
def State.timer (s : State) (tm : Team) (h : Nat) : State :=
  match s.hand? tm.id h with
  | none => s
  | some hd =>
    let ts := idxs hd.threads.length fun t => (hd.thr t).st == .unparked && !(hd.thr t).tl
    if !hd.tp || ts.isEmpty then s
    else
      (s.updHand tm.id h fun hd => { hd with tp := false }).takeFaults tm.id h 0 (ts.map fun t => (t, { cause := 0x17 }))

/-- May the hand take steps: its team runs and its launch has not failed? -/
def State.handLive (s : State) (tm : Team) : Bool := tm.st == .running && !s.launchDead tm.part tm.launch

/-- Is the hand at a block boundary, with no transition under way (R23)? -/
def Hand.atBoundary (hd : Hand) : Bool :=
  hd.busy == 0 && (hd.phase == .boundary || (hd.phase == .visit && (hd.act == 0 || decide (hd.blen ≤ hd.off))))

/-- R86: has the hand's timer come due: tmr ≠ 0 and rcyc ≥ tmr? It is compared while the team is resident, also while
it is being saved. -/
def State.timerDue (s : State) (tm : Team) (hd : Hand) : Bool :=
  (tm.st == .running || tm.st == .saving) && !s.launchDead tm.part tm.launch && hd.tmr != 0 && decide (hd.tmr.toNat ≤ tm.rcyc)

/-- R86: the timer becomes pending: tmr becomes 0 with `hs.tf` set, and the threads parked by PARK wake (R219). -/
def Hand.timerFires (hd : Hand) : Hand :=
  let wake (x : Thread) : Thread :=
    if x.st == .parked && x.wait == .park then { x with st := .unparked, wait := .none } else x
  hd.settle { ({ hd with tmr := 0, tp := true }).setHs hsTf with threads := hd.threads.map wake }

/-- BLOCK_CHOICE (R23): end the visit, deliver the timer, take the census and choose, wrap, park or retire. A timer that
has come due by this cycle is pending at the boundary (R86). -/
def execBlockChoice (t h : Nat) (s : State) : Out :=
  match s.team? t, s.hand? t h with
  | some tm, some hd =>
    if !s.handLive tm || !hd.atBoundary then .next s
    else
      let s1 := if s.timerDue tm hd then s.updHand t h Hand.timerFires else s
      let (w, s') := s1.endBody tm h
      let (w', s') := (s'.timer tm h).choose tm h
      .next (if w || w' then s else s')
  | _, _ => .next s

/-- TIMER_PENDING (R86). -/
def execTimerPending (t h : Nat) (s : State) : Out :=
  match s.team? t, s.hand? t h with
  | some tm, some hd => if s.timerDue tm hd then .next (s.updHand t h Hand.timerFires) else .next s
  | _, _ => .next s

/-- R274: do barrier operations that a FENCE of the hand waits for have still to be performed? -/
def State.fencing (s : State) (hd : Hand) : Bool := (s.arrivals ++ s.heldArr).any fun a => hd.fence.contains a.id

/-- R74, R91: must the write to `d` wait? A move of the resident entries waits for the pending results of its thread
that belong to entries it takes out. (DESIGN CHOICE, log 7.) -/
def Hand.frameWaits (hd : Hand) : Dst → Bool
  | .frame t lo hi _ => hd.pend.any fun p => match p.dst with
    | .ent u i => u == t && !decide (lo ≤ i ∧ i < hi)
    | _ => false
  | _ => false

/-- R294: the result of an ICINV is written once its fence has ended; until then the caches may take up the words again, so they are
dropped as it is written. -/
def State.invalidate (s : State) (tm : Team) (p : Pend) : State :=
  match p.inval with
  | some (first, count) => s.dropCode tm.part first count
  | none => s

/-- LONG_RESULT_WRITE (R88 to R91): a pending result that its unit has formed is written. The switch marker ends
with the last of them (R89). (DEDUCED, log 7.) -/
def execLongResultWrite (t h index : Nat) (s : State) : Out :=
  match s.team? t, s.hand? t h with
  | some tm, some hd =>
    match hd.pend[index]? with
    | some p =>
      match p.val with
      | none => .next s
      | some v =>
        if hd.frameWaits p.dst || (p.inval.isSome && s.fencing hd) then .next s
        else .next ((s.invalidate tm p).updHand t h fun hd => ({ hd.put p.dst v with pend := hd.pend.eraseIdx index }).unmark)
    | none => .next s
  | _, _ => .next s

/-! ### The next word -/

/-- What a move comes to: an instruction to execute, or a finished step. -/
inductive Move1
  | exec (i : Instr) (s : State)
  | out (o : Out)

/-- Is the hand ready to issue, as far as the sequencer is concerned (R36, R89)? -/
def State.handReady (s : State) (tm : Team) (hd : Hand) : Bool :=
  s.handLive tm && hd.phase == .visit && hd.busy == 0 && hd.act != 0 && decide (hd.off < hd.blen)
    && (!hd.sw || hd.pend.isEmpty)

/-- The header fields of a word 0 (R196). -/
def hdrOf (w : Dword) : Hdr := (Raw.ofWords w 0).h

/-- R207: a failure of checks 1 to 4. The threads are those of the predicate, or every active thread where the
word names no predicate that can be evaluated: U = 1 with PR[2] = 1, and a header (R16, R17). (DEDUCED, log 54.) -/
def State.badWord (s : State) (i : Iss) (w : Dword) : Out :=
  let h := hdrOf w
  let ts := if fld w 63 56 = 1 || h.u && h.pr.getLsbD 2 then i.hd.actives else i.hd.parts h
  .next ((s.takeFaults i.c.team i.c.hix i.c.addr (ts.map fun t => (t, { cause := 1 }))).advance i h)

/-- R365: the active threads take a fetch fault of a body word; nothing issues. -/
def State.fetchFault (s : State) (t h : Nat) (hd : Hand) (addr : CodeAddr) (f : Flt) : State :=
  (s.takeFaults t h addr (hd.actives.map fun x => (x, f))).updHand t h fun hd => { hd with how := .abandoned }

/-- R207: does word 0 alone fail check 1 or 3? These come before anything that the extension could fail. -/
def failsEarly (w0 : Dword) : Bool :=
  match decode w0 0 with
  | .error .unassigned | .error .form => true
  | _ => false

/-- R274: the instructions that a waiting FENCE holds back. -/
def fencedInstr : Instr → Bool
  | .ld .. | .ldDisp .. | .st .. | .stDisp .. | .lds .. | .ldsDisp .. | .sts .. | .stsDisp .. | .ldc .. | .ldcDisp ..
  | .pref .. | .prefDisp .. | .atom .. | .atomDisp .. | .atomc .. | .atomcDisp .. | .red .. | .redDisp .. | .fence ..
  | .bari .. | .bara .. | .bart .. | .barw .. | .cpy .. | .cpyx .. | .qfence .. | .evpop .. | .evwait .. | .card ..
  | .joinDecrement .. | .joinArm .. | .wlapp .. | .wlpop .. | .qscn .. | .amsg .. | .icinv .. | .tlbh .. => true
  | _ => false

/-- The other instructions that read or write memory, or start a unit that does. -/
def touchesMem : Instr → Bool
  | .got .. | .sysc .. | .wrsrWlo .. | .mlda .. | .mldl .. | .mlds .. | .mldpPin .. | .mldpUnpin .. | .mldv .. | .mldq .. | .mma ..
  | .mmas .. | .adrn .. | .arel .. | .drpn .. | .drun .. | .drsv .. | .delta .. => true
  | _ => false

/-- The instructions that perform, as they issue, what the hand has issued before them: those but for the accesses that wait behind it
in the hand's buffer, and those that only wait for records. -/
def flushes (i : Instr) : Bool :=
  match i with
  | .ld .. | .ldDisp .. | .st .. | .stDisp .. | .lds .. | .ldsDisp .. | .sts .. | .stsDisp .. | .ldc .. | .ldcDisp ..
  | .pref .. | .prefDisp .. | .atom .. | .atomDisp .. | .atomc .. | .atomcDisp .. | .red .. | .redDisp .. | .bari .. | .bart ..
  | .evpop .. | .evwait .. => false
  | _ => fencedInstr i || touchesMem i

/-- Must the instruction wait: R274, for the barrier operations of a FENCE; R140, R276, for the sample of a BART, which is an acquire
of what the hand does after it, and for a BARI, which is performed before that (DEDUCED, log 40); R340, until the writes that it
performs as it issues fit the budgets? -/
def State.memHeld (s : State) (tm : Team) (hd : Hand) (i : Instr) : Bool :=
  (fencedInstr i && s.fencing hd) ||
  ((fencedInstr i || touchesMem i) && s.arrivals.any fun a => a.kind != .arrive && a.team == hd.team && a.hix == hd.hix) ||
  (flushes i && !s.flushPaid tm hd)

/-- R308: AALC and AFRE. -/
def bankInstr : Instr → Bool
  | .aalc .. | .afre .. => true
  | _ => false

/-- R308: the order in which AALC and AFRE of one cycle are applied. -/
def Hand.bankFirst (a b : Hand) : Bool :=
  if a.resStart ≠ b.resStart then decide (a.resStart < b.resStart)
  else if a.quad ≠ b.quad then decide (a.quad < b.quad) else decide (a.slot < b.slot)

/-- R36: may the default policy let the hand issue in this cycle: it has not issued in it, and of its quadrant fewer
than two hands have? -/
def State.turnLeft (s : State) (tm : Team) (hd : Hand) : Bool :=
  !s.turn.contains (hd.team, hd.hix) && decide ((s.turn.filter fun x => match s.team? x.1, s.hand? x.1 x.2 with
    | some t, some o => t.core == tm.core && o.quad == hd.quad
    | _, _ => false).length < 2)

/-- The hand's next word is an AALC or AFRE, and it can issue in this cycle. -/
def State.bankNext (s : State) (tm : Team) (hd : Hand) : Bool :=
  s.handReady tm hd && s.turnLeft tm hd &&
    (match (s.fetch tm.core (s.pasidOf tm) tm.part (hd.pos + 1 + BitVec.ofNat 30 hd.off) hd.privT).1 with
      | .word w => (match decode w 0 with | .ok i => bankInstr i | .error _ => false)
      | _ => false)

/-- R308: must the AALC or AFRE wait for that of a hand of another quadrant, which comes first in this cycle? -/
def State.bankHeld (s : State) (tm : Team) (hd : Hand) (i : Instr) : Bool :=
  bankInstr i && s.hands.any fun o => o.team == tm.id && o.quad != hd.quad && o.bankFirst hd && s.bankNext tm o

/-- Fetch and decode the hand's next body word (R207 checks 1 to 4). -/
def State.issueHand (s : State) (t h : Nat) : Move1 :=
  match s.team? t, s.hand? t h with
  | some tm, some hd =>
    if !s.handReady tm hd then .out (.next s)
    else
      let addr := hd.pos + 1 + BitVec.ofNat 30 hd.off
      let pasid := s.pasidOf tm
      match s.fetch tm.core pasid tm.part addr hd.privT with
      | (.wait, _) => .out (.next s)
      | (.fail c d0 d1, s) => .out (.next (s.fetchFault t h hd addr { cause := c, d0, d1 }))
      | (.word w0, s) =>
        let long := isLong (w0.extractLsb' 56 8)
        let cur (w1 : Dword) : Cur := ⟨t, h, addr, if long then 2 else 1, w0, w1⟩
        if long && (failsEarly w0 || decide (hd.blen ≤ hd.off + 1)) then .out (s.badWord ⟨cur 0, tm, hd⟩ w0)
        else
          let run (s : State) (w1 : Dword) : Move1 := match decode w0 w1 with
            | .ok i => if s.memHeld tm hd i || s.bankHeld tm hd i then .out (.next s) else .exec i { s with cur := some (cur w1) }
            | .error _ => .out (s.badWord ⟨cur w1, tm, hd⟩ w0)
          if !long then run s 0
          else match s.fetch tm.core pasid tm.part (addr + 1) hd.privT with
            | (.wait, s) => .out (.next s)
            | (.fail c d0 d1, s) => .out (.next (s.fetchFault t h hd (addr + 1) { cause := c, d0, d1 }))
            | (.word w1, s) => run s w1
  | _, _ => .out (.next s)

/-! ### Which step comes when the schedule is empty (DESIGN CHOICE, log 3) -/

/-- R37: trump class first, then the earliest residency start, then the lowest slot. -/
def Hand.before (a b : Hand) : Bool :=
  if a.trump != b.trump then a.trump
  else if a.resStart ≠ b.resStart then decide (a.resStart < b.resStart) else decide (a.slot ≤ b.slot)

/-- Work on its way that needs nothing more: results, arrivals and their reports, appends, bank and channel requests,
buffered writes, acknowledgements; last, the clock ticks (DESIGN CHOICE, log 3). -/
def State.idleMoves (s : State) : List Instr :=
  let results := s.hands.flatMap fun hd => (idxs hd.pend.length fun i =>
    match hd.pend[i]? with | some p => p.val.isSome | none => false).map fun i => Instr.longResultWrite hd.team hd.hix i
  let arrivals := (List.range s.arrivals.length).map Instr.barrierArrivalApply
  let reports := (idxs s.heldArr.length fun i =>
    match s.heldArr[i]? with | some a => !a.reported | none => false).map Instr.barrierHeldReport
  let appends := (idxs s.dies.length fun d => match s.die? d with | some x => !x.appends.isEmpty | none => false).map fun d => Instr.compactionAppend d 0
  let banks := s.cores.flatMap fun c => (c.2.bankQ.map (·.bank)).eraseDups.map fun b => Instr.scratchpadBankAccess c.1 b
  let chans := s.chanQ.map fun c => Instr.hbmAccess (c.1 / 64) (c.1 % 64)
  let writes := (s.hands.filter fun hd => !hd.sbuf.isEmpty).map fun hd => Instr.homeSliceRequest hd.team hd.hix false
  let reads := s.cores.flatMap fun c => c.2.reads.map fun r => Instr.homeSliceRequest r.team r.hix false
  let acks := s.cores.flatMap fun c =>
    (idxs c.2.origins.length fun i => match c.2.origins[i]? with | some o => o.performed != 0 | none => false).map
      fun i => Instr.requestDrain c.1 i
  results ++ arrivals ++ reports ++ appends ++ banks ++ chans ++ reads ++ writes ++ acks ++ [.activityCounterRefill]

/-- The steps that the default policy tries, in order, when the schedule is empty: timers come due; the ready hands
issue (R37), each once a cycle and two of a quadrant (R36); hands at a boundary choose; then `idleMoves`
(DESIGN CHOICE, log 3). -/
def State.defaultMoves (s : State) : List Move :=
  let of (f : Team → Hand → Bool) : List Hand := s.hands.filter fun hd => match s.team? hd.team with
    | some tm => f tm hd
    | none => false
  (of s.timerDue).map (fun hd => .event (.timerPending hd.team hd.hix))
    ++ (sortBy Hand.before (of fun tm hd => s.handReady tm hd && s.turnLeft tm hd)).map (fun hd => .issue hd.team hd.hix)
    ++ (of fun tm hd => s.handLive tm && hd.atBoundary).map (fun hd => .event (.blockChoice hd.team hd.hix))
    ++ s.idleMoves.map .event

/-- The default policy takes the first of these steps that changes anything: a hand that must wait (R36 'not ready', R12)
is passed over. -/
def State.tryMoves (s : State) (run : State → Move → Out) : List Move → Out
  | [] => .next s
  | m :: r =>
    match run s m with
    | .next t =>
      if t = s ∨ t = { s with cur := none } then s.tryMoves run r
      else match m with
        | .issue a b => .next { t with turn := (a, b) :: t.turn }
        | .event .activityCounterRefill => .next { t with turn := [] }
        | .event _ => .next t
    | o => o

/-- R395, R344: the package has stopped: after a fatal error, or halted by a stage of the boot chain that failed. -/
def State.halted (s : State) : Bool := s.stopped.isSome || s.bootHalt.isSome

/-- Is the step the only one a stopped package takes (R395)? -/
def isReset : Move → Bool
  | .event .reset => true
  | _ => false

/-- Carry a move to the instruction it executes. A device step is one of the table's rows without an instruction
word; a word is executed only by the hand that fetches it. -/
def State.take (s : State) (m : Move) : Move1 :=
  if s.halted && !isReset m then .out (.fault .packageStopped)
  else match m with
    | .issue t h => s.issueHand t h
    | .event i => if i.isWord then .out (.next s) else .exec i { s with cur := none }

end Sys2Proof.Machine
end

