-- ==== Sys2Proof/Machine/Teams.lean ====
section
/-! DEFINITION. Teams and launches: starting (R20, R51, R56), active messages (R62), retiring (R57), quiescence (R63),
a failed launch (R382) and imprecise stores (R381). -/

namespace Sys2Proof.Machine

/-! ### Starting a team -/

/-- R45: the threads that hand `hix` of a team has. -/
def threadsOf (threads hix : Nat) : Nat := min 128 (threads - 128 * hix)

/-- R51: a hand as it starts: k0 to k7 from the card, WA at ENTRY, all else zero. -/
def newHand (t : Team) (hix quad slot start : Nat) : Hand :=
  let c := t.card
  let k := [lo32 c.w1, (hi32 c.w1) &&& 0xFFFFF#32, lo32 c.w6, hi32 c.w6, lo32 c.w7, hi32 c.w7, lo32 c.w2,
    (hi32 c.w2) &&& 0xFFFFF#32]
  { team := t.id, hix, quad, slot, resStart := start, k := SMap.setRun 0 [] 0 k,
    threads := List.replicate (threadsOf t.threads hix) { wa := c.entry } }

/-- The hands of a team, in ascending hix. -/
def newHands (t : Team) (start : Nat) : List Hand := t.quads.mapIdx fun i q => newHand t i q.1 q.2 start

/-- R20, R18: the fault that every thread takes when the card's block cannot be entered. -/
def State.entryBad (s : State) (t : Team) : Option Res × State :=
  match s.checkWa t false t.card.entry with
  | (.done, s) =>
    match s.fetch t.core (s.pasidOf t) t.part t.card.entry false with
    | (.word w, s) => (if hdrEntry w then none else some (.flt { cause := 1 }), s)
    | (_, s) => (none, s)
  | (r, s) => (some r, s)

/-- One team starts: its hands are made, and take Illegal-Instruction when the block lacks ENTRY. -/
def State.startTeam (s : State) (t : Team) : State :=
  let s := { s.updTeam t.id fun x => { x with st := .running, placeAt := s.cyc, rcyc0 := x.rcyc }
    with hands := s.hands ++ newHands t s.cyc }
  match s.entryBad t with
  | (some (.flt f), s) => (List.range t.quads.length).foldl (fun s h => match s.hand? t.id h with
      | some hd => s.takeFaults t.id h t.card.entry ((List.range hd.threads.length).map fun x => (x, f))
      | none => s) s
  | (_, s) => s

/-- TEAM_START (R56, R20, R51): the placed teams of a card begin in the same cycle. -/
def execTeamStart (team : Nat) (s : State) : Out :=
  match s.team? team with
  | none => .next s
  | some t =>
    if t.st != .placed || s.launchDead t.part t.launch then .next s
    else
      let ts := (s.mates t).filter fun x => x.st == .placed
      if ts.any fun x => (s.entryBad x).1 == some .wait then .next s else .next (ts.foldl (fun s x => s.startTeam x) s)

/-! ### Active messages (R62) -/

/-- R62: messages that a core's queue holds. -/
def msgMax : Nat := 64

/-- AM_ARRIVAL (R62, R52, R293): the next message on its way to a core arrives, when its queue has room. One that the
dealer rejects fails the launch; those of a failed launch are dropped (R382). Messages of different hands arrive in the order of
their issue too (DESIGN CHOICE, log 60). -/
def execAmArrival (core : Nat) (s : State) : Out :=
  match s.amFlight.findIdx? fun m => m.core == core with
  | none => .next s
  | some i =>
    match s.amFlight[i]? with
    | none => .next s
    | some m =>
      let s' := { s with amFlight := s.amFlight.eraseIdx i }
      if s.launchDead m.part m.launch then .next s'
      else if m.card.rejected true then .next (s'.failL m.part m.launch { cause := 1 })
      else if msgMax ≤ (s.core core).msgs.length then .next s
      else .next (s'.updCore core fun c => { c with msgs := c.msgs ++ [m] })

/-- AM_TEAM_START (R62, R51): a handler team of one hand starts when a quadrant can take it, on a core that is held for a card too
(DESIGN CHOICE, log 60). In replay a message without a trace entry fails the launch (R67). -/
def execAmTeamStart (core : Nat) (s : State) : Out :=
  match (s.core core).msgs with
  | [] => .next s
  | m0 :: _ =>
    match s.launch? m0.part m0.launch with
    | none => .next (s.updCore core fun c => { c with msgs := c.msgs.drop 1 })
    | some l =>
      if l.dmode = 2 && l.untraced 1 m0.card.w5 then .next (s.failL m0.part m0.launch { cause := 0x16 })
      else match s.nextMsg core with
        | none => .next s
        | some (i, m) =>
          match s.fits core noneGone true (needOf l.record m.card) with
          | none => .next s
          | some p =>
            let s' := s.updCore core fun c => { c with msgs := c.msgs.eraseIdx i }
            if l.st != .live then .next s'
            else if s.traceWaits l 1 then .next s
            else
              let (id, s') := s'.fresh
              let t := newTeam l m.card id ⟨m.card.w5, m.n, m.x, m.y, m.z, m.lix⟩ core p none .placed
              if (s'.entryBad t).1 == some .wait then .next s
              else
                let s' := { s' with teams := s'.teams ++ [t] }.tracePlace m.part m.launch core 1 m.card.w5
                .next (s'.startTeam t)

/-! ### Retiring (R57) -/

/-- The ephemeral residencies of a team end (R155). -/
def State.endMelds (s : State) (t : Nat) : State := s.dropResids fun r => r.team == some t

/-- Does the team still hold origin entries or engine entries, or has it a barrier operation on its way (R57, R297, R380)? -/
def State.teamBusy (s : State) (t : Team) : Bool :=
  s.cores.any (fun c => c.2.origins.any (fun o => o.team == t.id) || c.2.entries.any fun e => e.team == t.id)
    || s.arrivals.any (fun a => a.team == t.id) || (s.handsOf t.id).any fun h => !h.sbuf.isEmpty || s.appending t.id h.hix

/-- Is a place in the team's share? -/
def Team.ownShare (t : Team) : Loc → Bool
  | .slice c o => c == t.core && decide (t.sbase ≤ o ∧ o < t.sbase + t.share)
  | .mem _ => false

/-- The place of a saved team's share: a core number that no core has. -/
def savedCore (id : Nat) : Nat := Config.cores + id

/-- R57 step 2: the team's resources are free. Reductions that others hold to its share go with the share (DESIGN CHOICE, log 69). -/
def State.freeTeam (s : State) (t : Team) : State :=
  let s := s.endMelds t.id
  let stays (x : HeldRed) : Bool := !(t.ownShare x.w.loc || x.w.slice == some (savedCore t.id))
  let s := { s with
    cores := s.cores.map fun (c : Nat × Core) => (c.1, { c.2 with heldRed := c.2.heldRed.filter stays })
    teams := s.teams.map fun (x : Team) => { x with heldRed := x.heldRed.filter stays }
    hands := s.hands.filter fun h => h.team != t.id
    heldArr := s.heldArr.filter fun a => !t.ownShare a.loc
    phases := s.phases.filter fun x => x.2.2 != t.id }
  s.updTeam t.id fun x => { x with
    st := .gone, acc := 0, accPhys := [], alloc := 0, claims := [], accMem := [], evRes := 0, records := [], subs := [],
    quads := [] }

/-- R57 step 3: the join counter is told, as a release. A counter on an uncorrectable line is reported (R381, R393). -/
def State.tellJoin (s : State) (t : Team) : State :=
  if t.card.join = 0 then s
  else
    let who : RecArgs := { cause := 0, cls := 6, core := t.core, lid := t.lid }
    let s := s.flushAll
    match s.homeAcc (s.pasidOf t) t.card.join 16 .atomic with
    | (.error none, s) => s
    | (.error (some f), s) => s.failLaunch t.part t.launch (who.of f)
    | (.ok pa, s) =>
      if s.badLoc (.mem pa) 16 then
        s.failLaunch t.part t.launch { who with
          cause := 0x1B, cls := 5, d0 := BitVec.ofNat 64 t.card.join, d1 := BitVec.ofNat 64 (s.badReason (.mem pa) 16) }
      else s.joinDec t.part t.launch (s.pasidOf t) pa who

/-- R368: must telling the join counter wait for the host: for the counter, or for what is done as it reaches zero? -/
def State.tellWaits (s : State) (t : Team) : Bool :=
  t.card.join != 0 && (match (s.homeAcc (s.pasidOf t) t.card.join 16 .atomic).1 with
    | .ok pa => !s.zeroReady t.part t.launch (s.pasidOf t) pa
    | .error f => f.isNone)

/-- TEAM_RETIRE (R57): all hands have retired and every write is performed. In D mode the reductions that the core
holds for the team are applied (R69). -/
def execTeamRetire (team : Nat) (s : State) : Out :=
  match s.team? team with
  | none => .next s
  | some t =>
    let hs := s.handsOf team
    let ended := hs.all fun h => h.phase == .retired && h.pend.isEmpty
    if t.st != .running || !ended || hs.isEmpty || s.teamBusy t || s.launchDead t.part t.launch || s.tellWaits t || s.heldWaits (s.coreHeld team)
      then .next s
    else .next (((s.applyHeldCore t).freeTeam t).tellJoin t)

/-! ### Quiescence (R63) -/

/-- R63: is a card of the launch waiting, at a dealer, in a message queue or at a counter that is not zero? -/
def State.cardsLive (s : State) (l : Launch) : Bool :=
  s.dies.any (fun d => d.deal.any fun c => c.part == l.part && c.launch == l.handle)
    || s.amFlight.any (fun m => m.part == l.part && m.launch == l.handle)
    || s.cores.any (fun c => c.2.msgs.any fun m => m.part == l.part && m.launch == l.handle)
    || l.armed.any fun pa => fld (s.wordAt pa) 31 0 != 0

/-- R63, R380: is the launch quiescent? -/
def State.quiescent (s : State) (l : Launch) : Bool :=
  let mine (t : Team) : Bool := t.part == l.part && t.launch == l.handle
  let owns (id : Nat) : Bool := s.teams.any fun t => t.id == id && mine t
  !s.cardsLive l && s.teams.all (fun t => !mine t || t.st == .gone)
    && s.cores.all fun c => c.2.origins.all (fun o => !(o.part == l.part && o.launch == l.handle))
        && c.2.entries.all fun e => !owns e.team

/-- QUIESCENCE_REPORT (R63): the launch ends. In D mode the reductions still held are applied first (R69); among them those of a team
whose JOIN counter has not reached zero (DESIGN CHOICE, log 69). -/
def execQuiescenceReport (part handle : Nat) (s : State) : Out :=
  match s.launch? part handle with
  | none => .next s
  | some l =>
    let fin := match l.st with
      | .live => some LaunchSt.ended
      | .failed => some LaunchSt.endedFailed
      | _ => none
    match fin with
    | none => .next s
    | some st =>
      if !s.quiescent l || s.heldWaits ((s.teamsOf part handle).flatMap (·.heldRed)) then .next s
      else
        let s := s.applyHeldTeams ((s.teamsOf part handle).map (·.id))
        let s := { s with teams := s.teams.filter fun t => !(t.part == part && t.launch == handle) }
        .next ((s.updLaunch part handle fun l => { l with st }).flushAll)

/-! ### Failure (R381, R382) -/

/-- The loads of a team that stops are answered to nobody; their request slots are free. -/
def State.dropReads (s : State) (t : Nat) : State :=
  let queued (core : Nat) : Nat := (s.chanQ.map fun q => (q.2.filter fun r => match r.read with
    | some x => x.team == t && x.core == core
    | none => false).length).foldl (· + ·) 0
  { s with
    cores := s.cores.map fun (c : Nat × Core) => (c.1, { c.2 with
      reads := c.2.reads.filter fun r => r.team != t
      bankQ := c.2.bankQ.filter fun r => r.team != t
      slots := c.2.slots - (c.2.reads.filter fun r => r.team == t).length - queued c.1 })
    chanQ := s.chanQ.map fun q => (q.1, q.2.map fun r => match r.read with
      | some x => if x.team == t then { r with read := none } else r
      | none => r) }

/-- The fills under way of a team's entries are abandoned (R151). -/
def State.stopFills (s : State) (t : Nat) : State :=
  (s.cores.flatMap fun c => (c.2.entries.filter fun e => e.team == t && e.filling).map fun e => (c.1, e.resid)).foldl
    (fun s x => s.stopFill x.1 x.2) s

/-- R382 step 3 and 4: a team of a failed launch stops; its issued writes drain, its entries are discarded. -/
def State.stopTeam (s : State) (t : Team) : State :=
  let s := (s.handsOf t.id).foldl (fun s h => s.flushHand t.id h.hix) s
  let s := (s.dropReads t.id).stopFills t.id
  let orgs := (s.cores.flatMap fun c => c.2.entries.filter fun e => e.team == t.id).map (·.org)
  let done (o : Origin) : Origin := if o.team == t.id && orgs.contains o.id then { o with performed := o.undrained } else o
  let s := s.updCores fun c => { c with
    entries := c.entries.filter fun e => e.team != t.id
    origins := c.origins.map done }
  let s := s.updCores fun c => { c with
    resid := c.resid.filter fun r => !r.dead || c.entries.any fun e => e.resid == r.id }
  let s := { s with
    arrivals := s.arrivals.filter fun a => a.team != t.id
    heldArr := s.heldArr.filter fun a => a.team != t.id
    kept := s.kept.filter fun k => k.team != t.id }
  (s.applyHeldCore t).freeTeam t

/-- The die's cards of a launch, the cores held for them and its staged items go. -/
def Die.forget (part handle : Nat) (d : Die) : Die :=
  let mine (c : DealCard) : Bool := c.part == part && c.launch == handle
  { d with
    deal := d.deal.filter fun c => !mine c
    heldFor := d.heldFor.filter fun x => !(d.deal.any fun c => mine c && c.id == x.1)
    staged := d.staged.filter fun a => !(a.part == part && a.launch == handle) }

/-- LAUNCH_FAIL (R382): a launch that has failed loses its cards and messages, and its teams are stopped and freed. -/
def execLaunchFail (part handle : Nat) (s : State) : Out :=
  match s.launch? part handle with
  | none => .next s
  | some l =>
    if l.st != .failing || (s.teamsOf part handle).any (fun t => s.heldWaits (s.coreHeld t.id)) then .next s
    else
      let s := { s with
        dies := s.dies.map (Die.forget part handle)
        amFlight := s.amFlight.filter fun m => !(m.part == part && m.launch == handle) }
      let s := s.updCores fun c => { c with msgs := c.msgs.filter fun m => !(m.part == part && m.launch == handle) }
      let s := (s.teamsOf part handle).foldl (fun s t => if t.st == .gone then s else s.stopTeam t) s
      .next (s.updLaunch part handle fun l => { l with st := .failed, armed := [] })

/-- IMPRECISE_STORE (R381): the refusal or error of a write reaches the core, and names the threads whose request
failed: it fails the launch. -/
def execImpreciseStore (core index : Nat) (mask : BitVec 128) (va : Dword) (reason : Nat) (s : State) : Out :=
  match (s.core core).origins[index]? with
  | none => .next s
  | some o =>
    if (mask &&& o.mask) == 0 || 3 < reason then .next s
    else .next (s.imprecise core o (mask &&& o.mask) va reason)

end Sys2Proof.Machine
end

