-- ==== Sys2Proof/Machine/Hub.lean ====
section
/-! DEFINITION. The hub's services to hypervisor and kernel: assignments (R338 to R340), the control page and its rings
(R350), trap vectors (R372), the hand-state channel (R348, R349) and the fault-service channel (R376). -/

namespace Sys2Proof.Machine

/-! ### Hypervisor calls -/

/-- The answer of a call: 0 done, 1 refused. -/
def State.answer (s : State) (v : Dword) : State := { s with reply := [v] }

/-- The other partitions. -/
def State.others (s : State) (p : Nat) : List Part := (s.parts.filter fun x => x.1 != p).map (·.2)

/-- R338, R340, R352, R353: may the assignment be made? There are two ports of each kind (R9). The PASIDs that a partition's queues and
contexts use stay in its range, so that none of them comes to be in two partitions. -/
def State.assignOk (s : State) (p : Nat) : Assign → Bool
  | .clusters l => l.all (fun k => decide (k < 64)) && l.eraseDups == l && !l.isEmpty
      && (s.others p).all fun x => l.all fun k => !x.clusters.contains k
  | .pasids b n => decide (1 ≤ n ∧ n ≤ 4096 ∧ b + n ≤ 2 ^ 20)
      && ((s.others p).all fun x => decide (x.pasidBase + x.pasidCount ≤ b ∨ b + n ≤ x.pasidBase))
      && s.queues.all (fun q => q.part != p || q.dead || decide (b ≤ q.pasid ∧ q.pasid < b + n))
      && s.contexts.all fun c => c.2.part != p || !c.2.valid || decide (b ≤ c.1 ∧ c.1 < b + n)
  | .trapRegion b l => decide (b < l ∧ l ≤ 2 ^ 30)
  | .share a v => decide (a < 7 ∧ 1 ≤ v)
      && decide (((s.others p).map fun x => x.shares.get a 0).foldl (· + ·) v ≤ 1024)
  | .peers _ => true
  | .iface port _ _ => decide (port < 2)
  | .namespaces port l => decide (port < 2) && l.eraseDups == l
      && (s.others p).all fun x => l.all fun n => !(x.namespaces.get port []).contains n
  | .nvme port n => decide (port < 2) && decide (((s.others p).map fun x => x.nvme.get port 0).foldl (· + ·) n ≤ 64)

/-- What an assignment leaves. -/
def Part.assign (x : Part) : Assign → Part
  | .clusters l => { x with clusters := l }
  | .pasids b n => { x with pasidBase := b, pasidCount := n }
  | .trapRegion b l => { x with trapBase := b, trapLimit := l }
  | .share a v => { x with shares := x.shares.set a v 0 }
  | .peers m => { x with peers := m }
  | .iface port mac vlans => { x with ifaces := x.ifaces.filter (fun i => i.port != port) ++ [⟨port, mac, vlans⟩] }
  | .nvme port n => { x with nvme := x.nvme.set port n 0 }
  | .namespaces port l => { x with namespaces := x.namespaces.set port l [] }

/-- PARTITION_ASSIGN (R338, R340): done while the partition has no resident or saved team and nothing would be in two
partitions; otherwise refused, and nothing is changed. -/
def execPartitionAssign (part : Nat) (r : Assign) (s : State) : Out :=
  if 16 ≤ part || s.hasTeams part || !s.assignOk part r then .next (s.answer 1)
  else .next ((s.updPart part fun x => x.assign r).answer 0)

/-- CONTROL_PAGE_SET (R350): the base of the system-call ring (0), the hand-state ring (1) or the fault-service ring
(2), in pages of the partition's HBM, while it has no resident or saved team. -/
def execControlPageSet (part which : Nat) (base : Dword) (s : State) : Out :=
  let (align, size) := if which = 0 then (65536, 262144) else (8192, 8192)
  if 16 ≤ part || 3 ≤ which || s.hasTeams part || base.toNat % align != 0 || !s.stageRun part base.toNat size then
    .next (s.answer 1)
  else .next ((s.updPart part fun x =>
    if which = 0 then { x with scBase := base } else if which = 1 then { x with hsBase := base } else { x with fsBase := base }).answer 0)

/-- R339: the pins that are at the head of their queues when a limit is written keep the old one. -/
def State.keepLimits (s : State) (part kitty : Nat) : State :=
  let old := (s.part part).kitty.get kitty 0
  let heads (c : Core) : List Nat := ([8, 9].filterMap fun q => c.entries.find? fun e => e.queue == q).map (·.id)
  let pin (c : Core) (e : Entry) : Bool := (heads c).contains e.id && e.kind == .meld && e.op == 0xA3#8 && bit e.w0 12
    && Desc.kitty e.copy == kitty && e.limit.isNone
  { s with cores := s.cores.map fun (c : Nat × Core) =>
      if (s.part part).hasCore c.1 then
        (c.1, { c.2 with entries := c.2.entries.map fun e => if pin c.2 e then { e with limit := some old } else e })
      else c }

/-- R339: on each core, is the kitty's count over a limit that was lowered below it, with `limit` written now? -/
def Core.limited (c : Core) (kitty limit : Nat) : Core :=
  let n := c.kittySlots kitty
  { c with overLimit := (c.overLimit.filter fun k => k != kitty) ++ (if limit < n || (c.overLimit.contains kitty && limit = n) then [kitty] else []) }

/-- KITTY_LIMIT_WRITE (R339): no pin is removed; the limit holds for entries that reach the head of their queue later. -/
def execKittyLimitWrite (part kitty limit : Nat) (s : State) : Out :=
  if 16 ≤ part || 16 ≤ kitty || 16 < limit then .next s
  else
    let s := s.keepLimits part kitty
    let s := { s with cores := s.cores.map fun (c : Nat × Core) =>
                        if (s.part part).hasCore c.1 then (c.1, c.2.limited kitty limit) else c }
    .next (s.updPart part fun x => { x with kitty := x.kitty.set kitty limit 0 })

/-- R368: has the host still to translate the code address? -/
def State.codeWaits (s : State) (p : Nat) (a : CodeAddr) : Bool :=
  let cs := s.contexts.filter fun c => c.2.part == p && c.2.valid && !c.2.dead
  match minBy (fun (c : Nat × Context) => c.1) cs with
  | none => false
  | some c => (s.walkVa c.1 ((c.2.code.toNat + 8 * a.toNat) % 2 ^ 52) .fetch true).1.1 == .wait

/-- R372: the word at a code address of the partition, as memory stands: in its context of the lowest PASID (DEDUCED, log 27). -/
def State.codeWord (s : State) (p : Nat) (a : CodeAddr) : Option Dword :=
  let cs := s.contexts.filter fun c => c.2.part == p && c.2.valid && !c.2.dead
  (minBy (fun (c : Nat × Context) => c.1) cs).bind fun c =>
    match (s.walkVa c.1 ((c.2.code.toNat + 8 * a.toNat) % 2 ^ 52) .fetch true).1.1 with
    | .ok pa _ => some (s.wordAt pa)
    | _ => none

/-- R372: is the word at the address a well-formed header with TRAPENT = 1? -/
def State.isTrapent (s : State) (p : Nat) (a : CodeAddr) : Bool :=
  match s.codeWord p a with
  | some w => fld w 63 56 == 1 && !hdrMalformed (s.part p) a w && hdrTrapent w
  | none => false

/-- R372: causes that may not be delivered in-hand. -/
def neverInHand (cause : Nat) : Bool := [0x00, 0x16, 0x19, 0x1B, 0x1C, 0x1D, 0x1E, 0x1F].contains cause

/-- TRAP_VECTOR_WRITE (R372). It waits for the host's answer to the handler's address (R368). -/
def execTrapVectorWrite (part cause : Nat) (value : Dword) (s : State) : Out :=
  let bad := fld value 62 30 != 0
    || (bit value 63 && (neverInHand cause || !s.isTrapent part (value.extractLsb' 0 30)))
  if bit value 63 && s.codeWaits part (value.extractLsb' 0 30) then .next s
  else if 16 ≤ part || 32 ≤ cause || bad then .next (s.answer 1)
  else .next ((s.updPart part fun x => { x with vectors := x.vectors.set cause value 0 }).answer 0)

/-- R350: the fields of the control page. -/
inductive PageField
  | scBase | scProd | scCons | hsBase | hsProd | hsCons | fsBase | fsProd | fsCons
  deriving DecidableEq, Repr

/-- R350: their offsets and widths in bytes. -/
def pageFields : List (Nat × Nat × PageField) :=
  [(0x000, 8, .scBase), (0x008, 4, .scProd), (0x00C, 4, .scCons), (0x010, 8, .hsBase), (0x018, 4, .hsProd), (0x01C, 4, .hsCons),
   (0x020, 8, .fsBase), (0x028, 4, .fsProd), (0x02C, 4, .fsCons)]

/-- R350: what a field holds. -/
def Part.field (x : Part) : PageField → Nat
  | .scBase => x.scBase.toNat
  | .scProd => x.scProd.toNat
  | .scCons => x.scCons.toNat
  | .hsBase => x.hsBase.toNat
  | .hsProd => x.hsProd.toNat
  | .hsCons => x.hsCons.toNat
  | .fsBase => x.fsBase.toNat
  | .fsProd => x.fsProd.toNat
  | .fsCons => x.fsCons.toNat

/-- R350: the byte at an offset of the control page; 0x030 to 0xFFF read 0. -/
def Part.pageByte (x : Part) (off : Nat) : Byte :=
  match pageFields.find? fun f => decide (f.1 ≤ off ∧ off < f.1 + f.2.1) with
  | some f => BitVec.ofNat 8 (x.field f.2.2 / 256 ^ (off - f.1))
  | none => 0

/-- R350: PROD is written; a write that would leave more than 256 commands is ignored. -/
def newProd (prod cons v : Word) : Word := if 256 < (v - cons).toNat then prod else v

/-- R350: the partition kernel writes a field: it writes SCCONS, HSPROD and FSPROD, and only reads the others; the reserved offsets
ignore a write. -/
def Part.kernelWrite (x : Part) (f : PageField) (v : Word) : Part :=
  match f with
  | .scCons => if Config.ringRecords < (x.scProd - v).toNat then x else { x with scCons := v }
  | .hsProd => { x with hsProd := newProd x.hsProd x.hsCons v }
  | .fsProd => { x with fsProd := newProd x.fsProd x.fsCons v }
  | _ => x

/-- SCCONS_WRITE (R350): a write that would leave more than 4096 records unread is ignored. -/
def execScconsWrite (part : Nat) (value : Word) (s : State) : Out :=
  if Config.ringRecords < ((s.part part).scProd - value).toNat then .next s
  else .next (s.updPart part fun x => x.kernelWrite .scCons value)

/-! ### The hand-state channel (R348, R349) -/

def stDone : Nat := 0
def stRefused : Nat := 1
def stEnded : Nat := 2
def stMalformed : Nat := 3

/-- What a command comes to: its STATUS and VALUE, or it is held for a team that does not run. -/
inductive CmdRes
  | status (n : Nat) (value : Option Word)
  | held
  deriving DecidableEq, Repr

/-- SEL of R348. -/
inductive Sel
  | reg (n : Nat) | pred (n : Nat) | number | bad
  deriving DecidableEq, Repr

def selOf (v : Nat) : Sel :=
  if v ≤ 0x1E then .reg v else if 0x20 ≤ v ∧ v ≤ 0x26 then .pred (v - 0x20) else if v = 0x7F then .number else .bad

/-- The team of a command: running, or the place where it waits. -/
def State.cmdTeam (s : State) (p h : Nat) (lid : Dword) : Option Team :=
  s.teams.find? fun t => t.part == p && t.launch == h && t.lid == lid && t.st != .gone

/-- R349: may a hand-state command act on the thread? -/
def Thread.served (x : Thread) : Bool :=
  x.st == .parked && (match x.wait with | .sysc _ | .park => true | _ => false)

/-- A hand-state command of a running team. -/
def State.hsApply (s : State) (t : Team) (ws : List Dword) : CmdRes × State :=
  let w0 := ws.getD 0 0
  let op := fld w0 63 56
  let sel := selOf (fld w0 55 48)
  let tid := fld w0 47 41
  let hix := fld w0 40 35
  let v := lo32 (ws.getD 3 0)
  match s.hand? t.id hix with
  | none => (.status stRefused none, s)
  | some hd =>
    let x := hd.thr tid
    let upd (f : Thread → Thread) : CmdRes × State := (.status stDone none, s.updHand t.id hix fun hd => hd.updThr tid f)
    if !x.served then (.status stRefused none, s)
    else if op = 3 then (.status stDone none, s.updHand t.id hix fun hd => hd.unpark tid)
    else match sel with
      | .bad => (.status stMalformed none, s)
      | .number =>
        match x.wait with
        | .sysc n => if op = 1 then (.status stDone (some n), s) else (.status stRefused none, s)
        | _ => (.status stRefused none, s)
      | .reg n =>
        if op = 1 then (.status stDone (some (if x.resident t.depth (x.wb + n) then x.stack.get (x.wb + n) 0 else 0)), s)
        else upd fun x => if x.resident t.depth (x.wb + n) then x.setEnt (x.wb + n) v else x
      | .pred n =>
        if op = 1 then (.status stDone (some (if x.p.getLsbD n then 1 else 0)), s)
        else upd fun x => { x with p := setBit x.p n (v.getLsbD 0) }

/-- R348: a reserved field is nonzero, or OP or the SEL of a read or write is reserved. -/
def hsBad (ws : List Dword) : Bool :=
  let w (i : Nat) : Dword := ws.getD i 0
  (fld (w 0) 63 56 != 3 && selOf (fld (w 0) 55 48) == .bad) ||
  fld (w 0) 63 56 == 0 || 3 < fld (w 0) 63 56 || fld (w 0) 34 8 != 0 || fld (w 2) 31 0 != 0 || fld (w 3) 63 32 != 0

/-- R349: a hand-state command. `now`: the team is about to run again, so nothing is held. A team that has not started has no parked
thread. (DEDUCED, log 48.) -/
def State.hsCommand (s : State) (p : Nat) (now : Bool) (ws : List Dword) : CmdRes × State :=
  let h := fld (ws.getD 2 0) 63 32
  if hsBad ws then (.status stMalformed none, s)
  else match s.launch? p h with
    | none => (.status stRefused none, s)
    | some l =>
      if l.st.dead then (.status stEnded none, s)
      else match s.cmdTeam p h (ws.getD 1 0) with
        | none => (.status stRefused none, s)
        | some t => if t.st == .running || t.st == .placed || now then s.hsApply t ws else (.held, s)

/-! ### The fault-service channel (R376) -/

/-- The fault record of a launch with this SEQ (R376). -/
def Part.recordOf (x : Part) (h : Nat) (seq : Word) : Option RingRec :=
  x.ringLog.find? fun r => fld r.w2 63 32 == h && lo32 r.w2 == seq && fld r.w0 40 38 != 0

/-- The hand and the threads of a record that are still fault-parked. -/
def State.faulted (s : State) (p h : Nat) (seq : Word) (hix : Nat) (lid : Dword) : Option (Nat × Nat × List Nat) :=
  s.hands.findSome? fun hd => match s.team? hd.team with
    | some t =>
      let ts := idxs hd.threads.length fun i => (hd.thr i).st == .faultParked && (hd.thr i).wait == .fault seq.toNat
      if t.part == p && t.launch == h && t.lid == lid && hd.hix == hix && !ts.isEmpty then some (t.id, hix, ts) else none
    | none => none

/-- Resume: each thread gets its return address, checked at its level (R18, R213); one that fails takes the fault
afresh. (DEDUCED, log 51.) -/
def State.fsResume (s : State) (t : Team) (hix : Nat) (ts : List Nat) (a : CodeAddr) : Bool × State :=
  let one (i : Nat) (s : State) : Res × State :=
    match s.hand? t.id hix with
    | none => (.done, s)
    | some hd => match s.checkWa t (hd.thr i).tl a with
      | (.done, s) => (.done, s.updHand t.id hix fun hd => (hd.updThr i fun x => { x with wa := a }).unpark i)
      | r => r
  let ((w, fs), s) := runThreads one ts s
  (w, s.takeFaults t.id hix a fs)

/-- Retire: the threads retire; a parked hand makes its choice (R29). -/
def State.fsRetire (s : State) (t hix : Nat) (ts : List Nat) : State :=
  s.updHand t hix fun hd => hd.settle (ts.foldl Hand.retire hd)

/-- R376: a reserved field is nonzero, or OP is reserved. -/
def fsBad (ws : List Dword) : Bool :=
  let w (i : Nat) : Dword := ws.getD i 0
  fld (w 0) 63 56 == 0 || 3 < fld (w 0) 63 56 || fld (w 0) 55 8 != 0 || fld (w 2) 62 30 != 0 || w 3 != 0

/-- R376: a fault-service command. The flag says that an address cannot be read yet. -/
def State.fsCommand (s : State) (p : Nat) (now : Bool) (ws : List Dword) : Bool × CmdRes × State :=
  let w (i : Nat) : Dword := ws.getD i 0
  let h := fld (w 1) 63 32
  let op := fld (w 0) 63 56
  if fsBad ws then (false, .status stMalformed none, s)
  else match s.launch? p h with
    | none => (false, .status stRefused none, s)
    | some l =>
      if l.st.dead then (false, .status stEnded none, s)
      else match (s.part p).recordOf h (lo32 (w 1)) with
        | none => (false, .status stRefused none, s)
        | some r =>
          match s.cmdTeam p h r.w1 with
          | none => (false, .status stRefused none, s)
          | some t =>
            if t.st != .running && t.st != .placed && !now then (false, .held, s)
            else match s.faulted p h (lo32 (w 1)) (fld r.w0 46 41) r.w1 with
              | none => (false, .status stRefused none, s)
              | some (id, hix, ts) =>
                if op = 3 then
                  (false, .status stDone none, s.failLaunch p h
                    { cause := fld r.w0 63 56, cls := 6, core := t.core, hix, tl := bit r.w0 37, addr := r.w0.extractLsb' 0 30,
                      lid := r.w1, mask := maskOf ts, d0 := r.w6, d1 := r.w7 })
                else if op = 2 then (false, .status stDone none, s.fsRetire id hix ts)
                else
                  let a : CodeAddr := if bit (w 2) 63 then (w 2).extractLsb' 0 30 else r.w5.extractLsb' 34 30
                  let (wait, s') := s.fsResume t hix ts a
                  if wait then (true, .held, s) else (false, .status stDone none, s')

/-! ### The rings -/

/-- The address of a command. -/
def cmdAt (base : Dword) (i : Word) : Nat := base.toNat + i.toNat % 256 * 32

/-- Write the STATUS, and the VALUE that a read returns. -/
def State.cmdStatus (s : State) (a : Nat) (n : Nat) (v : Option Word) : State :=
  let s := s.hubWrite a [BitVec.ofNat 8 n]
  match v with
  | some x => s.hubWrite (a + 24) (toBytes 4 x.toNat)
  | none => s

/-- R350: CONS is final up to the oldest held command of the channel. -/
def Part.advance (x : Part) : Part :=
  let cons (fs : Bool) (taken : Word) : Word :=
    match x.heldCmds.find? fun c => c.fs == fs with
    | some c => c.index
    | none => taken
  { x with hsCons := cons false x.hsTaken, fsCons := cons true x.fsTaken }

/-- R349, R376: commands held for a launch that has failed or ended get STATUS 2. -/
def State.settleHeld (s : State) (p : Nat) : State :=
  let x := s.part p
  let lost (c : HeldCmd) : Bool :=
    let h := fld (c.words.getD (if c.fs then 1 else 2) 0) 63 32
    s.launchDead p h
  let s := (x.heldCmds.filter lost).foldl (fun s c =>
    s.cmdStatus (cmdAt (if c.fs then x.fsBase else x.hsBase) c.index) stEnded none) s
  s.updPart p fun x => ({ x with heldCmds := x.heldCmds.filter fun c => !lost c }).advance

/-- The words of a command in its ring. -/
def State.cmdWords (s : State) (a : Nat) : List Dword := (List.range 4).map fun j => s.wordAt (a + 8 * j)

/-- One step of the hand-state channel: PROD is written, and the next command is taken when it is of kind `op`, or
malformed. -/
def hsStep (op part : Nat) (prod : Word) (s : State) : Out :=
  let s := (s.updPart part fun x => x.kernelWrite .hsProd prod).settleHeld part
  let x := s.part part
  let a := cmdAt x.hsBase x.hsTaken
  let ws := s.cmdWords a
  if x.hsTaken == x.hsProd || (fld (ws.getD 0 0) 63 56 != op && !hsBad ws) then .next s
  else
    let s := s.updPart part fun x => { x with hsTaken := x.hsTaken + 1 }
    match s.hsCommand part false ws with
    | (.held, s) => .next (s.updPart part fun y => ({ y with heldCmds := y.heldCmds ++ [HeldCmd.mk false x.hsTaken ws] }).advance)
    | (.status n v, s) => .next ((s.cmdStatus a n v).updPart part Part.advance)

/-- One step of the fault-service channel. -/
def fsStep (op part : Nat) (prod : Word) (s : State) : Out :=
  let s := (s.updPart part fun x => x.kernelWrite .fsProd prod).settleHeld part
  let x := s.part part
  let a := cmdAt x.fsBase x.fsTaken
  let ws := s.cmdWords a
  if x.fsTaken == x.fsProd || (fld (ws.getD 0 0) 63 56 != op && !fsBad ws) then .next s
  else match s.fsCommand part false ws with
    | (true, _, _) => .next s
    | (false, .held, s) => .next (s.updPart part fun y =>
        ({ y with fsTaken := y.fsTaken + 1, heldCmds := y.heldCmds ++ [HeldCmd.mk true x.fsTaken ws] }).advance)
    | (false, .status n v, s) =>
      .next ((s.cmdStatus a n v).updPart part fun y => ({ y with fsTaken := y.fsTaken + 1 }).advance)

/-- HS_READ (R348, R349). -/
def execHsRead (part : Nat) (prod : Word) (s : State) : Out := hsStep 1 part prod s
/-- HS_WRITE (R348, R349). -/
def execHsWrite (part : Nat) (prod : Word) (s : State) : Out := hsStep 2 part prod s
/-- HS_WAKE (R349, R30, R219). -/
def execHsWake (part : Nat) (prod : Word) (s : State) : Out := hsStep 3 part prod s
/-- FS_RESUME (R376). -/
def execFsResume (part : Nat) (prod : Word) (s : State) : Out := fsStep 1 part prod s
/-- FS_RETIRE (R376). -/
def execFsRetire (part : Nat) (prod : Word) (s : State) : Out := fsStep 2 part prod s
/-- FS_FAIL (R376). -/
def execFsFail (part : Nat) (prod : Word) (s : State) : Out := fsStep 3 part prod s

/-- R349, R376: the commands held for a team, in the order of their channels, as it is about to run. `none`: the address of a resume
has still to be translated by the host (R368). -/
def State.applyHeldCmds (s : State) (t : Team) : Option State :=
  let x := s.part t.part
  let lidOf (c : HeldCmd) : Option Dword :=
    if c.fs then (x.recordOf (fld (c.words.getD 1 0) 63 32) (lo32 (c.words.getD 1 0))).map (·.w1)
    else some (c.words.getD 1 0)
  let hOf (c : HeldCmd) : Nat := fld (c.words.getD (if c.fs then 1 else 2) 0) 63 32
  let mine (c : HeldCmd) : Bool := hOf c == t.launch && lidOf c == some t.lid
  let r := (x.heldCmds.filter mine).foldl (fun (r : Option State) c => r.bind fun s =>
    let a := cmdAt (if c.fs then x.fsBase else x.hsBase) c.index
    if c.fs then
      match s.fsCommand t.part true c.words with
      | (true, _, _) => none
      | (_, .status n v, s) => some (s.cmdStatus a n v)
      | (_, .held, s) => some (s.cmdStatus a stRefused none)
    else match s.hsCommand t.part true c.words with
      | (.status n v, s) => some (s.cmdStatus a n v)
      | (.held, s) => some (s.cmdStatus a stRefused none)) (some s)
  r.map fun s => s.updPart t.part fun x => ({ x with heldCmds := x.heldCmds.filter fun c => !mine c }).advance

end Sys2Proof.Machine
end

