-- ==== Sys2Proof/Machine/Images.lean ====
section
/-! DEFINITION. Pre-emption and checkpoint images: saving a team (R383 to R385), team sections (R39, R387 to R389),
restoring them (R40, R390, R392) and restoring a launch (R42, R45, R50, R386, R390). -/

namespace Sys2Proof.Machine

/-! ### Stopping a team (R383, R384) -/

/-- The number of the last engine class of R384, of 0 to 6: vector hands, matrix, copy, delta, the entries that
complete, dealer, aggregator. -/
def lastClass : Nat := 6

/-- SAVE_REQUEST (R383, R64, R403): the team, with its gang, stops, when its dealer saves it for a waiting card, or
DUMP saves its launch. The cores that it leaves are held for the card. -/
def execSaveRequest (team : Nat) (s : State) : Out :=
  match s.team? team with
  | none => .next s
  | some t =>
    let stop (l : List Team) (s : State) : State :=
      l.foldl (fun s x => s.updTeam x.id fun y => if y.st == .running then { y with st := .saving, acks := [] } else y) s
    if t.st != .running || s.launchDead t.part t.launch then .next s
    else if s.dumping t.part t.launch then .next (stop [t] s)
    else match s.victim (dieOf t.core) with
      | some (v, c) =>
        if v.id != team then .next s
        else
          let ms := s.mates t
          .next ((stop ms s).updDie (dieOf t.core) fun d =>
            { d with heldFor := d.heldFor ++ ms.map fun x => (c.id, x.core) })
      | none => .next s

/-- A team's entries on its core. -/
def State.entriesOf (s : State) (t : Team) : List Entry := (s.core t.core).entries.filter fun e => e.team == t.id

/-- Has the entry done its work, or begun to be acknowledged: it completes before the save. -/
def Entry.ending (e : Entry) : Bool :=
  match e.phase with
  | .done _ _ | .acking _ => true
  | .waiting | .begun => false

/-- Has the class reached its stopping unit? A step of the model ends at one; an entry whose work is done writes its
record first, and one that an entry of R320 comes after goes on (log 64). -/
def State.classStopped (s : State) (t : Team) (cls : Nat) : Bool :=
  let es := (s.entriesOf t).filter fun e => e.cls == cls
  if cls = 0 then (s.handsOf t.id).all fun h => h.pend.isEmpty
  else if cls = 4 then es.isEmpty
  else if cls = 6 then (s.handsOf t.id).all fun h => h.sbuf.isEmpty && !s.appending t.id h.hix
  else es.all fun e => !e.ending && !s.mustEnd t.core e

/-- R168: a meld entry or matrix entry goes back to the head of its queue; a fill under way is abandoned. Removed residencies that only
these entries held go (R152, R156). -/
def State.stopMatrix (s : State) (t : Team) : State :=
  let es := (s.entriesOf t).filter fun e => e.cls == 1
  let s := es.foldl (fun s e => if e.filling then s.stopFill t.core e.resid else s) s
  let s := es.foldl (fun s e => s.updEntry t.core e.id fun x =>
    { x with phase := .waiting, filling := false, slot := 0, resid := 0, again := if x.filling then .stopped else x.again
             limit := none }) s
  s.updCore t.core fun c => { c with resid := c.resid.filter fun r => !r.dead || c.entries.any fun e => e.resid == r.id }

/-- R175: the drone of a DELTA under way is spilled with PEND, NEXT and CNT. `none`: the host has still to translate. -/
def State.stopDelta (s : State) (t : Team) : Option State :=
  match (s.entriesOf t).find? fun e => e.cls == 3 && e.kind == .delta && e.phase == .begun with
  | none => some s
  | some e =>
    match s.droneAt t.core t.part e.handle, s.droneEnt t.part e.handle with
    | some d, some ent =>
      let img := droneImage d true e.prog (fld e.w0 3 0)
      match s.spill t.core ent.pasid e.privT ent.spill.toNat img (spacePieces .glob ent.spill.toNat img.length) with
      | (some none, _) => none
      | (some (some (c, a)), s) => some (s.finishEntry t.core e c a)
      | (none, s) =>
        some (((s.dropDrone t.core t.part e.handle).setDroneEnt t.part e.handle (some { ent with res := false })).updEntry
          t.core e.id fun x => { x with phase := .waiting, again := .stopped })
    | _, _ => some (s.updEntry t.core e.id fun x => { x with phase := .waiting })

/-- COLLECTOR_ACK (R384, R168, R175): an engine class of a team that is to be saved acknowledges. -/
def execCollectorAck (team cls : Nat) (s : State) : Out :=
  match s.team? team with
  | none => .next s
  | some t =>
    let ack (s : State) : State := s.updTeam team fun x => { x with acks := x.acks ++ [cls] }
    if t.st != .saving || lastClass < cls || t.acks.contains cls || !s.classStopped t cls then .next s
    else if cls = 1 then .next (ack (s.stopMatrix t))
    else if cls = 3 then
      match s.stopDelta t with
      | none => .next s
      | some s' => .next (if s'.classStopped t 3 then ack s' else s')
    else .next (ack s)

/-- Have all the classes acknowledged? -/
def Team.stopped (t : Team) : Bool := t.st == .saving && (List.range (lastClass + 1)).all fun c => t.acks.contains c

/-! ### Writing a section (R39, R387 to R389) -/

/-- Pad with zeros to a multiple of 64 bytes. -/
def pad64 (l : List Byte) : List Byte := l ++ List.replicate ((64 - l.length % 64) % 64) 0
def bytesOf (n v : Nat) : List Byte := toBytes n v
def wordsBytes (l : List Dword) : List Byte := l.flatMap fun w => toBytes 8 w.toNat

def phaseCode : Phase → Nat
  | .visit => 0 | .boundary => 1 | .parked => 2 | .retired => 3

/-- R39: a thread word. -/
def threadWord (x : Thread) : Nat :=
  x.wa.toNat * 2 ^ 34 + x.re.toNat * 2 ^ 4 + (if x.tl then 8 else 0) +
    (match x.st with | .unparked => 0 | .faultParked => 4 | .parked => 2 | .retired => 1)

/-- R39: the sweep record. -/
def sweepRecord (hd : Hand) : List Byte :=
  let off := if hd.phase == .visit then hd.off else 0
  toBytes 8 (phaseCode hd.phase * 2 ^ 62 + (if hd.inTrap then 2 ^ 61 else 0) + hd.pos.toNat * 2 ^ 31 + off * 2 ^ 15)
    ++ toBytes 8 ((match hd.upos with | some a => a.toNat | none => 0x3FFFFFFF) * 2 ^ 34 + hd.swc.toNat)
    ++ toBytes 16 (if hd.phase == .visit then hd.act.toNat else 0)
    ++ (List.range 128).flatMap fun t => toBytes 8 (threadWord (hd.thr t))

/-- R387: the hand registers, 288 bytes. -/
def handRegs (hd : Hand) : List Byte :=
  ((List.range 32).flatMap fun n => toBytes 4 (hd.k.get n 0).toNat)
    ++ ((List.range 8).flatMap fun n => toBytes 4 (hd.ab.get n 0).toNat ++ toBytes 4 (hd.as.get n 0).toNat)
    ++ toBytes 8 hd.tmr.toNat ++ toBytes 4 hd.hs.toNat ++ toBytes 4 hd.fmt.toNat
    ++ toBytes 4 (hd.q.toNat % 8 + (if hd.tp then 8 else 0)) ++ List.replicate 76 0

/-- R388: what a thread waits for: WKIND, WPH, WARG and WN. `held`: the held arrivals of its hand. -/
structure WaitCode where
  kind : Nat
  ph : Nat
  arg : Nat
  n : Nat

/-- R388, for thread `t`. The weight of an arrival stands with its lowest thread (DEDUCED, log 24). -/
def waitCode (held : List Arrival) (t : Nat) (x : Thread) : WaitCode :=
  let lowest (a : Arrival) : Bool := (bitsOf a.mask 128).head? == some t
  let mine := held.find? fun a => a.mask.getLsbD t
  let wn := match mine with | some a => if lowest a then a.c else 0 | none => 0
  match x.wait with
  | .barw _ a p => ⟨1, p, a.toNat, wn⟩
  | .heldArr _ => ⟨2, (mine.map (·.b)).getD 0, (mine.map fun a => a.addr.toNat).getD 0, wn⟩
  | .evwait g _ _ _ _ => ⟨3, 0, g.toNat, 0⟩
  | .aclm f n _ => ⟨4, n, f, 0⟩
  | .sysc n => ⟨5, 0, n.toNat, 0⟩
  | .park => ⟨6, 0, 0, 0⟩
  | .fault n => ⟨7, 0, n % 2 ^ 32, 0⟩
  | .none => match mine with
    | some a => ⟨2, a.b, a.addr.toNat, wn⟩
    | none => ⟨0, 0, 0, 0⟩

/-- R388: a thread block and its resident entries. -/
def threadBlock (depth : Nat) (held : List Arrival) (t : Nat) (x : Thread) : List Byte :=
  let w := waitCode held t x
  toBytes 8 (x.wb * 2 ^ 32 + x.lo) ++ toBytes 8 x.wsp.toNat
    ++ toBytes 8 (w.kind * 2 ^ 60 + w.ph % 2 ^ 16 * 2 ^ 32 + w.arg % 2 ^ 32) ++ toBytes 8 (w.n * 2 ^ 48 + x.p.toNat % 128)
    ++ ((List.range 8).flatMap fun n => toBytes 4 (x.x.get n 0).toNat)
    ++ (List.range depth).flatMap fun i => toBytes 4 (x.stack.get (x.lo + i) 0).toNat

/-- A hand's part of a section. -/
def handPart (depth : Nat) (held : List Arrival) (hd : Hand) : List Byte :=
  sweepRecord hd ++ handRegs hd ++ (List.range 128).flatMap fun t => threadBlock depth held t (hd.thr t)

def kindOf : EKind → Nat
  | .copy => 0 | .matrix => 1 | .meld => 2 | .delta => 3 | .qfence => 4

/-- R389: an engine entry record. -/
def entryRecord (e : Entry) : List Byte :=
  let prog := match e.kind with | .meld | .qfence => 0 | _ => e.prog
  toBytes 8 (e.queue * 2 ^ 60 + kindOf e.kind * 2 ^ 57 + e.hix * 2 ^ 51 + e.tid * 2 ^ 43 + prog)
    ++ wordsBytes [e.w0, e.w1, e.a, e.b, e.c, e.fmt.setWidth 64, 0]
    ++ wordsBytes ((List.range 8).map fun i => e.copy.getD i 0)

/-- The entries of a team in the order of a section: by queue, then by queue order. -/
def State.sectionEntries (s : State) (t : Team) : List Entry :=
  sortBy (fun (a b : Entry) => a.queue ≤ b.queue) (s.entriesOf t)

/-- The untaken records in the order of a section: oldest first; in D mode, by submission (R286). -/
def State.sectionRecords (s : State) (t : Team) : List EvRec :=
  if s.dmode t = 0 then t.records else sortBy (fun (a b : EvRec) => a.sub ≤ b.sub) t.records

/-- R387: a team section. -/
def State.sectionBytes (s : State) (t : Team) : List Byte :=
  let hs := s.handsOf t.id
  let es := s.sectionEntries t
  let rs := s.sectionRecords t
  let header : List Dword :=
    [BitVec.ofNat 64 t.rcyc, BitVec.ofNat 64 (t.hands * 2 ^ 56 + (t.depth / 32 - 1) * 2 ^ 54 + t.share)]
      ++ ((List.range 4).map fun j => t.alloc.extractLsb' (64 * j) 64)
      ++ [BitVec.ofNat 64 (t.evRes * 2 ^ 32 + rs.length), BitVec.ofNat 64 (es.length * 2 ^ 32)]
  wordsBytes t.card.words ++ wordsBytes header
    ++ ((List.range 256).map fun b => let c := t.claims.get b 0; if c = 0 then 0xFF#8 else BitVec.ofNat 8 (c - 1))
    ++ (hs.flatMap fun h => handPart t.depth (s.heldArr.filter fun a => a.team == t.id && a.hix == h.hix) h)
    ++ pad64 ((s.core t.core).spad.getRun 0 t.sbase t.share)
    ++ ((List.range (t.acc * 1024)).flatMap fun i => toBytes 4 (t.accMem.get i 0).toNat)
    ++ pad64 (rs.flatMap fun r => toBytes 8 r.w0.toNat ++ toBytes 8 r.w1.toNat)
    ++ es.flatMap entryRecord

/-! ### Ending a save (R385) -/

/-- The places of a share move with its team: while it is saved, to a place that no core has (R137, R277). -/
def State.moveShare (s : State) (c b share c' b' : Nat) : State :=
  let mv (l : Loc) : Loc := match l with
    | .slice k o => if k == c && b ≤ o && o < b + share then .slice c' (o - b + b') else l
    | .mem pa => .mem pa
  let wait (x : Thread) : Thread := match x.wait with
    | .barw l a p => { x with wait := .barw (mv l) a p }
    | _ => x
  let red (x : HeldRed) : HeldRed := { x with w := { x.w with pa := (mv x.w.loc).parts.1, slice := (mv x.w.loc).parts.2 } }
  { s with
    hands := s.hands.map fun h => { h with threads := h.threads.map wait }
    phases := s.phases.map fun x => (mv x.1, x.2)
    cores := s.cores.map fun (c : Nat × Core) => (c.1, { c.2 with heldRed := c.2.heldRed.map red })
    teams := s.teams.map fun t => { t with heldRed := t.heldRed.map red }
    arrivals := s.arrivals.map fun a => { a with loc := mv a.loc }
    heldArr := s.heldArr.map fun a => { a with loc := mv a.loc } }

/-- The team leaves its core; what its section has no field for is kept (DEDUCED, log 24). -/
def State.leaveCore (s : State) (t : Team) (va : Nat) : State :=
  let mine (a : Arrival) : Bool := a.team == t.id
  let k : Kept :=
    ⟨t.id, s.handsOf t.id, s.sectionEntries t, s.heldArr.filter mine, (s.sectionRecords t).map (fun r => (r.addr, r.sub)), []⟩
  let orgs := (s.entriesOf t).map (·.org)
  let k := { k with origins := (s.core t.core).origins.filter fun o => orgs.contains o.id }
  let s := s.endMelds t.id
  let rest : List Kept := s.kept.filter fun x => x.team != t.id
  let s : State := { s with
    kept := rest ++ [k]
    hands := s.hands.filter fun (h : Hand) => h.team != t.id
    heldArr := s.heldArr.filter fun (a : Arrival) => !mine a }
  let s := s.updCore t.core fun (c : Core) =>
    let gone := c.origins.filter fun (o : Origin) => orgs.contains o.id && o.undrained != 0
    { c with
      entries := c.entries.filter fun e => e.team != t.id
      slots := c.slots - (gone.map (·.undrained)).foldl (· + ·) 0
      origins := c.origins.filter fun o => !orgs.contains o.id }
  let s := s.moveShare t.core t.sbase t.share (savedCore t.id) 0
  s.updTeam t.id fun x => { x with
    st := .saved, section_ := va, quads := [], accPhys := [], alloc := 0, claims := [], accMem := [], evRes := 0, records := [],
    subs := [], acks := [], due := false }

/-- R386: where a team is saved, and the bytes that it may take. -/
def Launch.saveAt (l : Launch) (lid : Dword) : Nat × Nat :=
  let n := l.tsz * 65536
  ((if l.save = 0 then l.saveDflt.toNat % 2 ^ 52 else l.save) + lid.toNat * n, n)

/-- R64: the resumption card of a saved team. -/
def State.resumeCard (s : State) (t : Team) : DealCard :=
  { part := t.part, launch := t.launch, card := t.card, prio := s.prioOf t.part t.launch, since := s.cyc, resume := some t.section_,
    team := t.id, rlid := t.lid, gang := t.gang }

/-- R64: the saved team becomes a resumption card at the tail of its launch's deal queue on the same die; the teams of a gang as the
last of them is saved, in ascending LID. -/
def State.pushResume (s : State) (t : Team) (die : Nat) : State :=
  let mates (x : Team) : Bool := x.part == t.part && x.launch == t.launch && x.gang == t.gang
  let who : RecArgs := { cause := 0, cls := 6 }
  if t.gang.isNone then s.pushDeal die (s.resumeCard ((s.team? t.id).getD t)) who
  else if s.teams.any fun x => mates x && x.resident then s
  else
    (sortBy (fun (a b : Team) => a.lid.toNat ≤ b.lid.toNat) (s.teams.filter fun x => mates x && x.st == .saved)).foldl
      (fun s x => s.pushDeal die (s.resumeCard x) who) s

/-- Is a barrier operation on its way from the team, or to its share? -/
def State.barrierMoving (s : State) (t : Team) : Bool := s.arrivals.any fun a => a.team == t.id || t.ownShare a.loc

/-- R39, R22: a hand that stops at the end of its visit, or with nobody active, stands at the boundary. The flag says that a next
header cannot be read yet. -/
def State.endVisits (s : State) (t : Team) : Bool × State :=
  ((s.handsOf t.id).filter fun h => h.phase == .visit && (h.act == 0 || decide (h.blen ≤ h.off))).foldl
    (fun r h => let (w, s) := r.2.endBody t h.hix; (r.1 || w, s)) (false, s)

/-- TEAM_SAVE (R385 to R389): the section is written, performed at .p, and then the resources are free. A section
larger than TSZ, or one that cannot be written, fails the launch. -/
def execTeamSave (team : Nat) (s : State) : Out :=
  match s.team? team with
  | none => .next s
  | some t =>
    match s.launch? t.part t.launch with
    | none => .next s
    | some l =>
      let (wait, s1) := s.endVisits t
      if !t.stopped || l.st.dead || s.dumping t.part t.launch || s.barrierMoving t || wait then .next s
      else if s1.launchDead t.part t.launch then .next s1
      else
        let bs := s1.sectionBytes t
        let (va, room) := l.saveAt t.lid
        if room < bs.length then .next (s1.failL t.part t.launch { cause := 0x1C })
        else match s1.vwrite l.pasid va bs with
          | .error none => .next s
          | .error (some c) => .next (s1.failL t.part t.launch c)
          | .ok s' => .next ((s'.leaveCore t va).pushResume t (dieOf t.core))

/-! ### Reading a section (R390, R40) -/

/-- A word of a section, by byte offset. -/
def secW (bs : List Byte) (off : Nat) : Dword := BitVec.ofNat 64 (ofBytes ((bs.drop off).take 8))
def secH (bs : List Byte) (off : Nat) : Word := BitVec.ofNat 32 (ofBytes ((bs.drop off).take 4))

/-- R39, R40: is the thread word one that a restore refuses? -/
def badThread (p : Part) (w : Dword) : Bool :=
  let n := (if bit w 0 then 1 else 0) + (if bit w 1 then 1 else 0) + (if bit w 2 then 1 else 0)
  decide (1 < n) || (n == 0 && bit w 3 != p.inRegion (w.extractLsb' 34 30))

/-- R39, R387, R388: does a hand's part break the rules? With TR = 1 the block of POS lies in the trap region, and a visit of a block
there has TR = 1 (R407). -/
def badHand (p : Part) (depth : Nat) (bs : List Byte) : Bool :=
  let w (i : Nat) : Dword := secW bs (8 * i)
  let blk (t : Nat) : Nat := 1344 + t * (64 + 4 * depth)
  let st := fld (w 0) 63 62
  let inside := p.inRegion ((w 0).extractLsb' 31 30)
  fld (w 0) 14 0 != 0 || (bit (w 0) 61 && !inside) || (st == 0 && inside && !bit (w 0) 61) || fld (w 1) 33 32 != 0 || ((st == 1 || st == 2) && (w 2 != 0 || w 3 != 0))
    || (List.range 128).any (fun t => badThread p (w (4 + t)))
    || fld (secH bs 1264) 31 4 != 0 || (bs.drop 1268).take 76 != List.replicate 76 0
    || (List.range 128).any fun t =>
        fld (secW bs (blk t)) 63 56 != 0 || fld (secW bs (blk t)) 31 24 != 0 || 8 ≤ fld (secW bs (blk t + 16)) 63 60
          || fld (secW bs (blk t + 16)) 59 48 != 0 || fld (secW bs (blk t + 24)) 47 7 != 0

/-- R388: the wait of a thread block; `base`: what the front end kept of the thread. -/
def readWait (base : Wait) (kind ph arg : Nat) : Wait :=
  match kind with
  | 1 => .barw (.mem 0) (BitVec.ofNat 32 arg) ph
  | 2 => match base with | .heldArr i => .heldArr i | _ => .none
  | 3 => match base with
    | .evwait g lo hi o u => if g.toNat = arg then base else .evwait (BitVec.ofNat 32 arg) lo hi o u
    | _ => .evwait (BitVec.ofNat 32 arg) .drop .drop 0 false
  | 4 => match base with | .aclm _ _ o => .aclm arg ph o | _ => .aclm arg ph 0
  | 5 => .sysc (BitVec.ofNat 32 arg)
  | 6 => .park
  | 7 => .fault arg
  | _ => .none

/-- R388: one thread of a section. -/
def readThread (depth : Nat) (bs : List Byte) (base : Thread) (t : Nat) : Thread :=
  let w := secW bs (32 + 8 * t)
  let o := 1344 + t * (64 + 4 * depth)
  let lo := fld (secW bs o) 31 0
  { base with
    wa := w.extractLsb' 34 30, re := w.extractLsb' 4 30, tl := bit w 3
    st := if bit w 0 then .retired else if bit w 1 then .parked else if bit w 2 then .faultParked else .unparked
    wb := fld (secW bs o) 63 32, lo, wsp := secW bs (o + 8)
    wait := readWait base.wait (fld (secW bs (o + 16)) 63 60) (fld (secW bs (o + 16)) 47 32) (fld (secW bs (o + 16)) 31 0)
    p := BitVec.ofNat 8 (128 + fld (secW bs (o + 24)) 6 0)
    x := SMap.setRun 0 [] 0 ((List.range 8).map fun i => secH bs (o + 32 + 4 * i))
    stack := SMap.setRun 0 [] lo ((List.range depth).map fun i => secH bs (o + 64 + 4 * i)), bheld := [] }

/-- One hand of a section (R39, R40, R387). -/
def readHand (depth : Nat) (bs : List Byte) (base : Hand) : Hand :=
  let w (i : Nat) : Dword := secW bs (8 * i)
  let pos : CodeAddr := (w 0).extractLsb' 31 30
  let u : CodeAddr := (w 1).extractLsb' 34 30
  let st := fld (w 0) 63 62
  let tr := bit (w 0) 61
  { base with
    phase := if st = 0 then .visit else if st = 1 then .boundary else if st = 2 then .parked else .retired
    inTrap := tr, pos, off := fld (w 0) 30 15, upos := if u == 0x3FFFFFFF#30 then none else some u
    tpos := if tr then some pos else none, swc := lo32 (w 1)
    act := BitVec.ofNat 128 ((w 2).toNat + (w 3).toNat * 2 ^ 64), how := if st = 0 then .abandoned else .start, busy := 0
    k := SMap.setRun 0 [] 0 ((List.range 32).map fun i => secH bs (1056 + 4 * i))
    ab := SMap.setRun 0 [] 0 ((List.range 8).map fun i => secH bs (1184 + 8 * i))
    as := SMap.setRun 0 [] 0 ((List.range 8).map fun i => secH bs (1188 + 8 * i))
    tmr := secW bs 1248, hs := secH bs 1256, fmt := secH bs 1260
    q := BitVec.ofNat 4 (8 + fld (secH bs 1264) 2 0), tp := bit (secH bs 1264) 3
    sw := false, pend := [], sbuf := []
    threads := (List.range base.threads.length).map fun t => readThread depth bs (base.thr t) t }

/-- R389: an engine entry of a section; `base`: what the front end kept of it. It reaches the head of its queue anew (R339). A CPYX that has not read its follow-on record has
COPY = 0 (R282). -/
def readEntry (bs : List Byte) (base : Entry) : Entry :=
  let w (i : Nat) : Dword := secW bs (8 * i)
  let k := fld (w 0) 59 57
  let kind : EKind := if k = 0 then .copy else if k = 1 then .matrix else if k = 2 then .meld else if k = 3 then .delta else .qfence
  { base with
    queue := fld (w 0) 63 60, kind, hix := fld (w 0) 56 51, tid := fld (w 0) 50 43, prog := fld (w 0) 31 0
    op := if base.follow then base.op else (w 1).extractLsb' 56 8, w0 := w 1, w1 := w 2, a := w 3, b := w 4, c := w 5, fmt := lo32 (w 6)
    copy := if k = 0 && (List.range 8).all (fun i => w (8 + i) == 0) then [] else (List.range 8).map fun i => w (8 + i)
    phase := .waiting, filling := false, slot := 0, resid := 0, limit := none }

/-- R389: does an entry record break the rules? -/
def badEntry (bs : List Byte) : Bool :=
  10 < fld (secW bs 0) 63 60 || 4 < fld (secW bs 0) 59 57 || fld (secW bs 0) 42 32 != 0 || secW bs 56 != 0

/-- The parts of a section: the offsets of its hands, scratchpad, accumulator, records and entries, and its size. -/
structure SecMap where
  need : Need
  evRes : Nat
  evCnt : Nat
  nEnt : Nat
  deriving Repr

def SecMap.handSize (m : SecMap) : Nat := 9536 + 512 * m.need.depth
def SecMap.spadAt (m : SecMap) : Nat := 384 + m.need.hands * m.handSize
def SecMap.accAt (m : SecMap) : Nat := m.spadAt + ceilDiv m.need.share 64 * 64
def SecMap.recAt (m : SecMap) : Nat := m.accAt + m.need.acc * 4096
def SecMap.entAt (m : SecMap) : Nat := m.recAt + ceilDiv (16 * m.evCnt) 64 * 64
def SecMap.size (m : SecMap) : Nat := m.entAt + 128 * m.nEnt

def secMap (ws : List Dword) (acc : Nat) : SecMap :=
  { need := sectionNeed ws acc, evRes := fld (ws.getD 14 0) 63 32, evCnt := fld (ws.getD 14 0) 31 0,
    nEnt := fld (ws.getD 15 0) 63 32 }

/-- R387: is a byte of the claims neither a hand of the team nor 0xFF? -/
def badClaims (hands : Nat) (bs : List Byte) : Bool := bs.any fun b => b != 0xFF#8 && decide (hands ≤ b.toNat)

/-- R387: does a header break the rules? R280: at most 64 slots; R281, R297: at most 1104 entries. -/
def badHeader (ws : List Dword) (m : SecMap) (t : Team) : Bool :=
  fld (ws.getD 9 0) 53 32 != 0 || fld (ws.getD 15 0) 31 0 != 0 || 64 < m.evRes || m.evRes < m.evCnt || 1104 < m.nEnt
    || m.need.hands != t.hands || m.need.share != t.share

/-- The hand that a section's part is read over: the one that the front end kept, or a new one. -/
def baseHand (k : Option Kept) (t : Team) (hix : Nat) (q : Nat × Nat) : Hand :=
  let new := newHand t hix q.1 q.2 0
  match k.bind fun k => k.hands.find? fun h => h.hix == hix with
  | some h => { h with quad := q.1, slot := q.2 }
  | none => new

/-- An entry with nothing known but its submitter (DEDUCED, log 24). -/
def blankEntry (team id : Nat) : Entry :=
  { id, queue := 0, kind := .copy, op := 0, team, hix := 0, tid := 0, addr := 0, w0 := 0, w1 := 0, a := 0, b := 0, c := 0,
    fmt := 0, tag := 0, sub := id }

/-- The tag of an entry read from a section. -/
def Entry.tagged (e : Entry) : Entry :=
  { e with tag := match e.kind with
    | .meld | .delta => lo32 e.b
    | .qfence => 0
    | .copy | .matrix => lo32 e.w1 }

/-- Restore the entries in order; each gets a new number, and a copy its origin entry (R263, R390), which names the threads that it
named, or those of the whole hand when a uniform one comes from an image (DESIGN CHOICE, log 70). `old` pairs the numbers that they had
with their new ones. -/
def restoreEntries (t : Team) (k : Option Kept) (bs : List Byte) (m : SecMap) :
    List Nat → State → List Entry → List (Nat × Nat) → List Entry × List (Nat × Nat) × State
  | [], s, es, old => (es, old, s)
  | i :: r, s, es, old =>
    let (id, s) := s.fresh
    let part := (bs.drop (m.entAt + 128 * i)).take 128
    let base := match k.bind fun k => k.entries[i]? with
      | some e => e
      | none => blankEntry t.id id
    let e := readEntry part base
    let e := { (match k with | some _ => e | none => { e.tagged with again := .image }) with pasid := s.pasidOf t }
    let old := old ++ [(base.id, id)]
    if e.kind == .copy then
      let (org, s) := s.fresh
      let o : Origin := { id := org, addr := e.addr, team := t.id, hix := e.hix, part := t.part, launch := t.launch,
                          mask := (match k.bind fun k => k.origins.find? fun o => o.id == base.org with
                            | some o => o.mask
                            | none => if e.tid = 0xFF then maskOf (List.range (threadsOf t.threads e.hix)) else maskOf [e.tid])
                          undrained := 1, performed := 0 }
      let s := s.updCore t.core fun c => { c with origins := c.origins ++ [o], slots := c.slots + 1 }
      restoreEntries t k bs m r s (es ++ [{ e with id, org }]) old
    else restoreEntries t k bs m r s (es ++ [{ e with id }]) old

/-- R142: a QFENCE waits again for the entries that it waited for and that were saved with it; one read from an image,
for the entries before it in the queues that it names. -/
def fixAwait (k : Option Kept) (es : List Entry) (old : List (Nat × Nat)) (e : Entry) : Entry :=
  if e.kind != .qfence then e
  else match k with
    | some _ => { e with await := e.await.filterMap fun a => (old.find? fun x => x.1 == a).map (·.2) }
    | none => { e with await := (es.filter fun x => x.kind != .qfence && e.b.getLsbD x.queue).map (·.id) }

/-- R371, R279: is the CAUSE of a record none that a thread can take from a record? -/
def badRecord (w0 : Dword) : Bool :=
  let c := fld w0 55 48
  c != 0 && (decide (0x1C < c) || classOf c != 1)

/-- R40, R137: a thread that waits at a barrier word of its new place; one whose phase has completed goes on. -/
def State.fixBarrier (s : State) (t : Team) (x : Thread) : Thread :=
  match x.wait with
  | .barw _ a p =>
    match (s.accS t x.tl a.toNat 16 .atomic).1 with
    | .at l _ =>
      if x.st == .parked && 0x8000 ≤ (s.barAt l).delta p then { x with st := .unparked, wait := .none }
      else { x with wait := .barw l a p }
    | _ => x
  | _ => x

/-- The arrivals that an image's thread blocks hold: kind 1 or 2 with a weight (DEDUCED, log 24). -/
def sectionArrivals (depth : Nat) (bs : List Byte) (team hix : Nat) : List Arrival :=
  (List.range 128).flatMap fun t =>
    let o := 1344 + t * (64 + 4 * depth)
    let w2 := secW bs (o + 16)
    let n := fld (secW bs (o + 24)) 63 48
    let kind := fld w2 63 60
    if (kind = 1 ∨ kind = 2) ∧ n ≠ 0 then
      let same (u : Nat) : Bool := secW bs (1344 + u * (64 + 4 * depth) + 16) == w2
      [{ id := 0, kind := .arrive, loc := .mem 0, addr := lo32 w2, b := fld w2 47 32, c := n, team, hix,
         mask := maskOf (idxs 128 fun u => same u && decide (t ≤ u)), waiter := kind == 1, code := 0 }]
    else []

/-- The order of held arrivals, (hix, tid): an arrival stands at its lowest thread. -/
def arrLe (a b : Arrival) : Bool :=
  let t (x : Arrival) : Nat := (bitsOf x.mask 128).headD 128
  decide (a.hix < b.hix) || (a.hix == b.hix && decide (t a ≤ t b))

/-- The place of a held arrival in the team's new place, at the privilege of its lowest thread. -/
def State.backAcc (s : State) (t : Team) (a : Arrival) : Acc :=
  let tl := match s.hand? t.id a.hix with | some hd => (hd.thr ((bitsOf a.mask 128).headD 0)).tl | none => false
  (s.accS t tl a.addr.toNat 16 .atomic).1

/-- R390, R371: the places that the team's threads wait at, and that its held arrivals go to, in its new place. -/
def State.backAccs (s : State) (t : Team) (held : List Arrival) : List Acc :=
  held.map (s.backAcc t) ++ ((s.handsOf t.id).flatMap (·.threads)).flatMap fun x => match x.wait with
    | .barw _ a _ => [(s.accS t x.tl a.toNat 16 .atomic).1]
    | _ => []

/-- R390: held arrivals are reapplied in ascending (hix, tid). -/
def State.reapply (s : State) (t : Team) : List Arrival → State
  | [] => s
  | a :: r =>
    match s.backAcc t a with
    | .at l _ =>
      let (id, s) := if a.id = 0 then s.fresh else (a.id, s)
      let a := { a with loc := l, id, reported := true }
      let s := if a.waiter then s else s.updHand t.id a.hix fun hd =>
        { hd with threads := hd.threads.mapIdx fun i x =>
            if a.mask.getLsbD i && x.st != .retired then
              { x with bheld := x.bheld ++ [id], wait := if x.st == .parked && x.wait == .none then .heldArr id else x.wait } else x }
      let s' := s.applyArrival a
      (if s'.heldArr.any fun x => x.id == id then s' else s'.releaseHeld a).reapply t r
    | _ => s.reapply t r

/-- TEAM_RESTORE (R390, R385): a placed section is read back over the team. One that breaks R39, R387 or R388 fails
the launch with Illegal-Instruction. -/
def execTeamRestore (team : Nat) (s0 : State) : Out :=
  match s0.team? team with
  | none => .next s0
  | some t =>
    match s0.launch? t.part t.launch with
    | none => .next s0
    | some l =>
      if t.st != .restoring || l.st.dead || !(s0.handsOf team).isEmpty then .next s0
      else match s0.sectionHead l t.section_ with
        | (.error none, _) => .next s0
        | (.error (some c), s) => .next (s.failL t.part t.launch c)
        | (.ok ws, s) =>
          let m := secMap ws t.acc
          if badHeader ws m t then .next (s.failL t.part t.launch { cause := 1 })
          else match s.vread l.pasid t.section_ m.size with
            | (.error none, _) => .next s0
            | (.error (some c), s) => .next (s.failL t.part t.launch c)
            | (.ok bs, s) =>
              let k := s.kept.find? fun x => x.team == team
              let hpart (h : Nat) : List Byte := (bs.drop (384 + h * m.handSize)).take m.handSize
              let entPart (i : Nat) : List Byte := (bs.drop (m.entAt + 128 * i)).take 128
              let p := s.part t.part
              if (List.range m.evCnt).any (fun i => badRecord (secW bs (m.recAt + 16 * i))) || badClaims m.need.hands ((bs.drop 128).take 256) || (List.range m.need.hands).any (fun h => badHand p m.need.depth (hpart h))
                  || (List.range m.nEnt).any (fun i => badEntry (entPart i)) then .next (s.failL t.part t.launch { cause := 1 })
              else
                let hs := t.quads.mapIdx fun h q => readHand m.need.depth (hpart h) (baseHand k t h q)
                let claims := (List.range 256).foldl (fun (c : SMap Nat) b =>
                  let v := (bs.getD (128 + b) 0xFF#8).toNat
                  if v = 0xFF then c else c.set b (v + 1) 0) []
                let (recs, s) := (List.range m.evCnt).foldl (fun (x : List EvRec × State) i =>
                  let (id, s) := x.2.fresh
                  let (addr, sub) := (k.bind fun k => k.recs[i]?).getD (0, id)
                  (x.1 ++ [{ w0 := secW bs (m.recAt + 16 * i), w1 := secW bs (m.recAt + 16 * i + 8), sub, addr }], s)) ([], s)
                let (es, old, s) := restoreEntries t k bs m (List.range m.nEnt) s [] []
                let es := es.map (fixAwait k es old)
                let subs := es.flatMap fun e => if e.kind == .qfence then []
                  else if e.isX then [e.sub, e.sub + 1] else [e.sub]
                let s := s.updTeam team fun x => { x with
                  rcyc := (ws.getD 8 0).toNat, rcyc0 := (ws.getD 8 0).toNat, depth := m.need.depth
                  alloc := BitVec.ofNat 256 ((List.range 4).foldl (fun v j => v + (ws.getD (10 + j) 0).toNat * 2 ^ (64 * j)) 0)
                  claims, evRes := m.evRes, records := recs, subs := sortBy (fun a b => a ≤ b) subs
                  accMem := SMap.setRun 0 [] 0 ((List.range (t.acc * 1024)).map fun i => secH bs (m.accAt + 4 * i)) }
                let s := s.updCore t.core fun c => { c with
                  spad := c.spad.setRun 0 t.sbase ((bs.drop m.spadAt).take t.share)
                  entries := c.entries ++ es }
                let s := { s with hands := s.hands ++ hs }.moveShare (savedCore team) 0 t.share t.core t.sbase
                let held := match k with
                  | some k => sortBy arrLe k.held
                  | none => (List.range m.need.hands).flatMap fun h => sectionArrivals m.need.depth (hpart h) team h
                .next { s with kept := s.kept.filter (fun x => x.team != team) ++ [⟨team, [], [], held, [], []⟩] }

/-- Read the header of the block that a hand visits, for its LEN and label, which the record does not hold. One that cannot be read
leaves them as they were kept (DESIGN CHOICE, log 67). -/
def State.fixVisit (s : State) (t : Team) (hd : Hand) : Hand :=
  if hd.phase != .visit then hd
  else match (s.fetch t.core (s.pasidOf t) t.part hd.pos hd.inTrap).1 with
    | .word w => { hd with blen := hdrLen w, label := hdrLabel w }
    | _ => hd

/-- A hand of a restored team takes up its residency. One that was parked stays so until a thread unparks (R40). -/
def State.resumeHand (s : State) (t : Team) (hd : Hand) : Hand :=
  if hd.team != t.id then hd
  else s.fixVisit t (hd.settle { hd with resStart := s.cyc, threads := hd.threads.map (s.fixBarrier t) })

/-- What was kept of a restored team is dropped. -/
def State.dropKept (s : State) (t : Nat) : State := { s with kept := s.kept.filter fun x => x.team != t }

/-- The held arrivals that the front end has of a team. -/
def State.heldOf (s : State) (t : Nat) : List Arrival := match s.kept.find? fun x => x.team == t with | some k => k.held | none => []

/-- RESTORE_READY (R385, R390, R40): reductions that came due meanwhile are applied (R70), held arrivals are reapplied, held commands
are applied, waits that ended are ended, and the hands resume; the teams of a gang together. A barrier word that the team waits at and
that cannot be translated fails the launch (R371); one that the host has still to translate is waited for (R368). -/
def execRestoreReady (team : Nat) (s : State) : Out :=
  match s.team? team with
  | none => .next s
  | some t0 =>
    let ts := (s.mates t0).filter fun t => t.st == .restoring
    let ready := ts.all fun t => !(s.handsOf t.id).isEmpty
    let accs := ts.flatMap fun t => s.backAccs t (s.heldOf t.id)
    if t0.st != .restoring || !ready || s.launchDead t0.part t0.launch || accs.contains .wait then .next s
    else match accs.findSome? fun a => match a with | .flt f => some f | _ => none with
    | some f => .next (s.failL t0.part t0.launch f)
    | none =>
      .next ((ts.foldl (fun (r : Option State) t => r.bind fun s =>
        let s := (s.updTeam t.id fun x => { x with st := .running, placeAt := s.cyc }).applyDue t.core t.ownShare
        let s := s.reapply t (s.heldOf t.id)
        let s := { s with hands := s.hands.map (s.resumeHand t) }
        (s.applyHeldCmds t).map fun s => (s.dropKept t.id).grantClaims t.id) (some s)).getD s)

/-! ### Restoring a launch (R390) -/

/-- R42, R45: is the launch record malformed? -/
def LaunchRec.malformed (r : LaunchRec) : Bool :=
  let chain := [r.s3, r.s4, r.s5, r.s6].filter fun x => x != 0
  let broken := (List.zip chain chain.tail).any fun x => x.2 % x.1 != 0
  let dm := fld r.w0 31 30
  fld r.w0 26 0 != 0 || fld r.w1 11 0 != 0 || fld r.w2 25 0 != 0 || fld r.w5 63 52 != 0 || fld r.w6 63 52 != 0
    || fld r.w7 63 52 != 0 || dm == 3 || 6 < r.s3 || broken || 2 ^ 32 < r.grid || 256 < r.acc
    || ((dm == 1 || dm == 2) && (r.trace == 0 || fld r.w4 31 0 == 0))

/-- R386: is the image header malformed? -/
def badImage (h : List Dword) : Bool :=
  let w (i : Nat) : Dword := h.getD i 0
  fld (w 0) 63 32 != 0x4C413149 || fld (w 0) 31 16 != 1 || fld (w 0) 15 0 != 0 || fld (w 1) 15 0 != 0
    || fld (w 3) 63 52 != 0 || fld (w 4) 31 0 != 0 || w 5 != 0 || w 6 != 0 || w 7 != 0

/-- R390 step 2: a page of a segment: a valid leaf, a physical address and the stage map; R, W, X and U are not
checked. The error is a fault with its syndrome (R365), or `none` when the host has still to translate (R368). -/
def State.segPage (s : State) (pasid va : Nat) : Except (Option Flt) Nat :=
  let bad (r tier : Nat) (e : Dword) : Except (Option Flt) Nat := match syndrome r tier .write va e with
    | .fail c d0 d1 => .error (some { cause := c, d0, d1 })
    | _ => .error none
  if 2 ^ 52 ≤ va then .error (some { cause := 8 })
  else match s.ctx? pasid with
    | none => bad 5 0 0
    | some c =>
      if c.dead || !c.valid then bad 5 0 0
      else match s.walkFrom va 3 c.root with
        | .bad r tier e => bad r tier e
        | .leaf _ tier e =>
          match s.reach c.part c.hpasid ((pageBase tier e va).toNat + va % pageSize tier e) with
          | .key pa => .ok pa
          | .bad r => bad r tier e
          | .wait => .error none

/-- R390 step 2: write the pieces of a segment, performed at .p; the fault of the first that cannot be written, after
the writes before it. A line that is marked uncorrectable or cannot be reached is reported (R381, R393). -/
def segWrite (pasid : Nat) : List (Nat × Nat) → List Byte → State → Option (Option Flt) × State
  | [], _, s => (none, s)
  | (a, n) :: r, bs, s =>
    match s.segPage pasid a with
    | .error c => (some c, s)
    | .ok pa => match s.lostWrite a [(pa, n)] with
      | some f => (some (some f), s)
      | none => segWrite pasid r (bs.drop n) (s.poke pa (bs.take n))

/-- R390 step 2: the segments in order. -/
def segments (pasid img : Nat) : List Nat → State → Option (Option Flt) × State
  | [], s => (none, s)
  | i :: r, s =>
    match s.vread pasid (img + 384 + 32 * i) 32 with
    | (.error c, s) => (some c, s)
    | (.ok hs, s) =>
      let va := (secW hs 0).toNat
      let len := (secW hs 8).toNat
      let off := (secW hs 16).toNat
      if secW hs 24 != 0 then (some (some { cause := 1 }), s)
      else match s.vread pasid (img + off) len with
        | (.error c, s) => (some c, s)
        | (.ok bs, s) =>
          match segWrite pasid (spacePieces .glob va len) bs s with
          | (some c, s) => (some c, s)
          | (none, s) => segments pasid img r s

/-- R66, R67: the trace that a replay reads, or the launch's failure; a trace that cannot be read fails it with that cause (DESIGN
CHOICE, log 65). An entry of a reserved KIND, or with nonzero reserved bits, is no placement's: no core places beyond one of a reserved
KIND (DESIGN CHOICE, log 71). -/
def State.readTrace (s : State) (l : Launch) (r : LaunchRec) : Except (Option Flt) (List TraceEnt) :=
  match s.vread l.pasid r.trace 8 with
  | (.error c, _) => .error c
  | (.ok bs, s) =>
    let w := secW bs 0
    let n := fld w 31 0
    if bit w 63 || r.tlen < 8 + 16 * n then .error (some { cause := 0x16 })
    else match s.vread l.pasid (r.trace + 8) (16 * n) with
      | (.error c, _) => .error c
      | (.ok bs, s) =>
        let es := (List.range n).map fun i =>
          (⟨fld (secW bs (16 * i)) 63 55, fld (secW bs (16 * i)) 54 53, secW bs (16 * i + 8), false⟩ : TraceEnt)
        if es.all fun e => (s.part l.part).hasCore e.core then .ok es else .error (some { cause := 0x16 })

/-- R50: a root card. -/
def rootCard (r : LaunchRec) (n : Nat) : Card :=
  let level := if r.s3 = 0 then 2 else 3
  ⟨BitVec.ofNat 64 (r.entry.toNat * 2 ^ 34 + level * 2 ^ 31 + (r.threads - 1) * 2 ^ 18 + 2 ^ 16),
   BitVec.ofNat 64 (fld r.w7 51 0), 0, 0,
   BitVec.ofNat 64 (n % r.gx % 2 ^ 16 * 2 ^ 48 + n / r.gx % r.gy * 2 ^ 32 + n / r.gx / r.gy % 2 ^ 16 * 2 ^ 16),
   BitVec.ofNat 64 n, 0, 0⟩

/-- R53: the die of a root card. -/
def rootDie (r : LaunchRec) (dies : List Nat) (n : Nat) : Nat :=
  let u := if r.s4 ≠ 0 then n / r.s4 else if r.s3 ≠ 0 then n / r.s3 else n
  dies.getD (u % dies.length) 0

/-- R50, R53: form the root cards: one a team, or one a gang. With N no multiple of S3, the last gang has teams from N on (DESIGN
CHOICE, log 65). -/
def State.rootCards (s : State) (l : Launch) (r : LaunchRec) : State :=
  let step := if r.s3 = 0 then 1 else r.s3
  let dies := (s.part l.part).dies
  (List.range (ceilDiv r.grid step)).foldl (fun s j =>
    let n := j * step
    s.pushDeal (rootDie r dies n)
      { part := l.part, launch := l.handle, card := rootCard r n, prio := fld r.w0 29 27, since := s.cyc }
      { cause := 0, cls := 6 }) s

/-- R390 step 4: each section of the image is a saved team. -/
def adoptAll (l : Launch) (img nseg : Nat) : List Nat → State → Except (Option Flt) (List Nat) × State
  | [], s => (.ok [], s)
  | i :: rest, s =>
    match s.vread l.pasid (img + 384 + 32 * nseg + 16 * i) 16 with
    | (.error c, s) => (.error c, s)
    | (.ok bs, s) =>
      let va := img + (secW bs 8).toNat
      match s.sectionHead l va with
      | (.error c, s) => (.error c, s)
      | (.ok ws, s) =>
        let (id, s) := s.adopt l va (secW bs 0) ws
        match adoptAll l img nseg rest s with
        | (.ok ids, s) => (.ok (id :: ids), s)
        | x => x

/-- What DUMP kept names its teams and their shares by their old numbers; `m` pairs these with the new ones. -/
def newId (m : List (Nat × Nat)) (id : Nat) : Nat := match m.find? fun x => x.1 == id with | some x => x.2 | none => id
def newLoc (m : List (Nat × Nat)) (l : Loc) : Loc :=
  match l with
  | .slice c o => if c < Config.cores then l else .slice (savedCore (newId m (c - Config.cores))) o
  | .mem _ => l
def HeldRed.renamed (m : List (Nat × Nat)) (x : HeldRed) : HeldRed :=
  let l := newLoc m x.w.loc
  { x with w := { x.w with team := newId m x.w.team, pa := l.parts.1, slice := l.parts.2 } }

/-- R70: the launch restored from an image takes up what DUMP kept for it, when the image holds the sections that DUMP wrote: `ids` are
its teams, in the order of the directory (DESIGN CHOICE, log 73). -/
def State.takeDump (s : State) (l : Launch) (ids : List Nat) : State :=
  let lids := ids.filterMap fun id => (s.team? id).map (·.lid)
  match s.dumped.find? fun d => d.pasid == l.pasid && d.image == l.image.toNat && d.teams.map (·.lid) == lids with
  | none => s
  | some d =>
    let (gs, s) := d.gone.foldl (fun (r : List Nat × State) _ => let (id, s) := r.2.fresh; (r.1 ++ [id], s)) ([], s)
    let m := List.zip (d.teams.map (·.id)) ids ++ List.zip (d.gone.map (·.id)) gs
    let back (old new : Team) : Team := { new with
      x := old.x, y := old.y, z := old.z, n := old.n, lix := old.lix, lost := old.lost
      heldRed := old.heldRed.map (HeldRed.renamed m) }
    let s := (List.zip d.teams ids).foldl (fun s p => s.updTeam p.2 (back p.1)) s
    let gone := (List.zip d.gone gs).map fun p =>
      { p.1 with id := p.2, part := l.part, launch := l.handle, heldRed := p.1.heldRed.map (HeldRed.renamed m) }
    let s := { s with teams := s.teams ++ gone, phases := s.phases ++ d.phases.map fun (x : Loc × Nat × Nat) => (newLoc m x.1, x.2.1, newId m x.2.2) }
    let s := d.coreReds.foldl (fun s x => s.updCore x.1 fun c => { c with heldRed := c.heldRed ++ [x.2.renamed m] }) s
    let s := d.staged.foldl (fun s x => s.updDie x.1 fun y =>
      { y with staged := y.staged ++ [{ x.2 with team := newId m x.2.team, part := l.part, launch := l.handle }] }) s
    s.updLaunch l.part l.handle fun x => { x with armed := d.armed }

/-- R53: the die of the resumption card of an image's section. That of a card which is not root and has no usable affinity goes by its
LID (DESIGN CHOICE, log 65). -/
def State.imageDie (s : State) (l : Launch) (r : LaunchRec) (t : Team) : Nat :=
  let dies := (s.part l.part).dies
  if t.card.root then rootDie r dies (t.gang.getD t.lid.toNat)
  else match s.affinity l.pasid l.part t.card.aff with
    | some pa => paDie pa
    | none => rootDie r dies t.lid.toNat

/-- R390 step 4: the resumption cards of the image's teams, one a section. -/
def State.pushImage (s : State) (l : Launch) (r : LaunchRec) (ids : List Nat) : State :=
  ids.foldl (fun s id => match s.team? id with
    | none => s
    | some t => s.pushDeal (s.imageDie l r t) { s.resumeCard t with prio := fld r.w0 29 27 } { cause := 0, cls := 6 }) s

/-- LAUNCH_RESTORE (R390, R386, R42, R45, R50): the front end checks the image of an accepted launch, writes its
segments, and forms its root or resumption cards. -/
def execLaunchRestore (part handle : Nat) (s0 : State) : Out :=
  match s0.launch? part handle with
  | none => .next s0
  | some l =>
    let img := l.image.toNat
    let fail (c : Option Flt) (s : State) : Out := match c with
      | some c => .next (s.failL part handle c)
      | none => .next s0
    if l.st != .pending then .next s0
    else if img % 64 ≠ 0 then fail (some { cause := 1 }) s0
    else match s0.vread l.pasid img 384 with
      | (.error c, s) => fail c s
      | (.ok bs, s) =>
        let ws := dwords bs
        let rw := ws.drop 8
        let r : LaunchRec := ⟨rw.getD 0 0, rw.getD 1 0, rw.getD 2 0, rw.getD 3 0, rw.getD 4 0, rw.getD 5 0, rw.getD 6 0, rw.getD 7 0⟩
        let bw (i : Nat) : Dword := ws.getD (16 + i) 0
        let badBank (b : Nat) : Bool :=
          fld (bw (2 * b)) 63 52 != 0 || fld (bw (2 * b + 1)) 63 17 != 0 || 65536 < fld (bw (2 * b + 1)) 16 0
        if badImage ws || r.malformed || (List.range 16).any badBank then fail (some { cause := 1 }) s
        else
          let nseg := fld (ws.getD 1 0) 31 16
          let nteam := fld (ws.getD 1 0) 63 32
          let l' : Launch := { l with
            st := .live, record := r, save := fld (ws.getD 3 0) 51 0, tsz := fld (ws.getD 4 0) 63 32
            banks := (List.range 16).map fun b => (fld (bw (2 * b)) 51 0, fld (bw (2 * b + 1)) 16 0) }
          let s := s.updLaunch part handle fun _ => l'
          match segments l.pasid img (List.range nseg) s.flushAll with
          | (some c, s) => fail c s
          | (none, s) =>
            let tr := if r.w0.extractLsb' 30 2 == 2#2 then s.readTrace l' r else .ok []
            match tr with
            | .error c => fail c s
            | .ok es =>
              let s := s.updLaunch part handle fun x => { x with trace := es }
              if nteam = 0 then .next (s.rootCards l' r)
              else
                match adoptAll l' img nseg (List.range nteam) s with
                | (.error c, s) => fail c s
                | (.ok ids, s) => .next ((s.takeDump l' ids).pushImage l' r ids)

end Sys2Proof.Machine
end

