-- ==== Sys2Proof/Machine/Logic.lean ====
section
/-! DEFINITION. Logic, shifts, bit fields and counts (R230 to R232). -/

namespace Sys2Proof.Machine

/-- AND (R230): A AND B. -/
def execAnd (h : Hdr) (t : Ty) (d a b : Opnd) (s : State) : Out := intBin h t d a (.o b) (fun _ x y => x &&& y) s
/-- AND (R230): A AND B. Long form. -/
def execAndImm (h : Hdr) (t : Ty) (d a : Opnd) (imm : Word) (s : State) : Out :=
  intBin h t d a (immT t imm) (fun _ x y => x &&& y) s
/-- OR (R230): A OR B. -/
def execOr (h : Hdr) (t : Ty) (d a b : Opnd) (s : State) : Out := intBin h t d a (.o b) (fun _ x y => x ||| y) s
/-- OR (R230): A OR B. Long form. -/
def execOrImm (h : Hdr) (t : Ty) (d a : Opnd) (imm : Word) (s : State) : Out :=
  intBin h t d a (immT t imm) (fun _ x y => x ||| y) s
/-- XOR (R230): A XOR B. -/
def execXor (h : Hdr) (t : Ty) (d a b : Opnd) (s : State) : Out := intBin h t d a (.o b) (fun _ x y => x ^^^ y) s
/-- XOR (R230): A XOR B. Long form. -/
def execXorImm (h : Hdr) (t : Ty) (d a : Opnd) (imm : Word) (s : State) : Out :=
  intBin h t d a (immT t imm) (fun _ x y => x ^^^ y) s
/-- ANDN (R230): A AND NOT B. -/
def execAndn (h : Hdr) (t : Ty) (d a b : Opnd) (s : State) : Out := intBin h t d a (.o b) (fun _ x y => x &&& ~~~y) s
/-- ANDN (R230): A AND NOT B. Long form. -/
def execAndnImm (h : Hdr) (t : Ty) (d a : Opnd) (imm : Word) (s : State) : Out :=
  intBin h t d a (immT t imm) (fun _ x y => x &&& ~~~y) s
/-- NOT (R230). -/
def execNot (h : Hdr) (t : Ty) (d a : Opnd) (s : State) : Out := intUn h t d a (fun _ x => ~~~x) s

/-- R231: a shift by n = B[4:0], or B[5:0] for 64 bits; B is a single register. -/
def intShift (h : Hdr) (t : Ty) (d a b : Opnd) (f : (w : Nat) → BitVec w → Nat → BitVec w) (s : State) : Out :=
  s.shortOp h [(rdst t, .o d), (rsrc t, .o a), (.src, .o b)] noMore fun hd dep ln =>
    let n := (hd.rd ln (.o b)).toNat
    if t.is64 then hd.wr64 dep ln d (f 64 (hd.rd64 ln (.o a)) (n % 64))
    else hd.wr dep ln d (f 32 (hd.rd ln (.o a)) (n % 32))

/-- SHL (R230, R231). -/
def execShl (h : Hdr) (t : Ty) (d a b : Opnd) (s : State) : Out := intShift h t d a b (fun _ x n => x <<< n) s
/-- SHR (R230, R231). -/
def execShr (h : Hdr) (t : Ty) (d a b : Opnd) (s : State) : Out := intShift h t d a b (fun _ x n => x >>> n) s
/-- SAR (R230, R231). -/
def execSar (h : Hdr) (t : Ty) (d a b : Opnd) (s : State) : Out := intShift h t d a b (fun _ x n => x.sshiftRight n) s
/-- ROL (R230, R231). -/
def execRol (h : Hdr) (t : Ty) (d a b : Opnd) (s : State) : Out :=
  intShift h t d a b (fun w x n => (x <<< n) ||| (x >>> (w - n))) s

/-- R232 BFX: the field of width min(c, 32 - p) at p, sign- or zero-extended. -/
def bfx (signed : Bool) (x : Word) (p c : Nat) : Word :=
  let wd := min c (32 - p)
  let f := (x >>> p).extractLsb' 0 wd
  if wd = 0 then 0 else if signed then f.signExtend 32 else f.setWidth 32

/-- R232 BFI: A's low bits over the field of D. -/
def bfi (old x : Word) (p c : Nat) : Word :=
  let wd := min c (32 - p)
  let m : Word := BitVec.ofNat 32 ((2 ^ wd - 1) * 2 ^ p)
  (old &&& ~~~m) ||| ((x <<< p) &&& m)

/-- BFX (R232). -/
def execBfx (h : Hdr) (t : Ty) (d a b c : Opnd) (s : State) : Out :=
  s.shortOp h [(.dst, .o d), (.src, .o a), (.src, .o b), (.src, .o c)] noMore fun hd dep ln =>
    hd.wr dep ln d (bfx (t == .i32) (hd.rd ln (.o a)) ((hd.rd ln (.o b)).toNat % 32) ((hd.rd ln (.o c)).toNat % 64))
/-- BFI (R232): D is read as well as written. -/
def execBfi (h : Hdr) (_t : Ty) (d a b c : Opnd) (s : State) : Out :=
  s.shortOp h [(.dst, .o d), (.src, .o d), (.src, .o a), (.src, .o b), (.src, .o c)] noMore fun hd dep ln =>
    hd.wr dep ln d (bfi (hd.rd ln (.o d)) (hd.rd ln (.o a)) ((hd.rd ln (.o b)).toNat % 32)
      ((hd.rd ln (.o c)).toNat % 64))

/-- R230: the number of 1 bits. -/
def popCount {w : Nat} (x : BitVec w) : Nat := ((List.range w).filter fun i => x.getLsbD i).length
/-- R230: leading zero bits; w when x = 0. -/
def leadZeros {w : Nat} (x : BitVec w) : Nat := if x = 0 then w else w - 1 - Nat.log2 x.toNat
/-- R230: trailing zero bits; w when x = 0. -/
def trailZeros {w : Nat} (x : BitVec w) : Nat := ((List.range w).find? fun i => x.getLsbD i).getD w
/-- R230: the bits in reverse order. -/
def bitReverse {w : Nat} (x : BitVec w) : BitVec w :=
  BitVec.ofNat w ((List.range w).foldl (fun n i => 2 * n + (x.getLsbD i).toNat) 0)

/-- A count of A's bits into a single register (R230). -/
def intCount (h : Hdr) (t : Ty) (d a : Opnd) (f : (w : Nat) → BitVec w → Nat) (s : State) : Out :=
  s.shortOp h [(.dst, .o d), (rsrc t, .o a)] noMore fun hd dep ln =>
    hd.wr dep ln d (BitVec.ofNat 32 (if t.is64 then f 64 (hd.rd64 ln (.o a)) else f 32 (hd.rd ln (.o a))))

/-- POPC (R230). -/
def execPopc (h : Hdr) (t : Ty) (d a : Opnd) (s : State) : Out := intCount h t d a (fun _ x => popCount x) s
/-- CLZ (R230). -/
def execClz (h : Hdr) (t : Ty) (d a : Opnd) (s : State) : Out := intCount h t d a (fun _ x => leadZeros x) s
/-- CTZ (R230). -/
def execCtz (h : Hdr) (t : Ty) (d a : Opnd) (s : State) : Out := intCount h t d a (fun _ x => trailZeros x) s
/-- BREV (R230). -/
def execBrev (h : Hdr) (t : Ty) (d a : Opnd) (s : State) : Out := intUn h t d a (fun _ x => bitReverse x) s

end Sys2Proof.Machine
end

