-- ==== Sys2Proof/Machine/Crypto.lean ====
section
/-! DEFINITION. The cryptography that the boot chain, attestation and queue capabilities name (R343 to R346, R397):
SHA-512, HMAC-SHA-512 and the check of an RSASSA-PKCS1-v1_5 signature. The spec names these standards and does not
repeat them; the constants below are the standards' own (PRESUMED, log 12). -/

namespace Sys2Proof.Machine

/-- The first 80 primes. -/
def primes : List Nat :=
  [2, 3, 5, 7, 11, 13, 17, 19, 23, 29, 31, 37, 41, 43, 47, 53, 59, 61, 67, 71, 73, 79, 83, 89, 97, 101, 103, 107, 109,
   113, 127, 131, 137, 139, 149, 151, 157, 163, 167, 173, 179, 181, 191, 193, 197, 199, 211, 223, 227, 229, 233, 239,
   241, 251, 257, 263, 269, 271, 277, 281, 283, 293, 307, 311, 313, 317, 331, 337, 347, 349, 353, 359, 367, 373, 379,
   383, 389, 397, 401, 409]

/-- The largest x below 2^bits with f x at most n, for a rising f. -/
def rootBy (f : Nat → Nat) (n : Nat) : Nat → Nat → Nat
  | 0, x => x
  | b + 1, x => let y := x + 2 ^ b; if f y ≤ n then rootBy f n b y else rootBy f n b x

/-- The first 64 bits of the fractional part of a square root, and of a cube root. -/
def fracSqrt (p : Nat) : Dword := BitVec.ofNat 64 (rootBy (fun x => x * x) (p * 2 ^ 128) 72 0)
def fracCbrt (p : Nat) : Dword := BitVec.ofNat 64 (rootBy (fun x => x * x * x) (p * 2 ^ 192) 72 0)

/-- SHA-512's round constants and initial hash value. -/
def shaK : List Dword := primes.map fracCbrt
def shaH0 : List Dword := (primes.take 8).map fracSqrt

/-- A message padded to whole blocks of 128 bytes. -/
def shaPad (m : List Byte) : List Byte :=
  let zeros := (128 - (m.length + 17) % 128) % 128
  m ++ [0x80#8] ++ List.replicate zeros 0 ++ ((List.range 16).map fun i => BitVec.ofNat 8 (m.length * 8 / 256 ^ (15 - i)))

/-- Eight bytes as a big-endian word. -/
def beWord (l : List Byte) : Dword := BitVec.ofNat 64 (l.foldl (fun n b => n * 256 + b.toNat) 0)

/-- A block as sixteen words. -/
def blockWords (l : List Byte) : List Dword := (List.range 16).map fun i => beWord ((l.drop (8 * i)).take 8)

def rotr (x : Dword) (n : Nat) : Dword := x.rotateRight n

/-- The message schedule: each step appends one word; the last sixteen words are kept newest first. -/
def schedule (l : List Dword) : Nat → List Dword
  | 0 => []
  | n + 1 =>
    let w (i : Nat) : Dword := l.getD i 0
    let s0 := rotr (w 1) 1 ^^^ rotr (w 1) 8 ^^^ (w 1 >>> 7)
    let s1 := rotr (w 14) 19 ^^^ rotr (w 14) 61 ^^^ (w 14 >>> 6)
    w 0 :: schedule (l.drop 1 ++ [s1 + w 9 + s0 + w 0]) n

/-- One round on the eight working words. -/
def shaRound (v : List Dword) (kw : Dword) : List Dword :=
  let g (i : Nat) : Dword := v.getD i 0
  let t1 := g 7 + (rotr (g 4) 14 ^^^ rotr (g 4) 18 ^^^ rotr (g 4) 41) + ((g 4 &&& g 5) ^^^ (~~~(g 4) &&& g 6)) + kw
  let t2 := (rotr (g 0) 28 ^^^ rotr (g 0) 34 ^^^ rotr (g 0) 39) + ((g 0 &&& g 1) ^^^ (g 0 &&& g 2) ^^^ (g 1 &&& g 2))
  [t1 + t2, g 0, g 1, g 2, g 3 + t1, g 4, g 5, g 6]

/-- One block. -/
def shaBlock (h : List Dword) (b : List Byte) : List Dword :=
  let kws := List.zipWith (· + ·) shaK (schedule (blockWords b) 80)
  List.zipWith (· + ·) h (kws.foldl shaRound h)

/-- The blocks of a padded message, one after another. -/
def shaBlocks : Nat → List Byte → List Dword → List Dword
  | 0, _, h => h
  | n + 1, m, h => shaBlocks n (m.drop 128) (shaBlock h (m.take 128))

/-- The big-endian bytes of a number. -/
def beBytes (n v : Nat) : List Byte := (List.range n).map fun i => BitVec.ofNat 8 (v / 256 ^ (n - 1 - i))

/-- SHA-512 of a message, as its 64 bytes. -/
def sha512 (m : List Byte) : List Byte :=
  let p := shaPad m
  (shaBlocks (p.length / 128) p shaH0).flatMap fun w => beBytes 8 w.toNat

/-- HMAC-SHA-512. -/
def hmac512 (key m : List Byte) : List Byte :=
  let k := if 128 < key.length then sha512 key else key
  let k := k ++ List.replicate (128 - k.length) 0
  sha512 (k.map (· ^^^ 0x5C#8) ++ sha512 (k.map (· ^^^ 0x36#8) ++ m))

/-- A little-endian number (R343). -/
def leNat (l : List Byte) : Nat := l.foldr (fun b n => b.toNat + 256 * n) 0

/-- x^65537 mod n. -/
def rsaPow (x n : Nat) : Nat := ((List.range 16).foldl (fun y _ => y * y % n) (x % n)) * x % n

/-- The DER prefix of a SHA-512 digest in PKCS #1 v1.5. -/
def derPrefix : List Byte :=
  [0x30, 0x51, 0x30, 0x0D, 0x06, 0x09, 0x60, 0x86, 0x48, 0x01, 0x65, 0x03, 0x04, 0x02, 0x03, 0x05, 0x00, 0x04, 0x40]

/-- The encoded message of a digest, 512 bytes. -/
def pkcsMessage (digest : List Byte) : List Byte :=
  [0x00#8, 0x01#8] ++ List.replicate (512 - 3 - derPrefix.length - 64) 0xFF#8 ++ [0x00#8] ++ derPrefix ++ digest

/-- Does a 4096-bit signature verify over a message with a modulus, both little-endian numbers (R343)? -/
def rsaVerify (modulus sig m : List Byte) : Bool :=
  let n := leNat modulus
  let x := leNat sig
  decide (x < n) && beBytes 512 (rsaPow x n) == pkcsMessage (sha512 m)

end Sys2Proof.Machine
end

