-- ==== Sys2Proof/Machine/Queues.lean ====
section
/-! DEFINITION. Queues: capabilities (R397), wakes (R398, R399), packets (R401, R402), commands (R403), completion records
(R404), dead queues (R406) and DUMP's image (R386, R387, R403). -/

namespace Sys2Proof.Machine

/-! ### Capabilities (R397) -/

/-- Words 0 to 2 of a queue's capability. -/
def Queue.capWords (q : Queue) : List Dword :=
  [BitVec.ofNat 64 (fld q.base 51 0),
   BitVec.ofNat 64 (q.lsz % 64 * 2 ^ 58 + q.qid % 2 ^ 14 * 2 ^ 44 + q.part % 16 * 2 ^ 40 + q.rights.toNat * 2 ^ 32 + q.pasid % 2 ^ 20),
   BitVec.ofNat 64 (q.gen % 2 ^ 32 * 2 ^ 32)]

/-- SEAL of three words under a partition's key: bytes 0 to 7 of the HMAC. -/
def sealOf (part gen : Nat) (ws : List Dword) : Dword :=
  BitVec.ofNat 64 (ofBytes ((hmac512 (Config.sealKey part gen) (wordsBytes ws)).take 8))

/-- Has a launch of the queue origin entries that have not drained (R406)? -/
def State.queueBusy (s : State) (q : Queue) : Bool :=
  s.cores.any fun c => c.2.origins.any fun o => o.part == q.part && match s.launch? o.part o.launch with
    | some l => l.qid == q.qid
    | none => false

/-- R397, R338, R406: may the queue be created? Its partition has started, so that there is a key to seal with, owns the PASID, and
has no team. -/
def State.queueOk (s : State) (part qid pasid : Nat) (base : Dword) (lsz : Nat) (rights : BitVec 8) : Bool :=
  let free := match s.queue? qid with
    | none => true
    | some q => q.dead && !s.queueBusy q
  decide (part < 16 ∧ qid < 16384 ∧ pasid < 2 ^ 20 ∧ 12 ≤ lsz ∧ lsz ≤ 26 ∧ base.toNat < 2 ^ 52)
    && (s.part part).sealGen != 0 && (s.part part).ownsPasid pasid && !s.hasTeams part && base.toNat % 4096 == 0 && fld rights 7 6 == 0 && free
    && decide ((s.queues.filter fun q => q.part == part && !q.dead && q.qid != qid).length < 1024)

/-- QUEUE_CREATE (R397, R402): the reply is the capability's four words, or 1 when the hub refuses the call. A queue id
that is used again goes on with the generation after the old one (DEDUCED, log 29). -/
def execQueueCreate (part qid pasid : Nat) (base : Dword) (lsz : Nat) (rights : BitVec 8) (s : State) : Out :=
  if !s.queueOk part qid pasid base lsz rights then .next (s.answer 1)
  else
    let gen := match s.queue? qid with | some q => (q.gen + 1) % 2 ^ 32 | none => 0
    let q : Queue := { qid, part, pasid, base, lsz, rights, gen }
    let others := s.queues.filter fun (x : Queue) => x.qid != qid
    .next { s with
      queues := others ++ [q]
      reply := q.capWords ++ [sealOf part (s.part part).sealGen q.capWords] }

/-- CAPABILITY_REVOKE (R397): the queue's GEN is incremented. -/
def execCapabilityRevoke (qid : Nat) (s : State) : Out :=
  .next (s.updQueue qid fun q => { q with gen := (q.gen + 1) % 2 ^ 32 })

/-- QUEUE_DESTROY (R406). -/
def execQueueDestroy (qid : Nat) (s : State) : Out := .next (s.killQueue qid)

/-- PARTITION_TEARDOWN (R406): every queue of the partition is dead, and its seal key is destroyed; it has no trap vector when it
starts again (R372). -/
def execPartitionTeardown (part : Nat) (s : State) : Out :=
  let s := (s.queues.filter fun q => q.part == part).foldl (fun s q => s.killQueue q.qid) s
  .next (s.updPart part fun x => { x with sealGen := 0, vectors := [] })

/-- DEAD_QUEUE_READ (R406): the reply is the final COMP and HEAD of a dead queue; 1 for a queue that is not dead. -/
def execDeadQueueRead (qid : Nat) (s : State) : Out :=
  match s.queue? qid with
  | none => .next (s.answer 1)
  | some q => if q.dead then .next { s with reply := [BitVec.ofNat 64 q.comp, BitVec.ofNat 64 q.head] } else .next (s.answer 1)

/-- REFUSED_WAKE_READ (R399). -/
def execRefusedWakeRead (part : Nat) (s : State) : Out := .next { s with reply := [BitVec.ofNat 64 (s.part part).refused] }

/-! ### Wakes (R398, R399) -/

/-- R399: the queue of a wake that passes checks 1 to 4. Without a key no seal verifies. -/
def State.wakeQueue (s : State) (part : Nat) (w0 w1 w2 w3 w4 : Dword) : Option Queue :=
  let reserved := fld w0 63 52 != 0 || fld w1 39 38 != 0 || fld w1 31 20 != 0 || fld w2 31 0 != 0 || fld w4 63 32 != 0
  let sealed := (s.part part).sealGen != 0 && w3 == sealOf part (s.part part).sealGen [w0, w1, w2] && fld w1 43 40 == part
  if reserved || !sealed then none
  else match s.queue? (fld w1 57 44) with
    | none => none
    | some q =>
      let ahead := (fld w4 31 0 + 2 ^ 32 - q.tail) % 2 ^ 32
      if q.part != part || q.dead || q.gen != fld w2 63 32 || 2 ^ (q.lsz - 3) < ahead then none else some q

/-- QUEUE_WAKE (R398, R399): a write to word 5 of a wake window takes words 0 to 4 as they stand. A wake that fails a
check changes only the partition's refused-wake count. -/
def execQueueWake (part window : Nat) (w0 w1 w2 w3 w4 : Dword) (s : State) : Out :=
  if 16 ≤ part || 1024 ≤ window then .next s
  else
    let s := s.updPart part fun x => { x with windows := SMap.setRun 0 x.windows (8 * window) [w0, w1, w2, w3, w4] }
    match s.wakeQueue part w0 w1 w2 w3 w4 with
    | none => .next (s.updPart part fun x => { x with refused := x.refused + 1 })
    | some q => .next (s.updQueue q.qid fun q => { q with tail := fld w4 31 0 })

/-! ### Packets (R400 to R402) -/

/-- A packet: its header, its values in ascending register order, and its length in words. -/
structure Packet where
  hdr : Dword
  vals : List Dword
  deriving DecidableEq, Repr

def Packet.cmd (p : Packet) : Nat := fld p.hdr 63 56
def Packet.barrier (p : Packet) : Bool := bit p.hdr 49
def Packet.irq (p : Packet) : Bool := bit p.hdr 48
/-- The registers of MASK, ascending. -/
def maskRegs (hdr : Dword) : List Nat := idxs 32 fun i => hdr.getLsbD i
def Packet.len (p : Packet) : Nat := 1 + (maskRegs p.hdr).length
/-- R402. -/
def Packet.malformed (p : Packet) : Bool :=
  fld p.hdr 55 50 != 0 || fld p.hdr 47 32 != 0 || decide (6 < p.cmd) || fld p.hdr 31 11 != 0

/-- Ring words from index `i`, which wraps at the end of the ring; `none` when one cannot be read. The loads set A in the leaves of the
ring's pages (R360). -/
def State.ringWords (s : State) (q : Queue) (i : Nat) : Nat → Option (List Dword × State)
  | 0 => some ([], s)
  | n + 1 =>
    match s.vread q.pasid (q.base.toNat + 8 * (i % 2 ^ (q.lsz - 3))) 8 with
    | (.ok bs, s) => (s.ringWords q (i + 1) n).map fun r => (BitVec.ofNat 64 (ofBytes bs) :: r.1, r.2)
    | (.error _, _) => none

/-- R401: the packet at HEAD, when it lies below T, and the state once it has been read. -/
def State.packetRead (s : State) (q : Queue) : Option (Packet × State) :=
  let ahead := (q.tail + 2 ^ 32 - q.head) % 2 ^ 32
  if ahead = 0 then none
  else match s.ringWords q q.head 1 with
    | some ([h], s) =>
      let n := (maskRegs h).length
      if ahead < 1 + n then none else (s.ringWords q (q.head + 1) n).map fun r => (⟨h, r.1⟩, r.2)
    | _ => none

/-- The packet at HEAD. -/
def State.packet (s : State) (q : Queue) : Option Packet := (s.packetRead q).map (·.1)

/-- R402: the packet's values in the shadow registers. -/
def shadowSet (m : SMap Dword) (p : Packet) : SMap Dword :=
  (List.zip (maskRegs p.hdr) p.vals).foldl (fun m x => m.set x.1 x.2 0) m

/-- R402: the right that a command needs; NOP needs none. -/
def rightOf (cmd : Nat) : Option Nat := if cmd = 0 then none else some (cmd - 1)
def Queue.mayDo (q : Queue) (cmd : Nat) : Bool := match rightOf cmd with | none => true | some b => q.rights.getLsbD b

/-- R403: the launches of the queue in flight, oldest first. -/
def State.inFlight (s : State) (q : Queue) : List Nat := (q.cmds.filter (s.flying q)).map (·.launch)

/-- R403: must the packet wait for earlier commands? DUMP acts on a launch in flight, and waits only for the commands that are none
(DEDUCED, log 29). -/
def State.holds (s : State) (q : Queue) (p : Packet) : Bool :=
  if p.cmd = 1 && !p.barrier then decide (16 ≤ (s.inFlight q).length)
  else if p.cmd = 5 then q.cmds.any fun c => !s.flying q c
  else !q.cmds.isEmpty

/-- The command that a packet starts: its effect is still to come, but for a status that is known. -/
def Queue.command (q : Queue) (p : Packet) (status : Option (Nat × Nat)) : Cmd :=
  let r (i : Nat) : Dword := q.shadow.get i 0
  { cmd := p.cmd, irq := p.irq, cpl := r 2, cval := r 3, head := (q.head + p.len) % 2 ^ 32, vector := fld (r 10) 10 0, status }

/-- Consume the packet and add its command. -/
def State.started (s : State) (q : Queue) (p : Packet) (shadow : SMap Dword) (c : Cmd) : State :=
  s.updQueue q.qid fun q => { q with head := (q.head + p.len) % 2 ^ 32, shadow, cmds := q.cmds ++ [c] }

/-- R401 to R403: the packet at the head of a queue starts, when the queue is alive, the packet is whole and no rule
holds it. `want`: is it this step's command? `act` runs the command on the registers that the packet leaves; `none`: it has still to
wait. -/
def startPacket (qid : Nat) (want : Nat → Bool) (act : Queue → Cmd → State → Option (Cmd × State)) (s : State) : Out :=
  match s.queue? qid with
  | none => .next s
  | some q =>
    if q.dead then .next s
    else match s.packetRead q with
      | none => .next s
      | some (p, s') =>
        if !want p.cmd || s.holds q p then .next s
        else
        let s := s'
        if p.malformed then .next (s.started q p q.shadow (q.command p (some (2, 0))))
        else
          let q' := { q with shadow := shadowSet q.shadow p }
          if !q.mayDo p.cmd then .next (s.started q p q'.shadow (q'.command p (some (3, 0))))
          else match act q' (q'.command p none) s with
            | none => .next s
            | some (c, s) => .next (s.started q p q'.shadow c)

/-- A command whose effect is done. -/
def Cmd.done (c : Cmd) (status : Nat) (cause : Nat := 0) : Cmd := { c with status := some (status, cause) }

/-- PKT_NOP (R403). A packet with a reserved CMD, which does nothing but complete, is taken here too (R402). -/
def execPktNop (qid : Nat) (s : State) : Out :=
  startPacket qid (fun c => c == 0 || decide (6 < c)) (fun _ c s => some (c.done 0, s)) s

/-- A new launch, before its image is read. -/
def newLaunch (q : Queue) (handle : Nat) (image save : Dword) : Launch :=
  { part := q.part, handle, qid := q.qid, pasid := q.pasid, image, saveDflt := save, st := .pending, record := ⟨0, 0, 0, 0, 0, 0, 0, 0⟩ }

/-- R396: the queue cores, of which QC(q mod 6) serves queue q. -/
def queueCores : Nat := 6

/-- R403: the queue core reads the image's header for a launch; the cause of its fault, or `none` while the host has still to
translate (R368). -/
def State.imageRead (s : State) (q : Queue) : Except (Option Flt) State :=
  let img := (q.shadow.get 0 0).toNat
  if img % 64 ≠ 0 then .error (some { cause := 7 })
  else match s.vread q.pasid img 64 with
    | (.error e, _) => .error e
    | (.ok _, s) => .ok s

/-- R396: does the queue's core ask the policy core to admit a launch: one that nothing holds, well formed, with its right and a
readable image? -/
def State.asksPolicy (s : State) (q : Queue) : Bool :=
  !q.dead && match s.packet q with
    | none => false
    | some p => p.cmd == 1 && !p.malformed && q.mayDo 1 && !s.holds q p &&
      match s.imageRead { q with shadow := shadowSet q.shadow p } with
      | .ok _ => true
      | .error _ => false

/-- R396: the queue core that the policy core takes a request from: round-robin, in ascending order, after the one that it served
last. -/
def State.policyTurn (s : State) : Option Nat :=
  minBy (fun c => match s.policyLast with | some l => (c + queueCores - l - 1) % queueCores | none => c)
    (((s.queues.filter s.asksPolicy).map fun q => q.qid % queueCores))

/-- PKT_LAUNCH (R403, R396): the policy core, when it serves the queue's core, assigns a handle; LAUNCH_RESTORE restores the image.
An image address that faults gives STATUS 5, and no launch (DEDUCED, log 29). -/
def execPktLaunch (qid : Nat) (s : State) : Out :=
  startPacket qid (· == 1) (fun q c s =>
    match s.imageRead q with
    | .error none => none
    | .error (some e) => some (c.done 5 e.cause, s)
    | .ok s' =>
      if s.policyTurn ≠ some (qid % queueCores) then none
      else
        let h := (s'.part q.part).nextHandle
        let s := s'.updPart q.part fun x => { x with nextHandle := (h + 1) % 2 ^ 32 }
        let l := newLaunch q h (q.shadow.get 0 0) (q.shadow.get 1 0)
        some ({ c with launch := h },
          { s with
            policyLast := some (qid % queueCores)
            launches := s.launches.filter (fun x => !(x.part == q.part && x.handle == h)) ++ [l] })) s

/-- A strong store at .s by the hub in a queue's PASID, aligned to `al`; the cause of its fault, or `none` while the host has still
to translate (R368). -/
def State.hubStore (s : State) (pasid va al : Nat) (bs : List Byte) : Except (Option Flt) State :=
  if va % al ≠ 0 then .error (some { cause := 7 })
  else match vpieces pasid .write (spacePieces .glob va bs.length) s with
    | (.error c, _) => .error c
    | (.ok ps, s') =>
      match s'.lostWrite va ps with
      | some f => .error (some f)
      | none => .ok (pokePieces ps bs s'.flushAll)

/-- PKT_SIGNAL (R403): a strong release store at .s of s5, 8 bytes at s4. -/
def execPktSignal (qid : Nat) (s : State) : Out :=
  startPacket qid (· == 2) (fun q c s =>
    match s.hubStore q.pasid (q.shadow.get 4 0).toNat 8 (toBytes 8 (q.shadow.get 5 0).toNat) with
    | .error none => none
    | .error (some e) => some (c.done 5 e.cause, s)
    | .ok s => some (c.done 0, s)) s

/-- PKT_FENCE (R403): it waits at COMMAND_COMPLETE; another partition's queue gives STATUS 3. -/
def execPktFence (qid : Nat) (s : State) : Out :=
  startPacket qid (· == 3) (fun q c s =>
    match s.queue? (fld (q.shadow.get 6 0) 13 0) with
    | some f => some (if f.part == q.part then ({ c with x := q.shadow.get 6 0, y := q.shadow.get 7 0 }, s) else (c.done 3, s))
    | none => some (c.done 3, s)) s

/-- PKT_ICINV (R403, R294). -/
def execPktIcinv (qid : Nat) (s : State) : Out :=
  startPacket qid (· == 4) (fun q c s =>
    some (c.done 0, s.dropCode q.part (fld (q.shadow.get 8 0) 29 0) (fld (q.shadow.get 9 0) 31 0))) s

/-- PKT_DUMP (R403): the queue's oldest launch in flight is to be saved; with none, STATUS 4. Its teams stop by
SAVE_REQUEST and COLLECTOR_ACK, and COMMAND_COMPLETE writes the image. -/
def execPktDump (qid : Nat) (s : State) : Out :=
  startPacket qid (· == 5) (fun q c s =>
    some (match s.inFlight q with
    | [] => (c.done 4, s)
    | h :: _ => ({ c with launch := h, x := q.shadow.get 0 0 }, s))) s

/-- PKT_TEARDOWN (R403, R369): the queue's PASID is torn down, and with it the queue. -/
def execPktTeardown (qid : Nat) (s : State) : Out :=
  startPacket qid (· == 6) (fun q c s => some (c, s.teardown q.pasid)) s

/-! ### DUMP's image (R386, R403) -/

/-- The section of a team of a dumped launch: one that is saved already is read where it lies. -/
def State.dumpSection (s : State) (l : Launch) (t : Team) : Except (Option Flt) (List Byte) :=
  if t.st != .saved then .ok (s.sectionBytes t)
  else match s.sectionHead l t.section_ with
    | (.error c, _) => .error c
    | (.ok ws, s) => match s.vread l.pasid t.section_ (secMap ws (accOf l (cardOf ws))).size with
      | (.error c, _) => .error c
      | (.ok bs, _) => .ok bs

/-- The sections of all the teams. -/
def dumpSections (s : State) (l : Launch) : List Team → Except (Option Flt) (List (Dword × List Byte))
  | [] => .ok []
  | t :: r => match s.dumpSection l t, dumpSections s l r with
    | .ok b, .ok bs => .ok ((t.lid, pad64 b) :: bs)
    | .error c, _ => .error c
    | _, .error c => .error c

/-- What has not begun of a launch: the messages to its cores (R70) and its cards that were never placed, with the indices of their
teams. -/
def State.unbegun (s : State) (l : Launch) : List (Card × Seat) :=
  let mine (m : Msg) : Bool := m.part == l.part && m.launch == l.handle
  let cards := s.dies.flatMap fun d => d.deal.filter fun c => c.part == l.part && c.launch == l.handle && c.resume.isNone
  (((s.cores.flatMap fun c => c.2.msgs) ++ s.amFlight).filter mine).map (fun m => (m.card, ⟨m.card.w5, m.n, m.x, m.y, m.z, m.lix⟩))
    ++ cards.flatMap fun c => (seatsOf l.record c.card).map fun x => (c.card, x)

/-- R70: their teams and sections: teams whose hands are about to choose their first block (DESIGN CHOICE, log 17). -/
def unbegunSections (l : Launch) : List (Card × Seat) → State → List (Team × Dword × List Byte)
  | [], _ => []
  | (c, x) :: r, s =>
    let (id, s) := s.fresh
    let n := needOf l.record c
    let t := newTeam l c id x (savedCore id) ⟨List.replicate n.hands (0, 0), 0, [], n.depth⟩ none .placed
    let s' := { s with hands := s.hands ++ newHands t s.cyc }
    (t, t.lid, pad64 (s'.sectionBytes t)) :: unbegunSections l r s

/-- The offsets of parts that follow one another. -/
def offsets (at_ : Nat) : List Nat → List Nat
  | [] => []
  | n :: r => at_ :: offsets (at_ + n) r

def LaunchRec.words (r : LaunchRec) : List Dword := [r.w0, r.w1, r.w2, r.w3, r.w4, r.w5, r.w6, r.w7]

/-- R386: an image of a launch with these sections and no segments (DESIGN CHOICE, log 17). -/
def imageOf (l : Launch) (secs : List (Dword × List Byte)) : List Byte :=
  let dir := secs.length
  let at_ := ceilDiv (384 + 16 * dir) 64 * 64
  let offs := offsets at_ (secs.map fun x => x.2.length)
  let body := secs.flatMap (·.2)
  let header : List Dword :=
    [BitVec.ofNat 64 (0x4C413149 * 2 ^ 32 + 2 ^ 16), BitVec.ofNat 64 (dir * 2 ^ 32), BitVec.ofNat 64 (at_ + body.length),
     BitVec.ofNat 64 l.save, BitVec.ofNat 64 (l.tsz * 2 ^ 32), 0, 0, 0]
  wordsBytes header ++ wordsBytes l.record.words
    ++ wordsBytes (l.banks.flatMap fun b => [BitVec.ofNat 64 b.1, BitVec.ofNat 64 b.2])
    ++ pad64 ((List.zip secs offs).flatMap fun x => toBytes 8 x.1.1.toNat ++ toBytes 8 x.2)
    ++ body

/-- R70: held reductions, staged items and what else the image at `image` has no field for are kept unchanged for a launch that is
restored from it; `secs`: the teams of its sections. What an earlier DUMP kept for that address goes (DESIGN CHOICE, log 73). -/
def State.keepDump (s : State) (l : Launch) (pasid image : Nat) (secs : List Team) : State :=
  let away (s : State) (t : Team) : State :=
    if t.st == .saved || t.st == .gone then s else s.moveShare t.core t.sbase t.share (savedCore t.id) 0
  let s := (s.teamsOf l.part l.handle).foldl away s
  let ts := s.teamsOf l.part l.handle
  let mine (id : Nat) : Bool := ts.any fun t => t.id == id
  let d : Dumped := {
    pasid, image, teams := secs.map fun t => (s.team? t.id).getD t
    gone := ts.filter fun t => t.st == .gone && !t.heldRed.isEmpty
    coreReds := s.cores.flatMap fun c => (c.2.heldRed.filter fun x => mine x.w.team).map fun x => (c.1, x)
    staged := (s.dies.mapIdx fun i d => (d.staged.filter fun a => a.part == l.part && a.launch == l.handle).map fun a => (i, a)).flatten
    phases := s.phases.filter fun x => mine x.2.2
    armed := l.armed }
  let clear (t : Team) : Team := if mine t.id then { t with heldRed := [] } else t
  { s with
    dumped := s.dumped.filter (fun x => !(x.pasid == pasid && x.image == image)) ++ [d]
    cores := s.cores.map fun (c : Nat × Core) => (c.1, { c.2 with heldRed := c.2.heldRed.filter fun x => !mine x.w.team })
    teams := s.teams.map clear }

/-- The launch ends as saved: its teams, cards and messages go. -/
def State.endSaved (s : State) (l : Launch) : State :=
  let s := { s with
    dies := s.dies.map (Die.forget l.part l.handle)
    amFlight := s.amFlight.filter fun m => !(m.part == l.part && m.launch == l.handle) }
  let s := s.updCores fun c => { c with msgs := c.msgs.filter fun m => !(m.part == l.part && m.launch == l.handle) }
  let ts := s.teamsOf l.part l.handle
  let s := ts.foldl (fun s t => if t.st == .gone then s else s.stopTeam t) s
  let s := { s with teams := s.teams.filter fun t => !(t.part == l.part && t.launch == l.handle) }
  s.updLaunch l.part l.handle fun x => { x with st := .saved, armed := [] }

/-- What a started DUMP comes to: still waiting, or its status. As one fails, its teams run again, with the commands that were held for
them (R349). -/
def State.dumpStep (s : State) (q : Queue) (c : Cmd) : Option (Nat × Nat) × State :=
  match s.launch? q.part c.launch with
  | none => (some (4, 0), s)
  | some l =>
    let ts := s.teamsOf l.part l.handle
    let settled (t : Team) : Bool := t.st == .gone || t.st == .saved || (t.stopped && !s.barrierMoving t)
    if l.st == .endedFailed then (some (1, l.cause), s)
    else if l.st == .ended || l.st == .saved then (some (4, 0), s)
    else if l.st != .live || !ts.all settled then (none, s)
    else
      let (wait, s) := (ts.filter fun t => t.st == .saving).foldl
        (fun (r : Bool × State) t => let (w, s) := r.2.endVisits t; (r.1 || w, s)) (false, s)
      if wait || s.launchDead l.part l.handle then (none, s)
      else
      let go (t : Team) : Team := if t.st == .saving then { t with st := .running, acks := [] } else t
      let failed (e : Nat) : Option (Nat × Nat) × State :=
        match ts.foldl (fun (r : Option State) t => r.bind fun s =>
            if t.st == .saving then (s.updTeam t.id go).applyHeldCmds t else some s) (some s) with
        | some s => (some (5, e), s)
        | none => (none, s)
      if c.x.toNat % 64 ≠ 0 then failed 7
      else match dumpSections s l (ts.filter fun t => t.st != .gone) with
        | .error none => (none, s)
        | .error (some e) => failed e.cause
        | .ok secs =>
          let new := unbegunSections l (s.unbegun l) s
          match s.vwrite q.pasid c.x.toNat (imageOf l (secs ++ new.map (·.2))) with
          | .error none => (none, s)
          | .error (some e) => failed e.cause
          | .ok s =>
            (some (0, 0), (s.keepDump l q.pasid c.x.toNat ((ts.filter fun t => t.st != .gone) ++ new.map (·.1))).endSaved l)

/-- Carry on the DUMP of a queue, if one has started. -/
def State.settleDump (s : State) (q : Queue) : State :=
  match q.cmds.find? fun c => c.cmd == 5 && c.status.isNone with
  | none => s
  | some c => match s.dumpStep q c with
    | (none, s) => s
    | (some st, s) => s.updQueue q.qid fun q => { q with
        cmds := q.cmds.map fun x => if x.cmd == 5 && x.status.isNone then { x with status := some st } else x }

/-! ### Completion (R403, R404) -/

/-- R403: is the command's effect done? Its STATUS, CAUSE and FSEQ. -/
def State.result (s : State) (q : Queue) (c : Cmd) : Option (Nat × Nat × Nat) :=
  match c.status with
  | some (st, cause) =>
    let fseq := if st = 1 then (match s.launch? q.part c.launch with | some l => l.fseq | none => 0) else 0
    some (st, cause, fseq)
  | none =>
    if c.cmd = 1 then
      match s.launch? q.part c.launch with
      | some l =>
        if l.st == .ended || l.st == .saved then some (0, 0, 0)
        else if l.st == .endedFailed then some (1, l.cause, l.fseq) else none
      | none => none
    else if c.cmd = 3 then
      match s.queue? (fld c.x 13 0) with
      | some f => if f.part != q.part then some (3, 0, 0) else if c.y.toNat ≤ f.comp then some (0, 0, 0) else none
      | none => some (3, 0, 0)
    else if c.cmd = 6 then (if s.pasidBusy q.pasid then none else some (0, 0, 0))
    else none

/-- R404: the completion record's four words. -/
def recordWords (c : Cmd) (r : Nat × Nat × Nat) (comp : Nat) : List Dword :=
  [c.cval, BitVec.ofNat 64 (r.1 * 2 ^ 56 + r.2.1 * 2 ^ 48 + c.head), BitVec.ofNat 64 (c.launch * 2 ^ 32 + r.2.2 % 2 ^ 32),
   BitVec.ofNat 64 comp]

/-- R404: the record is stored at .s; words 1 to 3 are visible before word 0, and all at once. `false`: its address
faults, and it is dropped. `none`: the host has still to translate (R368). -/
def State.writeCpl (s : State) (pasid : Nat) (cpl : Dword) (ws : List Dword) : Option (Bool × State) :=
  if cpl == 0 then some (true, s)
  else match s.hubStore pasid cpl.toNat 32 (wordsBytes ws) with
    | .error none => none
    | .error _ => some (false, s)
    | .ok s => some (true, s)

/-- R351: the vectors of a virtual function. -/
def vfVectors : Nat := 64

/-- COMMAND_COMPLETE (R403, R404): the oldest started command of a queue completes when its effect is done. A vector that the
partition's virtual function does not have, or an interrupt without a host, is not raised (R351; DEDUCED, log 29). -/
def execCommandComplete (qid : Nat) (s : State) : Out :=
  match s.queue? qid with
  | none => .next s
  | some q0 =>
    let s := s.settleDump q0
    match s.queue? qid with
    | none => .next s
    | some q =>
      match q.cmds with
      | [] => .next s
      | c :: r =>
        match s.result q c with
        | none => .next s
        | some res =>
          let comp := q.comp + 1
          match s.writeCpl q.pasid c.cpl (recordWords c res comp) with
          | none => .next s
          | some (ok, s) =>
            let s := s.updQueue qid fun q => { q with comp, cmds := r }
            .next (if ok && c.irq && s.host && decide (c.vector < vfVectors) then { s with irqs := s.irqs ++ [(q.part, c.vector)] }
              else s)

end Sys2Proof.Machine
end

