-- ==== Sys2Proof/Machine/Manage.lean ====
section
/-! DEFINITION. Management: the clock (R11, R85), windows and periods (R123, R340), the refill rate and heat (R13, R355),
errors (R393 to R395), reset, and the boot chain (R343 to R346). -/

namespace Sys2Proof.Machine

/-! ### Clock and periods -/

/-- R85: does the team's `rcyc` advance? -/
def Team.counts (t : Team) : Bool := t.st == .running || t.st == .saving
def Team.tick (t : Team) : Team := if t.counts then { t with rcyc := (t.rcyc + 1) % 2 ^ 64 } else t
def Hand.tick (hd : Hand) : Hand := { hd with busy := hd.busy - 1 }
/-- R11: the refill of a core's counter, which stands at its new value when the next cycle starts (R12). -/
def Core.refilled (rate : Nat) (c : Core) : Core :=
  let a := min Config.activityCap (c.activity + rate)
  { c with activity := a, actStart := a }

/-- R86: in each cycle the timers that have come due become pending. -/
def State.dueTimers (s : State) : State :=
  { s with hands := s.hands.map fun hd => match s.team? hd.team with
      | some t => if s.timerDue t hd then hd.timerFires else hd
      | none => hd }

/-- ACTIVITY_COUNTER_REFILL (R11, R85, R26, R86): a cycle passes: counters are refilled, `rcyc` and `ccyc` advance, the
transition that a hand makes goes on, and the timers that have come due by then become pending. (DEDUCED, log 10.) -/
def execActivityCounterRefill (s : State) : Out :=
  let s := s.updCores (Core.refilled s.refill)
  .next ({ s with
    cyc := s.cyc + 1
    teams := s.teams.map Team.tick
    hands := s.hands.map Hand.tick }).dueTimers

/-- R123: `cong` of a count of cycles in a window of 256. -/
def congOf (n : Nat) : Nat := if n < 32 then 0 else if n < 96 then 1 else if n < 192 then 2 else 3

/-- Set the `cong` of clusters that follow one another. -/
def setCong (m : SMap Nat) (cluster : Nat) : List Nat → SMap Nat
  | [] => m
  | n :: r => setCong (m.set cluster (congOf n) 0) (cluster + 1) r

/-- CONG_WINDOW_END (R123): the clusters of a die take the value of their counts. -/
def execCongWindowEnd (die : Nat) (counts : List Nat) (s : State) : Out :=
  if Config.dies ≤ die then .next s else .next { s with cong := setCong s.cong (8 * die) (counts.take 8) }

/-- BUDGET_PERIOD_END (R340, R341, R13): the counts start again, and a new refill rate takes effect. -/
def execBudgetPeriodEnd (s : State) : Out :=
  .next { s with budget := [], refill := s.refillNext.getD s.refill, refillNext := none, periods := s.periods + 1 }

/-! ### The refill rate (R13, R355) -/

/-- R355: the record that tells a partition the new rate. (DEDUCED, log 30.) -/
def rateNotice (rate : Nat) : RingRec := mkRecord { cause := 0, cls := 0, lid := BitVec.ofNat 64 rate }

/-- Has the partition anything assigned? -/
def Part.assigned (p : Part) : Bool := !p.clusters.isEmpty

/-- R13, R355: the rate for the next period; a change is reported to every partition. The report goes out when the rate is set, not
when it takes effect (DESIGN CHOICE, log 30). -/
def State.setRate (s : State) (rate : Nat) : State :=
  if rate = s.refillNext.getD s.refill then s
  else
    let s := { s with refillNext := some rate }
    (idxs 16 fun p => (s.part p).assigned).foldl (fun s p => (s.giveRecord p (rateNotice rate)).2) s

/-- REFILL_RATE_CHANGE (R13): only 32, 24 and 16 exist. -/
def execRefillRateChange (rate : Nat) (s : State) : Out :=
  if rate = 32 ∨ rate = 24 ∨ rate = 16 then .next (s.setRate rate) else .next s

/-! ### Fatal errors (R395) -/

/-- Where the dump region lies. -/
def dumpBase : Nat := Config.dumpRegion.val * 2 ^ 31

/-- R395, R340: a cycle of the regulator clock, whose periods last 8192 of its cycles. How far the present period has come is a free
value (log 17). -/
def State.regulatorCycle (s : State) (free : Word) : Nat := s.periods * 8192 + free.toNat % 8192

/-- R395: what the dump says of a core. -/
def State.dumpCore (s : State) (core : Nat) : DumpCore :=
  let c := s.core core
  let ts := s.teams.filter fun t => t.resident && t.core == core
  { core, hands := s.hands.filter (fun h => ts.any fun t => t.id == h.team), spad := c.spad,
    acc := ts.map fun t => (t.id, t.accMem), drones := c.drones, events := ts.map fun t => (t.id, t.records)
    entries := c.entries, msgs := c.msgs, origins := c.origins, resid := c.resid }

/-- R395: what the dump holds behind its header: a section for each of the 384 cores, of which a core that is not listed has nothing
to say, and the hub's. -/
def State.dumpOf (s : State) (reason hcyc : Nat) : Dump :=
  { reason, hcyc, cores := (idxs Config.cores fun c => s.cores.any fun x => x.1 == c).map s.dumpCore, parts := s.parts,
    queues := s.queues, launches := s.launches, contexts := s.contexts }

/-- R395: the dump's header. The bytes of what follows it are not given (DESIGN CHOICE, log 17). -/
def dumpHeader (reason cyc : Nat) : List Byte :=
  wordsBytes [BitVec.ofNat 64 (0x44554D50 * 2 ^ 32 + reason * 2 ^ 24), Config.packageSerial, BitVec.ofNat 64 cyc, 0, 0, 0, 0, 0]

/-- R395: firmware stops every core and writes the dump, whose sections are free bytes; the package stops until reset. (DESIGN CHOICE,
log 17.) -/
def State.fatal (s : State) (reason : Nat) : State :=
  let (w, s) := s.drawFree
  let hcyc := s.regulatorCycle (freeWord w)
  { (s.flushAll.poke (dumpBase + 64) ((Config.dumpSections w).take (2 ^ 31 - 64))).poke dumpBase (dumpHeader reason hcyc) with
    stopped := some reason, dump := some (s.dumpOf reason hcyc) }

/-- FATAL_ERROR (R395): reasons 1 to 4. -/
def execFatalError (reason : Nat) (s : State) : Out :=
  if reason = 0 ∨ 4 < reason then .next s else .next (s.fatal reason)

/-- THERMAL_EVENT (R355): junction in °C, rail in A, flow in L/min; `cool1s`: the junction has been below 90 °C for 1 s. -/
def execThermalEvent (junction rail flow : Nat) (cool1s : Bool) (s : State) : Out :=
  if 110 ≤ junction ∨ flow < 3 then .next (s.fatal 1)
  else if 100 ≤ junction then .next (s.setRate 16)
  else if 95 ≤ junction ∨ 1500 ≤ rail then .next (s.setRate 24)
  else if cool1s && decide (junction < 90) then .next (s.setRate 32)
  else .next s

/-! ### Uncorrectable errors (R393, R394) -/

/-- R394: the error report of a range. -/
def errorRecord (t : Team) (space off len : Nat) : RingRec :=
  mkRecord { cause := 0x1A, cls := 7, core := t.core, lid := t.lid, launch := t.launch,
             d0 := BitVec.ofNat 64 (space % 16 * 2 ^ 60 + off % 2 ^ 52), d1 := BitVec.ofNat 64 len }

/-- R393, R394: the error reports of the ranges of one event, in order. -/
def State.reportRanges (s : State) (t : Team) (l : List (Nat × Nat × Nat)) : State :=
  l.foldl (fun s r => (s.giveRecord t.part (errorRecord t r.1 r.2.1 r.2.2)).2) s

/-- R357, R358: the tables that a walk can reach from the one at `tab` of a tier. -/
def State.tablesFrom (s : State) : Nat → Nat → List Nat
  | 0, tab => [tab]
  | n + 1, tab =>
    let used := ((s.mem.filter fun x => decide (tab ≤ x.1 ∧ x.1 < tab + 4096)).map fun x => x.1 / 8 * 8).eraseDups
    tab :: ((used.map s.wordAt).filter fun e => (Sys2Proof.Machine.entryBad (n + 1) e 0).isNone && !entLeaf e).flatMap fun e => s.tablesFrom n (entOut e)

/-- R393: does the line lie in a page table of a context? -/
def State.inTables (s : State) (pa : Nat) : Bool :=
  s.contexts.any fun c => c.2.valid && !c.2.dead && (s.tablesFrom 3 c.2.root).any fun t => decide (t ≤ pa ∧ pa < t + 4096)

/-- UNCORRECTABLE_ERROR (R393, R394), by where it lies. An error in a page table is a fatal one, as one in hub state (DESIGN CHOICE,
log 70). -/
def execUncorrectableError (w : ErrAt) (s : State) : Out :=
  match w with
  | .line pa =>
    if s.poison.contains (lineOf pa) then .next s
    else
      let s := { s with poison := s.poison ++ [lineOf pa] }
      .next (if s.inTables pa then s.fatal 2 else s)
  | .meld core index =>
    match (s.core core).resid[index]? with
    | some r => .next (if r.dead then s else (s.loseResid r).dropResid core r)
    | none => .next s
  | .team id ranges =>
    match s.team? id with
    | none => .next s
    | some t =>
      if !t.resident || s.launchDead t.part t.launch || ranges.isEmpty then .next s
      else .next ((s.reportRanges t ranges).failL t.part t.launch { cause := 0x1A })
  | .drone p h =>
    match s.droneEnt p h with
    | none => .next s
    | some e => .next ((if e.res then s.dropDrone e.core p h else s).setDroneEnt p h none)
  | .hub => .next (s.fatal 2)

/-! ### Reset and the boot chain (R343 to R346) -/

/-- What repair left of a core's register storage (R391) outlasts a reset. -/
def Core.afterReset (c : Core) : Core := { regCap := c.regCap }

/-- RESET (R345, R11, R13): as `State.reset`, but for memory with the dump in it, fuses, repair, the package id, the host's presence,
the free-running regulator clock (R340) and the count of the keys generated, of which none comes back (R397) (DESIGN CHOICE, log 20). -/
def execReset (s : State) : Out :=
  .next { State.reset with
    mem := s.mem, poison := s.poison, floors := s.floors, pkgId := s.pkgId, host := s.host, keys := s.keys
    periods := s.periods, dump := s.dump
    cores := (s.cores.map fun c => (c.1, c.2.afterReset)).filter fun c => c.2 != {}
    schedule := s.schedule, freeCtr := s.freeCtr, nextId := s.nextId }

/-- A boot image's header (R343), as its 2048 bytes. -/
abbrev BootHdr := List Byte

namespace BootHdr
def word (h : BootHdr) (i : Nat) : Dword := secW h (8 * i)
def keyid (h : BootHdr) : Nat := fld (h.word 0) 23 16
def version (h : BootHdr) : Nat := fld (h.word 1) 63 32
def length (h : BootHdr) : Nat := (h.word 2).toNat
def load (h : BootHdr) : Nat := (h.word 3).toNat
def digest (h : BootHdr) : List Byte := (List.drop 32 h).take 64
def sig (h : BootHdr) : List Byte := (List.drop 96 h).take 512
def modulus (h : BootHdr) : List Byte := (List.drop 608 h).take 512
/-- Check 1 of R344. -/
def formOk (h : BootHdr) (stage : Nat) : Bool :=
  fld (h.word 0) 63 32 == 0x53574B49 && fld (h.word 0) 31 24 == stage && fld (h.word 0) 15 0 == 0 && fld (h.word 1) 31 0 == 0
    && (List.drop 1120 h).all (· == 0)
end BootHdr

/-- 64 bytes as a register of 512 bits, and back. -/
def reg512 (l : List Byte) : BitVec 512 := BitVec.ofNat 512 (ofBytes l)
def bytes512 (m : BitVec 512) : List Byte := toBytes 64 m.toNat

/-- R344: the key of a floor: the slot of a stage, and of a partition for stage 3. -/
def floorKey (stage part slot : Nat) : Nat := stage * 256 + part * 16 + slot

/-- R344: the first check that fails, or 0. A LENGTH outside R343's range fails check 5 (UNVERIFIED, log 12). -/
def State.bootCheck (s : State) (stage part : Nat) (h : BootHdr) (payload : List Byte) : Nat :=
  if !h.formOk stage then 1
  else if 8 ≤ h.keyid || reg512 (sha512 h.modulus) != Config.keyDigest stage h.keyid part then 2
  else if h.version < s.floors.get (floorKey stage part h.keyid) 0 then 3
  else if !rsaVerify h.modulus h.sig (List.take 96 h) then 4
  else if h.length = 0 ∨ 2 ^ 36 < h.length ∨ sha512 payload ≠ h.digest then 5
  else 0

/-- R345: the log entry of a verification, 128 bytes. -/
def logEntry (stage part check : Nat) (h : BootHdr) : List Byte :=
  toBytes 8 (stage * 2 ^ 56 + part * 2 ^ 52 + check * 2 ^ 48 + h.keyid * 2 ^ 40) ++ toBytes 8 (h.version * 2 ^ 32) ++ h.digest
    ++ List.replicate 48 0

/-- R345: extend a measurement register. -/
def extend (m : BitVec 512) (entry : List Byte) : BitVec 512 := reg512 (sha512 (bytes512 m ++ entry))

/-- R345: the entry is appended, and extends MD, or for stage 3 the partition's MP. -/
def State.measure (s : State) (stage part : Nat) (entry : List Byte) : State :=
  let s := { s with mlog := s.mlog ++ [dwords entry] }
  if stage = 3 then s.updPart part fun x => { x with mp := extend x.mp entry } else { s with md := extend s.md entry }

/-- R345: after stage 2, each MP starts as MD. -/
def State.startMp (s : State) : State := (List.range 16).foldl (fun s p => s.updPart p fun x => { x with mp := s.md }) s

/-- R343, R344, R397: a stage that passed: its payload is in place; a partition that starts gets a new seal key, and every trap
vector of it is 0 (R372). -/
def State.passed (s : State) (stage part load : Nat) (payload : List Byte) : State :=
  let s := s.flushAll.poke load payload
  if stage = 3 then { s.updPart part fun x => { x with sealGen := s.keys + 1, vectors := [] } with keys := s.keys + 1 }
  else { s with bootStage := stage }

/-- IMAGE_VERIFY (R343 to R345): stage n - 1 verifies the image of stage n, whose header is at `pa`. A failure of
stage 1 or 2 halts the package; with one of stage 3 its partition does not start, and so gets no seal key. -/
def execImageVerify (stage part pa : Nat) (s : State) : Out :=
  let turn := if stage = 3 then s.bootStage == 2 else s.bootStage + 1 == stage && part == 0
  if stage = 0 || 3 < stage || 16 ≤ part || !turn || s.bootHalt.isSome then .next s
  else
    let h : BootHdr := s.bytesAt pa 2048
    let payload := s.bytesAt (pa + 2048) h.length
    let c := s.bootCheck stage part h payload
    let s := s.measure stage part (logEntry stage part c h)
    let s := if stage = 2 then s.startMp else s
    if c = 0 then .next (s.passed stage part h.load payload)
    else if stage = 3 then .next s
    else .next { s with bootHalt := some c }

/-- ATTESTATION_REPORT (R346): the reply is the report, in words. (DEDUCED, log 57.) -/
def execAttestationReport (part : Nat) (nonce : BitVec 512) (s : State) : Out :=
  let body := bytes512 nonce ++ bytes512 s.md ++ bytes512 (s.part part).mp ++ toBytes 8 Config.packageSerial.toNat
    ++ toBytes 8 s.mlog.length
  .next { s with reply := dwords (body ++ toBytes 512 (Config.deviceSign body).toNat) }

end Sys2Proof.Machine
end

