-- ==== Sys2Proof/Machine/Moves.lean ====
section
/-! DEFINITION. Moves, the predicate set and the affine instructions (R233 to R235). -/

namespace Sys2Proof.Machine

/-- D ← one source. -/
def moveOp (h : Hdr) (t : Ty) (d : Opnd) (a : Src) (s : State) : Out :=
  s.shortOp h [(rdst t, .o d), (rsrc t, a)] noMore fun hd dep ln =>
    if t.is64 then hd.wr64 dep ln d (hd.rd64 ln a) else hd.wr dep ln d (hd.rd ln a)

/-- MOV (R233). -/
def execMov (h : Hdr) (t : Ty) (d a : Opnd) (s : State) : Out := moveOp h t d (.o a) s
/-- MOVI (R233): the immediate, read by R199. -/
def execMovi (h : Hdr) (t : Ty) (d : Opnd) (imm : Word) (s : State) : Out := moveOp h t d (immT t imm) s
/-- MOVW (R233): a pair takes the 64-bit immediate. -/
def execMovw (h : Hdr) (t : Ty) (d : Opnd) (imm : Dword) (s : State) : Out := moveOp h t d (.i imm) s

/-- PSET (R234). -/
def execPset (h : Hdr) (op : PsetOp) (d a b : POpnd) (s : State) : Out :=
  s.shortOp h [] (fun u => pdstOk u d && psrcOk u a && psrcOk u b) fun hd _ ln =>
    hd.wrP ln d (psetEval op (hd.rdP ln a) (hd.rdP ln b))

/-! ### Affine -/

/-- The number of an affine register. -/
def aNum : Opnd → Nat
  | .a n => n.val
  | _ => 0
def Hand.base (hd : Hand) (o : Opnd) : Word := hd.ab.get (aNum o) 0
def Hand.stride (hd : Hand) (o : Opnd) : Word := hd.as.get (aNum o) 0
/-- Write base and stride of an affine register (R79). -/
def Hand.wrA (hd : Hand) (d : Opnd) (b st : Word) : Hand :=
  { hd with ab := hd.ab.set (aNum d) b 0, as := hd.as.set (aNum d) st 0 }

/-- An affine instruction executes once for the hand (R235), on the affine unit, which costs no credits (R11). -/
def affOp (h : Hdr) (args : List Arg) (f : Hand → Hand) (s : State) : Out :=
  s.onLanes h 0 args noMore fun i lanes s =>
    .next ((if lanes.isEmpty then s else s.updHand i.c.team i.c.hix f).advance i h)

/-- AMOV (R235). -/
def execAmov (h : Hdr) (d a b : Opnd) (s : State) : Out :=
  affOp h [(.adst, .o d), (.usrc, .o a), (.usrc, .o b)] (fun hd => hd.wrA d (hd.rdO .uni a) (hd.rdO .uni b)) s
/-- AMOV (R235). Long form. -/
def execAmovImm (h : Hdr) (d : Opnd) (base stride : Word) (s : State) : Out :=
  affOp h [(.adst, .o d)] (fun hd => hd.wrA d base stride) s
/-- AADD (R235). -/
def execAadd (h : Hdr) (d a b : Opnd) (s : State) : Out :=
  affOp h [(.adst, .o d), (.asrc, .o a), (.usrc, .o b)]
    (fun hd => hd.wrA d (hd.base a + hd.rdO .uni b) (hd.stride a)) s
/-- AADD (R235). Long form. -/
def execAaddImm (h : Hdr) (d a : Opnd) (base stride : Word) (s : State) : Out :=
  affOp h [(.adst, .o d), (.asrc, .o a)] (fun hd => hd.wrA d (hd.base a + base) (hd.stride a + stride)) s
/-- AMUL (R235). -/
def execAmul (h : Hdr) (d a b : Opnd) (s : State) : Out :=
  affOp h [(.adst, .o d), (.asrc, .o a), (.usrc, .o b)]
    (fun hd => hd.wrA d (hd.base a * hd.rdO .uni b) (hd.stride a * hd.rdO .uni b)) s
/-- AMUL (R235). Long form. -/
def execAmulImm (h : Hdr) (d a : Opnd) (imm : Word) (s : State) : Out :=
  affOp h [(.adst, .o d), (.asrc, .o a)] (fun hd => hd.wrA d (hd.base a * imm) (hd.stride a * imm)) s
/-- AGET (R235): D ← A.stride. -/
def execAget (h : Hdr) (d a : Opnd) (s : State) : Out :=
  s.onLanes h 0 [(.agot, .o d), (.asrc, .o a)] noMore fun i lanes s =>
    .next ((if lanes.isEmpty then s else
      s.updHand i.c.team i.c.hix fun hd => hd.wr i.tm.depth .uni d (hd.stride a)).advance i h)
/-- ALEA (R235). -/
def execAlea (h : Hdr) (d a b c : Opnd) (s : State) : Out :=
  affOp h [(.adst, .o d), (.asrc, .o a), (.usrc, .o b), (.usrc, .o c)]
    (fun hd => hd.wrA d (hd.base a + hd.rdO .uni b * hd.rdO .uni c) (hd.stride a)) s

end Sys2Proof.Machine
end

