-- ==== Sys2Proof/Machine/Special.lean ====
section
/-! DEFINITION. Special registers (R82 to R87, R236), but for `wlo`, which moves frames (R74). -/

namespace Sys2Proof.Machine

/-- R82: the names of width 64. -/
def sr64 (sr : BitVec 8) : Bool := [0x02, 0x14, 0x15, 0x16, 0x22].contains sr.toNat
/-- R82, R236: the names that are per thread. -/
def srThread (sr : BitVec 8) : Bool := [0x00, 0x08, 0x10, 0x11, 0x20, 0x21, 0x22].contains sr.toNat

/-- R82 to R87: what a special register holds for a lane, sampled now. -/
def State.srVal (s : State) (tm : Team) (hd : Hand) (ln : Lane) (sr : BitVec 8) : Dword :=
  let th := match ln with | .thr t => hd.thr t | .uni => {}
  let tid := match ln with | .thr t => t | .uni => 0
  let w (x : Word) : Dword := x.setWidth 64
  let n (x : Nat) : Dword := BitVec.ofNat 64 x
  match sr.toNat with
  | 0x00 | 0x08 => n tid
  | 0x01 | 0x09 => n hd.hix
  | 0x02 => n (tm.x.toNat + tm.y.toNat * 2 ^ 16 + tm.z.toNat * 2 ^ 32)
  | 0x0A => n (tm.lix.getD 0 0)
  | 0x0B => n (tm.lix.getD 1 0)
  | 0x0C => n (tm.lix.getD 2 0)
  | 0x0D => n (tm.lix.getD 3 0)
  | 0x0E => n (tm.lix.getD 4 0)
  | 0x10 => n th.wa.toNat
  | 0x11 => n th.re.toNat
  | 0x12 => w hd.swc
  | 0x13 => n (s.cong.get (clusterOf tm.core) 0)
  | 0x14 => n tm.rcyc
  | 0x15 => n s.cyc
  | 0x16 => hd.tmr
  | 0x17 => w hd.fmt
  | 0x18 => w hd.hs
  | 0x20 => n th.wb
  | 0x21 => n th.lo
  | 0x22 => th.wsp
  | 0x23 => n tm.depth
  | 0x24 => n tm.core
  | 0x25 => n tm.sbase
  | _ => 0

/-- RDSR (R236, R83): long-class. A uniform read of a per-thread name is Illegal-Instruction; a read of wsp at
privilege U is Protection. -/
def execRdsr (h : Hdr) (d : Opnd) (sr : BitVec 8) (s : State) : Out :=
  s.onLanes h 2 [(if sr64 sr then .dst64 else .dst, .o d)] noMore fun i lanes s =>
    if h.u && srThread sr || !srListed sr then s.raiseAll i h { cause := 1 }
    else if sr == 0x22#8 && !i.hd.privT then s.raiseAll i h { cause := 9 }
    else
      .next ((s.post i.c.team i.c.hix (lanes.flatMap fun ln =>
        let v := s.srVal i.tm i.hd ln sr
        if sr64 sr then i.hd.halves i.tm.depth ln d v else i.hd.half i.tm.depth ln d (lo32 v))).advance i h)

/-- WRSR of the names without a row of their own (R83): `wsp` at privilege T; every other listed one has no write. -/
def execWrsr (h : Hdr) (a : Opnd) (sr : BitVec 8) (s : State) : Out :=
  s.onLanes h 2 [(if sr64 sr then .src64 else .src, .o a)] noMore fun i lanes s =>
    if h.u && srThread sr || sr != 0x22#8 then s.raiseAll i h { cause := 1 }
    else if !i.hd.privT then s.raiseAll i h { cause := 9 }
    else
      s.finish i h false (runThreads (fun t s =>
        let v := i.hd.rdO64 (.thr t) a
        if fld v 63 52 ≠ 0 then (.flt { cause := 1 }, s)
        else (.done, s.updHand i.c.team i.c.hix fun hd => hd.updThr t fun x => { x with wsp := v }))
        (lanes.filterMap fun ln => match ln with | .thr t => some t | .uni => none) s)

/-- WRSR tmr (R86): the value of the highest participating thread stays (R83). -/
def execWrsrTmr (h : Hdr) (a : Opnd) (s : State) : Out :=
  s.onLanes h 2 [(.src64, .o a)] noMore fun i lanes s =>
    .next ((s.updHand i.c.team i.c.hix fun hd => match lanes.getLast? with
      | some ln => { hd with tmr := i.hd.rdO64 ln a }
      | none => hd).advance i h)

/-- WRSR hs (R87): each participant's mask clears flags; a nonzero reserved bit raises Illegal-Instruction for
that participant alone (R83). -/
def execWrsrHs (h : Hdr) (a : Opnd) (s : State) : Out :=
  s.onLanes h 2 [(.src, .o a)] noMore fun i lanes s =>
    let bad (ln : Lane) : Bool := i.hd.rdO ln a >>> 3 != 0
    let good := lanes.filter fun ln => !bad ln
    let fs := lanes.flatMap fun ln =>
      if bad ln then (match ln with | .thr t => [t] | .uni => i.hd.actives) else []
    let s := s.updHand i.c.team i.c.hix fun hd => good.foldl (fun hd ln => hd.clearHs (i.hd.rdO ln a)) hd
    .next ((s.takeFaults i.c.team i.c.hix i.c.addr (fs.map fun t => (t, { cause := 1 }))).advance i h)

end Sys2Proof.Machine
end

