-- ==== Sys2Proof/Machine/Dispatch.lean ====
section
/-! DEFINITION. One arm per constructor of `Instr`: each calls the meaning of its instruction. -/

namespace Sys2Proof.Machine

def exec (i : Instr) (s : State) : Host.Outcome State Fault Refusal :=
  match i with
  | .go h off => Sys2Proof.Machine.execGo h off s
  | .got h a b => Sys2Proof.Machine.execGot h a b s
  | .call h off sl => Sys2Proof.Machine.execCall h off sl s
  | .callt h off sl => Sys2Proof.Machine.execCallt h off sl s
  | .ret h => Sys2Proof.Machine.execRet h s
  | .exit h => Sys2Proof.Machine.execExit h s
  | .park h off => Sys2Proof.Machine.execPark h off s
  | .yield h => Sys2Proof.Machine.execYield h s
  | .nop h => Sys2Proof.Machine.execNop h s
  | .trap h a => Sys2Proof.Machine.execTrap h a s
  | .sysc h a => Sys2Proof.Machine.execSysc h a s
  | .tret h => Sys2Proof.Machine.execTret h s
  | .iadd h t d a b => Sys2Proof.Machine.execIadd h t d a b s
  | .iaddImm h t d a imm => Sys2Proof.Machine.execIaddImm h t d a imm s
  | .isub h t d a b => Sys2Proof.Machine.execIsub h t d a b s
  | .isubImm h t d a imm => Sys2Proof.Machine.execIsubImm h t d a imm s
  | .iaddc h t d a b c => Sys2Proof.Machine.execIaddc h t d a b c s
  | .isubb h t d a b c => Sys2Proof.Machine.execIsubb h t d a b c s
  | .imul h t d a b => Sys2Proof.Machine.execImul h t d a b s
  | .imulImm h t d a imm => Sys2Proof.Machine.execImulImm h t d a imm s
  | .imulh h t d a b => Sys2Proof.Machine.execImulh h t d a b s
  | .imad h t d a b c => Sys2Proof.Machine.execImad h t d a b c s
  | .idiv h t d a b => Sys2Proof.Machine.execIdiv h t d a b s
  | .irem h t d a b => Sys2Proof.Machine.execIrem h t d a b s
  | .imin h t d a b => Sys2Proof.Machine.execImin h t d a b s
  | .iminImm h t d a imm => Sys2Proof.Machine.execIminImm h t d a imm s
  | .imax h t d a b => Sys2Proof.Machine.execImax h t d a b s
  | .imaxImm h t d a imm => Sys2Proof.Machine.execImaxImm h t d a imm s
  | .iabs h t d a => Sys2Proof.Machine.execIabs h t d a s
  | .ineg h t d a => Sys2Proof.Machine.execIneg h t d a s
  | .isel h t d a b c => Sys2Proof.Machine.execIsel h t d a b c s
  | .icmp h t cond d a b => Sys2Proof.Machine.execIcmp h t cond d a b s
  | .icmpImm h t cond d a imm => Sys2Proof.Machine.execIcmpImm h t cond d a imm s
  | .and h t d a b => Sys2Proof.Machine.execAnd h t d a b s
  | .andImm h t d a imm => Sys2Proof.Machine.execAndImm h t d a imm s
  | .or h t d a b => Sys2Proof.Machine.execOr h t d a b s
  | .orImm h t d a imm => Sys2Proof.Machine.execOrImm h t d a imm s
  | .xor h t d a b => Sys2Proof.Machine.execXor h t d a b s
  | .xorImm h t d a imm => Sys2Proof.Machine.execXorImm h t d a imm s
  | .andn h t d a b => Sys2Proof.Machine.execAndn h t d a b s
  | .andnImm h t d a imm => Sys2Proof.Machine.execAndnImm h t d a imm s
  | .not h t d a => Sys2Proof.Machine.execNot h t d a s
  | .shl h t d a b => Sys2Proof.Machine.execShl h t d a b s
  | .shr h t d a b => Sys2Proof.Machine.execShr h t d a b s
  | .sar h t d a b => Sys2Proof.Machine.execSar h t d a b s
  | .rol h t d a b => Sys2Proof.Machine.execRol h t d a b s
  | .bfx h t d a b c => Sys2Proof.Machine.execBfx h t d a b c s
  | .bfi h t d a b c => Sys2Proof.Machine.execBfi h t d a b c s
  | .popc h t d a => Sys2Proof.Machine.execPopc h t d a s
  | .clz h t d a => Sys2Proof.Machine.execClz h t d a s
  | .ctz h t d a => Sys2Proof.Machine.execCtz h t d a s
  | .brev h t d a => Sys2Proof.Machine.execBrev h t d a s
  | .mov h t d a => Sys2Proof.Machine.execMov h t d a s
  | .movi h t d imm => Sys2Proof.Machine.execMovi h t d imm s
  | .movw h t d imm => Sys2Proof.Machine.execMovw h t d imm s
  | .pset h op d a b => Sys2Proof.Machine.execPset h op d a b s
  | .amov h d a b => Sys2Proof.Machine.execAmov h d a b s
  | .amovImm h d base stride => Sys2Proof.Machine.execAmovImm h d base stride s
  | .aadd h d a b => Sys2Proof.Machine.execAadd h d a b s
  | .aaddImm h d a base stride => Sys2Proof.Machine.execAaddImm h d a base stride s
  | .amul h d a b => Sys2Proof.Machine.execAmul h d a b s
  | .amulImm h d a imm => Sys2Proof.Machine.execAmulImm h d a imm s
  | .aget h d a => Sys2Proof.Machine.execAget h d a s
  | .alea h d a b c => Sys2Proof.Machine.execAlea h d a b c s
  | .rdsr h d sr => Sys2Proof.Machine.execRdsr h d sr s
  | .wrsr h a sr => Sys2Proof.Machine.execWrsr h a sr s
  | .wrsrWlo h a => Sys2Proof.Machine.execWrsrWlo h a s
  | .wrsrTmr h a => Sys2Proof.Machine.execWrsrTmr h a s
  | .wrsrHs h a => Sys2Proof.Machine.execWrsrHs h a s
  | .fadd h d a b => Sys2Proof.Machine.execFadd h d a b s
  | .faddImm h d a imm => Sys2Proof.Machine.execFaddImm h d a imm s
  | .fsub h d a b => Sys2Proof.Machine.execFsub h d a b s
  | .fmul h d a b => Sys2Proof.Machine.execFmul h d a b s
  | .fmulImm h d a imm => Sys2Proof.Machine.execFmulImm h d a imm s
  | .ffma h d a b c => Sys2Proof.Machine.execFfma h d a b c s
  | .ffmaImm h d a c imm => Sys2Proof.Machine.execFfmaImm h d a c imm s
  | .fmin h d a b => Sys2Proof.Machine.execFmin h d a b s
  | .fminImm h d a imm => Sys2Proof.Machine.execFminImm h d a imm s
  | .fmax h d a b => Sys2Proof.Machine.execFmax h d a b s
  | .fmaxImm h d a imm => Sys2Proof.Machine.execFmaxImm h d a imm s
  | .fcmp h cond d a b => Sys2Proof.Machine.execFcmp h cond d a b s
  | .fcmpImm h cond d a imm => Sys2Proof.Machine.execFcmpImm h cond d a imm s
  | .fclass h d a => Sys2Proof.Machine.execFclass h d a s
  | .frnd h d a b => Sys2Proof.Machine.execFrnd h d a b s
  | .fscale h d a b => Sys2Proof.Machine.execFscale h d a b s
  | .frcp h d a => Sys2Proof.Machine.execFrcp h d a s
  | .frsq h d a => Sys2Proof.Machine.execFrsq h d a s
  | .fsqrt h d a => Sys2Proof.Machine.execFsqrt h d a s
  | .fexp2 h d a => Sys2Proof.Machine.execFexp2 h d a s
  | .flog2 h d a => Sys2Proof.Machine.execFlog2 h d a s
  | .fsin h d a => Sys2Proof.Machine.execFsin h d a s
  | .fcos h d a => Sys2Proof.Machine.execFcos h d a s
  | .hadd2 h t d a b => Sys2Proof.Machine.execHadd2 h t d a b s
  | .hmul2 h t d a b => Sys2Proof.Machine.execHmul2 h t d a b s
  | .hfma2 h t d a b c => Sys2Proof.Machine.execHfma2 h t d a b c s
  | .cvt h dst src rnd d a => Sys2Proof.Machine.execCvt h dst src rnd d a s
  | .cvtp h dst src rnd half d a b => Sys2Proof.Machine.execCvtp h dst src rnd half d a b s
  | .tspack h tw d a => Sys2Proof.Machine.execTspack h tw d a s
  | .tsunpack h tw d a b => Sys2Proof.Machine.execTsunpack h tw d a b s
  | .shfl h t mode seg d a b => Sys2Proof.Machine.execShfl h t mode seg d a b s
  | .vote h mode d a => Sys2Proof.Machine.execVote h mode d a s
  | .ballot h turn d a => Sys2Proof.Machine.execBallot h turn d a s
  | .redux h t op d a => Sys2Proof.Machine.execRedux h t op d a s
  | .scan h t op d a => Sys2Proof.Machine.execScan h t op d a s
  | .bcast h t d a b => Sys2Proof.Machine.execBcast h t d a b s
  | .matchI h t d a => Sys2Proof.Machine.execMatchI h t d a s
  | .ld h t m d a => Sys2Proof.Machine.execLd h t m d a s
  | .ldDisp h t m d a disp => Sys2Proof.Machine.execLdDisp h t m d a disp s
  | .st h t m a b => Sys2Proof.Machine.execSt h t m a b s
  | .stDisp h t m a b disp => Sys2Proof.Machine.execStDisp h t m a b disp s
  | .lds h t m d a => Sys2Proof.Machine.execLds h t m d a s
  | .ldsDisp h t m d a disp => Sys2Proof.Machine.execLdsDisp h t m d a disp s
  | .sts h t m a b => Sys2Proof.Machine.execSts h t m a b s
  | .stsDisp h t m a b disp => Sys2Proof.Machine.execStsDisp h t m a b disp s
  | .ldc h t bank d a => Sys2Proof.Machine.execLdc h t bank d a s
  | .ldcDisp h t bank d a disp => Sys2Proof.Machine.execLdcDisp h t bank d a disp s
  | .pref h l2 a => Sys2Proof.Machine.execPref h l2 a s
  | .prefDisp h l2 a disp => Sys2Proof.Machine.execPrefDisp h l2 a disp s
  | .atom h t m sp op d a b => Sys2Proof.Machine.execAtom h t m sp op d a b s
  | .atomDisp h t m sp op d a b disp => Sys2Proof.Machine.execAtomDisp h t m sp op d a b disp s
  | .atomc h t m sp d a b c => Sys2Proof.Machine.execAtomc h t m sp d a b c s
  | .atomcDisp h t m sp d a b c disp => Sys2Proof.Machine.execAtomcDisp h t m sp d a b c disp s
  | .red h t m sp op a b => Sys2Proof.Machine.execRed h t m sp op a b s
  | .redDisp h t m sp op a b disp => Sys2Proof.Machine.execRedDisp h t m sp op a b disp s
  | .fence h scope => Sys2Proof.Machine.execFence h scope s
  | .bari h a b c => Sys2Proof.Machine.execBari h a b c s
  | .bara h a b c => Sys2Proof.Machine.execBara h a b c s
  | .barw h a b c cont => Sys2Proof.Machine.execBarw h a b c cont s
  | .bart h d a b => Sys2Proof.Machine.execBart h d a b s
  | .cpy h dsp ssp a b c e => Sys2Proof.Machine.execCpy h dsp ssp a b c e s
  | .cpyx h ssp a b c e => Sys2Proof.Machine.execCpyx h ssp a b c e s
  | .qfence h a b => Sys2Proof.Machine.execQfence h a b s
  | .evpop h d => Sys2Proof.Machine.execEvpop h d s
  | .evwait h d b cont => Sys2Proof.Machine.execEvwait h d b cont s
  | .card h a => Sys2Proof.Machine.execCard h a s
  | .joinDecrement h a => Sys2Proof.Machine.execJoinDecrement h a s
  | .joinArm h a b c => Sys2Proof.Machine.execJoinArm h a b c s
  | .wlapp h d a b => Sys2Proof.Machine.execWlapp h d a b s
  | .wlpop h d a => Sys2Proof.Machine.execWlpop h d a s
  | .qscn h d a => Sys2Proof.Machine.execQscn h d a s
  | .amsg h a b => Sys2Proof.Machine.execAmsg h a b s
  | .icinv h d a b => Sys2Proof.Machine.execIcinv h d a b s
  | .tlbh h d a b => Sys2Proof.Machine.execTlbh h d a b s
  | .mlda h a b => Sys2Proof.Machine.execMlda h a b s
  | .mldl h a b => Sys2Proof.Machine.execMldl h a b s
  | .mlds h a b => Sys2Proof.Machine.execMlds h a b s
  | .mldpPin h a b => Sys2Proof.Machine.execMldpPin h a b s
  | .mldpUnpin h a b => Sys2Proof.Machine.execMldpUnpin h a b s
  | .mldv h a b => Sys2Proof.Machine.execMldv h a b s
  | .mldq h d a => Sys2Proof.Machine.execMldq h d a s
  | .mma h apitch a b c e => Sys2Proof.Machine.execMma h apitch a b c e s
  | .mmas h apitch a b c e => Sys2Proof.Machine.execMmas h apitch a b c e s
  | .spz h t d a => Sys2Proof.Machine.execSpz h t d a s
  | .aalc h d a => Sys2Proof.Machine.execAalc h d a s
  | .afre h a b => Sys2Proof.Machine.execAfre h a b s
  | .aclm h a b cont => Sys2Proof.Machine.execAclm h a b cont s
  | .arel h a b => Sys2Proof.Machine.execArel h a b s
  | .ard h t d a b => Sys2Proof.Machine.execArd h t d a b s
  | .awr h t a b c => Sys2Proof.Machine.execAwr h t a b c s
  | .azro h a b => Sys2Proof.Machine.execAzro h a b s
  | .adrn h t zero pitch a b c => Sys2Proof.Machine.execAdrn h t zero pitch a b c s
  | .drpn h load dvq dkq d a b c => Sys2Proof.Machine.execDrpn h load dvq dkq d a b c s
  | .drun h a b => Sys2Proof.Machine.execDrun h a b s
  | .drsv h a b => Sys2Proof.Machine.execDrsv h a b s
  | .delta h tm1 a b c => Sys2Proof.Machine.execDelta h tm1 a b c s
  | .blockChoice team hix => Sys2Proof.Machine.execBlockChoice team hix s
  | .timerPending team hix => Sys2Proof.Machine.execTimerPending team hix s
  | .faultRecordAppend part => Sys2Proof.Machine.execFaultRecordAppend part s
  | .longResultWrite team hix index => Sys2Proof.Machine.execLongResultWrite team hix index s
  | .requestDrain core index => Sys2Proof.Machine.execRequestDrain core index s
  | .scratchpadBankAccess core bank => Sys2Proof.Machine.execScratchpadBankAccess core bank s
  | .homeSliceRequest team hix miss => Sys2Proof.Machine.execHomeSliceRequest team hix miss s
  | .hbmAccess die chan => Sys2Proof.Machine.execHbmAccess die chan s
  | .remoteWriteApply die index => Sys2Proof.Machine.execRemoteWriteApply die index s
  | .barrierArrivalApply index => Sys2Proof.Machine.execBarrierArrivalApply index s
  | .barrierHeldReport index => Sys2Proof.Machine.execBarrierHeldReport index s
  | .compactionAppend die index => Sys2Proof.Machine.execCompactionAppend die index s
  | .copyChunk core queue => Sys2Proof.Machine.execCopyChunk core queue s
  | .copyComplete core queue => Sys2Proof.Machine.execCopyComplete core queue s
  | .qfenceComplete core queue => Sys2Proof.Machine.execQfenceComplete core queue s
  | .meldEntryHead core queue => Sys2Proof.Machine.execMeldEntryHead core queue s
  | .meldFillSlot core queue => Sys2Proof.Machine.execMeldFillSlot core queue s
  | .meldEntryComplete core queue => Sys2Proof.Machine.execMeldEntryComplete core queue s
  | .mldvAck core queue => Sys2Proof.Machine.execMldvAck core queue s
  | .mmaEntryHead core queue => Sys2Proof.Machine.execMmaEntryHead core queue s
  | .mmaKStep core queue => Sys2Proof.Machine.execMmaKStep core queue s
  | .mmaComplete core queue => Sys2Proof.Machine.execMmaComplete core queue s
  | .droneEntryHead core => Sys2Proof.Machine.execDroneEntryHead core s
  | .droneBring core => Sys2Proof.Machine.execDroneBring core s
  | .deltaToken core => Sys2Proof.Machine.execDeltaToken core s
  | .deltaComplete core => Sys2Proof.Machine.execDeltaComplete core s
  | .dealerPop die => Sys2Proof.Machine.execDealerPop die s
  | .cardAged die index => Sys2Proof.Machine.execCardAged die index s
  | .teamStart team => Sys2Proof.Machine.execTeamStart team s
  | .teamDue team => Sys2Proof.Machine.execTeamDue team s
  | .teamRetire team => Sys2Proof.Machine.execTeamRetire team s
  | .amArrival core => Sys2Proof.Machine.execAmArrival core s
  | .amTeamStart core => Sys2Proof.Machine.execAmTeamStart core s
  | .quiescenceReport part handle => Sys2Proof.Machine.execQuiescenceReport part handle s
  | .launchFail part handle => Sys2Proof.Machine.execLaunchFail part handle s
  | .impreciseStore core index mask va reason => Sys2Proof.Machine.execImpreciseStore core index mask va reason s
  | .saveRequest team => Sys2Proof.Machine.execSaveRequest team s
  | .collectorAck team cls => Sys2Proof.Machine.execCollectorAck team cls s
  | .teamSave team => Sys2Proof.Machine.execTeamSave team s
  | .launchRestore part handle => Sys2Proof.Machine.execLaunchRestore part handle s
  | .teamRestore team => Sys2Proof.Machine.execTeamRestore team s
  | .restoreReady team => Sys2Proof.Machine.execRestoreReady team s
  | .congWindowEnd die counts => Sys2Proof.Machine.execCongWindowEnd die counts s
  | .budgetPeriodEnd => Sys2Proof.Machine.execBudgetPeriodEnd s
  | .refillRateChange rate => Sys2Proof.Machine.execRefillRateChange rate s
  | .thermalEvent junction rail flow cool1s => Sys2Proof.Machine.execThermalEvent junction rail flow cool1s s
  | .fatalError reason => Sys2Proof.Machine.execFatalError reason s
  | .uncorrectableError w => Sys2Proof.Machine.execUncorrectableError w s
  | .reset => Sys2Proof.Machine.execReset s
  | .imageVerify stage part pa => Sys2Proof.Machine.execImageVerify stage part pa s
  | .attestationReport part nonce => Sys2Proof.Machine.execAttestationReport part nonce s
  | .partitionAssign part r => Sys2Proof.Machine.execPartitionAssign part r s
  | .controlPageSet part which base => Sys2Proof.Machine.execControlPageSet part which base s
  | .kittyLimitWrite part kitty limit => Sys2Proof.Machine.execKittyLimitWrite part kitty limit s
  | .trapVectorWrite part cause value => Sys2Proof.Machine.execTrapVectorWrite part cause value s
  | .stageMapUpdate page mask => Sys2Proof.Machine.execStageMapUpdate page mask s
  | .scconsWrite part value => Sys2Proof.Machine.execScconsWrite part value s
  | .hsRead part prod => Sys2Proof.Machine.execHsRead part prod s
  | .hsWrite part prod => Sys2Proof.Machine.execHsWrite part prod s
  | .hsWake part prod => Sys2Proof.Machine.execHsWake part prod s
  | .fsResume part prod => Sys2Proof.Machine.execFsResume part prod s
  | .fsRetire part prod => Sys2Proof.Machine.execFsRetire part prod s
  | .fsFail part prod => Sys2Proof.Machine.execFsFail part prod s
  | .pageWalk die pasid va kind privT => Sys2Proof.Machine.execPageWalk die pasid va kind privT s
  | .atsResponse hpasid page out => Sys2Proof.Machine.execAtsResponse hpasid page out s
  | .atsInvalidation hpasid page count => Sys2Proof.Machine.execAtsInvalidation hpasid page count s
  | .pasidTeardown pasid => Sys2Proof.Machine.execPasidTeardown pasid s
  | .pageMigration pasid va new => Sys2Proof.Machine.execPageMigration pasid va new s
  | .peerRequest part write pa data => Sys2Proof.Machine.execPeerRequest part write pa data s
  | .linkFailure peer plane => Sys2Proof.Machine.execLinkFailure peer plane s
  | .ethFrameReceive port f => Sys2Proof.Machine.execEthFrameReceive port f s
  | .ethFrameTransmit port part f => Sys2Proof.Machine.execEthFrameTransmit port part f s
  | .nvmeDma port part toMem pa data => Sys2Proof.Machine.execNvmeDma port part toMem pa data s
  | .queueCreate part qid pasid base lsz rights => Sys2Proof.Machine.execQueueCreate part qid pasid base lsz rights s
  | .capabilityRevoke qid => Sys2Proof.Machine.execCapabilityRevoke qid s
  | .queueDestroy qid => Sys2Proof.Machine.execQueueDestroy qid s
  | .partitionTeardown part => Sys2Proof.Machine.execPartitionTeardown part s
  | .deadQueueRead qid => Sys2Proof.Machine.execDeadQueueRead qid s
  | .refusedWakeRead part => Sys2Proof.Machine.execRefusedWakeRead part s
  | .queueWake part window w0 w1 w2 w3 w4 => Sys2Proof.Machine.execQueueWake part window w0 w1 w2 w3 w4 s
  | .pktNop qid => Sys2Proof.Machine.execPktNop qid s
  | .pktLaunch qid => Sys2Proof.Machine.execPktLaunch qid s
  | .pktSignal qid => Sys2Proof.Machine.execPktSignal qid s
  | .pktFence qid => Sys2Proof.Machine.execPktFence qid s
  | .pktIcinv qid => Sys2Proof.Machine.execPktIcinv qid s
  | .pktDump qid => Sys2Proof.Machine.execPktDump qid s
  | .pktTeardown qid => Sys2Proof.Machine.execPktTeardown qid s
  | .commandComplete qid => Sys2Proof.Machine.execCommandComplete qid s
  | .activityCounterRefill => Sys2Proof.Machine.execActivityCounterRefill s
  | .contextDescriptorWrite pasid w0 w1 w2 => Sys2Proof.Machine.execContextDescriptorWrite pasid w0 w1 w2 s
  | .linkRestored peer plane => Sys2Proof.Machine.execLinkRestored peer plane s

end Sys2Proof.Machine
end

