-- ==== Sys2Proof/Machine/Step.lean ====
section
/-! DEFINITION. One step: the next move of the schedule, or the default one, is carried to the instruction it
executes (DESIGN CHOICE, log 3). -/

namespace Sys2Proof.Machine

/-- One move. -/
def State.run (s : State) (m : Move) : Out :=
  match s.take m with
  | .out o => o
  | .exec i s => exec i s

/-- One step of the machine: the next move of the schedule, or one of the default policy. -/
def step (s : State) : Host.Outcome State Fault Refusal :=
  match s.schedule with
  | m :: r => ({ s with schedule := r }).run m
  | [] => s.tryMoves State.run s.defaultMoves

/-- `s` with an instruction stored where the next step fetches (DEDUCED, log 11): a loaded launch with one team of one
thread, on core 0, that visits the block at word 0; the instruction is the block's first body word, and the page
of the code lies in core 0's TLB. -/
def State.withFetchWord (s : State) (nbits w : Nat) : State :=
  let id := s.nextId
  let pasid := 0x100000 + id
  let v := w % 2 ^ nbits
  let hdr : Nat := 0x0100000080010000
  let th : Thread := {}
  let hd : Hand := { team := id, hix := 0, phase := .visit, blen := 2, upos := some 0, act := 1, threads := [th] }
  let tm : Team :=
    { id, part := 0, launch := id, card := ⟨0, 0, 0, 0, 0, 0, 0, 0⟩, lid := 0, n := 0, x := 0, y := 0, z := 0,
      lix := [0, 0, 0, 0, 0], st := .running, core := 0, sbase := 0, share := 0, spad := 0, depth := 32,
      hands := 1, threads := 1, quads := [(0, 0)] }
  let l : Launch := { part := 0, handle := id, qid := 0, pasid, image := 0, saveDflt := 0, st := .live }
  let tlb : Tlb := ⟨pasid, 0, 65536, 0, 0xFF#8, false⟩
  let s := s.flushAll
  let s := s.poke 0 (toBytes 8 hdr ++ toBytes 24 v)
  let s := s.updCore 0 fun c =>
    { c with tlb := tlb :: c.tlb, icache := [], activity := Config.activityCap, actStart := Config.activityCap }
  { s with
    stopped := none
    bootHalt := none
    poison := s.poison.filter fun x => x != 0
    stageMap := s.stageMap.set 0 (s.stageMap.get 0 0 ||| 1) 0
    contexts := (pasid, ⟨true, false, 0, 0, 0, 0⟩) :: s.contexts
    launches := l :: s.launches
    teams := tm :: s.teams
    hands := hd :: s.hands
    schedule := [.issue id 0]
    cur := none
    nextId := id + 1 }

end Sys2Proof.Machine
end

