-- ==== Sys2Proof/Safety.lean ====
section
/-! DEFINITION. What the claims take as a safe state and a safe step, and the terms in which they say what an
instruction changes: the places of a hand's registers, the writes made to them, and what stays. -/

namespace Sys2Proof.Machine

/-- The step goes on: it answers a next state. -/
def State.Goes (s : State) : Prop := ∃ t, step s = .next t

/-- Memory keeps its canonical form. -/
def State.MemOk (s : State) : Prop := Memory.wf s.mem = true

/-! ### Rounding -/

/-- R101: the magnitude at an index of a format's grid, in units of its smallest subnormal. The index of a finite value is its encoding
without the sign; the grid goes on above the largest finite value. -/
def FF.grid (f : FF) (r : Nat) : Nat :=
  if r < 2 ^ f.frac then r else (2 ^ f.frac + r % 2 ^ f.frac) * 2 ^ (r / 2 ^ f.frac - 1)

/-- R101: the mode chooses index `r` of the grid for the magnitude n / u: the nearer neighbour, a tie going to the even index or away
from zero, or the neighbour on the side that the mode names. -/
def FF.Chooses (f : FF) (mode : RMode) (neg : Bool) (n u r : Nat) : Prop :=
  let lo := (f.grid (r - 1) + f.grid r) * u
  let hi := (f.grid r + f.grid (r + 1)) * u
  match mode, neg with
  | .ne, _ => (0 < r → lo ≤ 2 * n ∧ (lo = 2 * n → r % 2 = 0)) ∧ 2 * n ≤ hi ∧ (2 * n = hi → r % 2 = 0)
  | .na, _ => (0 < r → lo ≤ 2 * n) ∧ 2 * n < hi
  | .tz, _ | .up, true | .dn, false => f.grid r * u ≤ n ∧ n < f.grid (r + 1) * u
  | .up, false | .dn, true => n ≤ f.grid r * u ∧ (0 < r → f.grid (r - 1) * u < n)

/-! ### The registers of a hand -/

/-- What a place holds: 0 or 1 for a predicate. -/
def Hand.holds (hd : Hand) : Dst → Word
  | .ent t i => (hd.thr t).stack.get i 0
  | .kreg n => hd.k.get n 0
  | .xreg t n => (hd.thr t).x.get n 0
  | .pred t n => if (hd.thr t).p.getLsbD n then 1 else 0
  | .qpred n => if hd.q.getLsbD n then 1 else 0
  | .frame .. | .drop => 0

/-- Is there such a place: is its thread within the hand's extent (R45), and its predicate number a predicate's? -/
def Hand.has (hd : Hand) : Dst → Bool
  | .ent t _ | .xreg t _ => decide (t < hd.threads.length)
  | .pred t n => decide (t < hd.threads.length ∧ n < 8)
  | .qpred n => decide (n < 4)
  | .kreg _ => true
  | .frame .. | .drop => false

/-- What the last of some writes to a place leaves there. -/
def lastWrite (l : List (Dst × Word)) (p : Dst) (old : Word) : Word :=
  l.foldl (fun v x => if x.1 = p then x.2 else v) old

/-- A thread but for its registers. -/
def Thread.rest (x : Thread) : Thread := { x with stack := [], x := [], p := 0 }
/-- A hand but for its registers and its flags. -/
def Hand.rest (hd : Hand) : Hand := { hd with k := [], q := 0, hs := 0, threads := hd.threads.map Thread.rest }

/-- `m` is `hd` after the writes `l`, with flag `nr` set if a register was named that is not resident (R74): every
place holds what was last written to it, and nothing else changes. -/
structure Hand.Wrote (hd m : Hand) (nr : Bool) (l : List (Dst × Word)) : Prop where
  places : ∀ p, hd.has p = true → m.holds p = lastWrite l p (hd.holds p)
  flags : m.hs = if nr then hd.hs ||| hsNr else hd.hs
  rest : m.rest = hd.rest

/-- The writes of a value to a destination of type `ty` for one lane: a pair for a 64-bit type (R76), and nothing
for gz (R77). -/
def Hand.dest (hd : Hand) (depth : Nat) (ln : Lane) (ty : Ty) (d : Opnd) (v : Dword) : List (Dst × Word) :=
  if ty.is64 then
    if d = .gz then [] else [(hd.dstOf depth ln d, lo32 v), (hd.dstOf depth ln (oddOf d), hi32 v)]
  else [(hd.dstOf depth ln d, lo32 v)]

/-- A value of type `ty` by a function of each width (R211): of two sources, and of one. -/
def Hand.of2 (hd : Hand) (ln : Lane) (ty : Ty) (f : Bin) (a b : Src) : Dword :=
  if ty.is64 then f 64 (hd.rd64 ln a) (hd.rd64 ln b) else (f 32 (hd.rd ln a) (hd.rd ln b)).setWidth 64
def Hand.of1 (hd : Hand) (ln : Lane) (ty : Ty) (f : Un) (a : Src) : Dword :=
  if ty.is64 then f 64 (hd.rd64 ln a) else (f 32 (hd.rd ln a)).setWidth 64

/-- The operands of an instruction of type `ty` with D, A and B, and with D and A. -/
def args2 (ty : Ty) (d a : Opnd) (b : Src) : List Arg := [(rdst ty, .o d), (rsrc ty, .o a), (rsrc ty, b)]
def args1 (ty : Ty) (d a : Opnd) : List Arg := [(rdst ty, .o d), (rsrc ty, .o a)]

/-- The write of a predicate for one lane. -/
def Hand.pdest (_hd : Hand) (ln : Lane) (d : POpnd) (b : Bool) : List (Dst × Word) := [(pdstOf ln d, if b then 1 else 0)]

/-- The results that stay pending, in order, with their numbers (R90): none for a register that discards writes. -/
def pendings (first : Nat) (l : List (Dst × Option Word)) : List Pend :=
  (l.filter fun x => x.1 != .drop).mapIdx fun k x => { id := first + k, dst := x.1, val := x.2 }

/-! ### Issuing -/

/-- The word that issues, with its team and its hand, which is in a visit (R36). -/
structure State.Issues (s : State) (i : Iss) : Prop where
  cur : s.cur = some i.c
  team : s.team? i.c.team = some i.tm
  hand : s.hand? i.c.team i.c.hix = some i.hd
  visit : i.hd.phase = .visit

/-- The governor lets the instruction issue: the counter was above 0 at the start of the cycle (R12); and its operands pass check 5 of
R207. -/
structure State.Passes (s : State) (i : Iss) (h : Hdr) (credits : Nat) (args : List Arg)
    (more : Bool → Bool := noMore) : Prop where
  ungoverned : h.u = true ∨ credits = 0 ∨ 0 < (s.core i.tm.core).actStart
  args : argsOk h.u i.hd.privT args = true
  more : more h.u = true

/-- Does the instruction name a register that is not resident (R74)? -/
def Iss.nr (i : Iss) (h : Hdr) (args : List Arg) : Bool := i.hd.touchesNr i.tm.depth (i.hd.lanes h) args

/-- The hand goes on behind the word, held by a switch marker if the word has one and long results are pending (R89); a barrier-held
thread that left the active set parks (R277). -/
def Hand.goesOn (m : Hand) (i : Iss) (h : Hdr) (waiting : Bool := false) : Hand :=
  ({ m with off := m.off + i.c.len, sw := m.sw || h.sw, how := howAfter m waiting (m.off + i.c.len) }).unmark.parkHeld

/-- The state but for its hands, its cores, what issues and the next fresh number: memory, the dies, teams, launches,
partitions, queues and all of the hub. -/
def State.device (s : State) : State := { s with hands := [], cores := [], cur := none, nextId := 0 }

/-- What an instruction of so many credits costs: nothing in its uniform form (R11). -/
def costOf (h : Hdr) (credits : Nat) : Nat := if h.u then 0 else credits

/-- `t` is `s` with the issuing hand replaced by `hd'`, `credits` taken from its core (R11), `n` numbers drawn, and nothing else changed: every byte of memory, every other hand, every other core, team, launch, partition and
queue is as before. -/
structure State.Did (s t : State) (i : Iss) (credits n : Nat) (hd' : Hand) : Prop where
  hand : t.hand? i.c.team i.c.hix = some hd'
  others : ∀ a b, ¬(a = i.c.team ∧ b = i.c.hix) → t.hand? a b = s.hand? a b
  cores : ∀ c, t.core c = if c = i.tm.core then
    { s.core c with activity := (s.core c).activity - credits } else s.core c
  cur : t.cur = none
  ids : t.nextId = s.nextId + n
  rest : t.device = s.device

/-- `t` is `s` with the issuing hand replaced by `hd'`, its core changed by `f`, `n` numbers drawn, and nothing else changed but, where
`view` is true, how far the dies have applied the writes of others (R116). -/
structure State.DidCore (s t : State) (i : Iss) (n : Nat) (hd' : Hand) (f : Core → Core) (view : Bool) : Prop where
  hand : t.hand? i.c.team i.c.hix = some hd'
  others : ∀ a b, ¬(a = i.c.team ∧ b = i.c.hix) → t.hand? a b = s.hand? a b
  cores : ∀ c, t.core c = if c = i.tm.core then f (s.core c) else s.core c
  cur : t.cur = none
  ids : t.nextId = s.nextId + n
  rest : { t.device with dies := s.dies } = s.device
  dies : view = false → t.dies = s.dies

/-- The instruction only writes registers of its hand, at issue: for each lane the writes `w`. -/
def State.Writes (s : State) (o : Out) (i : Iss) (h : Hdr) (credits : Nat) (args : List Arg)
    (w : Lane → List (Dst × Word)) : Prop :=
  ∃ t m, o = .next t ∧ i.hd.Wrote m (i.nr h args) ((i.hd.lanes h).flatMap w) ∧ s.Did t i (costOf h credits) 0 (m.goesOn i h)

/-- The instruction only posts long results: for each lane `w`. -/
def State.Posts (s : State) (o : Out) (i : Iss) (h : Hdr) (credits : Nat) (args : List Arg)
    (w : Lane → List (Dst × Option Word)) : Prop :=
  let ps := pendings s.nextId ((i.hd.lanes h).flatMap w)
  let hs := if i.nr h args then i.hd.hs ||| hsNr else i.hd.hs
  ∃ t, o = .next t ∧ s.Did t i (costOf h credits) ps.length (({ i.hd with pend := i.hd.pend ++ ps, hs }).goesOn i h)

/-- The instruction raises Reserved-Operand for its participants, and has no effect of its own (check 5 of R207). -/
def State.Reserves (s : State) (o : Out) (i : Iss) (h : Hdr) (credits : Nat) : Prop :=
  o = .next (((s.charge h credits i.tm.core).takeFaults i.c.team i.c.hix i.c.addr
    ((i.hd.parts h).map fun t => (t, { cause := 2 }))).advance i h)

/-- The instruction changes nothing but its hand's place, and `nr` where R74 sets it. -/
def State.OnlyMovesOn (s : State) (o : Out) (i : Iss) (h : Hdr) (args : List Arg) : Prop :=
  ∃ t, o = .next t ∧
    s.Did t i 0 0 (Hand.goesOn { i.hd with hs := if i.nr h args then i.hd.hs ||| hsNr else i.hd.hs } i h)

/-! ### Accesses -/

/-- Is lane `b` a thread above the thread of lane `a`? -/
def Lane.below (a b : Lane) : Bool := match a, b with | .thr x, .thr y => decide (x < y) | _, _ => false

/-- A global access of `n` bytes at `va` by a lane leads to `pa` by a translation that the core's TLB holds: it is
aligned, its address has no bit above 51, and the page permits it (R264, R363). -/
structure State.Hits (s : State) (i : Iss) (k : AccKind) (n : Nat) (ln : Lane) (va pa : Nat) (unc : Bool) : Prop where
  aligned : va % n = 0
  range : va < 2 ^ 52
  tlb : ∃ x, s.tlbHit (s.core i.tm.core).tlb (s.pasidOf i.tm) va k (i.hd.lanePriv ln) = some (pa, x) ∧ x.uncached = unc

/-- No line of the run is marked uncorrectable (R393), and its package can be reached (R354). -/
def State.Sound (s : State) (pa n : Nat) : Prop := s.poisoned pa n = false ∧ s.unreachable pa = false

/-- The hand has nothing on its way to memory: no buffered write, no append, no load that has bytes to read. -/
def State.Settled (s : State) (i : Iss) : Prop :=
  (∀ x ∈ s.hands, x.team = i.c.team → x.hix = i.c.hix → x.sbuf = []) ∧ s.appending i.c.team i.c.hix = false ∧
  ∀ r ∈ s.readReqs, r.team = i.c.team → r.hix = i.c.hix → ∀ x ∈ r.items, x.got ≠ none

/-- The hand after posting results, with `nr` where R74 sets it. -/
def Iss.posted (i : Iss) (h : Hdr) (args : List Arg) (ps : List Pend) : Hand :=
  Hand.goesOn { i.hd with pend := i.hd.pend ++ ps, hs := if i.nr h args then i.hd.hs ||| hsNr else i.hd.hs } i h

/-- The results of a value of type `ty` for one lane, formed. -/
def Iss.result (i : Iss) (ln : Lane) (ty : Ty) (d : Opnd) (v : Dword) : List (Dst × Option Word) :=
  (i.hd.dest i.tm.depth ln ty d v).map fun x => (x.1, some x.2)

/-- The hand after putting writes into its buffer, with `nr` where R74 sets it. -/
def Iss.buffered (i : Iss) (h : Hdr) (args : List Arg) (ws : List BufWrite) : Hand :=
  Hand.goesOn { i.hd with sbuf := i.hd.sbuf ++ ws, hs := if i.nr h args then i.hd.hs ||| hsNr else i.hd.hs } i h

/-- The registers that a load of type `ty` writes for each place found, and whether each takes the upper word of a pair. -/
def Iss.loadDests (i : Iss) (ty : Ty) (d : Opnd) (found : List Found) : List (Found × Dst × Bool) :=
  found.flatMap fun f => (((i.hd.dest i.tm.depth f.ln ty d 0).mapIdx fun j x => (x.1, j == 1)).filter fun x => x.1 != .drop).map
    fun x => (f, x)

/-- The results of a load stay pending, not yet formed, with their numbers (R90). -/
def loadPends (first : Nat) (rs : List (Found × Dst × Bool)) : List Pend :=
  rs.mapIdx fun j x => { id := first + j, dst := x.2.1, val := none }

/-- The request `k` of load `ord` for a line or a row: for each result the bytes that it takes (R263, R266). `home`: the load reads the
home. -/
def Iss.readReq (i : Iss) (ty : Ty) (home : Bool) (ord : Nat) (rs : List (Found × Dst × Bool)) (k : Nat × Loc) (l : Loc) : ReadReq :=
  { team := i.c.team, hix := i.c.hix, part := i.tm.part, core := i.tm.core, ord, code := i.c.addr, loc := l
    items := (rs.mapIdx fun j x => (x.1.req,
      ({ pend := ord + 1 + j, loc := x.1.l, ty, high := x.2.2, home := x.1.unc || home, tids := i.hd.laneThreads x.1.ln } : ReadItem))).filterMap
        fun x => if x.1 = k then some x.2 else none }

/-- The requests of a load for lines (R263). -/
def Iss.lineReads (i : Iss) (ty : Ty) (home : Bool) (ord : Nat) (found : List Found) (rs : List (Found × Dst × Bool)) : List ReadReq :=
  (requests found).filterMap fun k => match k.2 with
    | .mem l => some (i.readReq ty home ord rs k (.mem (l * 128)))
    | .slice _ _ => none

/-- The request of the hand at a bank of its own core, for the row of byte `o` of the slice (R119: class 3). -/
def Iss.rowReq (i : Iss) (s : State) (o ord : Nat) (read : Option ReadReq) : BankReq :=
  { bank := o / 16 % 64, row := o / 1024 % 512, rank := ⟨3, (i.hd.resStart * 4 + i.hd.quad) * 16 + i.hd.slot, s.cyc⟩,
    team := i.c.team, hix := i.c.hix, ord, read }

/-- The request with its bytes read: of an item that has none yet, the bytes that `byte` gives, extended to the destination (R266). -/
def ReadReq.taken (r : ReadReq) (byte : Loc → Byte) : ReadReq :=
  { r with items := r.items.map fun x => match x.got with
      | some _ => x
      | none =>
        let v := extendLoad x.ty ((List.range (tySize x.ty)).map fun j => byte (x.loc.plus j))
        { x with got := some (if x.high then hi32 v else lo32 v) } }

/-- The pending results with the number `n` have the value `v`. -/
def formedAs (n : Nat) (v : Word) (l : List Pend) : List Pend := l.map fun p => if p.id = n then { p with val := some v } else p

/-- What the answer to the request forms of a hand's pending results (R90). -/
def ReadReq.formed (r : ReadReq) (l : List Pend) : List Pend :=
  r.items.foldl (fun l x => match x.got with | some v => formedAs x.pend v l | none => l) l

/-- What the old values of a group of atomics form of a hand's pending results (R133). -/
def Rmw.formed (x : Rmw) (olds : List Dword) (l : List Pend) : List Pend :=
  (List.zip x.olds olds).foldl (fun l y => y.1.foldl (fun l z => formedAs z.1 (if z.2 then hi32 y.2 else lo32 y.2) l) l) l

/-- The buffered writes of a store, in ascending thread order: the highest thread's data where several store to one place (R135), and
with each write the participants of its request (R263). -/
def Iss.storeWrites (i : Iss) (found : List Found) (data : Lane → List Byte) (wide : Bool) (org ord : Nat) : List BufWrite :=
  found.mapIdx fun j f =>
    let place : Nat × Option Nat := match f.l with | .mem pa => (pa, none) | .slice c o => (o, some c)
    { ord, pa := place.1, slice := place.2
      data := if found.any fun g => g.l == f.l && f.ln.below g.ln then [] else data f.ln
      red := none, wide := f.unc || wide, org
      last := (found.drop (j + 1)).all fun g => g.req != f.req
      team := i.c.team, hix := i.c.hix, lanes := maskOf (i.hd.laneThreads f.ln)
      req := maskOf ((found.filter fun g => g.req == f.req).flatMap fun g => i.hd.laneThreads g.ln)
      code := i.c.addr, va := BitVec.ofNat 64 f.va }

/-- The origin entry of an instruction with `n` requests (R380). -/
def Iss.holds (i : Iss) (h : Hdr) (id n : Nat) : Origin :=
  { id, addr := i.c.addr, team := i.c.team, hix := i.c.hix, part := i.tm.part, launch := i.tm.launch, mask := maskOf (i.hd.parts h),
    undrained := n, performed := 0 }

/-- Memory after the bytes from `pa` on have become `bs`: every other byte reads as before. -/
def State.Stored (s t : State) (pa : Nat) (bs : List Byte) : Prop :=
  ∀ x, t.byteAt x = if pa ≤ x ∧ x < pa + bs.length then bs.getD (x - pa) 0 else s.byteAt x

/-- The same for a scratchpad slice. -/
def State.SliceStored (s t : State) (c o : Nat) (bs : List Byte) : Prop :=
  ∀ x, (t.core c).spad.get x 0 = if o ≤ x ∧ x < o + bs.length then bs.getD (x - o) 0 else (s.core c).spad.get x 0

/-! ### Counters and cards -/

/-- R58: with COUNT of the counter at `pa` gone to 0, the card at its CONT reads as `c`: by a translation that writes nothing, in this
package's HBM, and it is one that the dealers take, without affinity. -/
def State.ContCard (s : State) (pasid pa : Nat) (c : Card) : Prop :=
  let u := s.writeHome (paDie pa) pa (toBytes 4 0)
  let cont := fld (s.wordAt (pa + 8)) 51 0
  ∃ (pc : Nat) (unc : Bool) (tl : Tlb), cont ≠ 0 ∧ cont % 64 = 0 ∧
    u.walkVa pasid cont .read false = ((.ok pc unc, some tl), u) ∧ pc < hbmEnd ∧ u.Sound pc 64 ∧
    c = cardOf ((List.range 8).map fun j => u.wordAt (pc + 8 * j)) ∧ c.rejected false = false ∧ fld c.w3 51 0 = 0

/-- A card has joined the tail of a die's deal queues with a fresh number, and those of the other dies are as before. -/
def State.Dealt (s t : State) (die : Nat) (c : DealCard) : Prop :=
  (∃ x x' id, s.die? die = some x ∧ t.die? die = some x' ∧ s.nextId ≤ id ∧ id < t.nextId ∧ x'.deal = x.deal ++ [{ c with id }]) ∧
  ∀ k, k ≠ die → (t.die? k).map (·.deal) = (s.die? k).map (·.deal)

/-- R288: a die's deal queue of a launch has room for a card. -/
def State.DealRoom (s : State) (die part launch : Nat) : Prop :=
  ∃ x, s.die? die = some x ∧ (x.deal.filter fun y => y.part == part && y.launch == launch).length < 2 ^ 20

/-- What a decrement of the counter at `pa` from 1 does beside its store (R58): nothing with CONT = 0, and else the card at CONT goes,
its CONT flag set, to the dealer of the counter's home die. -/
def State.Releases (s t : State) (l : Launch) (pa : Nat) (c : Option Card) : Prop :=
  let dies := (s.part l.part).dies
  let die := if paDie pa ∈ dies then paDie pa else dies.headD (paDie pa)
  match c with
  | none => ∀ k, (t.die? k).map (·.deal) = (s.die? k).map (·.deal)
  | some c => s.Dealt t die { part := l.part, launch := l.handle, card := { c with w0 := c.w0 ||| 0x8000#64 },
                              prio := fld l.record.w0 29 27, since := s.cyc }

/-- What it needs for that. -/
def State.Releasable (s : State) (l : Launch) (pa : Nat) (c : Option Card) : Prop :=
  let dies := (s.part l.part).dies
  match c with
  | none => fld (s.wordAt (pa + 8)) 51 0 = 0
  | some c => s.contWaits l.pasid pa = false ∧ s.ContCard l.pasid pa c ∧ s.DealRoom (if paDie pa ∈ dies then paDie pa else dies.headD (paDie pa)) l.part l.handle

/-! ### Transfers and exceptions -/

/-- The code word `w` stands at `a` and is fetched without a walk: the core's TLB holds its page, its line is sound,
and the word that the die sees is the one that the core last fetched there (R294, R356); when the page is uncached, no write is on its
way to the die (R358). -/
def State.Code (s : State) (tm : Team) (privT : Bool) (a : CodeAddr) (w : Dword) : Prop :=
  ∃ (cx : Context) (pa : Nat) (x : Tlb), s.ctx? (s.pasidOf tm) = some cx ∧
    s.tlbHit (s.core tm.core).tlb (s.pasidOf tm) ((cx.code.toNat + 8 * a.toNat) % 2 ^ 52) .fetch privT = some (pa, x) ∧
    s.Sound pa 8 ∧ (x.uncached = true → s.flushInbox (dieOf tm.core) = s) ∧
    w = BitVec.ofNat 64 (ofBytes (s.viewBytes (dieOf tm.core) pa 8)) ∧
    (s.core tm.core).icache.find? (fun e => e.1 == tm.part && e.2.1 == s.pasidOf tm && e.2.2.1 == a) =
      some (tm.part, s.pasidOf tm, a, w)

/-- A wanted address that passes R18 at a privilege: a header, on the privilege's side of the trap region. -/
def State.Wanted (s : State) (tm : Team) (privT : Bool) (a : CodeAddr) : Prop :=
  (s.part tm.part).inRegion a = privT ∧ ∃ w, s.Code tm privT a w ∧ fld w 63 56 = 1

/-- The threads `ts` leave the active set, each changed by `f`. -/
def Hand.sends (hd : Hand) (ts : List Nat) (f : Nat → Thread → Thread) : Hand :=
  ts.foldl (fun hd t => (hd.leave t).updThr t (f t)) hd

/-- The hand with flag `nr` set when `b` (R74, R87). -/
def Hand.nrIf (hd : Hand) (b : Bool) : Hand := { hd with hs := if b then hd.hs ||| hsNr else hd.hs }

/-- The instruction completes: its hand becomes `m`, gone on behind the word, and nothing else differs from `s'`. -/
def State.Leaves (s' : State) (o : Out) (i : Iss) (h : Hdr) (m : Hand) (waiting : Bool := false) : Prop :=
  ∃ t, o = .next t ∧ s'.Did t i 0 0 (m.goesOn i h waiting)

/-- The 64-bit value of a thread's pair x(n+1):xn. -/
def Thread.xpair (x : Thread) (n : Nat) : Dword := pair64 (x.x.get (n + 1) 0) (x.x.get n 0)

/-- The same for a place in either: the bytes there have become `bs`, and no other byte has changed. -/
def State.LocStored (s t : State) (l : Loc) (bs : List Byte) : Prop :=
  match l with
  | .slice c o => s.SliceStored t c o bs ∧ t.mem = s.mem ∧ ∀ k, k ≠ c → t.core k = s.core k
  | .mem pa => s.Stored t pa bs ∧ ∀ k, (t.core k).spad = (s.core k).spad

end Sys2Proof.Machine
end

