-- ==== Sys2Proof/Certificates/Slice0/Obligations.lean ====
section
/-! DEFINITION. The statements for the provers. A statement about an instruction of a hand is about the hand that
issues (`State.Issues`); `State.Passes` are the conditions of R12 and of check 5 of R207 on its operands. -/

open Sys2Proof Sys2Proof.Machine

/-! ### Integer arithmetic -/

/-- R225: IADD, ISUB, IMUL, IMIN, IMAX in both forms, IMULH, IABS, INEG and IMAD complete, write their result to D for
every lane, and change nothing else. The long forms read their immediate by R199. R210, R11: the 64-bit vector forms of IMUL, IMULH
and IMAD occupy a pipe for 8 cycles, and cost twice the credits. -/
def Obligations.IntegerArithmetic : Prop :=
  ∀ (s : State) (i : Iss) (h : Hdr) (ty : Ty) (d a b c : Opnd) (imm : Word), s.Issues i →
    let mul : Nat := if ty.is64 then 4 else 2
    let costs (n : Nat) (x : Instr) (b : Src) (f : Bin) : Prop :=
      s.Passes i h n (args2 ty d a b) →
        s.Writes (exec x s) i h n (args2 ty d a b) fun ln => i.hd.dest i.tm.depth ln ty d (i.hd.of2 ln ty f (.o a) b)
    let two := costs 2
    let one (x : Instr) (f : Un) : Prop :=
      s.Passes i h 2 (args1 ty d a) →
        s.Writes (exec x s) i h 2 (args1 ty d a) fun ln => i.hd.dest i.tm.depth ln ty d (i.hd.of1 ln ty f (.o a))
    let lesser : Bin := fun _ x y => if ty.signed then (if x.toInt ≤ y.toInt then x else y) else (if x ≤ y then x else y)
    let greater : Bin := fun _ x y => if ty.signed then (if y.toInt ≤ x.toInt then x else y) else (if y ≤ x then x else y)
    two (.iadd h ty d a b) (.o b) (fun _ x y => x + y) ∧
    two (.iaddImm h ty d a imm) (immT ty imm) (fun _ x y => x + y) ∧
    two (.isub h ty d a b) (.o b) (fun _ x y => x - y) ∧
    two (.isubImm h ty d a imm) (immT ty imm) (fun _ x y => x - y) ∧
    costs mul (.imul h ty d a b) (.o b) (fun _ x y => x * y) ∧
    costs mul (.imulImm h ty d a imm) (immT ty imm) (fun _ x y => x * y) ∧
    costs mul (.imulh h ty d a b) (.o b) (fun w x y =>
      if ty.signed then (x.signExtend (w + w) * y.signExtend (w + w)).extractLsb' w w
      else (x.setWidth (w + w) * y.setWidth (w + w)).extractLsb' w w) ∧
    two (.imin h ty d a b) (.o b) lesser ∧
    two (.iminImm h ty d a imm) (immT ty imm) lesser ∧
    two (.imax h ty d a b) (.o b) greater ∧
    two (.imaxImm h ty d a imm) (immT ty imm) greater ∧
    one (.iabs h ty d a) (fun w x => BitVec.ofNat w x.toInt.natAbs) ∧
    one (.ineg h ty d a) (fun _ x => 0 - x) ∧
    (let args : List Arg := [(rdst ty, .o d), (rsrc ty, .o a), (rsrc ty, .o b), (rsrc ty, .o c)]
     s.Passes i h mul args →
       s.Writes (exec (.imad h ty d a b c) s) i h mul args fun ln => i.hd.dest i.tm.depth ln ty d
         (if ty.is64 then i.hd.rdO64 ln a * i.hd.rdO64 ln b + i.hd.rdO64 ln c
          else (i.hd.rdO ln a * i.hd.rdO ln b + i.hd.rdO ln c).setWidth 64))

/-- R226: IADDC and ISUBB add or subtract A, B and the predicate C as unsigned numbers, write D modulo 2^w, and leave
the carry or the borrow in C; p7 and q3 read 1 and drop the write; a C that is no predicate of the form's kind raises
Reserved-Operand; that the refused word takes its credits is the model's reading (log 28).
R227: IDIV and IREM post the quotient truncated toward zero and the remainder with the sign of the dividend; a
zero divisor gives 2^w - 1 and A; the most negative number by -1 gives itself and 0. -/
def Obligations.CarryAndDivision : Prop :=
  (∀ (s : State) (i : Iss) (h : Hdr) (ty : Ty) (d a b : Opnd) (c : POpnd), s.Issues i →
    s.Passes i h 2 (args2 ty d a (.o b)) (fun u => pdstOk u c) →
    let w : Nat := if ty.is64 then 64 else 32
    let x (ln : Lane) : Int := if ty.is64 then (i.hd.rdO64 ln a).toNat else (i.hd.rdO ln a).toNat
    let y (ln : Lane) : Int := if ty.is64 then (i.hd.rdO64 ln b).toNat else (i.hd.rdO ln b).toNat
    let p (ln : Lane) : Int := if i.hd.rdP ln c then 1 else 0
    let out (ln : Lane) (v : Int) (bit : Bool) : List (Dst × Word) :=
      i.hd.dest i.tm.depth ln ty d (BitVec.ofInt 64 (v % 2 ^ w)) ++ i.hd.pdest ln c bit
    s.Writes (exec (.iaddc h ty d a b c) s) i h 2 (args2 ty d a (.o b)) (fun ln =>
      out ln (x ln + y ln + p ln) (decide (2 ^ w ≤ x ln + y ln + p ln))) ∧
    s.Writes (exec (.isubb h ty d a b c) s) i h 2 (args2 ty d a (.o b)) (fun ln =>
      out ln (x ln - y ln - p ln) (decide (x ln - y ln - p ln < 0)))) ∧
  (∀ (s : State) (i : Iss) (h : Hdr) (ty : Ty) (d a b : Opnd) (c : POpnd), s.Issues i →
    h.u = true ∨ 0 < (s.core i.tm.core).actStart →
    (match c with | .p _ => h.u = true | .q _ => h.u = false | .rsv _ => True) →
    s.Reserves (exec (.iaddc h ty d a b c) s) i h 2 ∧ s.Reserves (exec (.isubb h ty d a b c) s) i h 2) ∧
  (∀ (hd : Hand) (ln : Lane) (t : Nat),
    hd.rdP (.thr t) (.p 7) = true ∧ hd.rdP ln (.q 3) = true ∧ pdstOf (.thr t) (.p 7) = .drop ∧ pdstOf ln (.q 3) = .drop) ∧
  (∀ (s : State) (i : Iss) (h : Hdr) (ty : Ty) (d a b : Opnd), s.Issues i → s.Passes i h 2 (args2 ty d a (.o b)) →
    ∃ q r : (w : Nat) → BitVec w → BitVec w → BitVec w,
      (∀ w x y, 0 < w → y = 0 → q w x y = BitVec.allOnes w ∧ r w x y = x) ∧
      (∀ w x y, ty.signed = false → y ≠ 0 → (q w x y).toNat = x.toNat / y.toNat ∧ (r w x y).toNat = x.toNat % y.toNat) ∧
      (∀ w x y, ty.signed = true → y ≠ 0 → ¬(x = BitVec.intMin w ∧ y = BitVec.allOnes w) →
        (q w x y).toInt = Int.tdiv x.toInt y.toInt ∧ (r w x y).toInt = x.toInt - (q w x y).toInt * y.toInt) ∧
      (∀ w, 1 < w → ty.signed = true →
        q w (BitVec.intMin w) (BitVec.allOnes w) = BitVec.intMin w ∧ r w (BitVec.intMin w) (BitVec.allOnes w) = 0) ∧
      let res (f : (w : Nat) → BitVec w → BitVec w → BitVec w) (ln : Lane) : List (Dst × Option Word) :=
        (i.hd.dest i.tm.depth ln ty d (i.hd.of2 ln ty f (.o a) (.o b))).map fun x => (x.1, some x.2)
      s.Posts (exec (.idiv h ty d a b) s) i h 2 (args2 ty d a (.o b)) (res q) ∧
      s.Posts (exec (.irem h ty d a b) s) i h 2 (args2 ty d a (.o b)) (res r))

/-- R228, R229: ISEL writes A or B by the predicate C; ICMP writes the predicate D, by the order of the type, and has no
conditions .num and .nan. A predicate that R201 does not let stand in its place raises Reserved-Operand; that the refused word
takes its credits is the model's reading (log 28).
R233, R234: the moves write their source, and PSET the combination of two predicates. -/
def Obligations.MovesAndCompare : Prop :=
  (∀ (s : State) (i : Iss) (h : Hdr) (ty : Ty) (cond : Cond) (d a b : Opnd) (c pd : POpnd) (imm : Word), s.Issues i →
    (s.Passes i h 2 (args2 ty d a (.o b)) (fun u => psrcOk u c) →
      s.Writes (exec (.isel h ty d a b c) s) i h 2 (args2 ty d a (.o b)) fun ln =>
        i.hd.dest i.tm.depth ln ty d (i.hd.of1 ln ty (fun _ x => x) (if i.hd.rdP ln c then .o a else .o b))) ∧
    (h.u = true ∨ 0 < (s.core i.tm.core).actStart →
      ((match c with | .p _ => h.u = true | .q _ => False | .rsv _ => True) →
        s.Reserves (exec (.isel h ty d a b c) s) i h 2) ∧
      ((match pd with | .p _ => h.u = true | .q _ => h.u = false | .rsv _ => True) →
        s.Reserves (exec (.icmp h ty cond pd a b) s) i h 2 ∧ s.Reserves (exec (.icmpImm h ty cond pd a imm) s) i h 2)) ∧
    (cond = .num ∨ cond = .nan →
      (Instr.icmp h ty cond pd a b).wf = false ∧ (Instr.icmpImm h ty cond pd a imm).wf = false) ∧
    (let holds (x y : Int) : Bool := match cond with
      | .eq => decide (x = y) | .ne => decide (x ≠ y) | .lt => decide (x < y) | .le => decide (x ≤ y)
      | .gt => decide (x > y) | .ge => decide (x ≥ y) | .num | .nan => false
     let num (ln : Lane) (x : Src) : Int :=
      if ty.is64 then (if ty.signed then (i.hd.rd64 ln x).toInt else (i.hd.rd64 ln x).toNat)
      else if ty.signed then (i.hd.rd ln x).toInt else (i.hd.rd ln x).toNat
     let compares (x : Instr) (b : Src) : Prop :=
      let args : List Arg := [(rsrc ty, .o a), (rsrc ty, b)]
      s.Passes i h 2 args (fun u => pdstOk u pd) →
        s.Writes (exec x s) i h 2 args fun ln => i.hd.pdest ln pd (holds (num ln (.o a)) (num ln b))
     compares (.icmp h ty cond pd a b) (.o b) ∧ compares (.icmpImm h ty cond pd a imm) (immT ty imm))) ∧
  (∀ (s : State) (i : Iss) (h : Hdr) (ty : Ty) (d a : Opnd) (imm : Word) (imm64 : Dword) (op : PsetOp)
    (pd pa pb : POpnd), s.Issues i →
    let moves (x : Instr) (a : Src) : Prop :=
      let args : List Arg := [(rdst ty, .o d), (rsrc ty, a)]
      s.Passes i h 2 args → s.Writes (exec x s) i h 2 args fun ln =>
        i.hd.dest i.tm.depth ln ty d (i.hd.of1 ln ty (fun _ x => x) a)
    moves (.mov h ty d a) (.o a) ∧ moves (.movi h ty d imm) (immT ty imm) ∧ moves (.movw h ty d imm64) (.i imm64) ∧
    (s.Passes i h 2 [] (fun u => pdstOk u pd && psrcOk u pa && psrcOk u pb) →
      s.Writes (exec (.pset h op pd pa pb) s) i h 2 [] fun ln => i.hd.pdest ln pd (match op with
        | .and => i.hd.rdP ln pa && i.hd.rdP ln pb
        | .or => i.hd.rdP ln pa || i.hd.rdP ln pb
        | .xor => i.hd.rdP ln pa != i.hd.rdP ln pb)))

/-! ### Logic, shifts, bit fields -/

/-- R230: AND, OR, XOR, ANDN in both forms, and NOT.
R230, R231: the shifts and the rotate, by B[4:0] or B[5:0], which is a single register in both widths. -/
def Obligations.LogicAndShifts : Prop :=
  (∀ (s : State) (i : Iss) (h : Hdr) (ty : Ty) (d a b : Opnd) (imm : Word), s.Issues i →
    let two (x : Instr) (b : Src) (f : Bin) : Prop :=
      s.Passes i h 2 (args2 ty d a b) →
        s.Writes (exec x s) i h 2 (args2 ty d a b) fun ln => i.hd.dest i.tm.depth ln ty d (i.hd.of2 ln ty f (.o a) b)
    two (.and h ty d a b) (.o b) (fun _ x y => x &&& y) ∧ two (.andImm h ty d a imm) (immT ty imm) (fun _ x y => x &&& y) ∧
    two (.or h ty d a b) (.o b) (fun _ x y => x ||| y) ∧ two (.orImm h ty d a imm) (immT ty imm) (fun _ x y => x ||| y) ∧
    two (.xor h ty d a b) (.o b) (fun _ x y => x ^^^ y) ∧ two (.xorImm h ty d a imm) (immT ty imm) (fun _ x y => x ^^^ y) ∧
    two (.andn h ty d a b) (.o b) (fun _ x y => x &&& ~~~y) ∧
    two (.andnImm h ty d a imm) (immT ty imm) (fun _ x y => x &&& ~~~y) ∧
    (s.Passes i h 2 (args1 ty d a) → s.Writes (exec (.not h ty d a) s) i h 2 (args1 ty d a) fun ln =>
      i.hd.dest i.tm.depth ln ty d (i.hd.of1 ln ty (fun _ x => ~~~x) (.o a)))) ∧
  (∀ (s : State) (i : Iss) (h : Hdr) (ty : Ty) (d a b : Opnd), s.Issues i →
    let args : List Arg := [(rdst ty, .o d), (rsrc ty, .o a), (.src, .o b)]
    s.Passes i h 2 args →
    let n (ln : Lane) : Nat := if ty.is64 then fld (i.hd.rdO ln b) 5 0 else fld (i.hd.rdO ln b) 4 0
    let does (x : Instr) (f : (w : Nat) → BitVec w → Nat → BitVec w) : Prop :=
      s.Writes (exec x s) i h 2 args fun ln =>
        i.hd.dest i.tm.depth ln ty d (i.hd.of1 ln ty (fun w x => f w x (n ln)) (.o a))
    does (.shl h ty d a b) (fun _ x n => x <<< n) ∧ does (.shr h ty d a b) (fun _ x n => x >>> n) ∧
    does (.sar h ty d a b) (fun _ x n => x.sshiftRight n) ∧ does (.rol h ty d a b) (fun _ x n => x.rotateLeft n))

/-- R232: BFX extracts the field of width wd = min(c, 32 - p) at p, extended by the type, and BFI replaces it in D by
A's low bits, with p = B[4:0] and c = C[5:0]. A D of BFI that cannot be read or written raises Reserved-Operand; that the refused word
takes its credits is the model's reading (log 28).
R230: POPC, CLZ and CTZ write a count of A's bits to a single register, and BREV the bits of A in reverse. -/
def Obligations.BitOperations : Prop :=
  (∀ (s : State) (i : Iss) (h : Hdr) (ty : Ty) (d a b c : Opnd), s.Issues i →
    let p (ln : Lane) : Nat := fld (i.hd.rdO ln b) 4 0
    let wd (ln : Lane) : Nat := min (fld (i.hd.rdO ln c) 5 0) (32 - p ln)
    (let args : List Arg := [(.dst, .o d), (.src, .o a), (.src, .o b), (.src, .o c)]
     s.Passes i h 2 args →
       s.Writes (exec (.bfx h ty d a b c) s) i h 2 args fun ln =>
         let f : Word := (i.hd.rdO ln a >>> p ln) <<< (32 - wd ln)
         i.hd.dest i.tm.depth ln .i32 d
           ((if wd ln = 0 then 0 else if ty = .i32 then f.sshiftRight (32 - wd ln) else f >>> (32 - wd ln)).setWidth 64)) ∧
    (let args : List Arg := [(.dst, .o d), (.src, .o d), (.src, .o a), (.src, .o b), (.src, .o c)]
     s.Passes i h 2 args →
       ∃ v : Lane → Word,
         (∀ ln n, n < 32 → (v ln).getLsbD n =
           if p ln ≤ n ∧ n < p ln + wd ln then (i.hd.rdO ln a).getLsbD (n - p ln) else (i.hd.rdO ln d).getLsbD n) ∧
         s.Writes (exec (.bfi h ty d a b c) s) i h 2 args fun ln => i.hd.dest i.tm.depth ln .i32 d ((v ln).setWidth 64)) ∧
    (argsOk h.u i.hd.privT [(.dst, .o d)] = false ∨ argsOk h.u i.hd.privT [(.src, .o d)] = false →
      h.u = true ∨ 0 < (s.core i.tm.core).actStart → s.Reserves (exec (.bfi h ty d a b c) s) i h 2)) ∧
  (∀ (s : State) (i : Iss) (h : Hdr) (ty : Ty) (d a : Opnd), s.Issues i →
    (let args : List Arg := [(.dst, .o d), (rsrc ty, .o a)]
     s.Passes i h 2 args →
       let count (x : Instr) (f : (w : Nat) → BitVec w → Nat) : Prop :=
         s.Writes (exec x s) i h 2 args fun ln => i.hd.dest i.tm.depth ln .i32 d
           (BitVec.ofNat 64 (if ty.is64 then f 64 (i.hd.rdO64 ln a) else f 32 (i.hd.rdO ln a)))
       count (.popc h ty d a) (fun w x => ((List.range w).filter fun n => x.getLsbD n).length) ∧
       count (.clz h ty d a) (fun w x => ((List.range w).reverse.takeWhile fun n => !x.getLsbD n).length) ∧
       count (.ctz h ty d a) (fun w x => ((List.range w).takeWhile fun n => !x.getLsbD n).length)) ∧
    (s.Passes i h 2 (args1 ty d a) →
       ∃ f : Un, (∀ w (x : BitVec w) n, n < w → (f w x).getLsbD n = x.getLsbD (w - 1 - n)) ∧
         s.Writes (exec (.brev h ty d a) s) i h 2 (args1 ty d a) fun ln =>
           i.hd.dest i.tm.depth ln ty d (i.hd.of1 ln ty f (.o a))))

/-! ### Moves, predicates, affine -/

/-- R235, R79: an affine instruction executes once for the hand, on the affine unit, which costs no credits: it writes
base and stride of D modulo 2^32, AGET the stride of A to a k register, and nothing else changes. When its predicate
does not hold it changes no register. -/
def Obligations.Affine : Prop :=
  ∀ (s : State) (i : Iss) (h : Hdr) (d a b c : Opnd) (base stride imm : Word), s.Issues i →
    let u (o : Opnd) : Word := i.hd.rdO .uni o
    let does (x : Instr) (args : List Arg) (bs st : Word) : Prop :=
      s.Passes i h 0 args → ∃ t m, exec x s = .next t ∧ s.Did t i 0 0 (m.goesOn i h) ∧
        (i.hd.lanes h = [] → m = i.hd) ∧
        (i.hd.lanes h ≠ [] → ∀ n, m.ab.get n 0 = (if n = aNum d then bs else i.hd.ab.get n 0) ∧
          m.as.get n 0 = if n = aNum d then st else i.hd.as.get n 0) ∧
        { m with ab := i.hd.ab, as := i.hd.as } = i.hd
    does (.amov h d a b) [(.adst, .o d), (.usrc, .o a), (.usrc, .o b)] (u a) (u b) ∧
    does (.amovImm h d base stride) [(.adst, .o d)] base stride ∧
    does (.aadd h d a b) [(.adst, .o d), (.asrc, .o a), (.usrc, .o b)] (i.hd.base a + u b) (i.hd.stride a) ∧
    does (.aaddImm h d a base stride) [(.adst, .o d), (.asrc, .o a)] (i.hd.base a + base) (i.hd.stride a + stride) ∧
    does (.amul h d a b) [(.adst, .o d), (.asrc, .o a), (.usrc, .o b)] (i.hd.base a * u b) (i.hd.stride a * u b) ∧
    does (.amulImm h d a imm) [(.adst, .o d), (.asrc, .o a)] (i.hd.base a * imm) (i.hd.stride a * imm) ∧
    does (.alea h d a b c) [(.adst, .o d), (.asrc, .o a), (.usrc, .o b), (.usrc, .o c)] (i.hd.base a + u b * u c)
      (i.hd.stride a) ∧
    (let args : List Arg := [(.agot, .o d), (.asrc, .o a)]
     s.Passes i h 0 args →
       s.Writes (exec (.aget h d a) s) i h 0 args fun _ => i.hd.dest i.tm.depth .uni .i32 d ((i.hd.stride a).setWidth 64))

/-! ### Special registers -/

/-- R82 to R84, R236: RDSR posts what the named register holds in the cycle of issue: its thread's value, or its
hand's. -/
def Obligations.ReadSpecialRegister : Prop :=
  ∀ (s : State) (i : Iss) (h : Hdr) (d : Opnd) (sr : BitVec 8), s.Issues i →
    let wide : Bool := [0x02, 0x14, 0x15, 0x16, 0x22].contains sr.toNat
    let args : List Arg := [(if wide then .dst64 else .dst, .o d)]
    s.Passes i h 2 args → srListed sr = true → (h.u = true → srThread sr = false) →
    (sr = 0x22#8 → i.hd.inTrap = true) →
    ∃ v : Lane → Dword,
      (∀ t, let x := i.hd.thr t
        (sr = 0x00#8 ∨ sr = 0x08#8 → (v (.thr t)).toNat = t % 2 ^ 64) ∧
        (sr = 0x10#8 → v (.thr t) = x.wa.setWidth 64) ∧ (sr = 0x11#8 → v (.thr t) = x.re.setWidth 64) ∧
        (sr = 0x20#8 → (v (.thr t)).toNat = x.wb % 2 ^ 64) ∧ (sr = 0x21#8 → (v (.thr t)).toNat = x.lo % 2 ^ 64) ∧
        (sr = 0x22#8 → v (.thr t) = x.wsp)) ∧
      (∀ ln, (sr = 0x01#8 ∨ sr = 0x09#8 → (v ln).toNat = i.hd.hix % 2 ^ 64) ∧
        (sr = 0x02#8 → fld (v ln) 15 0 = i.tm.x.toNat ∧ fld (v ln) 31 16 = i.tm.y.toNat ∧
          fld (v ln) 47 32 = i.tm.z.toNat ∧ fld (v ln) 63 48 = 0) ∧
        (∀ j, j < 5 → sr.toNat = 0x0A + j → (v ln).toNat = i.tm.lix.getD j 0 % 2 ^ 64) ∧
        (sr = 0x12#8 → v ln = i.hd.swc.setWidth 64) ∧
        (sr = 0x13#8 → (v ln).toNat = s.cong.get (i.tm.core / 6) 0 % 2 ^ 64) ∧
        (sr = 0x14#8 → (v ln).toNat = i.tm.rcyc % 2 ^ 64) ∧ (sr = 0x15#8 → (v ln).toNat = s.cyc % 2 ^ 64) ∧
        (sr = 0x16#8 → v ln = i.hd.tmr) ∧ (sr = 0x17#8 → v ln = i.hd.fmt.setWidth 64) ∧
        (sr = 0x18#8 → v ln = i.hd.hs.setWidth 64) ∧ (sr = 0x23#8 → (v ln).toNat = i.tm.depth % 2 ^ 64) ∧
        (sr = 0x24#8 → (v ln).toNat = i.tm.core % 2 ^ 64) ∧ (sr = 0x25#8 → (v ln).toNat = i.tm.sbase % 2 ^ 64)) ∧
      s.Posts (exec (.rdsr h d sr) s) i h 2 args fun ln =>
        (i.hd.dest i.tm.depth ln (if wide then .i64 else .i32) d (v ln)).map fun x => (x.1, some x.2)

/-- R83, R86, R87: WRSR of `tmr` leaves the value of the highest participating thread; WRSR of `hs` clears each flag
that is 1 in the value of some participant whose reserved bits are zero; WRSR of `wsp` at privilege T writes each
participant's spill base. Nothing else changes.
R74: at privilege T, WRSR `wlo` with a value above LO stores the entries from LO up at wsp + 4 × i, and with a value below LO loads
the entries down to the value; with LO itself it does nothing. R88: the write is long-class: LO and the resident entries change when
the pending result is written (`HandEvents` says to what). That the words are stored or loaded at issue, and that one pending result
moves the frame, is the model's reading (log 7). Stated for one participant, with nothing of its hand on its way to memory. -/
def Obligations.SpecialWrites : Prop :=
  (∀ (s : State) (i : Iss) (h : Hdr) (a : Opnd), s.Issues i →
    (s.Passes i h 2 [(.src64, .o a)] →
      ∃ t, exec (.wrsrTmr h a) s = .next t ∧
        s.Did t i (costOf h 2) 0 (Hand.goesOn { i.hd with
          hs := if i.nr h [(.src64, .o a)] then i.hd.hs ||| hsNr else i.hd.hs
          tmr := match (i.hd.lanes h).getLast? with | some ln => i.hd.rdO64 ln a | none => i.hd.tmr } i h)) ∧
    (s.Passes i h 2 [(.src, .o a)] → (∀ ln ∈ i.hd.lanes h, (i.hd.rdO ln a).toNat < 8) →
      ∃ (t : State) (m : Hand), exec (.wrsrHs h a) s = .next t ∧ s.Did t i (costOf h 2) 0 (m.goesOn i h) ∧ { m with hs := i.hd.hs } = i.hd ∧
        ∀ n, m.hs.getLsbD n = (((i.hd.hs.getLsbD n || (n == 1 && i.nr h [(.src, .o a)])) &&
          !(i.hd.lanes h).any fun ln => (i.hd.rdO ln a).getLsbD n))) ∧
    (s.Passes i h 2 [(.src64, .o a)] → h.u = false → i.hd.inTrap = true →
      (∀ ln ∈ i.hd.lanes h, fld (i.hd.rdO64 ln a) 63 52 = 0) →
      ∃ (t : State) (m : Hand), exec (.wrsr h a 0x22#8) s = .next t ∧ s.Did t i (costOf h 2) 0 (Hand.goesOn m i h) ∧
        m.hs = (if i.nr h [(.src64, .o a)] then i.hd.hs ||| hsNr else i.hd.hs) ∧
        { m with threads := i.hd.threads, hs := i.hd.hs } = i.hd ∧ m.threads.length = i.hd.threads.length ∧
        ∀ u, u < i.hd.threads.length → m.thr u =
          { i.hd.thr u with wsp := if .thr u ∈ i.hd.lanes h then i.hd.rdO64 (.thr u) a else (i.hd.thr u).wsp })) ∧
  (∀ (s : State) (i : Iss) (h : Hdr) (a : Opnd) (u : Nat) (pa : Nat → Nat), s.Issues i → s.Settled i →
    s.Passes i h 2 [(.src, .o a)] → h.u = false → i.hd.inTrap = true → i.hd.lanes h = [.thr u] →
    u < i.hd.threads.length → (i.hd.thr u).tl = true →
    let x := i.hd.thr u
    let v := (i.hd.rdO (.thr u) a).toNat
    let depth := i.tm.depth
    let moves (hi : Nat) (es : List Word) : Hand := i.posted h [(.src, .o a)] [{ id := s.nextId, dst := .frame u v hi es, val := some 0 }]
    (v = x.lo → v + depth ≤ 2 ^ 24 → ∃ t, exec (.wrsrWlo h a) s = .next t ∧
      s.Did t i (costOf h 2) 0 (i.posted h [(.src, .o a)] [])) ∧
    (x.lo < v → v ≤ x.lo + depth → v + depth ≤ 2 ^ 24 →
      (∀ e, x.lo ≤ e → e < v →
        (∃ unc, s.Hits i .write 4 (.thr u) (x.wsp.toNat + 4 * e) (pa e) unc) ∧ s.Sound (pa e) 4) →
      (∀ e e', x.lo ≤ e → e < e' → e' < v → pa e + 4 ≤ pa e' ∨ pa e' + 4 ≤ pa e) →
      ∃ t : State, exec (.wrsrWlo h a) s = .next t ∧ t.hand? i.c.team i.c.hix = some (moves (x.lo + depth) []) ∧
        (∀ e k, x.lo ≤ e → e < v → k < 4 → t.byteAt (pa e + k) = (toBytes 4 (x.stack.get e 0).toNat).getD k 0) ∧
        ∀ p, (∀ e, x.lo ≤ e → e < v → p < pa e ∨ pa e + 4 ≤ p) → t.byteAt p = s.byteAt p) ∧
    (∀ unc : Bool, v < x.lo → x.lo ≤ v + depth → v + depth ≤ 2 ^ 24 →
      (∀ e, v ≤ e → e < x.lo → s.Hits i .read 4 (.thr u) (x.wsp.toNat + 4 * e) (pa e) unc ∧ s.Sound (pa e) 4) →
      let word (e : Nat) : Word := BitVec.ofNat 32 (ofBytes
        (if unc then s.bytesAt (pa e) 4 else s.viewBytes (dieOf i.tm.core) (pa e) 4))
      let now := moves (v + depth) ((List.range (x.lo - v)).map fun k => word (v + k))
      ∃ t : State, exec (.wrsrWlo h a) s = .next t ∧ t.mem = s.mem ∧ t.hand? i.c.team i.c.hix = some now ∧
        (unc = false → s.Did t i (costOf h 2) 1 now)))

/-! ### Floating point -/

/-- R239 to R245, R110: the short-class FP32 instructions form the exact result and round it once, to nearest with
ties to even; minimum and maximum, the compare and the class mask follow their tables. FRND returns a NaN as the canonical one, an
infinity, a zero and a magnitude of 2^23 or more unchanged, and else the integer that its mode chooses, with the sign of A. FSCALE
rounds the exact A × 2^n once. -/
def Obligations.FloatArithmetic : Prop :=
  ∀ (s : State) (i : Iss) (h : Hdr) (cond : Cond) (d a b c : Opnd) (pd : POpnd) (imm : Word), s.Issues i →
    let w (ln : Lane) (x : Src) : Word := i.hd.rdF ln x
    let rne (x : Sys2Proof.Machine.Num) : Word := BitVec.ofNat 32 (FF.f32.round .ne false x)
    let writes (x : Instr) (args : List Arg) (v : Lane → Word) : Prop :=
      s.Passes i h 2 args → s.Writes (exec x s) i h 2 args fun ln =>
        i.hd.dest i.tm.depth ln .i32 d ((v ln).setWidth 64)
    let two (x : Instr) (b : Src) (f : Word → Word → Word) : Prop :=
      writes x [(.dst, .o d), (.src, .o a), (.src, b)] fun ln => f (w ln (.o a)) (w ln b)
    let add : Word → Word → Word := fun x y => rne ((f32 x).add (f32 y))
    let mul : Word → Word → Word := fun x y => rne ((f32 x).mul (f32 y))
    let fma (ln : Lane) (b : Src) : Word := rne (((f32 (w ln (.o a))).mul (f32 (w ln b))).add (f32 (w ln (.o c))))
    let pick (least : Bool) : Word → Word → Word := fun x y =>
      if (f32 x).isNan ∧ (f32 y).isNan then 0x7FC00000#32 else if (f32 x).isNan then y else if (f32 y).isNan then x
      else if (f32 x).isZero ∧ (f32 y).isZero ∧ (f32 x).sign ≠ (f32 y).sign then (if least then 0x80000000#32 else 0)
      else if (if least then (f32 y).lt (f32 x) else (f32 x).lt (f32 y)) then y else x
    let holds (x y : Sys2Proof.Machine.Num) : Bool := match cond with
      | .eq => x.eqv y | .ne => !x.eqv y | .lt => x.lt y | .gt => y.lt x | .le => x.lt y || x.eqv y
      | .ge => y.lt x || x.eqv y | .num => !x.isNan && !y.isNan | .nan => x.isNan || y.isNan
    let compares (x : Instr) (b : Src) : Prop :=
      s.Passes i h 2 [(.src, .o a), (.src, b)] (fun u => pdstOk u pd) →
        s.Writes (exec x s) i h 2 [(.src, .o a), (.src, b)] fun ln =>
          i.hd.pdest ln pd (holds (f32 (w ln (.o a))) (f32 (w ln b)))
    two (.fadd h d a b) (.o b) add ∧ two (.faddImm h d a imm) (immF imm) add ∧
    two (.fsub h d a b) (.o b) (fun x y => rne ((f32 x).add (f32 y).neg)) ∧
    two (.fmul h d a b) (.o b) mul ∧ two (.fmulImm h d a imm) (immF imm) mul ∧
    two (.fmin h d a b) (.o b) (pick true) ∧ two (.fminImm h d a imm) (immF imm) (pick true) ∧
    two (.fmax h d a b) (.o b) (pick false) ∧ two (.fmaxImm h d a imm) (immF imm) (pick false) ∧
    writes (.ffma h d a b c) [(.dst, .o d), (.src, .o a), (.src, .o b), (.src, .o c)] (fun ln => fma ln (.o b)) ∧
    writes (.ffmaImm h d a c imm) [(.dst, .o d), (.src, .o a), (.src, immF imm), (.src, .o c)] (fun ln => fma ln (immF imm)) ∧
    compares (.fcmp h cond pd a b) (.o b) ∧ compares (.fcmpImm h cond pd a imm) (immF imm) ∧
    writes (.fclass h d a) [(.dst, .o d), (.src, .o a)] (fun ln =>
      let x := w ln (.o a)
      let neg := x.getLsbD 31
      let ex := fld x 30 23
      let fr := fld x 22 0
      if ex = 255 then (if fr ≠ 0 then 0x100#32 else if neg then 1#32 else 0x80#32)
      else if ex ≠ 0 then (if neg then 2#32 else 0x40#32)
      else if fr ≠ 0 then (if neg then 4#32 else 0x20#32) else if neg then 8#32 else 0x10#32) ∧
    (∀ v : Fin 32, 16 ≤ v.val → v.val ≤ 19 →
      writes (.frnd h d a (.imm v)) [(.dst, .o d), (.src, .o a)] fun ln =>
        let x := w ln (.o a)
        match f32 x with
        | .nan => 0x7FC00000#32
        | .inf _ => x
        | .fin neg m e =>
          if m = 0 ∨ 2 ^ 23 * 2 ^ (-e).toNat ≤ m * 2 ^ e.toNat then x
          else
            let u := 2 ^ (-e).toNat
            let up : Bool := match v.val with
              | 16 => decide (u < 2 * (m % u)) || (decide (u = 2 * (m % u)) && m / u % 2 == 1)
              | 17 => false
              | 18 => !neg && m % u != 0
              | _ => neg && m % u != 0
            rne (.fin neg (if up then m / u + 1 else m / u) 0)) ∧
    writes (.fscale h d a b) [(.dst, .o d), (.src, .o a), (.src, .o b)] (fun ln =>
      let x := w ln (.o a)
      match f32 x with
      | .nan => 0x7FC00000#32
      | .inf _ => x
      | .fin neg m e => if m = 0 then x else rne (.fin neg m (e + (i.hd.rdO ln b).toInt)))

/-- R246, R247: the transcendentals post a result that is a function of the input bits alone, with the exact cases of
R247's table: a NaN, the infinities, the zeros, the negative numbers of FRSQ, FSQRT and FLOG2, the integers, the halves, and the
powers of two. FRCP, FSQRT and FRSQ of any other number round the exact value to the nearest FP32 value, a tie to the even one: FRCP
and FSQRT on every part, FRSQ as on the K96. (`size` is the magnitude of A in units of 2^-149.) -/
def Obligations.Transcendentals : Prop :=
  (∀ (s : State) (i : Iss) (h : Hdr) (d a : Opnd), s.Issues i → s.Passes i h 4 [(.dst, .o d), (.src, .o a)] →
    let posts (x : Instr) (f : Word → Word) : Prop :=
      s.Posts (exec x s) i h 4 [(.dst, .o d), (.src, .o a)] fun ln =>
        [(i.hd.dstOf i.tm.depth ln d, some (f (i.hd.rdF ln (.o a))))]
    posts (.frcp h d a) fRcp ∧ posts (.frsq h d a) fRsq ∧ posts (.fsqrt h d a) fSqrt ∧ posts (.fexp2 h d a) fExp2 ∧
    posts (.flog2 h d a) fLog2 ∧ posts (.fsin h d a) fSin ∧ posts (.fcos h d a) fCos) ∧
  (∀ x : Word, (f32 x).isNan = true → ∀ f ∈ [fRcp, fRsq, fSqrt, fExp2, fLog2, fSin, fCos], f x = 0x7FC00000#32) ∧
  (∀ f ∈ [fRsq, fSqrt, fLog2], ∀ (m : Nat) (e : Int) (x : Word), f32 x = .fin true m e → m ≠ 0 → f x = 0x7FC00000#32) ∧
  (let row (x a b c d e f g : Word) : Prop :=
     fRcp x = a ∧ fRsq x = b ∧ fSqrt x = c ∧ fExp2 x = d ∧ fLog2 x = e ∧ fSin x = f ∧ fCos x = g
   let nan : Word := 0x7FC00000#32
   let inf : Word := 0x7F800000#32
   let minf : Word := 0xFF800000#32
   let one : Word := 0x3F800000#32
   let mzero : Word := 0x80000000#32
   row minf mzero nan nan 0 nan nan nan ∧ row mzero minf minf mzero one minf mzero one ∧
   row 0 inf inf 0 one minf 0 one ∧ row inf 0 0 inf inf inf nan nan) ∧
  (∀ (x : Word) (neg : Bool) (m : Nat) (e : Int), f32 x = .fin neg m e →
    let rne (v : Sys2Proof.Machine.Num) : Word := BitVec.ofNat 32 (FF.f32.round .ne false v)
    let size : Nat := m * 2 ^ (e + 149).toNat
    (∀ n : Nat, size = n * 2 ^ 149 →
      let k : Int := if neg then -(n : Int) else n
      fExp2 x = (if 127 < k then 0x7F800000#32 else if k < -149 then 0 else rne (.fin false 1 k)) ∧
      fSin x = (if neg then 0x80000000#32 else 0) ∧ fCos x = (if n % 2 = 0 then 0x3F800000#32 else 0xBF800000#32)) ∧
    (∀ n : Nat, size = (2 * n + 1) * 2 ^ 148 →
      fSin x = (if (n % 2 == 1) == neg then 0x3F800000#32 else 0xBF800000#32) ∧ fCos x = 0) ∧
    (∀ k : Int, -149 ≤ k → size = 2 ^ (k + 149).toNat →
      fRcp x = rne (.fin neg 1 (-k)) ∧ (neg = false → fLog2 x = rne (.fin (decide (k < 0)) k.natAbs 0))) ∧
    (m ≠ 0 → (fRcp x).getLsbD 31 = neg ∧
      ∃ r, FF.f32.Chooses .ne neg (2 ^ 298) size r ∧ (fRcp x).toNat % 2 ^ 31 = min r 0x7F800000) ∧
    (let nearest (y : Word) (f : Nat → Nat) (k : Nat) : Prop :=
       let r := y.toNat
       let lo := f (FF.f32.grid (r - 1) + FF.f32.grid r)
       let hi := f (FF.f32.grid r + FF.f32.grid (r + 1))
       0 < r ∧ r < 0x7F800000 ∧ lo ≤ k ∧ k ≤ hi ∧ (lo = k ∨ k = hi → r % 2 = 0)
     m ≠ 0 → neg = false → nearest (fSqrt x) (fun v => v * v) (size * 2 ^ 151) ∧
       nearest (fRsq x) (fun v => v * v * size) (2 ^ 449)))

/-- R248: the packed instructions work on the two 16-bit halves independently, each with one rounding.
R251, R252: CVTP converts every element of its row as CVT would, packed from the low end; TSPACK writes each
participant its element and the scale word of its group of 32 threads, formed from the participants of that group
alone. -/
def Obligations.PackedOperations : Prop :=
  (∀ (s : State) (i : Iss) (h : Hdr) (ty : Ty) (d a b c : Opnd), s.Issues i → (ty = .f16 ∨ ty = .bf16) →
    let f : FF := if ty = .f16 then .f16 else .bf16
    let el (ln : Lane) (o : Opnd) (n : Nat) : Sys2Proof.Machine.Num := f.decode (fld (i.hd.rdE ln ty (.o o)) (16 * n + 15) (16 * n))
    let writes (x : Instr) (args : List Arg) (v : Lane → Nat → Sys2Proof.Machine.Num) : Prop :=
      s.Passes i h 2 args → s.Writes (exec x s) i h 2 args fun ln => i.hd.dest i.tm.depth ln .i32 d
        (BitVec.ofNat 64 (f.round .ne false (v ln 0) % 65536 + 65536 * (f.round .ne false (v ln 1) % 65536)))
    writes (.hadd2 h ty d a b) [(.dst, .o d), (.src, .o a), (.src, .o b)] (fun ln n => (el ln a n).add (el ln b n)) ∧
    writes (.hmul2 h ty d a b) [(.dst, .o d), (.src, .o a), (.src, .o b)] (fun ln n => (el ln a n).mul (el ln b n)) ∧
    writes (.hfma2 h ty d a b c) [(.dst, .o d), (.src, .o a), (.src, .o b), (.src, .o c)]
      (fun ln n => ((el ln a n).mul (el ln b n)).add (el ln c n))) ∧
  (∀ (s : State) (i : Iss) (h : Hdr) (dst src : Ty) (rnd : Rnd) (half : Bool) (tw : Twin) (d a b : Opnd), s.Issues i →
    let one (x : Nat) : Nat :=
      if dst.float = false ∧ src.float = false ∧ tyWidth src < tyWidth dst then (intOf src x % 2 ^ tyWidth dst).toNat
      else convertTo dst (cvtMode dst rnd) (valueOf src x)
    let el (w n : Nat) (x : Word) : Nat := one (fld x (w * n + w - 1) (w * n))
    let pack (w : Nat) (l : List Nat) : Nat := l.foldr (fun x r => x % 2 ^ w + 2 ^ w * r) 0
    let A (ln : Lane) : Word := i.hd.rdE ln src (.o a)
    let B (ln : Lane) : Word := i.hd.rdE ln src (.o b)
    let PA (ln : Lane) : Dword := i.hd.rdE64 ln src (.o a)
    let PB (ln : Lane) : Dword := i.hd.rdE64 ln src (.o b)
    let does (row : CvtpRow) (args : List Arg) (dty : Ty) (w : Nat) (v : Lane → List Nat) : Prop :=
      cvtpRow dst src = some row → s.Passes i h 2 args →
        s.Writes (exec (.cvtp h dst src rnd half d a b) s) i h 2 args fun ln =>
          i.hd.dest i.tm.depth ln dty d (BitVec.ofNat 64 (pack w (v ln)))
    let ab (r : Role) : List Arg := [(.dst, .o d), (r, .o a), (r, .o b)]
    does .two (ab .src) .i32 16 (fun ln => [one (A ln).toNat, one (B ln).toNat]) ∧
    does .four (ab .src64) .i32 8 (fun ln =>
      [one (lo32 (PA ln)).toNat, one (hi32 (PA ln)).toNat, one (lo32 (PB ln)).toNat, one (hi32 (PB ln)).toNat]) ∧
    does .four16 (ab .src) .i32 8 (fun ln => [el 16 0 (A ln), el 16 1 (A ln), el 16 0 (B ln), el 16 1 (B ln)]) ∧
    does .eight (ab .src) .i32 4 (fun ln =>
      [el 8 0 (A ln), el 8 1 (A ln), el 8 2 (A ln), el 8 3 (A ln), el 8 0 (B ln), el 8 1 (B ln), el 8 2 (B ln), el 8 3 (B ln)]) ∧
    does .wide16 [(.dst64, .o d), (.src, .o a)] .i64 32 (fun ln => [el 16 0 (A ln), el 16 1 (A ln)]) ∧
    does .wide8 [(.dst64, .o d), (.src, .o a)] .i64 16 (fun ln => (List.range 4).map fun n => el 8 n (A ln)) ∧
    does .half8 [(.dst64, .o d), (.src, .o a)] .i64 32 (fun ln =>
      let n := if half then 2 else 0
      [el 8 n (A ln), el 8 (n + 1) (A ln)]) ∧
    does .wide4 [(.dst64, .o d), (.src, .o a)] .i64 8 (fun ln => (List.range 8).map fun n => el 4 n (A ln)) ∧
    (let args : List Arg := [(.dst64, .o d), (.src, .o a)]
     s.Passes i h 2 args → h.u = false →
       let x (t : Nat) : Sys2Proof.Machine.Num := f32 (i.hd.rdF (.thr t) (.o a))
       let group (t : Nat) : List Sys2Proof.Machine.Num := ((i.hd.parts h).filter fun u => u / 32 = t / 32).map x
       s.Writes (exec (.tspack h tw d a) s) i h 2 args fun ln => match ln with
         | .uni => []
         | .thr t =>
           let sc := twinScale tw (group t)
           i.hd.dest i.tm.depth ln .i64 d
             (BitVec.ofNat 64 ((sc.1 * 256 + sc.2 * 8) * 2 ^ 32 + twinElement tw sc.1 sc.2 (x t)))))

/-- R249, R253, R103: CVT converts one value of the source type, read at its width, to the destination type, an
integer narrower than 32 bits extended in its register, and one that is widened extended by its own sign; TSUNPACK decodes one
twin-scale element under the scale word B[15:0] and rounds it to FP32. R100 to R102: a format rounds a finite value to the index of its
grid that the mode chooses, and one above the largest finite value becomes an infinity or the largest value by format, mode and sign;
an integer type rounds to an integer by the mode and saturates to its range, and a NaN gives 0. That an integer conversion between
types of one width saturates is the model's choice (DESIGN CHOICE, log 72). -/
def Obligations.Conversion : Prop :=
  ∀ (s : State) (i : Iss) (h : Hdr) (dst src : Ty) (rnd : Rnd) (tw : Twin) (d a b : Opnd), s.Issues i →
    (let args : List Arg := [(rdst dst, .o d), (rsrc src, .o a)]
     s.Passes i h 2 args →
       s.Writes (exec (.cvt h dst src rnd d a) s) i h 2 args fun ln =>
         let x : Nat := if src.is64 then (i.hd.rdO64 ln a).toNat else (i.hd.rdE ln src (.o a)).toNat
         let y : Nat :=
           if dst.float = false ∧ src.float = false ∧ tyWidth src < tyWidth dst then (intOf src x % 2 ^ tyWidth dst).toNat
           else convertTo dst (cvtMode dst rnd) (valueOf src x)
         i.hd.dest i.tm.depth ln dst d (if dst.is64 then BitVec.ofNat 64 y
           else if dst.float then BitVec.ofNat 32 y |>.setWidth 64 else (BitVec.ofInt 32 (intOf dst y)).setWidth 64)) ∧
    (let args : List Arg := [(.dst, .o d), (.src, .o a), (.src, .o b)]
     s.Passes i h 2 args →
       s.Writes (exec (.tsunpack h tw d a b) s) i h 2 args fun ln => i.hd.dest i.tm.depth ln .i32 d
         ((BitVec.ofNat 32 (FF.f32.round .ne false (twinDecode tw (fld (i.hd.rdO ln b) 15 0) (i.hd.rdO ln a).toNat))).setWidth 64)) ∧
    (cvtMode dst rnd = match rnd with
      | .rz => .tz
      | .ru => .up
      | .rd => .dn
      | .dflt => if dst = .e4m3 ∨ dst = .e5m2 ∨ dst = .i8 ∨ dst = .z8 ∨ dst = .i4 then .na else .ne) ∧
    (∀ (f : FF) (mode : RMode) (neg : Bool), let put (v : Nat) : Nat := if neg then 2 ^ (f.width - 1) + v else v
      f.round mode false .nan = f.nanBits ∧ f.round mode false (.inf neg) = put (if f = .e4m3 then f.maxBits else f.infBits) ∧
      ∀ (m : Nat) (e : Int), let low : Int := 1 - f.bias - f.frac
        ∃ r, f.Chooses mode neg (m * 2 ^ (e - low).toNat) (2 ^ (low - e).toNat) r ∧
          f.round mode false (.fin neg m e) = put (
            if r ≤ f.maxBits then r
            else if f = .e4m3 ∨ f = .e5m2 ∨ mode = .tz ∨ (mode = .up ∧ neg = true) ∨ (mode = .dn ∧ neg = false) then f.maxBits
            else f.infBits)) ∧
    (∀ (ty : Ty) (mode : RMode), (ty.float = true → ∀ x, convertTo ty mode x = (ffOf ty).round mode false x) ∧
      (ty ∈ [Ty.i32, .z32, .i64, .z64, .i16, .z16, .i8, .z8, .i4] →
        let bits := tyWidth ty
        let least : Int := if ty.signed then -2 ^ (bits - 1) else 0
        let most : Int := if ty.signed then 2 ^ (bits - 1) - 1 else 2 ^ bits - 1
        let is (x : Sys2Proof.Machine.Num) (v : Int) : Prop := convertTo ty mode x = (v % 2 ^ bits).toNat
        is .nan 0 ∧ is (.inf false) most ∧ is (.inf true) least ∧
        ∀ (neg : Bool) (m : Nat) (e : Int),
          let n := m * 2 ^ e.toNat
          let u := 2 ^ (-e).toNat
          let up : Bool := match mode with
            | .ne => decide (u < 2 * (n % u)) || (decide (u = 2 * (n % u)) && n / u % 2 == 1)
            | .na => decide (u ≤ 2 * (n % u))
            | .tz => false
            | .up => !neg && n % u != 0
            | .dn => neg && n % u != 0
          let v : Int := (if neg then -1 else 1) * ((if up then n / u + 1 else n / u : Nat) : Int)
          is (.fin neg m e) (max least (min most v))))

/-! ### Cross-lane -/

/-- R254 to R261: every cross-lane instruction gives each participant a value that the participants' operands fix:
SHFL and BCAST copy another participant's, VOTE, BALLOT and MATCH compare, REDUX sums by the tree of R108 and SCAN by
the ascending chain. An FP32 NaN that REDUX or SCAN gives is the canonical one (R94). -/
def Obligations.CrossLane : Prop :=
  ∀ (s : State) (i : Iss) (h : Hdr) (ty : Ty) (op : RedOp) (mode : ShflMode) (vm : VoteMode) (seg : BitVec 3)
    (turn : BitVec 2) (d a b : Opnd) (pd pa : POpnd), s.Issues i → h.u = false →
    let ts := i.hd.parts h
    let val (t : Nat) : Dword := i.hd.rdT (.thr t) ty a
    let gives (x : Instr) (dty : Ty) (args : List Arg) (v : Nat → Dword) : Prop :=
      s.Passes i h 2 ((rdst dty, .o d) :: args) →
        s.Posts (exec x s) i h 2 ((rdst dty, .o d) :: args) fun ln => match ln with
          | .uni => []
          | .thr t => (i.hd.dest i.tm.depth ln dty d (v t)).map fun y => (y.1, some y.2)
    let other (t u : Nat) : Dword := if u ∈ ts then val u else val t
    let canon (x : Word) : Word := if (f32 x).isNan then 0x7FC00000#32 else x
    let canonical (x : Dword) : Dword := if ty = .f32 ∧ (f32 (lo32 x)).isNan then 0x7FC00000#64 else x
    gives (.shfl h ty mode seg d a b) ty [(rsrc ty, .o a), (.src, .o b)] (fun t =>
      let w := 2 ^ seg.toNat
      let base := t - t % w
      let n := (i.hd.rdO (.thr t) b).toNat
      other t (match mode with
        | .idx => base + n % w
        | .up => if n ≤ t - base then t - n else t
        | .down => if n < base + w - t then t + n else t
        | .bfly => t ^^^ (n % w))) ∧
    gives (.bcast h ty d a b) ty [(rsrc ty, .o a), (.usrc, .o b)] (fun t => other t (fld (i.hd.rdO .uni b) 6 0)) ∧
    gives (.matchI h ty d a) .i32 [(rsrc ty, .o a)] (fun t =>
      BitVec.ofNat 64 ((ts.find? fun u => val u == val t).getD t)) ∧
    (op ≠ .cadd → gives (.redux h ty op d a) ty [(rsrc ty, .o a)] (fun _ =>
      canonical ((treeReduce (redVal ty op) 7 ((List.range 128).map fun u => if u ∈ ts then some (val u) else none)).getD 0))) ∧
    (op = .cadd → gives (.redux h ty op d a) .i64 [(.src64, .o a)] (fun _ =>
      let half (u : Nat) : Word × Word := match a with
        | .imm _ => (i.hd.rdF (.thr u) (.o a), i.hd.rdF (.thr u) (.o a))
        | _ => (lo32 (i.hd.rdO64 (.thr u) a), hi32 (i.hd.rdO64 (.thr u) a))
      let r := (treeReduce compAdd 7 ((List.range 128).map fun u => if u ∈ ts then some (half u) else none)).getD (0, 0)
      pair64 (canon r.2) (canon r.1))) ∧
    gives (.scan h ty op d a) ty [(rsrc ty, .o a)] (fun t =>
      match (ts.filter fun u => u ≤ t).map val with
      | [] => 0
      | x :: r => canonical (r.foldl (redVal ty op) x)) ∧
    (s.Passes i h 2 [] (fun u => pdstOk u pd && psrcOk u pa) →
      let p (t : Nat) : Bool := i.hd.rdP (.thr t) pa
      let v : Bool := match vm with
        | .all => ts.all p
        | .any => ts.any p
        | .uni => ts.all p || ts.all fun t => !p t
      s.Posts (exec (.vote h vm pd pa) s) i h 2 [] fun ln => [(pdstOf ln pd, some (if v then 1 else 0))]) ∧
    (s.Passes i h 2 [(.dst, .o d)] (fun u => psrcOk u pa) →
      ∃ m : Word, (∀ n, n < 32 → m.getLsbD n =
          decide (32 * turn.toNat + n ∈ ts ∧ i.hd.rdP (.thr (32 * turn.toNat + n)) pa = true)) ∧
        s.Posts (exec (.ballot h turn d pa) s) i h 2 [(.dst, .o d)] fun ln => [(i.hd.dstOf i.tm.depth ln d, some m)])

/-! ### Memory -/

/-- R265, R266, R263: a global load leaves results pending for each lane, and sends one request for each line of a turn, which
holds a request slot and names, for each result, the bytes at the lane's address and whether it is read at the home: a strong load at .d
or wider, and one of an uncached page (R358). R119: a scratchpad load inside the share has its requests at the banks, one for each row of
a turn, for the bytes of the share. Nothing else changes, and no byte of memory.
R113, R268: a constant load loads the bytes at BASE + offset of its bank, where the offset lies below SIZE.
R263: with too few free request slots the load is not ready. That the bytes are read as the line's home slice, or the bank, serves the
request is the model's reading of R120 (logs 5 and 18): `ReductionsAndBuffers` and `MemorySteps` say what they are then. -/
def Obligations.LoadsAndConstants : Prop :=
  (∀ (s : State) (i : Iss) (h : Hdr) (ty : Ty) (m : MemMod) (d a : Opnd) (disp : Word), s.Issues i →
    let n := tySize ty
    let lanes := i.hd.lanes h
    let wide : Bool := m.ord != .plain && scopeWide m.scope
    let glob (x : Instr) (disp : Word) : Prop :=
      let args : List Arg := [(rdst ty, .o d), (.gbase, .o a)]
      let va (ln : Lane) : Nat := eaG (i.hd.rdO64 ln a) disp
      ∀ (pa : Lane → Nat) (unc : Bool), s.Passes i h 0 args →
      let found : List Found := lanes.map fun ln => ⟨ln, .mem (pa ln), unc, va ln⟩
      (∀ ln ∈ lanes, s.Hits i .read n ln (va ln) (pa ln) unc) →
      (s.slotsFor i.tm.core (requests found).length = false → exec x s = .next { s with cur := none }) ∧
      (s.slotsFor i.tm.core (requests found).length = true → (∀ ln ∈ lanes, s.Sound (pa ln) n) →
        let rs := i.loadDests ty d found
        ∃ t, exec x s = .next t ∧ s.DidCore t i (rs.length + 1) (i.posted h args (loadPends (s.nextId + 1) rs)) (fun c =>
          { c with activity := c.activity - lineCredits n found, reads := c.reads ++ i.lineReads ty wide s.nextId found rs
                   slots := c.slots + (requests found).length }) false)
    let spad (x : Instr) (disp : Word) : Prop :=
      let args : List Arg := [(rdst ty, .o d), (.sbase, .o a)]
      let ea (ln : Lane) : Nat := eaS (i.hd.rdO ln a) disp
      let off (ln : Lane) : Nat := i.tm.sbase + ea ln
      s.Passes i h 0 args → i.tm.share ≤ 0x10000000 → s.slotsFor i.tm.core 0 = true →
      (∀ ln ∈ lanes, ea ln % n = 0 ∧ ea ln < i.tm.share) →
      let found : List Found := lanes.map fun ln => ⟨ln, .slice i.tm.core (off ln), false, ea ln⟩
      let rs := i.loadDests ty d found
      let rows := (requests found).filterMap fun k => (found.find? fun f => f.req == k).map fun f =>
        i.rowReq s (off f.ln) s.nextId (some (i.readReq ty wide s.nextId rs k (.slice i.tm.core (off f.ln / 16 * 16))))
      ∃ t, exec x s = .next t ∧ s.DidCore t i (rs.length + 1) (i.posted h args (loadPends (s.nextId + 1) rs))
        (fun c => { c with bankQ := c.bankQ ++ rows }) false
    glob (.ld h ty m d a) 0 ∧ glob (.ldDisp h ty m d a disp) disp ∧
    spad (.lds h ty m d a) 0 ∧ spad (.ldsDisp h ty m d a disp) disp) ∧
  (∀ (s : State) (i : Iss) (h : Hdr) (ty : Ty) (bank : BitVec 4) (d a : Opnd) (disp : Word) (l : Launch), s.Issues i →
    s.launch? i.tm.part i.tm.launch = some l →
    let n := tySize ty
    let lanes := i.hd.lanes h
    let bk := l.banks.getD bank.toNat (0, 0)
    let does (x : Instr) (disp : Word) : Prop :=
      let args : List Arg := [(rdst ty, .o d), (.src, .o a)]
      let off (ln : Lane) : Nat := (i.hd.rdO ln a + disp).toNat
      ∀ (pa : Lane → Nat) (unc : Bool), s.Passes i h 0 args →
      let found : List Found := lanes.map fun ln => ⟨ln, .mem (pa ln), unc, bk.1 + off ln⟩
      s.slotsFor i.tm.core (requests found).length = true →
      (∀ ln ∈ lanes, off ln < bk.2 ∧ s.Hits i .read n ln (bk.1 + off ln) (pa ln) unc ∧ s.Sound (pa ln) n) →
      let rs := i.loadDests ty d found
      ∃ t, exec x s = .next t ∧ s.DidCore t i (rs.length + 1) (i.posted h args (loadPends (s.nextId + 1) rs)) (fun c =>
        { c with activity := c.activity - lineCredits n found, reads := c.reads ++ i.lineReads ty false s.nextId found rs
                 slots := c.slots + (requests found).length }) false
    does (.ldc h ty bank d a) 0 ∧ does (.ldcDisp h ty bank d a disp) disp)

/-- R267, R130, R135: a global store puts one write for each lane into the hand's buffer, with the low bytes of B, and no bytes for a
lane that a higher thread's store to the same place beats. It holds an origin entry with one request for each line of a turn (R263,
R380). No byte of memory has changed yet; with too few free slots or origin entries the store is not ready.
R267, R119, R127: a scratchpad store inside the share waits in the same buffer, behind the hand's earlier stores, with its requests at
the banks, one for each row; no byte of the slice has changed yet. That the writes wait in a buffer of the hand, in order for memory and
slices alike, is the model's reading (log 5). -/
def Obligations.Stores : Prop :=
  ∀ (s : State) (i : Iss) (h : Hdr) (ty : Ty) (m : MemMod) (a b : Opnd) (disp : Word), s.Issues i →
    let n := tySize ty
    let lanes := i.hd.lanes h
    let wide : Bool := m.ord != .plain && scopeWide m.scope
    let data (ln : Lane) : List Byte := toBytes n (if ty.is64 then (i.hd.rdO64 ln b).toNat else (i.hd.rdO ln b).toNat)
    let glob (x : Instr) (disp : Word) : Prop :=
      let args : List Arg := [(.gbase, .o a), (rsrc ty, .o b)]
      let va (ln : Lane) : Nat := eaG (i.hd.rdO64 ln a) disp
      ∀ (pa : Lane → Nat) (unc : Bool), s.Passes i h 0 args → (∀ ln ∈ lanes, s.Hits i .write n ln (va ln) (pa ln) unc) →
      let found : List Found := lanes.map fun ln => ⟨ln, .mem (pa ln), unc, va ln⟩
      let reqs := (requests found).length
      (s.roomFor i.tm.core reqs = false → exec x s = .next { s with cur := none }) ∧
      (s.roomFor i.tm.core reqs = true → lanes = [] → s.OnlyMovesOn (exec x s) i h args) ∧
      (s.roomFor i.tm.core reqs = true → lanes ≠ [] →
        ∃ t, exec x s = .next t ∧ s.DidCore t i 2
          (i.buffered h args (i.storeWrites found data wide s.nextId (s.nextId + 1))) (fun c =>
            { c with activity := c.activity - lineCredits n found, slots := c.slots + reqs
                     origins := c.origins ++ [i.holds h s.nextId reqs] }) false)
    let spad (x : Instr) (disp : Word) : Prop :=
      let args : List Arg := [(.sbase, .o a), (rsrc ty, .o b)]
      let ea (ln : Lane) : Nat := (i.hd.rdO ln a + disp).toNat
      let off (ln : Lane) : Nat := i.tm.sbase + ea ln
      s.Passes i h 0 args → i.tm.share ≤ 0x10000000 → (∀ ln ∈ lanes, ea ln % n = 0 ∧ ea ln < i.tm.share) →
      let found : List Found := lanes.map fun ln => ⟨ln, .slice i.tm.core (off ln), false, ea ln⟩
      (lanes = [] → s.OnlyMovesOn (exec x s) i h args) ∧
      (lanes ≠ [] →
        ∃ t, exec x s = .next t ∧ s.DidCore t i 1 (i.buffered h args (i.storeWrites found data wide 0 s.nextId)) (fun c =>
          { c with bankQ := c.bankQ ++ (lanes.map fun ln => i.rowReq s (off ln) s.nextId none).eraseDups }) false)
    glob (.st h ty m a b) 0 ∧ glob (.stDisp h ty m a b disp) disp ∧
    spad (.sts h ty m a b) 0 ∧ spad (.stsDisp h ty m a b disp) disp

/-- R270 to R272, R133, R130 note 2, R131: the lanes of ATOM and ATOMC at one place make one group, with the lanes' values in ascending
thread order and a pending result for each old value. It waits in the hand's buffer, behind the hand's earlier stores, as one request;
no byte has changed. As its home slice, or its bank, serves it, the lanes are applied in that order: each receives the value that its
own step saw, the place is left with the last, and every other byte, of memory and of every slice, is unchanged. Stated outside D
mode's restriction (R69), and the serving for a hand with nothing else on its way, a request that hits, within its partition's budgets
(R340), alone at its bank. That the group waits in a buffer of its hand is the model's reading (log 5). -/
def Obligations.Atomics : Prop :=
  ∀ (s : State) (i : Iss) (h : Hdr) (ty : Ty) (m : MemMod) (op : RedOp) (d a b c : Opnd) (disp : Word), s.Issues i →
    (s.dmode i.tm = 0 ∨ m.scope = .h ∨ m.scope = .c) → i.hd.lanes h ≠ [] →
    let n := tySize ty
    let lanes := i.hd.lanes h
    let all := maskOf (lanes.flatMap i.hd.laneThreads)
    let olds (f : Lane → Dword → Dword) (m0 : Dword) : List Dword :=
      (List.range lanes.length).map fun k => (lanes.take k).foldl (fun v ln => f ln v) m0
    let last (f : Lane → Dword → Dword) (m0 : Dword) : Dword := lanes.foldl (fun v ln => f ln v) m0
    let does (x : Instr) (args : List Arg) (rmw : Rmw) (f : Lane → Dword → Dword) (l : Loc) (unc : Bool) (va : Lane → Nat)
        (first org : Nat) (core : Core → Core) (serve : Instr) (quiet : Prop) : Prop :=
      let rs := i.loadDests ty d (lanes.map fun ln => ⟨ln, l, unc, va ln⟩)
      let x' : Rmw := { rmw with ret := true, olds := lanes.map fun ln =>
        (rs.mapIdx fun j y => (y.1.ln, first + j, y.2.2)).filterMap fun y => if y.1 = ln then some y.2 else none }
      let w : BufWrite := { ord := first - 1, pa := (match l with | .mem p => p | .slice _ o => o)
                            slice := (match l with | .mem _ => none | .slice k _ => some k), data := [], red := some x'
                            wide := scopeWide m.scope, org, team := i.c.team, hix := i.c.hix, lanes := all, req := all
                            code := i.c.addr, va := BitVec.ofNat 64 ((lanes.head?.map va).getD 0) }
      let hd' : Hand := { i.posted h args (loadPends first rs) with sbuf := i.hd.sbuf ++ [w] }
      let m0 : Dword := BitVec.ofNat 64 (ofBytes (s.readLoc l n))
      (∀ v, x'.run v = (olds f v, last f v)) ∧
      ∃ t, exec x s = .next t ∧ s.DidCore t i (first - s.nextId + rs.length) hd' core false ∧
        (quiet → s.Settled i → s.readOf i.c.team i.c.hix = none →
          ∃ u, exec serve t = .next u ∧ s.LocStored u l (toBytes n (last f m0).toNat) ∧
            u.hand? i.c.team i.c.hix = some { hd' with pend := x'.formed (olds f m0) hd'.pend, sbuf := [] })
    let glob (x : Instr) (vals : List Arg) (rmw : Rmw) (f : Lane → Dword → Dword) (disp : Word) : Prop :=
      let args : List Arg := [(rdst ty, .o d), (.gbase, .o a)] ++ vals
      let va (ln : Lane) : Nat := eaG (i.hd.rdO64 ln a) disp
      ∀ (pa : Nat) (unc : Bool), s.Passes i h 0 args → s.roomFor i.tm.core 1 = true →
      (∀ ln ∈ lanes, s.Hits i .atomic n ln (va ln) pa unc) →
      does x args rmw f (.mem pa) unc va (s.nextId + 2) s.nextId (fun c =>
          { c with activity := c.activity - lineCredits n (lanes.map fun ln => ⟨ln, .mem pa, unc, va ln⟩), slots := c.slots + 1
                   origins := c.origins ++ [i.holds h s.nextId 1] })
        (.homeSliceRequest i.c.team i.c.hix false)
        (s.Sound pa n ∧ s.inBudgets i.tm.part (s.requestUnits i.tm.core pa false) = true)
    let spad (x : Instr) (vals : List Arg) (rmw : Rmw) (f : Lane → Dword → Dword) (disp : Word) : Prop :=
      let args : List Arg := [(rdst ty, .o d), (.sbase, .o a)] ++ vals
      ∀ ea : Nat, s.Passes i h 0 args → i.tm.share ≤ 0x10000000 → ea % n = 0 → ea < i.tm.share →
      (∀ ln ∈ lanes, (i.hd.rdO ln a + disp).toNat = ea) →
      let o := i.tm.sbase + ea
      does x args rmw f (.slice i.tm.core o) false (fun _ => ea) (s.nextId + 1) 0 (fun c =>
          { c with bankQ := c.bankQ ++ [i.rowReq s o s.nextId none] })
        (.scratchpadBankAccess i.tm.core (o / 16 % 64)) (∀ r ∈ (s.core i.tm.core).bankQ, r.bank ≠ o / 16 % 64)
    let ra : Rmw := { op, ty, vals := lanes.map fun ln => i.hd.rdT ln ty b }
    let rc : Rmw := { op := .xchg, ty, vals := lanes.map fun ln => i.hd.rdT ln ty b, swaps := lanes.map fun ln => i.hd.rdT ln ty c }
    let fa : Lane → Dword → Dword := fun ln v => redVal ty op v (i.hd.rdT ln ty b)
    let fc : Lane → Dword → Dword := fun ln v => if v = i.hd.rdT ln ty b then i.hd.rdT ln ty c else v
    glob (.atom h ty m .glob op d a b) [(rsrc ty, .o b)] ra fa 0 ∧
    glob (.atomDisp h ty m .glob op d a b disp) [(rsrc ty, .o b)] ra fa disp ∧
    glob (.atomc h ty m .glob d a b c) [(rsrc ty, .o b), (rsrc ty, .o c)] rc fc 0 ∧
    glob (.atomcDisp h ty m .glob d a b c disp) [(rsrc ty, .o b), (rsrc ty, .o c)] rc fc disp ∧
    spad (.atom h ty m .spad op d a b) [(rsrc ty, .o b)] ra fa 0 ∧
    spad (.atomDisp h ty m .spad op d a b disp) [(rsrc ty, .o b)] ra fa disp ∧
    spad (.atomc h ty m .spad d a b c) [(rsrc ty, .o b), (rsrc ty, .o c)] rc fc 0 ∧
    spad (.atomcDisp h ty m .spad d a b c disp) [(rsrc ty, .o b), (rsrc ty, .o c)] rc fc disp

/-- R273, R132, R133, R136: a RED puts its group into the hand's buffer, with its lanes' values in ascending thread order, and no byte
changes yet; a global one holds an origin entry and a request slot, a scratchpad one has its request at the bank. Stated for lanes at
one place, outside D mode's holding of float reductions (R69).
R120, R130, R136, R263: a HOME_SLICE_REQUEST of a hand without a load on its way performs the oldest request of its buffer: the bytes of
its stores stand at their addresses, those of the last where several meet, or the place of its group holds the value that the lanes
leave, and the old values of a returning one are formed (R133); every other byte of memory and every slice is unchanged. R116, R266,
R131, R90: that of a load reads its bytes, of each the hand's own youngest earlier store in its buffer, else what the die sees, or the
home for a load that reads it; the results are formed, and its slot is free. It is stated for a request that hits, within its
partition's budgets (R340). The buffer, and the reading of a load's bytes as its request is served, are the model's reading (logs 5 and
18). -/
def Obligations.ReductionsAndBuffers : Prop :=
  (∀ (s : State) (i : Iss) (h : Hdr) (ty : Ty) (m : MemMod) (op : RedOp) (a b : Opnd) (disp : Word), s.Issues i →
    (s.dmode i.tm = 0 ∨ ty ≠ .f32) → i.hd.lanes h ≠ [] →
    let n := tySize ty
    let lanes := i.hd.lanes h
    let red : Rmw := { op, ty, vals := lanes.map fun ln => i.hd.rdT ln ty b }
    let all := maskOf (lanes.flatMap i.hd.laneThreads)
    let glob (x : Instr) (disp : Word) : Prop :=
      let args : List Arg := [(.gbase, .o a), (rsrc ty, .o b)]
      let va (ln : Lane) : Nat := eaG (i.hd.rdO64 ln a) disp
      ∀ (pa : Nat) (unc : Bool), s.Passes i h 0 args → s.roomFor i.tm.core 1 = true →
      (∀ ln ∈ lanes, s.Hits i .atomic n ln (va ln) pa unc) →
      let w : BufWrite := { ord := s.nextId + 1, pa, data := [], red := some red, wide := true, org := s.nextId,
                            team := i.c.team, hix := i.c.hix, lanes := all, req := all, code := i.c.addr,
                            va := BitVec.ofNat 64 ((lanes.head?.map va).getD 0) }
      ∃ t, exec x s = .next t ∧ s.DidCore t i 2 (i.buffered h args [w]) (fun c =>
        { c with activity := c.activity - lineCredits n (lanes.map fun ln => ⟨ln, .mem pa, unc, va ln⟩), slots := c.slots + 1
                 origins := c.origins ++ [i.holds h s.nextId 1] }) false
    let spad (x : Instr) (disp : Word) : Prop :=
      let args : List Arg := [(.sbase, .o a), (rsrc ty, .o b)]
      ∀ ea : Nat, s.Passes i h 0 args → i.tm.share ≤ 0x10000000 → ea % n = 0 → ea < i.tm.share →
      (∀ ln ∈ lanes, (i.hd.rdO ln a + disp).toNat = ea) →
      let w : BufWrite := { ord := s.nextId, pa := i.tm.sbase + ea, slice := some i.tm.core, data := [], red := some red
                            wide := true, org := 0, team := i.c.team, hix := i.c.hix, lanes := all, req := all, code := i.c.addr,
                            va := BitVec.ofNat 64 ea }
      ∃ t, exec x s = .next t ∧ s.DidCore t i 1 (i.buffered h args [w]) (fun c =>
        { c with bankQ := c.bankQ ++ [i.rowReq s (i.tm.sbase + ea) s.nextId none] }) false
    glob (.red h ty m .glob op a b) 0 ∧ glob (.redDisp h ty m .glob op a b disp) disp ∧
    spad (.red h ty m .spad op a b) 0 ∧ spad (.redDisp h ty m .spad op a b disp) disp) ∧
  (∀ (s : State) (tm : Team) (hd : Hand) (w : BufWrite) (r : List BufWrite) (t h : Nat),
    s.team? t = some tm → s.hand? t h = some hd → hd.sbuf = w :: r → s.readOf t h = none → s.readBefore t h w.ord = false →
    s.appending t h = false → w.slice = none → s.inBudgets tm.part (s.requestUnits tm.core w.pa false) = true →
    let mine (x : BufWrite) : Bool := x.ord == w.ord && x.req == w.req
    let left : Hand := { hd with sbuf := hd.sbuf.filter fun x => !mine x }
    ((∀ x ∈ hd.sbuf, mine x = true → x.red = none ∧ x.slice = none ∧ s.Sound x.pa x.data.length) →
      ∃ u, exec (.homeSliceRequest t h false) s = .next u ∧ u.hand? t h = some left ∧
        (∀ p, u.byteAt p = (hd.sbuf.foldl (fun v x => if mine x then (x.byte (.mem p)).or v else v) none).getD (s.byteAt p)) ∧
        ∀ k, (u.core k).spad = (s.core k).spad) ∧
    (∀ x : Rmw, w.red = some x → (∀ y ∈ r, mine y = false) → s.Sound w.pa (tySize x.ty) →
      let v := x.run (BitVec.ofNat 64 (ofBytes (s.bytesAt w.pa (tySize x.ty))))
      ∃ u, exec (.homeSliceRequest t h false) s = .next u ∧
        s.LocStored u (.mem w.pa) (toBytes (tySize x.ty) v.2.toNat) ∧
        (w.team = t → w.hix = h → u.hand? t h = some { left with pend := x.formed v.1 hd.pend }))) ∧
  (∀ (s : State) (tm : Team) (hd : Hand) (t h c pa : Nat) (r : ReadReq), s.readOf t h = some (c, r) → s.team? t = some tm →
    s.hand? t h = some hd → r.loc = .mem pa → s.readReqs.filter (fun x => x.of t h && x.ord == r.ord) = [r] →
    (∀ x ∈ r.items, ∃ a, x.loc = .mem a ∧ lineOf a = lineOf pa ∧ s.Sound a (tySize x.ty)) →
    s.loadReady t h r.ord (r.items.map fun x => (x.loc, tySize x.ty)) = true →
    s.inBudgets r.part (s.requestUnits r.core pa false) = true →
    let home : Bool := r.items.any fun x => x.got.isNone && x.home
    let byte (l : Loc) : Byte := (hd.forward r.ord l).getD (match l with
      | .mem a => if home then s.byteAt a else s.viewByte (dieOf tm.core) a
      | .slice k o => (s.core k).spad.get o 0)
    ∃ u, exec (.homeSliceRequest t h false) s = .next u ∧ u.mem = s.mem ∧ (home = false → u.dies = s.dies) ∧
      u.hand? t h = some { hd with pend := (r.taken byte).formed hd.pend } ∧
      (∀ a b, ¬(a = t ∧ b = h) → u.hand? a b = s.hand? a b) ∧
      ∀ k, u.core k = { s.core k with
        reads := if k = c then (s.core k).reads.erase r else (s.core k).reads
        slots := if k = r.core then (s.core k).slots - 1 else (s.core k).slots })

/-- R274, R128: FENCE performs all that its hand has issued, in order: memory and the slices are left as `State.flushHand` leaves them,
so that with stores in the buffer each byte that they name holds what the last of them stores there, and every other byte what it held.
At .d or wider every die has then applied every write. The barrier operations of its participants that are still to be performed, on
their way or held, are noted in the hand, and until they are performed the hand issues no instruction that R274 lists (`StepRuns`). With
nothing on its way it changes nothing else; without a participant it does nothing. That a FENCE completes at issue, its stores
performed, is the model's reading (logs 5 and 18).
R221, R269: NOP and PREF change no state that a rule can observe: the hand goes on behind the word. -/
def Obligations.FenceAndHints : Prop :=
  (∀ (s : State) (i : Iss) (h : Hdr) (scope : Scope), s.Issues i →
    let ids := ((s.arrivals ++ s.heldArr).filter fun a =>
      a.team == i.c.team && a.hix == i.c.hix && (i.hd.parts h).any fun t => a.mask.getLsbD t).map (·.id)
    let far : Bool := match scope with | .d | .p | .s => true | .h | .c | .g => false
    (i.hd.parts h = [] → s.OnlyMovesOn (exec (.fence h scope) s) i h []) ∧
    (i.hd.parts h ≠ [] →
      let u := s.flushHand i.c.team i.c.hix
      let after (l : Loc) (v : Byte) : Byte := (i.hd.sbuf.foldl (fun v x => (x.byte l).or v) none).getD v
      ∃ t hd', exec (.fence h scope) s = .next t ∧ t.hand? i.c.team i.c.hix = some hd' ∧ hd'.sbuf = [] ∧
        hd'.off = i.hd.off + i.c.len ∧ hd'.fence = (if ids = [] then i.hd.fence else ids) ∧
        t.mem = u.mem ∧ (∀ k, (t.core k).spad = (u.core k).spad) ∧
        ((∀ x ∈ i.hd.sbuf, x.red = none ∧ (x.slice = none → s.Sound x.pa x.data.length)) → s.appending i.c.team i.c.hix = false →
          s.readBefore i.c.team i.c.hix s.nextId = false →
          (∀ p, t.byteAt p = after (.mem p) (s.byteAt p)) ∧
          ∀ k o, (t.core k).spad.get o 0 = after (.slice k o) ((s.core k).spad.get o 0)) ∧
        (far = true → ∀ x ∈ t.dies, x.inbox = [])) ∧
    (i.hd.parts h ≠ [] → s.Settled i →
      State.Leaves (if far then s.flushAll else s) (exec (.fence h scope) s) i h
        { i.hd with fence := if ids = [] then i.hd.fence else ids })) ∧
  (∀ (s : State) (i : Iss) (h : Hdr) (l2 : Bool) (a : Opnd) (disp : Word), s.Issues i →
    s.OnlyMovesOn (exec (.nop h) s) i h [] ∧
    (s.Passes i h 0 [(.gbase, .o a)] → s.OnlyMovesOn (exec (.pref h l2 a) s) i h [(.gbase, .o a)] ∧
      s.OnlyMovesOn (exec (.prefDisp h l2 a disp) s) i h [(.gbase, .o a)]))

/-! ### Control -/

/-- R214, R218 to R220, R30, R57: GO sends its participants to the target; PARK parks them with the target as
continuation, and with the hand's timer pending unparks them at once; EXIT retires them and discards their pending results; YIELD sends
them to the next header and makes their team due. Each leaves the active set, and nothing else changes. That a thread which retires has
TL = 0 is the model's choice (log 61), and that YIELD checks the next header at issue its reading (log 38).
R215: GOT sends each participant to the entry of the table that its index names, where the index is below the
table's length; its two loads cost their bytes (R11). A base that is no pair of g or k registers raises Reserved-Operand. -/
def Obligations.Transfers : Prop :=
  (∀ (s : State) (i : Iss) (h : Hdr) (off : BitVec 22), s.Issues i →
    let ts := i.hd.parts h
    let target : CodeAddr := i.c.addr + off.signExtend 30
    let next : CodeAddr := i.hd.pos + 1 + BitVec.ofNat 30 i.hd.blen
    let ok (a : CodeAddr) : Prop := ∀ t ∈ ts, s.Wanted i.tm (i.hd.thr t).tl a
    let gone (d : Dst) : Bool := match d with
      | .ent t _ | .xreg t _ | .pred t _ | .frame t _ _ _ => ts.contains t
      | .kreg _ | .qpred _ | .drop => false
    (ok target → s.Leaves (exec (.go h off) s) i h (i.hd.sends ts fun _ x => { x with wa := target })) ∧
    (ok target → s.Leaves (exec (.park h off) s) i h
      (i.hd.sends ts fun _ x => if i.hd.tp then { x with wa := target, st := .unparked, wait := .none }
        else { x with wa := target, st := .parked, wait := .park }) true) ∧
    (ok next → (if ts = [] then s else s.updTeam i.c.team fun x => { x with due := true }).Leaves (exec (.yield h) s) i h
      (i.hd.sends ts fun _ x => { x with wa := next })) ∧
    s.Leaves (exec (.exit h) s) i h
      { i.hd.sends ts (fun _ x => { x with st := .retired, tl := false, wait := .none, bheld := [] }) with
        pend := i.hd.pend.filter fun p => !gone p.dst }) ∧
  (∀ (s : State) (i : Iss) (h : Hdr) (a b : Opnd) (pn pe : Nat → Nat), s.Issues i → h.u = false →
    let args : List Arg := [(.jbase, .o a), (.src, .o b)]
    let ts := i.hd.parts h
    let word (pa : Nat) : Word := BitVec.ofNat 32 (ofBytes ((List.range 4).map fun j =>
      (i.hd.forward s.nextId (.mem (pa + j))).getD (s.viewByte (dieOf i.tm.core) (pa + j))))
    let base (t : Nat) : Nat := (i.hd.rdO64 (.thr t) a).toNat
    let ix (t : Nat) : Word := i.hd.rdO (.thr t) b
    let entry (t : Nat) : Nat := base t + 4 + 4 * (ix t).toNat
    let cost : Nat := lineCredits 4 (ts.map fun t => ⟨.thr t, .mem (base t), false, base t⟩) +
      lineCredits 4 (ts.map fun t => ⟨.thr t, .mem (entry t), false, entry t⟩)
    ((match a with | .g n => n.val % 2 = 1 | .k n => n.val % 2 = 1 | _ => True) → s.Reserves (exec (.got h a b) s) i h 0) ∧
    (s.Passes i h 0 args →
    (∀ t ∈ ts, s.loadReady i.c.team i.c.hix s.nextId [(.mem (pn t), 4), (.mem (pe t), 4)] = true ∧ base t % 8 = 0 ∧ ix t < word (pn t) ∧ fld (word (pe t)) 31 30 = 0 ∧
      s.Wanted i.tm (i.hd.thr t).tl ((word (pe t)).extractLsb' 0 30) ∧
      s.Hits i .read 4 (.thr t) (base t) (pn t) false ∧ s.Sound (pn t) 4 ∧
      s.Hits i .read 4 (.thr t) (entry t) (pe t) false ∧ s.Sound (pe t) 4) →
    (s.spend i.tm.core cost).Leaves (exec (.got h a b) s) i h ((i.hd.nrIf (i.nr h args)).sends ts fun t x =>
      { x with wa := (word (pe t)).extractLsb' 0 30 })))

/-- R31, R32, R72, R216, R217: where the window slides inside the resident entries, CALL, CALLT and RET move each
participant's window, write the link into the g30 of the new window (but for RET), and send it on. -/
def Obligations.Calls : Prop :=
  ∀ (s : State) (i : Iss) (h : Hdr) (off : BitVec 22) (sl : Slide), s.Issues i →
    let ts := i.hd.parts h
    let depth := i.tm.depth
    let target : CodeAddr := i.c.addr + off.signExtend 30
    let next : CodeAddr := i.hd.pos + 1 + BitVec.ofNat 30 i.hd.blen
    let size : Int := match sl with | .s8 => 8 | .s16 => 16 | .s24 => 24
    let code : Word := match sl with | .s8 => 1 | .s16 => 2 | .s24 => 3
    let g30 (t : Nat) : Word := i.hd.rdO (.thr t) (.g 30)
    let old (t : Nat) : Int := 8 * (fld (g30 t) 1 0 : Int)
    let fits (n : Nat → Int) : Prop := ∀ t ∈ ts, let x := i.hd.thr t
      n t = 0 ∨ (0 < n t ∧ x.wb + n t + 32 ≤ x.lo + depth ∧ x.wb + n t + 32 ≤ 2 ^ 24) ∨ (n t < 0 ∧ (x.lo : Int) ≤ x.wb + n t)
    let ok (a : Nat → CodeAddr) : Prop := ∀ t ∈ ts, s.Wanted i.tm (i.hd.thr t).tl (a t)
    let moved (x : Thread) (n : Int) (link : Option Word) (a : CodeAddr) : Thread :=
      let wb := (x.wb + n).toNat
      let y := match link with
        | some l => if x.lo ≤ wb + 30 ∧ wb + 30 < x.lo + depth then { x with stack := x.stack.set (wb + 30) l 0 } else x
        | none => x
      { y with wb, wa := a }
    let out (n : Nat → Int) : Bool := ts.any fun t => let x := i.hd.thr t
      let e := (x.wb + n t).toNat + 30
      !decide (x.lo ≤ e ∧ e < x.lo + depth)
    (fits (fun _ => size) → ok (fun _ => target) →
      s.Leaves (exec (.call h off sl) s) i h ((i.hd.nrIf (out fun _ => size)).sends ts fun _ x =>
        moved x size (some (next.setWidth 32 <<< 2 ||| code)) target)) ∧
    (fits (fun t => size - old t) → ok (fun _ => target) →
      s.Leaves (exec (.callt h off sl) s) i h ((i.hd.nrIf (out (fun _ => 0) || out fun t => size - old t)).sends ts fun t x =>
        moved x (size - old t) (some (g30 t >>> 2 <<< 2 ||| code)) target)) ∧
    (fits (fun t => - old t) → ok (fun t => (g30 t).extractLsb' 2 30) →
      s.Leaves (exec (.ret h) s) i h ((i.hd.nrIf (out fun _ => 0)).sends ts fun t x =>
        moved x (- old t) none ((g30 t).extractLsb' 2 30)))

/-- R222, R371, R373: a TRAP whose vector entry delivers in the hand takes each participant at privilege U into the
trap region: it leaves the active set at trap level, its WA is the handler, and x0 to x7 hold the class and the cause,
the return address (the next header), the address of the TRAP, the operand, and a DETAIL of zero.
R372, R375: a TRAP without such an entry takes the kernel path: one record enters the hub's queue for the group of
the participants, with cause, class, core, hix, code address, LID, launch, mask, return address and label, and its
SEQ; the participants are fault-parked with that SEQ. -/
def Obligations.TrapDelivery : Prop :=
  (∀ (s : State) (i : Iss) (h : Hdr) (a : Opnd) (v : Dword), s.Issues i → h.u = false → s.Passes i h 0 [(.src, .o a)] →
    (s.part i.tm.part).vectors.get 0x18 0 = v → v.getLsbD 63 = true → (∀ t ∈ i.hd.parts h, (i.hd.thr t).tl = false) →
    let next : CodeAddr := i.hd.pos + 1 + BitVec.ofNat 30 i.hd.blen
    ∃ m : Hand, s.Leaves (exec (.trap h a) s) i h m ∧
      (∀ t, t < i.hd.threads.length → t ∉ i.hd.parts h → m.thr t = i.hd.thr t) ∧
      (∀ t ∈ i.hd.parts h, t < i.hd.threads.length →
        { m.thr t with x := (i.hd.thr t).x } = { i.hd.thr t with tl := true, wa := v.extractLsb' 0 30, st := .unparked, wait := .none } ∧
        (m.thr t).x.getRun 0 0 8 = [0x418, next.setWidth 32, i.c.addr.setWidth 32, i.hd.rdO (.thr t) a, 0, 0, 0, 0]) ∧
      (∀ t, m.act.getLsbD t = (i.hd.act.getLsbD t && decide (t ∉ i.hd.parts h))) ∧
      { m with threads := [], act := 0, hs := 0 } = { i.hd with threads := [], act := 0, hs := 0 } ∧
      m.hs = if i.nr h [(.src, .o a)] then i.hd.hs ||| hsNr else i.hd.hs) ∧
  (∀ (s : State) (i : Iss) (h : Hdr) (a : Opnd), s.Issues i → h.u = false → s.Passes i h 0 [(.src, .o a)] →
    ((s.part i.tm.part).vectors.get 0x18 0).getLsbD 63 = false → (∀ t ∈ i.hd.parts h, (i.hd.thr t).tl = false) →
    i.hd.parts h ≠ [] → (∀ t ∈ i.hd.parts h, t < 128) → i.tm.core < 512 → i.c.hix < 64 → i.tm.launch < 2 ^ 32 →
    let p := s.part i.tm.part
    let next : CodeAddr := i.hd.pos + 1 + BitVec.ofNat 30 i.hd.blen
    ∃ (r : RingRec) (s' : State),
      fld r.w0 63 56 = 0x18 ∧ fld r.w0 55 47 = i.tm.core ∧ fld r.w0 46 41 = i.c.hix ∧ fld r.w0 40 38 = 4 ∧
      r.w0.getLsbD 37 = false ∧ fld r.w0 29 0 = i.c.addr.toNat ∧ r.w1 = i.tm.lid ∧ fld r.w2 63 32 = i.tm.launch ∧
      fld r.w2 31 0 = p.seqNext.toNat ∧
      (∀ t, (if t < 64 then r.w3.getLsbD t else r.w4.getLsbD (t - 64)) = decide (t ∈ i.hd.parts h)) ∧
      fld r.w5 63 34 = next.toNat ∧ fld r.w5 33 22 = i.hd.label.toNat ∧ r.w6 = 0 ∧ r.w7 = 0 ∧
      s' = s.updPart i.tm.part (fun x => { x with
        seqNext := x.seqNext + 1, ringWait := x.ringWait ++ [r], ringLog := x.ringLog ++ [r] }) ∧
      s'.Leaves (exec (.trap h a) s) i h ((i.hd.nrIf (i.nr h [(.src, .o a)])).sends (i.hd.parts h) fun _ x =>
        { x with st := .faultParked, wa := next, wait := .fault p.seqNext.toNat }))

/-- R224, R374, R73: TRET restores each participant's WA and level from its trap record; after a window trap it
slides the window and, for CALL and CALLT, writes g30, where the new window is resident. Where it is not, the thread takes its window
trap again at once: it stays at trap level, goes to the handler of the trap's cause (0x06 for a slide down, else 0x05), and its record
stands but for the cause; without an in-hand vector entry the launch fails with that cause (R372). A target that fails its check leaves
the window slid, as after a CALL. A record with a reserved class or kind raises Illegal-Instruction, as does TRET at privilege U.
That a repeated trap keeps the record is the model's reading (DEDUCED, log 31); so is what a failed check leaves (log 35). -/
def Obligations.TrapReturn : Prop :=
  ∀ (s : State) (i : Iss) (h : Hdr), s.Issues i → h.u = false →
    let ts := i.hd.parts h
    let xr (t n : Nat) : Word := (i.hd.thr t).x.get n 0
    let cls (t : Nat) : Nat := fld (xr t 0) 10 8
    let wb (t : Nat) : Int := (i.hd.thr t).wb + (xr t 3).toInt
    let back (t : Nat) : CodeAddr := if cls t = 2 then (xr t 5).extractLsb' 0 30 else (xr t 1).extractLsb' 0 30
    let p := s.part i.tm.part
    let window (t : Nat) : Prop := cls t = 2 ∧ (xr t 6).toNat ≤ 2
    let fits (t : Nat) : Prop :=
      (i.hd.thr t).lo ≤ wb t ∧ wb t + 32 ≤ (i.hd.thr t).lo + i.tm.depth ∧ wb t + 32 ≤ 2 ^ 24
    let again (t : Nat) : Nat := if (xr t 3).toInt < 0 then 6 else 5
    let slid (t : Nat) (x : Thread) : Thread :=
      { x with wb := (wb t).toNat
               stack := if xr t 6 = 0 then x.stack else x.stack.set ((wb t).toNat + 30) (xr t 4) 0 }
    (i.hd.inTrap = true →
      (∀ t ∈ ts, ((cls t = 1 ∨ cls t = 3 ∨ cls t = 4 ∨ (window t ∧ fits t)) ∧ s.Wanted i.tm false (back t)) ∨
        (window t ∧ ¬fits t ∧ (p.vectors.get (again t) 0).getLsbD 63 = true)) →
      s.Leaves (exec (.tret h) s) i h (i.hd.sends ts fun t x =>
        if cls t = 2 ∧ ¬fits t then
          { x with wa := (p.vectors.get (again t) 0).extractLsb' 0 30, x := x.x.set 0 (BitVec.ofNat 32 (0x200 + again t)) 0 }
        else { (if cls t = 2 then slid t x else x) with tl := false, wa := back t })) ∧
    (∀ (t : Nat) (l : Launch), i.hd.inTrap = true → ts = [t] → window t → ¬fits t →
      (p.vectors.get (again t) 0).getLsbD 63 = false → s.launch? i.tm.part i.tm.launch = some l →
      (l.st = .pending ∨ l.st = .live) → i.tm.core < 512 → i.c.hix < 64 → t < 128 →
      ∃ (r : RingRec) (s' : State),
        fld r.w0 63 56 = again t ∧ fld r.w0 55 47 = i.tm.core ∧ fld r.w0 46 41 = i.c.hix ∧ fld r.w0 40 38 = 6 ∧
        fld r.w0 29 0 = fld (xr t 2) 29 0 ∧ r.w1 = i.tm.lid ∧ fld r.w2 31 0 = p.seqNext.toNat ∧
        (∀ u, (if u < 64 then r.w3.getLsbD u else r.w4.getLsbD (u - 64)) = decide (u = t)) ∧
        s' = (s.updPart i.tm.part fun x => { x with
          seqNext := x.seqNext + 1, ringWait := x.ringWait ++ [r], ringLog := x.ringLog ++ [r] }).updLaunch i.tm.part
            i.tm.launch (fun l => { l with st := .failing, cause := again t, fseq := p.seqNext.toNat }) ∧
        s'.Leaves (exec (.tret h) s) i h (i.hd.sends [t] fun _ x => x)) ∧
    (∀ t : Nat, i.hd.inTrap = true → ts = [t] → window t → fits t → p.inRegion (back t) = true →
      exec (.tret h) s = .next (((s.updHand i.c.team i.c.hix fun hd => hd.updThr t (slid t)).takeFaults i.c.team i.c.hix i.c.addr
        [(t, { cause := 9 })]).advance i h)) ∧
    (i.hd.inTrap = true → (∀ t ∈ ts, cls t = 0 ∨ 5 ≤ cls t ∨ (cls t = 2 ∧ 2 < (xr t 6).toNat)) →
      exec (.tret h) s =
        .next ((s.takeFaults i.c.team i.c.hix i.c.addr (ts.map fun t => (t, { cause := 1 }))).advance i h)) ∧
    (i.hd.inTrap = false → exec (.tret h) s =
      .next ((s.takeFaults i.c.team i.c.hix i.c.addr (ts.map fun t => (t, { cause := 1 }))).advance i h))

/-- R223, R347, R350: SYSC at privilege U parks its participants with the next header as continuation, writes one
request record at the ring's producer index (with the core, the hand, the word's address, the team, the launch, the callers, and zero in
its last three words), advances the index and raises the interrupt. Every other byte of memory is as before. It is stated for a hand with nothing on its way to memory; while the ring is full it is not ready. -/
def Obligations.SystemCall : Prop :=
  ∀ (s : State) (i : Iss) (h : Hdr) (a : Opnd), s.Issues i → h.u = false → s.Passes i h 0 [(.src, .o a)] →
    i.hd.inTrap = false → i.hd.parts h ≠ [] →
    let p := s.part i.tm.part
    let ts := i.hd.parts h
    let next : CodeAddr := i.hd.pos + 1 + BitVec.ofNat 30 i.hd.blen
    (p.scProd - p.scCons ≠ 4096 → p.ringWait = [] → s.Settled i →
      (∀ t ∈ ts, t < 128 ∧ s.Wanted i.tm (i.hd.thr t).tl next) →
      ∃ (t : State) (r : RingRec) (m : Hand), exec (.sysc h a) s = .next t ∧
        m = ((i.hd.nrIf (i.nr h [(.src, .o a)])).sends ts fun u x =>
          { x with wa := next, st := .parked, wait := .sysc (i.hd.rdO (.thr u) a) }).goesOn i h true ∧
        t.hand? i.c.team i.c.hix = some m ∧
        (∀ u v, ¬(u = i.c.team ∧ v = i.c.hix) → t.hand? u v = s.hand? u v) ∧
        fld r.w0 63 56 = 0x19 ∧ (i.tm.core < 512 → i.c.hix < 64 → fld r.w0 55 47 = i.tm.core ∧ fld r.w0 46 41 = i.c.hix) ∧
        fld r.w0 40 38 = 0 ∧ r.w0.getLsbD 37 = false ∧ fld r.w0 29 0 = i.c.addr.toNat ∧ r.w1 = i.tm.lid ∧
        (i.tm.launch < 2 ^ 32 → fld r.w2 63 32 = i.tm.launch) ∧ fld r.w2 31 0 = p.seqNext.toNat ∧
        r.w5 = 0 ∧ r.w6 = 0 ∧ r.w7 = 0 ∧
        (∀ t, (if t < 64 then r.w3.getLsbD t else r.w4.getLsbD (t - 64)) = decide (t ∈ ts)) ∧
        s.Stored t (p.scBase.toNat + p.scProd.toNat % 4096 * 64) r.bytes ∧
        (t.part i.tm.part).scProd = p.scProd + 1 ∧ (t.part i.tm.part).seqNext = p.seqNext + 1 ∧
        t.irqs = s.irqs ++ [(i.tm.part, 4096)] ∧ (t.teams, t.launches, t.queues) = (s.teams, s.launches, s.queues)) ∧
    (p.scProd - p.scCons = 4096 ∨ p.ringWait ≠ [] → exec (.sysc h a) s = .next { s with cur := none })

/-! ### Barriers -/

/-- R275 to R278, R137: each barrier instruction of a hand with a participant sends one operation to the word at its
uniform address, with its uniform values: BARI sets EXPECT and PHASE, BARA arrives, BARW parks the participants until
its phase completes (with a weight, it arrives as well), BART leaves a predicate pending. Stated for a word in the
team's share and a hand with nothing on its way to memory. -/
def Obligations.BarrierOperations : Prop :=
  ∀ (s : State) (i : Iss) (h : Hdr) (a b c : Opnd) (pd : POpnd) (cont : BitVec 22), s.Issues i → s.Settled i →
    let ts := i.hd.parts h
    let u (o : Opnd) : Nat := (i.hd.rdO .uni o).toNat
    let l : Loc := .slice i.tm.core (i.tm.sbase + u a)
    let op (kind : ArrKind) (x y : Nat) (waiter : Bool) (id : Nat) (pend : List Nat) : Arrival :=
      { id, kind, loc := l, addr := i.hd.rdO .uni a, b := x, c := y, team := i.c.team, hix := i.c.hix,
        mask := maskOf ts, waiter, code := i.c.addr, pend
        rank := ⟨3, (i.hd.resStart * 4 + i.hd.quad) * 16 + i.hd.slot, s.cyc⟩ }
    let sends (s' : State) (o : Out) (n : Nat) (x : Arrival) (m : Hand) (waiting : Bool) : Prop :=
      ∃ t, o = .next t ∧ ({ s' with arrivals := s.arrivals ++ [x] } : State).Did t i 0 (n + 1) (m.goesOn i h waiting)
    let args : List Arg := [(.usrc, .o a), (.usrc, .o b), (.usrc, .o c)]
    ts ≠ [] → u a % 16 = 0 → u a < i.tm.share → i.tm.share ≤ 0x10000000 →
    (s.Passes i h 0 args → 1 ≤ u b → u b ≤ 0xFFFF → u c ≤ 0xFFFF →
      sends s (exec (.bari h a b c) s) 0 (op .init (u b) (u c) false s.nextId []) i.hd false) ∧
    (s.Passes i h 0 args → u b ≤ 0xFFFF → 1 ≤ u c → u c ≤ 0xFFFF →
      sends s.flushAll (exec (.bara h a b c) s) 0 (op .arrive (u b) (u c) false s.nextId []) i.hd false) ∧
    (s.Passes i h 0 args → u b ≤ 0xFFFF → u c ≤ 0xFFFF →
      let target : CodeAddr := i.c.addr + cont.signExtend 30
      (∀ t ∈ ts, s.Wanted i.tm (i.hd.thr t).tl target) →
      let phase : Nat := fld (BitVec.ofNat 64 (ofBytes ((s.core i.tm.core).spad.getRun 0 (i.tm.sbase + u a) 8))) 31 16
      let past : Bool := decide (0x8000 ≤ (u b + 65536 - phase) % 65536)
      let parked : Hand := i.hd.sends ts fun _ x =>
        { x with wa := target, st := .parked, wait := .barw l (i.hd.rdO .uni a) (u b) }
      (u c ≠ 0 → sends s.flushAll (exec (.barw h a b c cont) s) 0 (op .arrive (u b) (u c) true s.nextId []) parked true) ∧
      (u c = 0 → s.Leaves (exec (.barw h a b c cont) s) i h (if past then
        i.hd.sends ts fun _ x => { x with wa := target, st := .unparked, wait := .none } else parked) true)) ∧
    (s.Passes i h 0 [(.usrc, .o a), (.usrc, .o b)] (fun v => pdstOk v pd) → u b ≤ 0xFFFF → s.dmode i.tm = 0 →
      let ps := pendings s.nextId ((i.hd.lanes h).map fun ln => (pdstOf ln pd, none))
      sends s (exec (.bart h pd a b) s) ps.length
        (op .test (u b) 0 false (s.nextId + ps.length) (ps.map (·.id))) { i.hd with pend := i.hd.pend ++ ps } false)

/-- R138, R139, R276, R278: at its bank an operation changes the word as R138 tells. An initialisation of a word with
zero counters writes it, and a held arrival that its PHASE brings into the window is then applied; an arrival inside the window adds its
weight to the counter of its phase, and if the oldest phase is full then, its counter becomes 0, PHASE goes up by 1 and its waiters
unpark; one ahead of the window is held; one behind it, or that would take a counter above EXPECT, changes nothing of the word, and
raises Barrier-Misuse for its participants that have not retired, as does an initialisation of a word with a counter that is not zero
(R275). A test forms 1 if the phase has completed. R138, R119: of the operations at a word those of one hand apply in the order of their
issue, and those of other hands, once they may be made, in the order in which a bank takes its requests; one that another comes before
waits. That an initialisation and a test wait until their hand's earlier work is performed is the model's reading (log 40).
R277: the report of a held arrival reaches its hand once: its participants that have not retired are barrier-held by it as well,
and one that is outside the active set and unparked parks at once.
R69: in D mode a counted arrival is noted with its team at its phase (the model's reading of which teams arrive, log 36). -/
def Obligations.BarrierWords : Prop :=
  (∀ (s : State) (n : Nat) (x : Arrival), s.arrivals[n]? = some x →
    let old (r : BankRank) : Prop := r.since + 64 ≤ s.cyc
    let before (a b : BankRank) : Prop := (old a ∧ ¬old b) ∨ (old a ∧ old b ∧ a.since < b.since) ∨
      ((old a ↔ old b) ∧ (old a → a.since = b.since) ∧ (a.cls < b.cls ∨ (a.cls = b.cls ∧ a.key < b.key)))
    let first : Prop := ∀ k y, s.arrivals[k]? = some y → k ≠ n → y.loc = x.loc →
      if y.team = x.team ∧ y.hix = x.hix then n < k
      else s.arrivalReady y = false ∨ before x.rank y.rank ∨ (¬before y.rank x.rank ∧ n < k)
    (s.arrivalReady x = false ∨ ¬first → exec (.barrierArrivalApply n) s = .next s) ∧
    (s.arrivalReady x = true → first →
    let w := s.readLoc x.loc 16
    let w0 : Dword := BitVec.ofNat 64 (ofBytes (w.take 8))
    let w1 : Dword := BitVec.ofNat 64 (ofBytes (w.drop 8))
    let expect := fld w0 15 0
    let phase := fld w0 31 16
    let arr (j : Nat) : Nat := [fld w0 47 32, fld w0 63 48, fld w1 15 0, fld w1 31 16].getD j 0
    let delta := (x.b + 65536 - phase) % 65536
    let j := x.b % 4
    let left (t : State) : Prop := t.arrivals = s.arrivals.eraseIdx n ∧ t.teams = s.teams ∧ t.queues = s.queues
    let noted : List (Loc × Nat × Nat) := match s.team? x.team with
      | some tm => if s.dmode tm = 0 ∨ (x.loc, x.b, x.team) ∈ s.phases then s.phases else s.phases ++ [(x.loc, x.b, x.team)]
      | none => s.phases
    (∀ pa, x.loc = .mem pa → s.Sound pa 16) →
    let becomes (t : State) (e p : Nat) (c : Nat → Nat) : Prop := ∃ v0 v1 : Dword,
      s.LocStored t x.loc (toBytes 8 v0.toNat ++ toBytes 8 v1.toNat) ∧ fld v0 15 0 = e ∧ fld v0 31 16 = p ∧
      fld v0 47 32 = c 0 ∧ fld v0 63 48 = c 1 ∧ fld v1 15 0 = c 2 ∧ fld v1 31 16 = c 3 ∧ fld v1 63 32 = 0
    let misused : Prop := ∀ hd, s.hand? x.team x.hix = some hd →
      exec (.barrierArrivalApply n) s = .next (({ s with arrivals := s.arrivals.eraseIdx n } : State).takeFaults x.team x.hix x.code
        (((List.range 128).filter fun k => x.mask.getLsbD k && (hd.thr k).st != .retired).map fun k => (k, { cause := 0x13 })))
    (x.kind = .init → (∀ k, k < 4 → arr k = 0) → x.b < 65536 → x.c < 65536 → (∀ y ∈ s.heldArr, y.loc ≠ x.loc) →
      ∃ t, exec (.barrierArrivalApply n) s = .next t ∧ left t ∧ becomes t x.b x.c (fun _ => 0) ∧ t.hands = s.hands ∧
        t.heldArr = s.heldArr) ∧
    (∀ y : Arrival, x.kind = .init → (∀ k, k < 4 → arr k = 0) → x.b < 65536 → x.c < 65536 → s.heldArr = [y] → y.loc = x.loc →
      (y.b + 65536 - x.c) % 65536 < 4 → y.c < x.b →
      ∃ t, exec (.barrierArrivalApply n) s = .next t ∧ left t ∧ t.heldArr = [] ∧
        becomes t x.b x.c fun k => if k = y.b % 4 then y.c else 0) ∧
    (x.kind = .init → (∃ k, k < 4 ∧ arr k ≠ 0) → misused) ∧
    (x.kind = .arrive → fld w1 63 32 = 0 → expect ≠ 0 → delta < 4 → arr j + x.c ≤ expect →
      ¬(delta = 0 ∧ arr j + x.c = expect) → arr (phase % 4) ≠ expect →
      ∃ t, exec (.barrierArrivalApply n) s = .next t ∧ left t ∧ t.hands = s.hands ∧ t.heldArr = s.heldArr ∧
        t.phases = noted ∧ becomes t expect phase fun k => if k = j then arr k + x.c else arr k) ∧
    (x.kind = .arrive → fld w1 63 32 = 0 → expect ≠ 0 → delta = 0 → arr j + x.c = expect →
      arr ((phase + 1) % 4) ≠ expect → (∀ y ∈ s.heldArr, y.loc ≠ x.loc) → (∀ c ∈ s.cores, c.2.heldRed = []) →
      ∃ t, exec (.barrierArrivalApply n) s = .next t ∧ left t ∧ t.heldArr = s.heldArr ∧
        t.phases = noted.filter (fun y => !(y.1 == x.loc && y.2.1 == phase)) ∧
        (becomes t expect ((phase + 1) % 65536) fun k => if k = j then 0 else arr k) ∧
        (∀ a b hd, s.hand? a b = some hd → ∃ hd', t.hand? a b = some hd' ∧
          ∀ k, k < hd.threads.length →
            let y := hd.thr k
            let waits := y.st = .parked ∧ ∃ ad, y.wait = .barw x.loc ad phase
            (waits → y.bheld = [] → hd'.thr k = { y with st := .unparked, wait := .none }) ∧
            (¬waits → y.bheld = [] → hd'.thr k = y))) ∧
    (x.kind = .arrive → fld w1 63 32 = 0 → expect ≠ 0 → 4 ≤ delta → delta < 0x8000 →
      exec (.barrierArrivalApply n) s =
        .next { s with arrivals := s.arrivals.eraseIdx n, heldArr := s.heldArr ++ [x] }) ∧
    (x.kind = .arrive → (fld w1 63 32 ≠ 0 ∨ expect = 0 ∨ 0x8000 ≤ delta ∨ (delta < 4 ∧ expect < arr j + x.c)) →
      misused ∧ ∃ t, exec (.barrierArrivalApply n) s = .next t ∧ t.mem = s.mem ∧ t.cores = s.cores ∧
        t.heldArr = s.heldArr ∧ t.arrivals = s.arrivals.eraseIdx n) ∧
    (x.kind = .test → ∃ t, exec (.barrierArrivalApply n) s = .next t ∧ left t ∧ t.mem = s.mem ∧ t.cores = s.cores ∧
      ∀ hd, s.hand? x.team x.hix = some hd → t.hand? x.team x.hix = some { hd with
        pend := hd.pend.map fun p => if x.pend.contains p.id then
          { p with val := some (if 0x8000 ≤ delta then 1 else 0) } else p }))) ∧
  (∀ (s : State) (n : Nat) (x : Arrival) (hd : Hand), s.heldArr[n]? = some x → x.reported = false →
    s.hand? x.team x.hix = some hd → hd.phase = .visit →
    ∃ t hd', exec (.barrierHeldReport n) s = .next t ∧ t.mem = s.mem ∧ t.cores = s.cores ∧
      t.heldArr[n]? = some { x with reported := true } ∧ (∀ k, k ≠ n → t.heldArr[k]? = s.heldArr[k]?) ∧
      t.hand? x.team x.hix = some hd' ∧ { hd' with threads := [] } = { hd with threads := [] } ∧
      ∀ k, k < hd.threads.length → let y := hd.thr k
        (x.mask.getLsbD k = true → y.st ≠ .retired →
          (hd'.thr k).bheld = y.bheld ++ [x.id] ∧
          (y.st = .unparked → hd.act.getLsbD k = false →
            (hd'.thr k).st = .parked ∧ (hd'.thr k).wait = .heldArr (y.bheld.headD x.id)) ∧
          (hd.act.getLsbD k = true → (hd'.thr k).st = y.st)) ∧
        (x.mask.getLsbD k = false → y.bheld = [] → hd'.thr k = y))

/-! ### Engines -/

/-- R141, R143, R280, R281 to R283, R297, R303, R313: a submission with room adds its entries at the end of its queue,
with the operands as read, and reserves its event slots (none for QFENCE). Nothing of memory changes. It is stated for
a hand with nothing on its way to memory, and where the checks at issue pass without a walk. -/
def Obligations.EngineSubmission : Prop :=
  ∀ (s : State) (i : Iss) (h : Hdr) (a b c d : Opnd), s.Issues i → s.Settled i → i.hd.lanes h ≠ [] →
    let core := s.core i.tm.core
    let lanes := i.hd.lanes h
    let entry (ln : Lane) (q : Nat) (kind : EKind) (x y z : Dword) (tag : Word) (id : Nat) : Entry :=
      { id, queue := q, kind, op := i.c.w0.extractLsb' 56 8, team := i.c.team, hix := i.c.hix,
        tid := (match ln with | .thr t => t | .uni => 0xFF), addr := i.c.addr, w0 := i.c.w0, w1 := i.c.w1,
        a := x, b := y, c := z, fmt := i.hd.fmt, tag, sub := id, privT := i.hd.inTrap, pasid := s.pasidOf i.tm }
    let room (q n slots : Nat) : Prop := i.tm.evRes + n * slots ≤ 64 ∧ s.slotsHeld i.tm.core + n * slots ≤ 256 ∧
      (core.entries.filter fun e => e.queue == q).length + n ≤ (if q < 8 then 128 else if q < 10 then 32 else 16)
    let submits (o : Out) (slots : Nat) (es : List Entry) (m : Hand) : Prop :=
      ∃ t, o = .next t ∧ t.cur = none ∧ t.mem = s.mem ∧ t.dies = s.dies ∧ t.parts = s.parts ∧ t.launches = s.launches ∧
        (t.core i.tm.core).entries = core.entries ++ es ∧
        { t.core i.tm.core with entries := [], origins := [], slots := 0 } =
          { core with entries := [], origins := [], slots := 0 } ∧
        (∀ k, k ≠ i.tm.core → t.core k = s.core k) ∧
        t.team? i.c.team = some { i.tm with
          evRes := i.tm.evRes + es.length * slots
          subs := i.tm.subs ++ es.flatMap fun e => (List.range slots).map (e.id + ·) } ∧
        (∀ u, u ≠ i.c.team → t.team? u = s.team? u) ∧
        t.hand? i.c.team i.c.hix = some (m.goesOn i h) ∧
        (∀ u v, ¬(u = i.c.team ∧ v = i.c.hix) → t.hand? u v = s.hand? u v)
    let hd (args : List Arg) : Hand := i.hd.nrIf (i.nr h args)
    -- copies: one entry a lane, with an origin entry
    let base (sp : Space) : Role := match sp with | .glob => .gbase | .spad => .sbase
    let addr (sp : Space) (ln : Lane) (o : Opnd) : Dword := match sp with
      | .glob => i.hd.rdO64 ln o
      | .spad => (i.hd.rdO ln o).setWidth 64
    let copies (slots : Nat) (f : Lane → Nat → Entry) : List Entry :=
      lanes.mapIdx fun k ln => { f ln (s.nextId + 1 + k * slots) with org := s.nextId }
    (∀ (dsp ssp : Space) (x : EngExt), let args : List Arg := [(base dsp, .o a), (base ssp, .o b), (.src, .o c)]
      s.Passes i h 0 args → room x.queue.toNat lanes.length 1 → s.roomFor i.tm.core lanes.length = true →
      submits (exec (.cpy h dsp ssp a b c x) s) 1 (copies 1 fun ln => entry ln x.queue.toNat .copy (addr dsp ln a)
        (addr ssp ln b) ((i.hd.rdO ln c).setWidth 64) (lo32 i.c.w1)) (hd args)) ∧
    (∀ (ssp : Space) (x : EngExt), let args : List Arg := [(.sbase, .o a), (base ssp, .o b), (.gbase, .o c)]
      s.Passes i h 0 args → room x.queue.toNat lanes.length 2 →
      s.roomFor i.tm.core lanes.length = true → (∀ ln ∈ lanes, (i.hd.rdO64 ln c).toNat % 32 = 0) →
      submits (exec (.cpyx h ssp a b c x) s) 2 (copies 2 fun ln => entry ln x.queue.toNat .copy (addr .spad ln a)
        (addr ssp ln b) (i.hd.rdO64 ln c) (lo32 i.c.w1)) (hd args)) ∧
    (let args : List Arg := [(.src, .o a), (.src, .o b)]
     let q := (i.hd.rdO .uni a).toNat
     let mask := i.hd.rdO .uni b
     s.Passes i h 0 args → q ≤ 10 → mask.toNat < 2 ^ 11 → room q 1 0 →
      submits (exec (.qfence h a b) s) 0 [{ entry .uni q .qfence (BitVec.ofNat 64 q) (mask.setWidth 64) 0 0 s.nextId with
        await := (core.entries.filter fun e => mask.getLsbD e.queue).map (·.id) }] (hd args)) ∧
    -- melds: the descriptor passes checks 1 and 2 of R299
    (let args : List Arg := [(.ugbase, .o a), (.usrc, .o b)]
     let va := i.hd.rdO64 .uni a
     ∀ dw : Desc, s.Passes i h 0 args → s.readDesc i.tm i.hd.inTrap va = (.ok dw, s) →
      (∀ r ∈ core.resid, r.desc = va → ∀ u, r.team = some u → u = i.tm.id) →
      let does (x : Instr) (pin : Bool) : Prop :=
        let q := s.meldQueue i.tm.core (s.pasidOf i.tm) i.tm.id va.toNat dw pin
        room q 1 1 → submits (exec x s) 1
          [{ entry .uni q .meld va 0 0 (i.hd.rdO .uni b) s.nextId with copy := dw }] (hd args)
      does (.mlda h a b) false ∧ (dw.sparse = false → does (.mldl h a b) false) ∧
      (dw.sparse = true → does (.mlds h a b) false) ∧ does (.mldpPin h a b) true ∧ does (.mldpUnpin h a b) false ∧
      does (.mldv h a b) false) ∧
    -- matrix entries: the operands pass the checks of R304, and the format word is one for the whole hand
    (let args : List Arg := [(.usrc, .o a), (.ugbase, .o b), (.fsrc, .o c)]
     let va := i.hd.rdO64 .uni b
     ∀ (ap : BitVec 8) (e : MatExt) (w : Word) (dw : Desc), s.Passes i h 0 args → (∀ ln ∈ lanes, i.hd.rdO ln c = w) →
      (∀ r ∈ core.resid, r.desc = va → ∀ u, r.team = some u → u = i.tm.id) →
      let x : MatOp :=
        { m := (match e.mc with | .r16 => 16 | .r32 => 32 | .r64 => 64), n := 16 * e.nq.toNat, kc := e.kc.toNat,
          kf := e.kf.toNat, bank := e.bank.toNat, apitch := if ap = 0 then 16384 else 64 * ap.toNat }
      let does (y : Instr) (sp : Bool) : Prop :=
        let q := s.meldQueue i.tm.core (s.pasidOf i.tm) i.tm.id va.toNat dw false
        s.mmaCheck i.tm i.hd.inTrap sp x w va (i.hd.rdO .uni a).toNat = (.ok dw, s) → room q 1 1 →
        submits (exec y s) 1 [{ entry .uni q .matrix ((i.hd.rdO .uni a).setWidth 64) va 0 e.tag s.nextId with
          copy := dw, fmt := w }] { hd args with fmt := w }
      does (.mma h ap a b c e) false ∧ does (.mmas h ap a b c e) true) ∧
    -- the delta queue
    (let handle := (i.hd.rdO .uni a).toNat
     let tag := i.hd.rdO .uni b
     let x (c : Dword) (id : Nat) : Entry := entry .uni 10 .delta (BitVec.ofNat 64 handle) (tag.setWidth 64) c tag id
     let two : List Arg := [(.usrc, .o a), (.usrc, .o b)]
     handle ≤ 4095 → room 10 1 1 →
      (s.Passes i h 0 two → submits (exec (.drun h a b) s) 1 [x 0 s.nextId] (hd two) ∧
        submits (exec (.drsv h a b) s) 1 [x 0 s.nextId] (hd two)) ∧
      (∀ tm1 : BitVec 4, let args := two ++ [(.usrc, .o c)]
        s.Passes i h 0 args → (i.hd.rdO .uni c).toNat % 16 = 0 →
        submits (exec (.delta h tm1 a b c) s) 1 [x ((i.hd.rdO .uni c).setWidth 64) s.nextId] (hd args)) ∧
      (∀ (load : Bool) (dvq dkq : BitVec 3), let args := two ++ [(.dst, .o d), (.ugbase, .o c)]
        s.Passes i h 0 args → (i.hd.rdO64 .uni c).toNat % 64 = 0 →
        let ps := pendings s.nextId (lanes.map fun ln => (i.hd.dstOf i.tm.depth ln d, none))
        submits (exec (.drpn h load dvq dkq d a b c) s) 1
          [{ x (i.hd.rdO64 .uni c) (s.nextId + ps.length) with pends := ps.map (·.id) }]
          { hd args with pend := i.hd.pend ++ ps }))

/-- R279, R286, R167, R282: when the entry at the head of its queue has done its work, it leaves the queue and its
team gets a record of its kind, queue, cause, hand, thread, tag and failing address. A QFENCE leaves without a record,
once the entries it waits for are gone. Stated for a team none of whose threads waits in EVWAIT.
R284, R285: EVPOP gives its lanes the team's oldest records in ascending order, and all ones to a lane that finds
none; each record taken frees its slot. EVWAIT parks its participants; a record with the thread's tag that is there
already is taken at once, written to D, and the thread goes on at the continuation. Stated outside D mode, for records
of entries that succeeded. -/
def Obligations.CompletionRecords : Prop :=
  (∀ (s : State) (core q : Nat) (e : Entry) (tm : Team) (cause : Nat) (addr : Dword), s.headOf core q = some e →
    s.team? e.team = some tm →
    (s.launchDead tm.part tm.launch = false → e.phase = .done cause addr → cause < 256 → e.queue < 16 → e.hix < 64 →
      e.tid < 256 → (∀ hd ∈ s.hands, hd.team = e.team → ∀ x ∈ hd.threads, ∀ g l m o u, x.wait ≠ .evwait g l m o u) →
      let completes (x : Instr) (kind : Nat) : Prop :=
        ∃ (t : State) (r : EvRec), exec x s = .next t ∧ t.mem = s.mem ∧
          (t.core core).entries = (s.core core).entries.filter (fun y => y.id != e.id) ∧
          t.team? e.team = some { tm with records := tm.records ++ [r], subs := tm.subs.filter fun n => n != e.sub } ∧
          fld r.w0 63 61 = kind ∧ fld r.w0 60 60 = 0 ∧ fld r.w0 59 56 = e.queue ∧ fld r.w0 55 48 = cause ∧
          fld r.w0 47 40 = e.hix ∧ fld r.w0 39 32 = e.tid ∧ lo32 r.w0 = e.tag ∧
          r.w1 = (if cause ∈ [8, 9, 0x0A, 0x1A] then addr &&& 0xFFFFFFFFFFFFF#64 else 0) ∧ r.addr = e.addr
      (e.kind = .copy → (e.op ≠ 0xF4#8 ∨ cause = 0) → completes (.copyComplete core q) 0) ∧
      (e.kind = .matrix → completes (.mmaComplete core q) 1) ∧
      (e.kind = .meld → completes (.meldEntryComplete core q) 2) ∧
      (e.kind = .delta → q = 10 → completes (.deltaComplete core) 3)) ∧
    (e.kind = .qfence → (∀ x ∈ (s.core core).entries, x.id ∉ e.await) →
      ∃ t, exec (.qfenceComplete core q) s = .next t ∧ t.device = s.device ∧ t.hands = s.hands ∧
        (t.core core).entries = (s.core core).entries.filter (fun y => y.id != e.id)) ∧
    (e.kind = .qfence → (∃ x ∈ (s.core core).entries, x.id ∈ e.await) → exec (.qfenceComplete core q) s = .next s)) ∧
  (∀ (s : State) (i : Iss) (h : Hdr) (d b : Opnd) (cont : BitVec 22), s.Issues i → s.dmode i.tm = 0 →
    (∀ r ∈ i.tm.records, fld r.w0 55 48 = 0) →
    let lanes := i.hd.lanes h
    (s.Passes i h 0 [(.dst64, .o d)] →
      let out (n : Nat) : Dword := match i.tm.records[n]? with | some r => r.w0 | none => 0xFFFFFFFFFFFFFFFF#64
      let ps := pendings s.nextId (lanes.mapIdx fun n ln => i.result ln .i64 d (out n)).flatten
      ∃ t, exec (.evpop h d) s = .next t ∧ t.mem = s.mem ∧ t.cores = s.cores ∧
        t.hand? i.c.team i.c.hix = some (i.posted h [(.dst64, .o d)] ps) ∧
        t.team? i.c.team = some { i.tm with records := i.tm.records.drop lanes.length
                                            evRes := i.tm.evRes - min lanes.length i.tm.records.length }) ∧
    (let args : List Arg := [(.dst64, .o d), (.src, .o b)]
     let target : CodeAddr := i.c.addr + cont.signExtend 30
     let ts := lanes.flatMap i.hd.laneThreads
     let tag (t : Nat) : Word := i.hd.rdO (if h.u then .uni else .thr t) b
     let lo (t : Nat) : Dst := if d = .gz then .drop else i.hd.dstOf i.tm.depth (if h.u then .uni else .thr t) d
     let hi (t : Nat) : Dst := if d = .gz then .drop else i.hd.dstOf i.tm.depth (if h.u then .uni else .thr t) (oddOf d)
     s.Passes i h 0 args → (∀ t ∈ ts, s.Wanted i.tm (i.hd.thr t).tl target) →
     (∀ hd ∈ s.hands, hd.team = i.c.team → ∀ x ∈ hd.threads, ∀ g l m o u, x.wait ≠ .evwait g l m o u) →
      ((∀ r ∈ i.tm.records, ∀ t ∈ ts, lo32 r.w0 ≠ tag t) →
        ∃ t, exec (.evwait h d b cont) s = .next t ∧ s.Did t i 0 1
          (((i.hd.nrIf (i.nr h args)).sends ts fun u x =>
            { x with wa := target, st := .parked, wait := .evwait (tag u) (lo u) (hi u) s.nextId h.u }).goesOn i h true)) ∧
      (∀ (u : Nat) (r : EvRec), h.u = false → ts = [u] → u < i.hd.threads.length →
        (i.tm.records.find? fun r => lo32 r.w0 == tag u) = some r → i.tm.records.Nodup →
        ∃ t, exec (.evwait h d b cont) s = .next t ∧ t.mem = s.mem ∧
          t.team? i.c.team = some { i.tm with records := i.tm.records.erase r, evRes := i.tm.evRes - 1 } ∧
          t.hand? i.c.team i.c.hix = some (Hand.goesOn (((((i.hd.nrIf (i.nr h args)).sends [u] fun _ x =>
            { x with wa := target, st := .unparked, wait := .none }).put (lo u) (lo32 r.w0)).put (hi u) (hi32 r.w0))) i h true))))

/-- R281: the next chunk of a CPY writes the source's next bytes, at most 4096, to the destination, and no other byte;
after the last one the entry has done its work. Stated for a chunk within one page of global memory on either side,
with ranges that do not overlap. R340: its pieces are counted against the partition's budget first; while the period has no room for
the last of them, those that fit are counted, and the chunk waits. That the activity taken (R11) is one request for each side of the
chunk is the model's choice (log 63). -/
def Obligations.CopyChunk : Prop :=
  ∀ (s : State) (core q : Nat) (e : Entry) (tm : Team) (src dst : Nat) (x y : Tlb), s.headOf core q = some e →
    s.team? e.team = some tm → tm.core = core → s.engLive tm = true →
    e.kind = .copy → e.op = 0xF3#8 → (e.phase = .waiting ∨ e.phase = .begun) →
    e.w0.getLsbD 0 = false → e.w0.getLsbD 1 = false →
    let count := fld e.c 31 0
    let n := min 4096 (count - e.prog * 4096)
    let va := e.a.toNat + e.prog * 4096
    let vb := e.b.toNat + e.prog * 4096
    0 < n → va % 4096 + n ≤ 4096 → vb % 4096 + n ≤ 4096 → va < 2 ^ 52 → vb < 2 ^ 52 →
    ¬(e.a.toNat < e.b.toNat + count ∧ e.b.toNat < e.a.toNat + count) →
    s.tlbHit (s.core core).tlb (s.pasidOf tm) vb .read e.privT = some (src, x) → x.uncached = false →
    s.tlbHit (s.core core).tlb (s.pasidOf tm) va .write e.privT = some (dst, y) → y.uncached = false →
    (∀ j, j < n → s.Sound (src + j) 1) → s.Sound dst n →
    let due := ceilDiv n 128 - e.counted
    (s.inBudget actCopy (dieOf core) tm.part due capCopy = true →
      ∃ t, exec (.copyChunk core q) s = .next t ∧ s.Stored t dst (s.viewBytes (dieOf core) src n) ∧
        t.headOf core q = some { e with
          prog := e.prog + 1, counted := 0, phase := if count ≤ e.prog * 4096 + n then .done 0 0 else .begun } ∧
        (t.core core).activity = (s.core core).activity - 2 * ceilDiv n 64 ∧
        t.hands = s.hands ∧ t.teams = s.teams ∧ (∀ k, (t.core k).spad = (s.core k).spad)) ∧
    (s.inBudget actCopy (dieOf core) tm.part due capCopy = false →
      ∃ t, exec (.copyChunk core q) s = .next t ∧ t.mem = s.mem ∧ t.hands = s.hands ∧ t.teams = s.teams ∧
        t.headOf core q = some { e with counted := e.counted + s.budgetLeft actCopy (dieOf core) tm.part capCopy })

/-! ### Melds, matrix, drones -/

/-- R151 to R156, R300, R339: what a meld entry or a matrix entry does at the head of its queue when its meld is resident in
the core: an allocation is done; MLDL and MLDS fill the meld, or fill it again, but for a filled ephemeral one, which they leave; a fill
begins, records its source and clears STALE; MLDV turns to the partition's cores, each of which removes the meld in its turn; unpinning
clears PIN; pinning in MA1 sets it, within the kitty's limit, and under a limit that was lowered below the kitty's count no pin is made
until the count is below it; a matrix entry begins on contents that are not stale, makes the first fill
of an ephemeral meld that has none, refills stale contents with REFRESH = 1, and fails with Meld-Stale on others.
R370: where a part of the source has left this package's HBM the entry fails with Meld-Lost. What a pin of a pinned meld counts, the
kitty that it counts against, the check of a source that has left, and what an allocation then does are the model's reading (log 41); that
MLDL and MLDS of a filled ephemeral meld complete is its choice (log 72).
R156: while MLDV waits for its cores, the next one removes every residency of the meld that no entry holds. -/
def Obligations.MeldEntriesAndInvalidation : Prop :=
  (∀ (s : State) (core q : Nat) (e : Entry) (tm : Team) (r : Resid), s.headOf core q = some e →
    s.team? e.team = some tm → s.engLive tm = true → e.phase = .waiting →
    let d : Desc := e.copy
    let pasid := s.pasidOf tm
    s.findResid core pasid e.team e.desc d.spad = some r → tm.lostMeld e.desc d = false →
    let entryIs (o : Out) (e' : Entry) (res : List Resid → List Resid) : Prop :=
      ∃ t, o = .next t ∧ t.headOf core q = some e' ∧ (t.core core).resid = res (s.core core).resid ∧
        t.mem = s.mem ∧ t.hands = s.hands ∧ t.teams = s.teams
    let failed (n : Nat) : Entry := { e with phase := .done n 0 }
    let there : Bool := r.spans.all fun x => decide (x.1 < 0xC000000000)
    let upd (f : Resid → Resid) (l : List Resid) : List Resid := l.map fun x => if x.id == r.id then f x else x
    let fills (o : Out) (dw : Desc) : Prop := ∀ spans : List (Nat × Nat), s.sourceSpans tm e.privT dw = (spans, s) →
      if spans.all fun x => decide (x.1 < 0xC000000000) then
        entryIs o { e with phase := .begun, resid := r.id, filling := true, slot := 0, again := .fresh } (upd fun x =>
          { x with stale := false, fill := true, copy := dw, spans, elems := [], scales := [], metas := [] })
      else entryIs o (failed 0x0E) id
    (e.kind = .meld →
      (e.op = 0xA0#8 → r.fill = false → entryIs (exec (.meldEntryHead core q) s) (failed (if there then 0 else 0x0E)) id) ∧
      (e.op = 0xA1#8 ∨ e.op = 0xA2#8 → r.fill = false →
        (d.spad = false ∨ r.filled = false → fills (exec (.meldEntryHead core q) s) d) ∧
        (d.spad = true → r.filled = true → entryIs (exec (.meldEntryHead core q) s) (failed 0) id)) ∧
      (e.op = 0xA4#8 → entryIs (exec (.meldEntryHead core q) s)
        { e with phase := .acking (idxs 384 fun c => (s.part tm.part).hasCore c) } id) ∧
      (e.op = 0xA3#8 → e.w0.getLsbD 12 = false →
        entryIs (exec (.meldEntryHead core q) s) (failed 0) (upd fun x => { x with pinned := false })) ∧
      (e.op = 0xA3#8 → e.w0.getLsbD 12 = true → r.arr = 1 →
        let held := (((s.core core).resid.filter fun x => x.pinned && x.kitty == d.kitty).map (·.count)).foldl (· + ·) 0
        let limit := e.limit.getD ((s.part tm.part).kitty.get d.kitty 0)
        let lowered : Prop := e.limit = none ∧ d.kitty ∈ (s.core core).overLimit ∧ limit ≤ held
        (there = false → entryIs (exec (.meldEntryHead core q) s) (failed 0x0E) id) ∧
        (there = true → limit < held + (if r.pinned then 0 else d.count) ∨ (r.pinned = true ∧ lowered) →
          entryIs (exec (.meldEntryHead core q) s) (failed 0x0F) id) ∧
        (there = true → held + (if r.pinned then 0 else d.count) ≤ limit → ¬(r.pinned = true ∧ lowered) →
          (r.pinned = true → entryIs (exec (.meldEntryHead core q) s) (failed 0) id) ∧
          (r.pinned = false → (e.again ≠ .stopped ∨ r.stale = false) →
            entryIs (exec (.meldEntryHead core q) s) (failed 0) (upd fun x => { x with pinned := true, kitty := d.kitty })) ∧
          (r.pinned = false → e.again = .stopped → r.stale = true → fills (exec (.meldEntryHead core q) s) r.copy)))) ∧
    (e.kind = .matrix → r.fill = false →
      let first : Bool := d.spad && !r.filled
      let stopped : Bool := e.again == .stopped
      (r.stale = false → entryIs (exec (.mmaEntryHead core q) s)
        (if there then { e with phase := .begun, resid := r.id, again := .fresh } else failed 0x0E) id) ∧
      (r.stale = true → first = true → fills (exec (.mmaEntryHead core q) s) d) ∧
      (r.stale = true → first = false → stopped = false → Desc.refresh r.copy = false →
        entryIs (exec (.mmaEntryHead core q) s) (failed 0x0D) id) ∧
      (r.stale = true → first = false → stopped = true ∨ Desc.refresh r.copy = true →
        fills (exec (.mmaEntryHead core q) s) r.copy))) ∧
  (∀ (s : State) (core q c : Nat) (e : Entry) (tm : Team) (rest : List Nat), s.headOf core q = some e →
    s.team? e.team = some tm → e.phase = .acking (c :: rest) →
    let mine (r : Resid) : Bool := !r.dead && r.pasid == s.pasidOf tm && r.desc.toNat == e.desc
    (∀ r ∈ (s.core c).resid, mine r = true → ∀ x ∈ (s.core c).entries, x.resid ≠ r.id) →
    (∀ r ∈ (s.core c).resid, ∀ r' ∈ (s.core c).resid, r.id = r'.id → r = r') →
    ∃ t, exec (.mldvAck core q) s = .next t ∧ (t.core c).resid = (s.core c).resid.filter (fun r => !mine r) ∧
      (∀ k, k ≠ c → (t.core k).resid = (s.core k).resid) ∧ t.mem = s.mem ∧ t.hands = s.hands ∧
      t.headOf core q = some { e with phase := if rest = [] then .done 0 0 else .acking rest })

/-- R147, R149, R157: the next slot of a fill of a dense meld of 8-bit or wider elements reads the slot's rows and holds
their elements, row by row; the last slot ends the fill. Stated where the rows' addresses need no walk.
R105, R106, R159, R167, R303: one K step of a matrix entry adds to each element (i, j) of its tile, block after block
of 32 positions, the products of row i of A and column j of the meld; a position at or past the meld's K counts zero in
A. Integer formats add exactly, modulo 2^32. No other accumulator element changes. Stated where the rows of A need
no walk. -/
def Obligations.FillsAndSteps : Prop :=
  (∀ (s : State) (core q : Nat) (e : Entry) (tm : Team) (r : Resid) (rb : List (List Byte)), s.headOf core q = some e →
    s.team? e.team = some tm → s.engLive tm = true → e.filling = true → e.op ≠ 0xA3#8 →
    (s.core core).resid.find? (fun x => x.id == e.resid) = some r →
    let d : Desc := r.copy
    let w := efWidth d.ef
    let n0 := e.slot % d.ns * 128
    let n1 := min (n0 + 128) d.n
    let k0 := e.slot / d.ns * d.kstep
    let k1 := min (k0 + d.kstep) d.k
    d.sparse = false → efTwin d.ef = false → 8 ≤ w → d.n ≤ 65536 →
    readRanges tm e.privT d.space ((List.range (k1 - k0)).map fun k =>
      (d.src + (k0 + k) * d.pitch + n0 * w / 8, ceilDiv (n1 * w) 8 - n0 * w / 8)) s = (.ok rb, s) →
    let last : Bool := decide (d.count ≤ e.slot + 1)
    ∃ (t : State) (r' : Resid), exec (.meldFillSlot core q) s = .next t ∧ t.mem = s.mem ∧ t.hands = s.hands ∧
      (t.core core).resid.find? (fun x => x.id == e.resid) = some r' ∧
      (∀ k j, j < 65536 → r'.elems.get (k * 65536 + j) 0 =
        if k0 ≤ k ∧ k < k1 ∧ n0 ≤ j ∧ j < n1 then
          BitVec.ofNat 16 (if w = 8 then ((rb.getD (k - k0) []).getD (j - n0) 0).toNat
            else ((rb.getD (k - k0) []).getD (2 * (j - n0)) 0).toNat +
              256 * ((rb.getD (k - k0) []).getD (2 * (j - n0) + 1) 0).toNat)
        else r.elems.get (k * 65536 + j) 0) ∧
      r'.fill = !last ∧ r'.filled = (r.filled || last) ∧ r'.stale = r.stale ∧ r'.pinned = r.pinned ∧
      ∃ e', t.headOf core q = some e' ∧ e'.slot = e.slot + 1 ∧ e'.filling = !last ∧
        e'.phase = if last = true ∧ e.kind = .meld then .done 0 0 else e.phase) ∧
  (∀ (s : State) (core q : Nat) (e : Entry) (tm : Team) (r : Resid) (rows scs : List (List Byte)),
    s.headOf core q = some e → s.team? e.team = some tm → s.engLive tm = true → e.kind = .matrix →
    e.phase = .begun → e.filling = false → (s.core core).resid.find? (fun x => x.id == e.resid) = some r →
    let d : Desc := r.copy
    let x := matOp e.w0 e.w1
    let af := fld e.fmt 31 28
    let n := min d.kstep (x.positions d - e.prog * d.kstep)
    let rg := stepRanges x d af e.a.toNat e.prog n
    e.prog < x.kc → readRanges tm e.privT .spad rg.1 s = (.ok rows, s) → readRanges tm e.privT .spad rg.2 s = (.ok scs, s) →
    let cn := ceilDiv x.n 64
    let at_ (i j : Nat) : Nat := (x.bank + i / 16 * cn + j / 64) * 1024 + i % 16 * 64 + j % 64
    let A (i p : Nat) : Sys2Proof.Machine.Num := if p < n then
        efDecode af (packed 16 (scs.getD i []) (p / 32)) (packed (efWidth af) (rows.getD i []) p)
      else .fin false 0 0
    let B (j p : Nat) : Sys2Proof.Machine.Num := r.element d ((x.kf + e.prog) * d.kstep + p) j
    let blk (i j b : Nat) : List (Sys2Proof.Machine.Num × Sys2Proof.Machine.Num) := (List.range 32).map fun o => (A i (32 * b + o), B j (32 * b + o))
    let new (i j : Nat) (old : Word) : Word := (List.range (d.kstep / 32)).foldl (fun acc b =>
      if af ≥ 7 then BitVec.ofInt 32 (acc.toInt + ((blk i j b).map fun p => p.1.int * p.2.int).foldl (· + ·) 0)
      else accBlock acc (blk i j b)) old
    ∃ (t : State) (tm' : Team), exec (.mmaKStep core q) s = .next t ∧ t.mem = s.mem ∧ t.hands = s.hands ∧
      t.team? e.team = some tm' ∧ { tm' with accMem := tm.accMem } = tm ∧
      (∀ i j, i < x.m → j < x.n → tm'.accMem.get (at_ i j) 0 = new i j (tm.accMem.get (at_ i j) 0)) ∧
      (∀ p, (∀ i j, i < x.m → j < x.n → p ≠ at_ i j) → tm'.accMem.get p 0 = tm.accMem.get p 0) ∧
      t.headOf core q = some { e with
        prog := e.prog + 1, phase := if x.kc ≤ e.prog + 1 then .done 0 0 else .begun } ∧
      (t.core core).activity = (s.core core).activity - (12 * x.m * d.ns : Nat))

/-- R173, R314, R315: the head of the delta queue. DRUN removes the drone and its table entry; DRPN of a handle that is
in use reports 1, and of a new one without an image puts a zero drone into the lowest free banks; DRSV of a spilled
drone is done; a DELTA begins when its drone is on the core; a handle without an entry fails with Drone-Absent (0x12). A
DELTA whose drone is spilled brings it into the lowest free banks, from its image.
R175, R317: one that a save stopped in its work fails with Drone-Absent where the image's PEND or CNT does not agree with it, and where
its NEXT does not, which is the model's reading (log 74).
R174, R316: one token of a DELTA. Its record gives a, b, the vectors k, q of the drone's columns and v of its rows;
u_j is the chain of row j with k, w_j = b (v_j - a u_j), S'_ji = fma(w_j, k_i, a S_ji), and o_j, the chain of row j of S'
with q, is written behind them. Stated for a record inside the team's share. -/
def Obligations.DronesAndDelta : Prop :=
  (∀ (s : State) (core : Nat) (e : Entry) (tm : Team), s.headOf core 10 = some e → s.team? e.team = some tm →
    s.engLive tm = true → e.kind = .delta → e.phase = .waiting →
    let handle := fld e.a 31 0
    let x := exec (.droneEntryHead core) s
    let entryIs (o : Out) (e' : Entry) : Prop := ∃ t, o = .next t ∧ t.headOf core 10 = some e' ∧ t.mem = s.mem ∧
      t.hands = s.hands ∧ t.teams = s.teams ∧ t.parts = s.parts ∧ ∀ k, (t.core k).drones = (s.core k).drones
    let tableIs (t : State) (d : Option DroneEnt) : Prop :=
      t.droneEnt tm.part handle = d ∧ ∀ k, k ≠ handle → t.droneEnt tm.part k = s.droneEnt tm.part k
    let dvq := fld e.w0 5 3
    let dkq := fld e.w0 2 0
    (s.droneEnt tm.part handle = none → e.op = 0xB8#8 ∨ e.op = 0xB9#8 ∨ e.op = 0xBA#8 →
      entryIs x { e with phase := .done 0x12 0 }) ∧
    (e.op = 0xB7#8 → (s.droneEnt tm.part handle).isSome → entryIs x { e with c := 1, phase := .done 0 0 }) ∧
    (e.op = 0xB7#8 → s.droneEnt tm.part handle = none → e.w0.getLsbD 12 = false → s.droneCap core dvq dkq = false →
      ∀ bank, s.droneRun core dvq dkq = some bank → ∃ t, x = .next t ∧ t.mem = s.mem ∧
        tableIs t (some ⟨handle, true, core, bank, dvq, dkq, s.pasidOf tm, e.c⟩) ∧
        t.droneAt core tm.part handle = some ⟨tm.part, handle, bank, dvq, dkq, 0, []⟩ ∧
        t.headOf core 10 = some { e with c := 0, phase := .done 0 0 }) ∧
    (∀ d, s.droneEnt tm.part handle = some d →
      (e.op = 0xB8#8 → (d.res = false ∨ d.core = core) → ∃ t, x = .next t ∧ t.mem = s.mem ∧ tableIs t none ∧
        t.droneAt d.core tm.part handle = none ∧ t.headOf core 10 = some { e with phase := .done 0 0 }) ∧
      (e.op = 0xB9#8 → d.res = false → entryIs x { e with phase := .done 0 0 }) ∧
      (e.op = 0xBA#8 → (s.droneAt core tm.part handle).isSome → entryIs x { e with phase := .begun }) ∧
      (e.op = 0xBA#8 → d.res = false → s.droneCap core d.dvq d.dkq = false →
        ∀ (bank : Nat) (hd : List Dword) (bs : List Byte), s.droneRun core d.dvq d.dkq = some bank →
        let s' := s.catchUp (dieOf core) (s.clockOf (dieOf d.core))
        s'.readImage core d.pasid e.privT d.spill.toNat d.dvq d.dkq = (.ok (hd, bs), s') →
        headerOk hd handle d.dvq d.dkq = true →
        let w1 := hd.getD 1 0
        let stopped : Prop := e.prog ≠ 0 ∨ e.again = .stopped
        (stopped → (w1.getLsbD 63 = false ∨ fld w1 62 59 ≠ e.prog ∨ fld w1 58 55 ≠ fld e.w0 3 0) →
          entryIs (exec (.droneBring core) s) { e with phase := .done 0x12 0 }) ∧
        (¬stopped → w1.getLsbD 63 = false → ∃ (t : State) (y : Drone), exec (.droneBring core) s = .next t ∧ t.mem = s.mem ∧
          tableIs t (some { d with res := true, core, bank }) ∧ t.droneAt core tm.part handle = some y ∧
          y.bank = bank ∧ y.tokens = lo32 (hd.getD 0 0) ∧
          ∀ j i, j < 16 * (d.dvq + 1) → i < 16 * (d.dkq + 1) → i < 128 → y.s.get (j * 128 + i) 0 =
            BitVec.ofNat 32 (ofBytes ((bs.drop (4 * (j * (16 * (d.dkq + 1)) + i))).take 4)))))) ∧
  (∀ (s : State) (core : Nat) (e : Entry) (tm : Team) (d : Drone), s.headOf core 10 = some e →
    s.team? e.team = some tm → s.engLive tm = true → tm.core = core → e.kind = .delta → e.op = 0xBA#8 → e.phase = .begun →
    s.droneAt core tm.part (fld e.a 31 0) = some d →
    let dv := 16 * (d.dvq + 1)
    let dk := 16 * (d.dkq + 1)
    let rs := 16 + 8 * dk + 8 * dv
    let base := (e.c.toNat + e.prog * rs) % 2 ^ 32
    dk ≤ 128 → base + rs ≤ tm.share → tm.share ≤ 0x10000000 →
    let f (off i : Nat) : Word :=
      BitVec.ofNat 32 (ofBytes ((s.core core).spad.getRun 0 (tm.sbase + base + off + 4 * i) 4))
    let S (j i : Nat) : Word := d.s.get (j * 128 + i) 0
    let chain (row v : Nat → Word) : Word := (List.range dk).foldl (fun acc i => f32Fma (row i) (v i) acc) 0
    let al := f 0 0
    let be := f 4 0
    let k (i : Nat) : Word := f 16 i
    let q (i : Nat) : Word := f (16 + 4 * dk) i
    let v (j : Nat) : Word := f (16 + 8 * dk) j
    let w (j : Nat) : Word := f32Mul be (f32Sub (v j) (f32Mul al (chain (S j) k)))
    let new (j i : Nat) : Word := f32Fma (w j) (k i) (f32Mul al (S j i))
    ∃ (t : State) (d' : Drone), exec (.deltaToken core) s = .next t ∧ t.mem = s.mem ∧ t.hands = s.hands ∧ t.teams = s.teams ∧
      t.droneAt core tm.part (fld e.a 31 0) = some d' ∧ { d' with s := d.s, tokens := d.tokens } = d ∧
      d'.tokens = d.tokens + 1 ∧ (∀ j i, j < dv → i < dk → d'.s.get (j * 128 + i) 0 = new j i) ∧
      s.SliceStored t core (tm.sbase + base + 16 + 8 * dk + 4 * dv) ((List.range dv).flatMap fun j =>
        toBytes 4 (chain (new j) q).toNat) ∧
      t.headOf core 10 = some { e with
        prog := e.prog + 1, phase := if fld e.w0 3 0 + 1 ≤ e.prog + 1 then .done 0 0 else .begun })

/-! ### Accumulators -/

/-- R158, R160, R307 to R309: AALC gives the lowest run of free banks, zeroed, or all ones; AFRE frees its banks and ends
the claims on them; AREL ends the hand's claims, stated for a hand with nothing on its way to memory; ACLM claims its banks, and its participants go on at the continuation,
or wait parked while another hand claims one of them. Stated for a team without waiting claims.
R161, R310, R311: ARD reads and AWR writes the element A × 1024 + B; an element of a bank that is not allocated reads
zero, discards the write and sets `hs.ua`. AZRO zeroes its banks. ADRN stores them, row i of bank u at
a + i × DP + 64 u × size, rounded to the type, and with SUB[0] zeroes them. No other element, and no other byte, changes.
Stated for elements that the hand may touch; for ADRN, for a destination in the share whose rows do not overlap. -/
def Obligations.Accumulators : Prop :=
  (∀ (s : State) (i : Iss) (h : Hdr) (d a b : Opnd) (cont : BitVec 22), s.Issues i → i.hd.parts h ≠ [] →
    (∀ hd ∈ s.hands, hd.team = i.c.team → ∀ x ∈ hd.threads, ∀ p q r, x.wait ≠ .aclm p q r) →
    let tm := i.tm
    let free (j : Nat) : Bool := !tm.alloc.getLsbD j
    let teamIs (t : State) (f n : Nat) (bits : Bool) (claim : Option Nat) (zero : Bool) : Prop :=
      ∃ tm', t.team? i.c.team = some tm' ∧ { tm' with alloc := tm.alloc, claims := tm.claims, accMem := tm.accMem } = tm ∧
        (∀ j, j < 256 → tm'.alloc.getLsbD j = if f ≤ j ∧ j < f + n then bits else tm.alloc.getLsbD j) ∧
        (∀ j, tm'.claims.get j 0 = if f ≤ j ∧ j < f + n then claim.getD (tm.claims.get j 0) else tm.claims.get j 0) ∧
        (∀ p, tm'.accMem.get p 0 = if zero = true ∧ f * 1024 ≤ p ∧ p < (f + n) * 1024 then 0 else tm.accMem.get p 0)
    let stays (t : State) : Prop := t.mem = s.mem ∧ t.cores = s.cores ∧ t.dies = s.dies ∧ t.cur = none ∧
      ∀ u v, ¬(u = i.c.team ∧ v = i.c.hix) → t.hand? u v = s.hand? u v
    (let args : List Arg := [(.dst, .o d), (.usrc, .o a)]
     let n := (i.hd.rdO .uni a).toNat
     let ps (v : Word) : List Pend := pendings s.nextId ((i.hd.lanes h).map fun ln => (i.hd.dstOf tm.depth ln d, some v))
     s.Passes i h 0 args →
      (∀ f, 0 < n → f + n ≤ tm.acc → tm.acc ≤ 256 → (∀ j, j < n → free (f + j) = true) →
        (∀ g, g < f → ∃ j, j < n ∧ free (g + j) = false) →
        ∃ t, exec (.aalc h d a) s = .next t ∧ stays t ∧ (∃ tm', t.team? i.c.team = some tm' ∧
          { tm' with alloc := tm.alloc, accMem := tm.accMem } = tm ∧
          (∀ j, j < 256 → tm'.alloc.getLsbD j = (tm.alloc.getLsbD j || decide (f ≤ j ∧ j < f + n))) ∧
          ∀ p, tm'.accMem.get p 0 = if f * 1024 ≤ p ∧ p < (f + n) * 1024 then 0 else tm.accMem.get p 0) ∧
          t.hand? i.c.team i.c.hix = some (i.posted h args (ps (BitVec.ofNat 32 f)))) ∧
      ((∀ f, 0 < n → f + n ≤ tm.acc → ∃ j, j < n ∧ free (f + j) = false) →
        ∃ t, exec (.aalc h d a) s = .next t ∧ s.Did t i 0 (ps 0xFFFFFFFF#32).length (i.posted h args (ps 0xFFFFFFFF#32)))) ∧
    (let args : List Arg := [(.usrc, .o a), (.usrc, .o b)]
     let f := (i.hd.rdO .uni a).toNat
     let n := (i.hd.rdO .uni b).toNat
     let target : CodeAddr := i.c.addr + cont.signExtend 30
     let ts := i.hd.parts h
     let mine (j : Nat) : Prop := tm.claims.get j 0 = i.c.hix + 1
     s.Passes i h 0 args → 0 < n → f + n ≤ tm.acc → tm.acc ≤ 256 →
      ((∀ j, f ≤ j ∧ j < f + n → free j = false ∧ (tm.claims.get j 0 = 0 ∨ mine j)) →
        ∃ t, exec (.afre h a b) s = .next t ∧ stays t ∧ teamIs t f n false (some 0) false ∧
          t.hand? i.c.team i.c.hix = some (i.hd.goesOn i h)) ∧
      ((∀ j, f ≤ j ∧ j < f + n → mine j) → s.Settled i →
        ∃ t tm', exec (.arel h a b) s = .next t ∧ stays t ∧ t.team? i.c.team = some tm' ∧
          { tm' with claims := tm.claims } = tm ∧
          (∀ j, tm'.claims.get j 0 = if f ≤ j ∧ j < f + n then 0 else tm.claims.get j 0) ∧
          t.hand? i.c.team i.c.hix = some (i.hd.goesOn i h)) ∧
      ((∀ t ∈ ts, s.Wanted tm (i.hd.thr t).tl target) →
        ((∀ j, f ≤ j ∧ j < f + n → tm.claims.get j 0 = 0 ∨ mine j) →
          ∃ t tm', exec (.aclm h a b cont) s = .next t ∧ stays t ∧ t.team? i.c.team = some tm' ∧
            { tm' with claims := tm.claims } = tm ∧
            (∀ j, tm'.claims.get j 0 = if f ≤ j ∧ j < f + n then i.c.hix + 1 else tm.claims.get j 0) ∧
            t.hand? i.c.team i.c.hix = some ((i.hd.sends ts fun _ x =>
              { x with wa := target, st := .unparked, wait := .none }).goesOn i h true)) ∧
        ((∃ j, f ≤ j ∧ j < f + n ∧ tm.claims.get j 0 ≠ 0 ∧ ¬mine j) →
          ∃ t, exec (.aclm h a b cont) s = .next t ∧ s.Did t i 0 0 ((i.hd.sends ts fun _ x =>
            { x with wa := target, st := .parked, wait := .aclm f n ((s.cyc * 4 + i.hd.quad) * 16 + i.hd.slot) }).goesOn i h
              true))))) ∧
  (∀ (s : State) (i : Iss) (h : Hdr) (ty : Ty) (zero : Bool) (pitch : BitVec 8) (d a b c : Opnd), s.Issues i →
    s.Settled i →
    let tm := i.tm
    let lanes := i.hd.lanes h
    let el (ln : Lane) : Nat := (i.hd.rdO ln a).toNat * 1024 + (i.hd.rdO ln b).toNat
    let may (bank : Nat) : Prop := bank < tm.acc ∧ (tm.alloc.getLsbD bank = true → tm.claims.get bank 0 = i.c.hix + 1)
    let val (p : Nat) : Word := if tm.alloc.getLsbD (p / 1024) then tm.accMem.get p 0 else 0
    let after (m : Hand) (args : List Arg) (ua : Bool) : Hand :=
      let m := m.nrIf (i.nr h args)
      Hand.goesOn { m with hs := if ua then m.hs ||| 1#32 else m.hs } i h
    let ua : Bool := lanes.any fun ln => !tm.alloc.getLsbD (el ln / 1024)
    let stays (t : State) : Prop := t.mem = s.mem ∧ t.dies = s.dies ∧ t.cur = none ∧
      ∀ u v, ¬(u = i.c.team ∧ v = i.c.hix) → t.hand? u v = s.hand? u v
    let memIs (t : State) (f : Nat → Word) : Prop := ∃ tm', t.team? i.c.team = some tm' ∧
      { tm' with accMem := tm.accMem } = tm ∧ ∀ p, tm'.accMem.get p 0 = f p
    let f := (i.hd.rdO .uni a).toNat
    let n := (i.hd.rdO .uni b).toNat
    (let args : List Arg := [(.dst, .o d), (.src, .o a), (.src, .o b)]
     s.Passes i h 0 args → (∀ ln ∈ lanes, may (el ln / 1024)) →
      let ps := pendings s.nextId (lanes.map fun ln => (i.hd.dstOf tm.depth ln d, some (val (el ln))))
      ∃ t, exec (.ard h ty d a b) s = .next t ∧
        s.Did t i 0 ps.length (after { i.hd with pend := i.hd.pend ++ ps } args ua)) ∧
    (let args : List Arg := [(.src, .o a), (.src, .o b), (.src, .o c)]
     s.Passes i h 0 args → (∀ ln ∈ lanes, may (el ln / 1024)) →
      ∃ t, exec (.awr h ty a b c) s = .next t ∧ stays t ∧ t.cores = s.cores ∧
        memIs t (fun p => match (lanes.filter fun ln => el ln == p && tm.alloc.getLsbD (p / 1024)).getLast? with
          | some ln => i.hd.rdO ln c
          | none => tm.accMem.get p 0) ∧
        t.hand? i.c.team i.c.hix = some (after i.hd args ua)) ∧
    (let args : List Arg := [(.usrc, .o a), (.usrc, .o b)]
     let inside (p : Nat) : Prop := f * 1024 ≤ p ∧ p < (f + n) * 1024 ∧ tm.alloc.getLsbD (p / 1024) = true
     s.Passes i h 0 args → i.hd.parts h ≠ [] → 0 < n → (∀ j, j < n → may (f + j)) →
      ∃ t, exec (.azro h a b) s = .next t ∧ stays t ∧ t.cores = s.cores ∧
        (∃ tm', t.team? i.c.team = some tm' ∧ { tm' with accMem := tm.accMem } = tm ∧
          ∀ p, (inside p → tm'.accMem.get p 0 = 0) ∧ (¬inside p → tm'.accMem.get p 0 = tm.accMem.get p 0)) ∧
        t.hand? i.c.team i.c.hix = some (after i.hd args ((List.range n).any fun j => !tm.alloc.getLsbD (f + j)))) ∧
    (let args : List Arg := [(.usrc, .o a), (.usrc, .o b), (.usrc, .o c)]
     let bank := n
     let cnt := (i.hd.rdO .uni c).toNat
     let size : Nat := if ty = .bf16 ∨ ty = .f16 then 2 else 4
     let dp := if pitch = 0 then 64 * cnt * size else 16 * pitch.toNat
     let bytes (w : Word) : List Byte :=
      if ty = .bf16 then toBytes 2 (FF.bf16.round .ne false (f32 w))
      else if ty = .f16 then toBytes 2 (FF.f16.round .ne false (f32 w)) else toBytes 4 w.toNat
     let at_ (u r j : Nat) : Nat := tm.sbase + f + r * dp + (64 * u + j) * size
     (ty = .f32 ∨ ty = .i32 ∨ ty = .bf16 ∨ ty = .f16) → s.Passes i h 0 args → i.hd.parts h ≠ [] → 0 < cnt →
     (∀ j, j < cnt → may (bank + j)) → f % size = 0 → 64 * cnt * size ≤ dp → f + 15 * dp + 64 * cnt * size ≤ tm.share →
     tm.share ≤ 0x10000000 →
      ∃ (t : State) (tm' : Team), exec (.adrn h ty zero pitch a b c) s = .next t ∧ stays t ∧
        (∀ k, k ≠ tm.core → t.core k = s.core k) ∧
        (∀ u r j k, u < cnt → r < 16 → j < 64 → k < size →
          (t.core tm.core).spad.get (at_ u r j + k) 0 = (bytes (val ((bank + u) * 1024 + r * 64 + j))).getD k 0) ∧
        (∀ o, (∀ u r j k, u < cnt → r < 16 → j < 64 → k < size → o ≠ at_ u r j + k) →
          (t.core tm.core).spad.get o 0 = (s.core tm.core).spad.get o 0) ∧
        t.team? i.c.team = some tm' ∧ { tm' with accMem := tm.accMem } = tm ∧
        (∀ p, tm'.accMem.get p 0 = if zero = true ∧ bank * 1024 ≤ p ∧ p < (bank + cnt) * 1024 ∧
          tm.alloc.getLsbD (p / 1024) = true then 0 else tm.accMem.get p 0) ∧
        t.hand? i.c.team i.c.hix = some (after i.hd args ((List.range cnt).any fun j => !tm.alloc.getLsbD (bank + j)))))

/-- R169, R306: SPZ keeps the four elements of greatest magnitude of each group of eight, lower indices first on ties
and a NaN above every number, packs them from the low end in ascending order of their indices, and writes the indices,
three bits each, to the odd register. R301, R150: MLDQ posts the word of the core's residency of the meld, or 0. -/
def Obligations.SparseSelect : Prop :=
  ∀ (s : State) (i : Iss) (h : Hdr) (ty : Ty) (d a : Opnd), s.Issues i →
    (ty ∈ [Ty.i8, .z8, .e4m3, .e5m2, .i4] →
     let args : List Arg := [(.dst64, .o d), (if ty = .i4 then .src else .src64, .o a)]
     let w := if ty = .i4 then 4 else 8
     s.Passes i h 2 args →
     let x (ln : Lane) (n : Nat) : Nat :=
      (if ty = .i4 then (i.hd.rdO ln a).toNat else (i.hd.rdO64 ln a).toNat) / 2 ^ (w * n) % 2 ^ w
     let mag (ln : Lane) (n : Nat) : Sys2Proof.Machine.Num := (valueOf ty (x ln n)).abs
     let above (ln : Lane) (m n : Nat) : Prop :=
      if (mag ln m).isNan then (mag ln n).isNan = false ∨ m < n
      else (mag ln n).isNan = false ∧ ((mag ln n).lt (mag ln m) = true ∨ ((mag ln m).lt (mag ln n) = false ∧ m < n))
     ∃ k : Lane → Nat → Nat,
      (∀ ln, k ln 0 < k ln 1 ∧ k ln 1 < k ln 2 ∧ k ln 2 < k ln 3 ∧ k ln 3 < 8) ∧
      (∀ ln m n, m < 4 → n < 8 → (∀ j, j < 4 → k ln j ≠ n) → above ln (k ln m) n) ∧
      s.Writes (exec (.spz h ty d a) s) i h 2 args fun ln => i.hd.dest i.tm.depth ln .i64 d (pair64
        (BitVec.ofNat 32 (k ln 0 + 8 * k ln 1 + 64 * k ln 2 + 512 * k ln 3))
        (BitVec.ofNat 32 (x ln (k ln 0) + 2 ^ w * x ln (k ln 1) + 2 ^ (2 * w) * x ln (k ln 2) + 2 ^ (3 * w) * x ln (k ln 3))))) ∧
    (let args : List Arg := [(.dst, .o d), (.ugbase, .o a)]
     let va := i.hd.rdO64 .uni a
     ∀ dw : Desc, s.Passes i h 0 args → s.Settled i → i.hd.lanes h ≠ [] → s.dmode i.tm = 0 →
      s.readDesc i.tm i.hd.inTrap va = (.ok dw, s) →
      ∃ (t : State) (v : Word),
        (s.findResid i.tm.core (s.pasidOf i.tm) i.tm.id va.toNat dw.spad = none → v = 0) ∧
        (∀ r, s.findResid i.tm.core (s.pasidOf i.tm) i.tm.id va.toNat dw.spad = some r → r.arr < 2 → r.first < 16 →
          r.count < 32 → v.getLsbD 31 = true ∧ v.getLsbD 30 = r.pinned ∧ v.getLsbD 29 = r.stale ∧ v.getLsbD 28 = r.fill ∧
            fld v 27 27 = r.arr ∧ fld v 26 23 = r.first ∧ fld v 22 18 = r.count ∧ fld v 17 0 = 0) ∧
        let ps := pendings s.nextId ((i.hd.lanes h).map fun ln => (i.hd.dstOf i.tm.depth ln d, some v))
        exec (.mldq h d a) s = .next t ∧ s.Did t i 0 ps.length (i.posted h args ps))

/-! ### Work -/

/-- R52, R53, R288: CARD pushes a copy of the card onto the deal queue of its die. R58, R289: JOIN takes 1 from a counter
above 1, or sets COUNT and CONT of a counter at 0 and keeps it armed; a decrement of a counter at 0 fails the launch with
Barrier-Misuse. A decrement from 1 stores COUNT = 0, after which the counter is armed no more; with CONT = 0 it releases nothing,
and else it reads the card at CONT, sets the copy's CONT flag and pushes it onto the deal queue of the counter's home die (R53).
R293: AMSG sends a copy of the card to the core. Stated for one participant, with nothing of its hand on its way to memory, for a
card without affinity, and for a counter of a D-mode launch with nothing staged at any die (R61); the decrement from 1 is stated
outside D mode, and for a card whose page needs no write of A and no answer of the host. R263: each holds a request slot; CARD and AMSG
are stated with one free, JOIN with an origin entry free too. -/
def Obligations.WorkIssue : Prop :=
  ∀ (s : State) (i : Iss) (h : Hdr) (a b c : Opnd) (ln : Lane) (pa : Nat) (l : Launch), s.Issues i → s.Settled i →
    i.hd.lanes h = [ln] → s.launch? i.tm.part i.tm.launch = some l → l.st = .live →
    let tm := i.tm
    let hd (args : List Arg) : Hand := (i.hd.nrIf (i.nr h args)).goesOn i h
    let va := (i.hd.rdO64 ln a).toNat
    let card := cardOf ((List.range 8).map fun j => s.wordAt (pa + 8 * j))
    let at_ (k : AccKind) (n : Nat) : Prop := (∃ unc, s.Hits i k n ln va pa unc) ∧ pa < 0xC000000000 ∧ s.Sound pa n
    let stays (t : State) : Prop := t.cur = none ∧ t.teams = s.teams ∧
      ∀ u v, ¬(u = i.c.team ∧ v = i.c.hix) → t.hand? u v = s.hand? u v
    let still : Prop := l.dmode = 0 ∨ ((∀ (k : Nat) (x : Die), s.die? k = some x → x.staged = []) ∧ ∀ x ∈ s.teams, x.heldRed = [])
    let slot (t : State) : Prop := (t.core tm.core).slots = (s.core tm.core).slots + 1
    (let args : List Arg := [(.gbase, .o a)]
     let own := dieOf tm.core
     let ds := (s.part tm.part).dies
     let die := if own ∈ ds then own else ds.headD own
     s.Passes i h 0 args → at_ .read 64 → card.rejected false = false → fld card.w3 51 0 = 0 →
      s.DealRoom die tm.part tm.launch → s.slotsFor tm.core 1 = true →
      ∃ t : State, exec (.card h a) s = .next t ∧ stays t ∧ slot t ∧ t.mem = s.mem ∧ t.launches = s.launches ∧
        s.Dealt t die { part := tm.part, launch := tm.launch, card, prio := fld l.record.w0 29 27, since := s.cyc } ∧
        t.hand? i.c.team i.c.hix = some (hd args)) ∧
    (let args : List Arg := [(.gbase, .o a)]
     let count := fld (s.wordAt pa) 31 0
     let resv : Prop := fld (s.wordAt pa) 63 32 = 0 ∧ fld (s.wordAt (pa + 8)) 63 52 = 0
     s.Passes i h 0 args → at_ .atomic 16 → resv → s.roomFor tm.core 1 = true → still →
      (1 < count → ∃ t, exec (.joinDecrement h a) s = .next t ∧ stays t ∧ slot t ∧ s.Stored t pa (toBytes 4 (count - 1)) ∧
        t.launches = s.launches ∧ t.hand? i.c.team i.c.hix = some (hd args)) ∧
      (∀ c, count = 1 → l.dmode = 0 → s.Releasable l pa c →
        ∃ t, exec (.joinDecrement h a) s = .next t ∧ stays t ∧ s.Stored t pa (toBytes 4 0) ∧ s.Releases t l pa c ∧
          t.launch? tm.part tm.launch = some { l with armed := l.armed.filter fun x => x != pa } ∧
          t.hand? i.c.team i.c.hix = some (hd args)) ∧
      (count = 0 → ∃ t l', exec (.joinDecrement h a) s = .next t ∧ stays t ∧ t.mem = s.mem ∧
        t.launch? tm.part tm.launch = some l' ∧ l'.st = .failing ∧ l'.cause = 0x13)) ∧
    (let args : List Arg := [(.gbase, .o a), (.src, .o b), (.gbase, .o c)]
     let cont := (i.hd.rdO64 ln c).toNat
     s.Passes i h 0 args → at_ .atomic 16 → s.wordAt pa = 0 → fld (s.wordAt (pa + 8)) 63 52 = 0 →
      s.roomFor tm.core 1 = true → still → (i.hd.rdO ln b).toNat ≠ 0 → cont ≠ 0 →
      (∃ pc unc, s.Hits i .read 64 ln cont pc unc ∧ pc < 0xC000000000) →
      ∃ (t : State) (l' : Launch), exec (.joinArm h a b c) s = .next t ∧ stays t ∧
        s.Stored t pa (toBytes 8 (i.hd.rdO ln b).toNat ++ toBytes 8 cont) ∧
        t.launch? tm.part tm.launch = some l' ∧ { l' with armed := l.armed } = l ∧ (∀ x, x ∈ l'.armed ↔ x = pa ∨ x ∈ l.armed) ∧
        t.hand? i.c.team i.c.hix = some (hd args)) ∧
    (let args : List Arg := [(.gbase, .o a), (.src, .o b)]
     let to_ := (i.hd.rdO ln b).toNat
     s.Passes i h 0 args → at_ .read 64 → (s.part tm.part).hasCore to_ = true → s.slotsFor tm.core 1 = true →
      ∃ t, exec (.amsg h a b) s = .next t ∧ stays t ∧ slot t ∧ t.mem = s.mem ∧
        t.amFlight = s.amFlight ++ [{ part := tm.part, launch := tm.launch, core := to_, card, x := tm.x, y := tm.y, z := tm.z,
                                      n := tm.n, lix := tm.lix, team := i.c.team, hix := i.c.hix }] ∧
        t.hand? i.c.team i.c.hix = some (hd args))

/-- R59, R60, R290 to R292: WLAPP sends its item to the unit of the list's die, with a pending result; the unit writes it
at the slot that TAIL names, adds 1 to TAIL and forms the slot's index, and on a full list sets OVF and forms all ones.
WLPOP gives the index that HEAD names and adds 1 to HEAD, or gives all ones for an empty list. QSCN gives the number of
items and OVF. R263: each holds a request slot, and is stated with one free. Stated for one participant outside D mode, and for an item
of 8 bytes.
R60: the compaction unit, on an append that stands first for its hand, instruction and list: with room, it writes
the item at BASE + (TAIL mod CAP) × size, adds 1 to TAIL and forms the index; on a full list it sets OVF, and forms all
ones. Stated for an item of 8 bytes outside D mode, in a list whose slot translates without setting A or D. -/
def Obligations.WorkLists : Prop :=
  (∀ (s : State) (i : Iss) (h : Hdr) (d a b : Opnd) (ln : Lane) (pa : Nat), s.Issues i → s.Settled i →
    i.hd.lanes h = [ln] → s.dmode i.tm = 0 → pa < 0xC000000000 →
    let va := (i.hd.rdO64 ln a).toNat
    let w (j : Nat) : Dword := s.wordAt (pa + 8 * j)
    let cap := fld (w 1) 63 32
    let head := fld (w 2) 63 32
    let tail := fld (w 2) 31 0
    let at_ (k : AccKind) : Prop := (∃ unc, s.Hits i k 32 ln va pa unc) ∧ s.Sound pa 32
    let posts (t : State) (args : List Arg) (r : List (Dst × Option Word)) : Prop :=
      t.hand? i.c.team i.c.hix = some (i.posted h args (pendings s.nextId r)) ∧ t.teams = s.teams ∧ t.cur = none ∧
      (t.core i.tm.core).slots = (s.core i.tm.core).slots + 1
    (let args : List Arg := [(.dst, .o d), (.gbase, .o a), (.src64, .o b)]
     s.Passes i h 0 args → at_ .atomic → fld (w 0) 63 52 = 0 → fld (w 1) 31 29 = 1 → fld (w 1) 27 0 = 0 →
      fld (w 3) 63 52 = 0 → s.roomFor i.tm.core 1 = true → ∀ x, s.die? (paDie pa) = some x →
      ∃ (t : State) (x' : Die) (ap : Append), exec (.wlapp h d a b) s = .next t ∧ t.mem = s.mem ∧ t.teams = s.teams ∧
        t.die? (paDie pa) = some x' ∧ x'.appends = x.appends ++ [ap] ∧ ap.desc = pa ∧ ap.src = none ∧
        ap.item = toBytes 8 (i.hd.rdO64 ln b).toNat ∧ ap.team = i.c.team ∧ ap.hix = i.c.hix ∧
        ap.tids = i.hd.laneThreads ln ∧ ap.pasid = s.pasidOf i.tm ∧ ap.privT = i.hd.lanePriv ln ∧ ∃ hd : Hand,
        t.hand? i.c.team i.c.hix = some hd ∧ hd.off = i.hd.off + i.c.len ∧
        hd.pend.map (fun p => (p.dst, p.val)) = i.hd.pend.map (fun p => (p.dst, p.val)) ++
          (if i.hd.dstOf i.tm.depth ln d = .drop then [] else [(i.hd.dstOf i.tm.depth ln d, none)])) ∧
    (let args : List Arg := [(.dst, .o d), (.gbase, .o a)]
     s.Passes i h 0 args → at_ .atomic → s.slotsFor i.tm.core 1 = true →
      (head = tail → ∃ t, exec (.wlpop h d a) s = .next t ∧ t.mem = s.mem ∧
        posts t args [(i.hd.dstOf i.tm.depth ln d, some 0xFFFFFFFF#32)]) ∧
      (head ≠ tail → cap ≠ 0 → ∃ t, exec (.wlpop h d a) s = .next t ∧
        s.Stored t (pa + 20) (toBytes 4 ((head + 1) % 2 ^ 32)) ∧
        posts t args [(i.hd.dstOf i.tm.depth ln d, some (BitVec.ofNat 32 (head % cap)))])) ∧
    (let args : List Arg := [(.dst64, .o d), (.gbase, .o a)]
     s.Passes i h 0 args → at_ .read → s.slotsFor i.tm.core 1 = true →
      ∃ t, exec (.qscn h d a) s = .next t ∧ t.mem = s.mem ∧ posts t args (i.result ln .i64 d
        (pair64 (if (w 1).getLsbD 28 then 1 else 0) (BitVec.ofNat 32 ((tail + 2 ^ 32 - head) % 2 ^ 32)))))) ∧
  (∀ (s : State) (die n : Nat) (x : Die) (ap : Append) (slot : Nat) (unc : Bool) (tl : Tlb), s.die? die = some x →
    x.appends[n]? = some ap → (x.appends.filter fun y =>
      y.team == ap.team && y.hix == ap.hix && y.order == ap.order && y.desc == ap.desc) = [ap] →
    s.launchD ap.part ap.launch = false → ap.src = none → ap.item.length = 8 →
    let w (j : Nat) : Dword := s.wordAt (ap.desc + 8 * j)
    let cap := fld (w 1) 63 32
    let tail := fld (w 2) 31 0
    let count := (tail + 2 ^ 32 - fld (w 2) 63 32) % 2 ^ 32
    let va := fld (w 0) 51 0 + tail % cap * 8
    let formed (t : State) (v : Word) : Prop := ∀ hd, s.hand? ap.team ap.hix = some hd →
      t.hand? ap.team ap.hix = some { hd with
        pend := hd.pend.map fun p => if ap.pend.contains p.id then { p with val := some v } else p }
    let gone (t : State) : Prop := ∃ x', t.die? die = some x' ∧ x'.appends = x.appends.erase ap
    fld (w 1) 31 29 = 1 →
    (count < cap → va % 8 = 0 → va < 2 ^ 52 → s.walkVa ap.pasid va .write ap.privT = ((.ok slot unc, some tl), s) →
      s.Sound slot 8 → (slot + 8 ≤ ap.desc ∨ ap.desc + 32 ≤ slot) →
      ∃ t, exec (.compactionAppend die n) s = .next t ∧ gone t ∧ formed t (BitVec.ofNat 32 (tail % cap)) ∧
        ∀ p, t.byteAt p = if slot ≤ p ∧ p < slot + 8 then ap.item.getD (p - slot) 0
          else if ap.desc + 16 ≤ p ∧ p < ap.desc + 20 then (toBytes 4 ((tail + 1) % 2 ^ 32)).getD (p - (ap.desc + 16)) 0
          else s.byteAt p) ∧
    (cap ≤ count → ∃ t, exec (.compactionAppend die n) s = .next t ∧ gone t ∧ formed t 0xFFFFFFFF#32 ∧
      s.Stored t (ap.desc + 8) (toBytes 8 (w 1 ||| 0x10000000#64).toNat)))

/-- R294, R295, R367: at privilege T, ICINV drops the words A to A + B - 1 of the partition's code space from every
core's instruction cache, and TLBH the translations of the range in the team's PASID from the TLBs of the partition's
cores and of every die, with what the walkers keep of the PASID (log 13); each posts 0. At privilege U both raise Protection. ICINV is first a FENCE at .p: it performs what is
buffered, and the hand then waits for its threads' barrier operations (R274); its result carries the words, which are dropped once more
as D is written. TLBH waits while a load with bytes to read, a
barrier operation or an append of the PASID is on its way. Stated for ICINV with no store of its hand on its way to memory. -/
def Obligations.CacheControl : Prop :=
  ∀ (s : State) (i : Iss) (h : Hdr) (d a b : Opnd), s.Issues i → h.u = true → i.hd.parts h ≠ [] →
    let posts (t : State) : Prop := ∃ hd : Hand, t.hand? i.c.team i.c.hix = some hd ∧
      hd.off = i.hd.off + i.c.len ∧ hd.pend.map (fun p => (p.dst, p.val)) = i.hd.pend.map (fun p => (p.dst, p.val)) ++
        (if i.hd.dstOf i.tm.depth .uni d = .drop then [] else [(i.hd.dstOf i.tm.depth .uni d, some 0)])
    let fenced (t : State) : Prop := ∃ hd : Hand, t.hand? i.c.team i.c.hix = some hd ∧
      let ids := ((s.arrivals ++ s.heldArr).filter fun a => a.team == i.c.team && a.hix == i.c.hix && (a.mask &&& maskOf i.hd.actives) != 0).map (·.id)
      hd.fence = if ids = [] then i.hd.fence else ids
    let prot (o : Out) : Prop := o =
      .next ((s.takeFaults i.c.team i.c.hix i.c.addr ((i.hd.parts h).map fun t => (t, { cause := 9 }))).advance i h)
    (let args : List Arg := [(.dst, .o d), (.src, .o a), (.src, .o b)]
     let first := (i.hd.rdO .uni a).toNat
     let n := (i.hd.rdO .uni b).toNat
     s.Passes i h 0 args →
      (i.hd.inTrap = false → prot (exec (.icinv h d a b) s)) ∧
      (i.hd.inTrap = true → s.Settled i →
        ∃ t, exec (.icinv h d a b) s = .next t ∧ t.mem = s.mem ∧ posts t ∧ fenced t ∧
          (i.hd.dstOf i.tm.depth .uni d ≠ .drop → ∃ hd, t.hand? i.c.team i.c.hix = some hd ∧
            hd.pend.getLast?.bind (·.inval) = some (first, n)) ∧
          (∀ c e, e ∈ (t.core c).icache ↔ e ∈ (s.core c).icache ∧
            ¬(e.1 = i.tm.part ∧ (e.2.2.1.toNat + 2 ^ 30 - first % 2 ^ 30) % 2 ^ 30 < n)) ∧
          (∀ x ∈ t.dies, x.inbox = []) ∧ ∀ c, (t.core c).spad = (s.core c).spad ∧ (t.core c).tlb = (s.core c).tlb)) ∧
    (let args : List Arg := [(.dst, .o d), (.src64, .o a), (.src, .o b)]
     let va := (i.hd.rdO64 .uni a).toNat
     let n := (i.hd.rdO .uni b).toNat
     s.Passes i h 0 args →
      (i.hd.inTrap = false → prot (exec (.tlbh h d a b) s)) ∧
      (i.hd.inTrap = true → va < 2 ^ 52 → s.accepted (fun t => s.pasidOf t == s.pasidOf i.tm) (fun _ => true) = false →
        exec (.tlbh h d a b) s = s.stall) ∧
      (i.hd.inTrap = true → va < 2 ^ 52 → s.accepted (fun t => s.pasidOf t == s.pasidOf i.tm) (fun _ => true) = true →
        let hit (x : Tlb) : Prop := x.pasid = s.pasidOf i.tm ∧ (n = 0xFFFFFFFF ∨ (n ≠ 0 ∧
          x.vbase < va / 65536 * 65536 + n * 65536 ∧ va / 65536 * 65536 < x.vbase + x.size))
        ∃ t, exec (.tlbh h d a b) s = .next t ∧ posts t ∧
          (∀ c x, x ∈ (t.core c).tlb ↔ x ∈ (s.core c).tlb ∧ ¬((s.part i.tm.part).hasCore c = true ∧ hit x)) ∧
          ∀ (y : Die) (k : Nat), t.die? k = some y → (∀ x ∈ y.tlb, ¬hit x) ∧
            (n ≠ 0 → ∀ x ∈ y.walks, x.pasid ≠ s.pasidOf i.tm)))

/-! ### The sequencer and the steps behind it -/

/-- R16, R21 to R23, R26, R28, R34: at a boundary a hand serves the trap region first. With a block wanted there it visits, on entry, the
lowest one, and inside the lowest above its trap position, or wraps to the lowest. Else it visits the lowest wanted user block above
its user position, or wraps to the lowest, which swc counts; the threads that want the block are active. A HOLD block is chosen only
when no thread that has not retired is at a lower one of its domain; the flag is what the header holds at the choice (log 59).
In a VOID block the threads take Undefined-Label, whatever else the header holds, and at a malformed header or a word that is none
Illegal-Instruction (R17, R18, R22). With no block to choose the hand leaves the region, or parks, and with all threads retired it
retires. Stated for a header that is fetched without a walk, and with no append of the hand on its way (R264).
R86: a timer that has come due is pending first; a pending one is taken, as Timer, by the unparked threads that are not at trap level, before
the choice. -/
def Obligations.BlockChoice : Prop :=
  ∀ (s : State) (t h : Nat) (tm : Team) (hd : Hand), s.team? t = some tm → s.hand? t h = some hd →
    s.handLive tm = true → hd.phase = .boundary → hd.busy = 0 → s.appending t h = false →
    let p := s.part tm.part
    let in_ (r : Bool) (x : Thread) : Prop := x.st ≠ .retired ∧ p.inRegion x.wa = r
    let wanted (r : Bool) (a : CodeAddr) : Prop := (∃ x ∈ hd.threads, x.st = .unparked ∧ x.wa = a) ∧ p.inRegion a = r ∧
      (s.isHold tm r a = false ∨ ∀ x ∈ hd.threads, in_ r x → a.toNat ≤ x.wa.toNat)
    let ahead (q : Option CodeAddr) (a : CodeAddr) : Prop := ∀ y, q = some y → y.toNat < a.toNat
    let picks (r : Bool) (q : Option CodeAddr) (b : CodeAddr) (wrap : Bool) : Prop := wanted r b ∧
      if wrap then ∀ a, wanted r a → ¬ahead q a ∧ b.toNat ≤ a.toNat else ahead q b ∧ ∀ a, wanted r a → ahead q a → b.toNat ≤ a.toNat
    let alone (t' : State) : Prop := t'.device = s.device ∧ t'.cores = s.cores ∧ ∀ u v, ¬(u = t ∧ v = h) → t'.hand? u v = s.hand? u v
    let begins (r : Bool) (b : CodeAddr) (wrap : Bool) (w : Dword) (t' : State) (m : Hand) : Prop :=
      alone t' ∧ t'.hand? t h = some m ∧ m.phase = .visit ∧ m.inTrap = r ∧ m.pos = b ∧ m.off = 0 ∧
      m.upos = (if r then hd.upos else some b) ∧ m.tpos = (if r then some b else hd.tpos) ∧
      (fld w 63 56 = 1 → m.blen = fld w 45 30 ∧ m.label = w.extractLsb' 18 12) ∧
      m.swc = (if wrap && !r then hd.swc + 1 else hd.swc) ∧
      m.busy = (if wrap || r != hd.inTrap then 6 else if hd.how = .toEnd ∧ b = hd.pos + 1 + BitVec.ofNat 30 hd.blen then 0 else 2) ∧
      (∀ k, k < 128 → m.act.getLsbD k = decide (k < hd.threads.length ∧ (hd.thr k).st = .unparked ∧ (hd.thr k).wa = b)) ∧
      (m.k, m.q, m.ab, m.as, m.pend, m.sbuf, m.hs, m.tmr) = (hd.k, hd.q, hd.ab, hd.as, hd.pend, hd.sbuf, hd.hs, hd.tmr)
    let visits (r : Bool) (b : CodeAddr) (wrap : Bool) : Prop := ∀ w, s.Code tm r b w →
      let sound := w.getLsbD 14 = false ∧ hdrMalformed p b w = false
      (fld w 63 56 = 1 → sound →
        ∃ (t' : State) (m : Hand), exec (.blockChoice t h) s = .next t' ∧ begins r b wrap w t' m ∧
          ∀ k, k < hd.threads.length → k < 128 → m.thr k = { hd.thr k with
            re := if w.getLsbD 13 = true ∧ (hd.thr k).st = .unparked ∧ (hd.thr k).wa = b then b else (hd.thr k).re }) ∧
      (¬(fld w 63 56 = 1 ∧ sound) → ∃ (t' : State) (m : Hand), begins r b wrap w t' m ∧ m.threads = hd.threads ∧
        exec (.blockChoice t h) s = .next (t'.takeFaults t h b (m.actives.map fun k =>
          (k, { cause := if fld w 63 56 = 1 ∧ w.getLsbD 14 = true then 3 else 1 }))))
    ((hd.tp = false ∨ ∀ x ∈ hd.threads, x.st = .unparked → x.tl = true) → s.timerDue tm hd = false →
      (∀ b wrap, picks true (if hd.inTrap then hd.tpos else none) b wrap → visits true b wrap) ∧
      ((∀ a, ¬wanted true a) → (∀ b wrap, picks false hd.upos b wrap → visits false b wrap) ∧
        ((∀ a, ¬wanted false a) →
          (hd.inTrap = true → ∃ t' : State, exec (.blockChoice t h) s = .next t' ∧ alone t' ∧
            t'.hand? t h = some { hd with inTrap := false, busy := 6, how := .unparked }) ∧
          (hd.inTrap = false → (∃ x ∈ hd.threads, x.st ≠ .retired) → ∃ t' : State,
            exec (.blockChoice t h) s = .next t' ∧ alone t' ∧ t'.hand? t h = some { hd with phase := .parked }) ∧
          (hd.inTrap = false → (∀ x ∈ hd.threads, x.st = .retired) → ∃ (t' : State) (m : Hand),
            exec (.blockChoice t h) s = .next t' ∧ t'.hand? t h = some m ∧ m.phase = .retired)))) ∧
    (∀ ts, ts ≠ [] → hd.tp = true → s.timerDue tm hd = false →
      ts = (List.range hd.threads.length).filter (fun k => (hd.thr k).st == .unparked && !(hd.thr k).tl) →
      let s1 := (s.updHand t h fun x => { x with tp := false }).takeFaults t h 0 (ts.map fun k => (k, { cause := 0x17 }))
      ∀ t', exec (.blockChoice t h) s1 = .next t' → t' ≠ s1 → exec (.blockChoice t h) s = .next t') ∧
    (s.timerDue tm hd = true → ∃ s1, exec (.timerPending t h) s = .next s1 ∧
      ∀ t', exec (.blockChoice t h) s1 = .next t' → t' ≠ s1 → exec (.blockChoice t h) s = .next t')

/-- R86, R219: when rcyc has reached a nonzero tmr, tmr becomes 0, the timer is pending, `hs.tf` is set, and the threads
parked by PARK unpark. R89 to R91: a formed result is written to its place, and only there, and leaves the pending ones;
the switch marker ends with the last. R74, R91: the pending result of WRSR wlo moves LO, keeps the entries below its bound and
loads those that it brings, once no pending result of the thread belongs to an entry that it takes out, which is the model's choice
(log 7). R294: the result of an ICINV waits for the hand's fence, and drops its words from the caches of all cores as it is written. R350, R375: the fault record that waits longest is written at the ring's producer
index, which goes up by 1, when the ring has room. -/
def Obligations.HandEvents : Prop :=
  (∀ (s : State) (t h : Nat) (tm : Team) (hd : Hand), s.team? t = some tm → s.hand? t h = some hd →
    (tm.st = .running ∨ tm.st = .saving → s.launchDead tm.part tm.launch = false → hd.tmr ≠ 0 → hd.tmr.toNat ≤ tm.rcyc →
      exec (.timerPending t h) s = .next (s.updHand t h fun x => x.settle { x with
        tmr := 0, tp := true, hs := x.hs ||| 4#32
        threads := x.threads.map fun y =>
          if y.st = .parked ∧ y.wait = .park then { y with st := .unparked, wait := .none } else y })) ∧
    (∀ (n : Nat) (p : Pend) (v : Word), hd.pend[n]? = some p → p.val = some v → (∀ u lo hi es, p.dst ≠ .frame u lo hi es) →
      let fenced : Prop := ∃ a ∈ s.arrivals ++ s.heldArr, a.id ∈ hd.fence
      (p.inval ≠ none → fenced → exec (.longResultWrite t h n) s = .next s) ∧
      ((p.inval = none ∨ ¬fenced) → ∃ (t' : State) (m : Hand), exec (.longResultWrite t h n) s = .next t' ∧ t'.hand? t h = some m ∧
        t'.device = s.device ∧
        (∀ k, { t'.core k with icache := (s.core k).icache } = s.core k ∧
          ∀ e, e ∈ (t'.core k).icache ↔ e ∈ (s.core k).icache ∧ ∀ first count, p.inval = some (first, count) →
            ¬(e.1 = tm.part ∧ (e.2.2.1.toNat + 2 ^ 30 - first % 2 ^ 30) % 2 ^ 30 < count)) ∧ (∀ u w, ¬(u = t ∧ w = h) → t'.hand? u w = s.hand? u w) ∧
        m.pend = hd.pend.eraseIdx n ∧ m.sw = (hd.sw && !(hd.pend.eraseIdx n).isEmpty) ∧ m.hs = hd.hs ∧
        { m.rest with pend := hd.pend, sw := hd.sw } = hd.rest ∧
        ∀ q, hd.has q = true → (q ≠ p.dst → m.holds q = hd.holds q) ∧
          (q = p.dst → m.holds q = match q with
            | .pred _ _ | .qpred _ => v &&& 1
            | .ent _ _ | .kreg _ | .xreg _ _ | .frame _ _ _ _ | .drop => v))) ∧
    (∀ (n : Nat) (p : Pend) (v : Word) (u lo hi : Nat) (es : List Word), hd.pend[n]? = some p → p.val = some v →
      p.dst = .frame u lo hi es → p.inval = none →
      let stays (r : Pend) : Prop := ∀ e, r.dst = .ent u e → lo ≤ e ∧ e < hi
      ((∃ r ∈ hd.pend, ¬stays r) → exec (.longResultWrite t h n) s = .next s) ∧
      ((∀ r ∈ hd.pend, stays r) →
        ∃ (t' : State) (m : Hand), exec (.longResultWrite t h n) s = .next t' ∧ t'.hand? t h = some m ∧
          t'.device = s.device ∧ t'.cores = s.cores ∧ (∀ a w, ¬(a = t ∧ w = h) → t'.hand? a w = s.hand? a w) ∧
          { m with pend := hd.pend, sw := hd.sw, threads := hd.threads } = hd ∧
          m.pend = hd.pend.eraseIdx n ∧ m.sw = (hd.sw && !(hd.pend.eraseIdx n).isEmpty) ∧
          m.threads.length = hd.threads.length ∧
          ∀ j, j < hd.threads.length → (j ≠ u → m.thr j = hd.thr j) ∧
            (j = u → { m.thr j with stack := (hd.thr j).stack } = { hd.thr j with lo } ∧
              ∀ e, (m.thr j).stack.get e 0 = if lo ≤ e ∧ e < lo + es.length then es.getD (e - lo) 0
                else if lo ≤ e ∧ e < hi then (hd.thr j).stack.get e 0 else 0)))) ∧
  (∀ (s : State) (p : Nat) (r : RingRec) (rest : List RingRec), (s.part p).ringWait = r :: rest →
    let x := s.part p
    (x.scProd - x.scCons ≠ 4096 → ∃ t, exec (.faultRecordAppend p) s = .next t ∧ t.hands = s.hands ∧ t.teams = s.teams ∧
      s.Stored t (x.scBase.toNat + x.scProd.toNat % 4096 * 64) r.bytes ∧
      t.part p = { x with ringWait := rest, scProd := x.scProd + 1 } ∧ t.irqs = s.irqs ++ [(p, 4096)]) ∧
    (x.scProd - x.scCons = 4096 → exec (.faultRecordAppend p) s = .next s))

/-- R116, R119, R121, R263, R380: an acknowledgement frees one request slot, and its origin entry with the last; a
load's request that misses has its bytes read and joins the queue of its channel, unless that holds 64, when it waits; a channel takes
the oldest request that has waited 512 cycles, else the oldest that hits its open row, else the oldest, a read before a write of the same
cycle, and a read's results are then formed. Of the requests at a scratchpad bank those that have waited 64 cycles come first, the oldest
of them first, and then the order of requesters and tie-breaks: the bank serves the row of the first, with every other request at it for
that row. A load's request takes its bytes there and forms its results; a hand-instruction's write, reduction or atomic of the row is
made, and the old values are formed (R133). A die applies a write of another die exactly when it has applied every write that the write's
clock counts, and every older write of a common byte that waits there. That a load's bytes are read as its request is served, and
writes wait in a buffer of the hand, is the model's reading (logs 5 and 18). -/
def Obligations.MemorySteps : Prop :=
  (∀ (s : State) (c n : Nat) (o : Origin), (s.core c).origins[n]? = some o → o.performed ≠ 0 →
    ∃ t, exec (.requestDrain c n) s = .next t ∧ t.device = s.device ∧ t.hands = s.hands ∧
      (∀ k, k ≠ c → t.core k = s.core k) ∧ (t.core c).slots = (s.core c).slots - 1 ∧
      (o.undrained ≤ 1 → (t.core c).origins = (s.core c).origins.eraseIdx n) ∧
      (1 < o.undrained → (t.core c).origins[n]? =
        some { o with undrained := o.undrained - 1, performed := o.performed - 1 })) ∧
  (∀ (s : State) (tm : Team) (hd : Hand) (t h c pa : Nat) (r : ReadReq), s.readOf t h = some (c, r) → s.team? t = some tm →
    s.hand? t h = some hd → r.loc = .mem pa → s.readReqs.filter (fun x => x.of t h && x.ord == r.ord) = [r] →
    (∀ x ∈ r.items, ∃ a, x.loc = .mem a ∧ lineOf a = lineOf pa ∧ s.Sound a (tySize x.ty)) →
    s.loadReady t h r.ord (r.items.map fun x => (x.loc, tySize x.ty)) = true → pa < 0xC000000000 →
    s.inBudgets r.part (s.requestUnits r.core pa true) = true →
    let home : Bool := r.items.any fun x => x.got.isNone && x.home
    let byte (l : Loc) : Byte := (hd.forward r.ord l).getD (match l with
      | .mem a => if home then s.byteAt a else s.viewByte (dieOf tm.core) a
      | .slice k o => (s.core k).spad.get o 0)
    let u := paDie pa * 64 + paChan pa
    let q := s.chanQ.get u []
    (q.length < 64 → ∃ t' : State, exec (.homeSliceRequest t h true) s = .next t' ∧
      t'.chanQ.get u [] = q ++ [⟨paRow pa, false, s.cyc, some (r.taken byte)⟩] ∧ (∀ k, k ≠ u → t'.chanQ.get k [] = s.chanQ.get k []) ∧
      t'.hands = s.hands ∧ t'.mem = s.mem ∧ (home = false → t'.dies = s.dies) ∧
      ∀ k, t'.core k = { s.core k with reads := if k = c then (s.core k).reads.erase r else (s.core k).reads }) ∧
    (64 ≤ q.length → exec (.homeSliceRequest t h true) s = .next s)) ∧
  (∀ (s : State) (die ch : Nat), let u := die * 64 + ch
    let q := s.chanQ.get u []
    let key (r : ChanReq) : Nat := 2 * r.since + if r.write then 1 else 0
    q ≠ [] → ∃ r ∈ q,
      (let s' := { s with chanQ := s.chanQ.set u (q.erase r) [], openRow := s.openRow.set u r.row 0 }
       (r.read = none → exec (.hbmAccess die ch) s = .next s') ∧
       (∀ (x : ReadReq) (hd : Hand), r.read = some x → s.hand? x.team x.hix = some hd →
        ∃ t, exec (.hbmAccess die ch) s = .next t ∧ t.device = s'.device ∧
          t.hand? x.team x.hix = some { hd with pend := x.formed hd.pend } ∧
          (∀ a b, ¬(a = x.team ∧ b = x.hix) → t.hand? a b = s.hand? a b) ∧
          ∀ k, t.core k = { s.core k with slots := if k = x.core then (s.core k).slots - 1 else (s.core k).slots })) ∧
      (∀ x ∈ q, x.since + 512 ≤ s.cyc → r.since + 512 ≤ s.cyc ∧ key r ≤ key x) ∧
      ((∀ x ∈ q, s.cyc < x.since + 512) → ∀ x ∈ q, x.row = s.openRow.get u 0 → r.row = s.openRow.get u 0 ∧ key r ≤ key x) ∧
      ((∀ x ∈ q, s.cyc < x.since + 512 ∧ x.row ≠ s.openRow.get u 0) → ∀ x ∈ q, key r ≤ key x)) ∧
  (∀ (s : State) (c b : Nat) (r : BankReq),
    let here (x : BankReq) : Prop := x ∈ (s.core c).bankQ ∧ x.bank = b ∧ s.bankReady x = true
    let old (x : BankReq) : Prop := x.rank.since + 64 ≤ s.cyc
    let first (x y : BankReq) : Prop := (old x ∧ ¬old y) ∨ (old x ∧ old y ∧ x.rank.since < y.rank.since) ∨
      ((old x ↔ old y) ∧ (old x → x.rank.since = y.rank.since) ∧
        (x.rank.cls < y.rank.cls ∨ x.rank.cls = y.rank.cls ∧ x.rank.key < y.rank.key))
    let served (x : BankReq) : Bool := x.bank == b && x.row == r.row && s.bankReady x
    let name (x : BankReq) : Nat × Nat × BankRank × Nat × Nat × Nat := (x.bank, x.row, x.rank, x.team, x.hix, x.ord)
    here r → (∀ x, here x → x ≠ r → first r x) → (∀ x y, here x → served x = true → y ∈ (s.core c).bankQ → y.like x = true → served y = true) →
    (∃ t, exec (.scratchpadBankAccess c b) s = .next t ∧ t.mem = s.mem ∧ t.teams = s.teams ∧
      (∀ k, (t.core k).bankQ.map name = ((s.core k).bankQ.filter fun x => !(k == c && served x)).map name) ∧
      ∀ k, k ≠ c → (t.core k).spad = (s.core k).spad) ∧
    (∀ (tm : Team) (hd : Hand), s.team? r.team = some tm → s.hand? r.team r.hix = some hd → (s.core c).bankQ.filter served = [r] →
      (∀ x : ReadReq, r.read = some x → x.team = r.team → x.hix = r.hix → x.ord = r.ord →
        (∀ y ∈ x.items, ∃ o, y.loc = .slice c o ∧ o / 16 % 64 = r.bank ∧ o / 1024 % 512 = r.row) →
        (∀ z ∈ s.readReqs, z ≠ x → z.team = r.team → z.hix = r.hix → z.ord = r.ord → ∀ y ∈ z.items, ∀ o, y.loc = .slice c o →
          ¬(o / 16 % 64 = r.bank ∧ o / 1024 % 512 = r.row)) →
        let byte (l : Loc) : Byte := (hd.forward r.ord l).getD (match l with
          | .mem a => s.viewByte (dieOf tm.core) a
          | .slice k o => (s.core k).spad.get o 0)
        ∃ t, exec (.scratchpadBankAccess c b) s = .next t ∧ t.mem = s.mem ∧
          (dieOf c = dieOf tm.core → (∀ y ∈ x.items, y.home = false) → t.dies = s.dies) ∧
          t.hand? r.team r.hix = some { hd with pend := (x.taken byte).formed hd.pend } ∧
          (∀ m h, ¬(m = r.team ∧ h = r.hix) → t.hand? m h = s.hand? m h) ∧ ∀ k, (t.core k).spad = (s.core k).spad) ∧
      (∀ w : BufWrite,
        let mine (w : BufWrite) : Bool := w.ord == r.ord && w.slice == some c && w.pa / 16 % 64 == r.bank && w.pa / 1024 % 512 == r.row
        r.read = none → hd.sbuf.filter mine = [w] → w.team = r.team → w.hix = r.hix →
        let v (x : Rmw) := x.run (BitVec.ofNat 64 (ofBytes ((s.core c).spad.getRun 0 w.pa (tySize x.ty))))
        ∃ t, exec (.scratchpadBankAccess c b) s = .next t ∧ t.mem = s.mem ∧
          t.hand? r.team r.hix = some { hd with
            sbuf := hd.sbuf.filter fun w => !mine w
            pend := match w.red with | none => hd.pend | some x => x.formed (v x).1 hd.pend } ∧
          (∀ m h, ¬(m = r.team ∧ h = r.hix) → t.hand? m h = s.hand? m h) ∧
          s.SliceStored t c w.pa (match w.red with | none => w.data | some x => toBytes (tySize x.ty) (v x).2.toNat)))) ∧
  (∀ (s : State) (d n : Nat) (x : Die) (m : WMsg), s.die? d = some x → x.inbox[n]? = some m →
    let ready : Prop := (∀ y ∈ x.inbox.take n, ¬(y.pa < m.pa + m.old.length ∧ m.pa < y.pa + y.old.length)) ∧
      ∀ k, k < 8 → m.clock.getD k 0 ≤ x.clock.getD k 0 + if k = m.src then 1 else 0
    (ready → ∃ t, exec (.remoteWriteApply d n) s = .next t ∧ t.mem = s.mem ∧ t.hands = s.hands ∧ t.cores = s.cores ∧
      t.die? d = some { x with clock := List.zipWith Nat.max x.clock m.clock, inbox := x.inbox.eraseIdx n } ∧
      ∀ k, k ≠ d → t.die? k = s.die? k) ∧
    (¬ready → exec (.remoteWriteApply d n) s = .next s))

/-- R11, R13, R85, R123, R340, R355: a cycle adds the refill rate to every core's counter, up to its cap, and 1 to ccyc
and to rcyc of the running teams; a window's counts give the clusters of a die their `cong`; a period starts the
budgets again and brings in the new refill rate; of the rates only 32, 24 and 16 exist; heat chooses among them, and at
110 degrees, or a flow below 3, the package stops. -/
def Obligations.ClockAndHeat : Prop :=
  ∀ s : State,
    (∃ t, exec .activityCounterRefill s = .next t ∧ t.cyc = s.cyc + 1 ∧ t.mem = s.mem ∧
      (∀ c, (t.core c).activity = min 262144 ((s.core c).activity + s.refill) ∧ (t.core c).actStart = (t.core c).activity ∧
        (t.core c).spad = (s.core c).spad) ∧
      ∀ n tm, s.team? n = some tm → t.team? n = some { tm with
        rcyc := if tm.st = .running ∨ tm.st = .saving then (tm.rcyc + 1) % 2 ^ 64 else tm.rcyc }) ∧
    (∀ die (l : List Nat), die < 8 → l.length = 8 → ∃ m, exec (.congWindowEnd die l) s = .next { s with cong := m } ∧
      (∀ k, k < 8 → m.get (8 * die + k) 0 = let n := l.getD k 0
        if n < 32 then 0 else if n < 96 then 1 else if n < 192 then 2 else 3) ∧
      ∀ k, k / 8 ≠ die → m.get k 0 = s.cong.get k 0) ∧
    exec .budgetPeriodEnd s = .next { s with
      budget := [], refill := s.refillNext.getD s.refill, refillNext := none, periods := s.periods + 1 } ∧
    (let sets (o : Out) (rate : Nat) : Prop := ∃ t, o = .next t ∧ t.mem = s.mem ∧ t.stopped = s.stopped ∧
       t.refillNext.getD t.refill = rate ∧ t.hands = s.hands ∧ t.teams = s.teams ∧
       (rate ≠ s.refillNext.getD s.refill → ∀ p, p < 16 → (s.part p).clusters ≠ [] →
         ∃ r, (t.part p).ringWait = (s.part p).ringWait ++ [r] ∧ r.w1 = BitVec.ofNat 64 rate)
     (∀ rate, rate = 32 ∨ rate = 24 ∨ rate = 16 → sets (exec (.refillRateChange rate) s) rate) ∧
     (∀ rate, rate ≠ 32 → rate ≠ 24 → rate ≠ 16 → exec (.refillRateChange rate) s = .next s) ∧
     ∀ (j r f : Nat) (cool : Bool), let x := exec (.thermalEvent j r f cool) s
      (110 ≤ j ∨ f < 3 → ∃ t, x = .next t ∧ t.stopped = some 1) ∧
      (100 ≤ j → j < 110 → 3 ≤ f → sets x 16) ∧
      (j < 100 → 3 ≤ f → (95 ≤ j ∨ 1500 ≤ r) → sets x 24) ∧
      (j < 90 → 3 ≤ f → r < 1500 → cool = true → sets x 32))

/-! ### Teams and launches -/

/-- R43, R45 to R47, R54, R55: a dealer places the card that waits on the idle core that comes first, on a core whose quadrants are
whole: its team gets D', a quadrant and slot for each hand, its share from offset 0, which reads zero (the model's choice, log 2), its
banks, and its indices; a gang's teams go in ascending LID to the lowest cores of an idle cluster. R66: in a launch that records its trace
the placement is appended to it, or sets TRUNC beyond its room. R67: in replay the card goes to the core whose next entry holds it, and no
other, and without an entry the launch fails with Replay-Divergence. R390: a resumption card places its saved team by its section's header,
with the section's D' and share, on the first idle core, in replay too. R54: a card that has waited 2^23 cycles at the head of its queue is
served as class 7, and only such a card; in replay a launch has two heads, its oldest resumption and the oldest card that its trace has
next (log 71). R64, R379: a team that has run its quantum, asked for it, or only waits for faults is due. R51: the hands of a placed team
start at ENTRY with k0 to k7 from the card, and zeros. Stated for the one card of a die, without an affinity, for trace pages that need
no answer of the host, and for a block that has ENTRY and is fetched without a walk. -/
def Obligations.TeamPlacement : Prop :=
  (∀ (s : State) (die core : Nat) (d : Die) (c : DealCard) (l : Launch), s.die? die = some d → d.deal = [c] →
    d.heldFor = [] → s.launch? c.part c.launch = some l → l.st = .live → s.dumping c.part c.launch = false →
    s.inBudget actDealer die c.part 1 capDealer = true → c.card.aff = 0 →
    let idle (k : Nat) : Prop := (s.part c.part).hasCore k = true ∧ (∀ t ∈ s.teams, t.resident = true → t.core ≠ k) ∧
      (s.core k).msgs = [] ∧ (s.core k).drones = [] ∧ (s.core k).regCap = [0x40000, 0x40000, 0x40000, 0x40000]
    let first : Prop := dieOf core = die ∧ ∀ k, k < core → dieOf k = die → (s.part c.part).hasCore k = true →
      ∃ t ∈ s.teams, t.resident = true ∧ t.core = k ∧ 0 < t.hands
    let popped (t : State) : Prop := (∃ y, t.die? die = some y ∧ y.deal = [] ∧ y.lastServed = some (c.part, c.launch)) ∧ t.hands = s.hands
    let cleared (t : State) (k share : Nat) : Prop :=
      ∀ o, (t.core k).spad.get o 0 = if o < share then 0 else (s.core k).spad.get o 0
    let share := min l.record.spad 0x80000
    let seated (x : Team) (k j : Nat) : Prop :=
      let hands := (c.card.threads + 127) / 128
      let fits (depth : Nat) : Prop := depth ≤ l.record.depth ∧ (hands + 3) / 4 * (512 * depth) ≤ 0x40000
      x.st = .placed ∧ x.core = k ∧ x.part = c.part ∧ x.launch = c.launch ∧ x.card = c.card ∧
      x.lid = c.card.w5 + BitVec.ofNat 64 j ∧
      x.threads = c.card.threads ∧ x.hands = hands ∧ x.depth ∈ [32, 64, 96, 128] ∧ fits x.depth ∧
      (∀ depth ∈ [32, 64, 96, 128], fits depth → depth ≤ x.depth) ∧
      x.quads = (List.range hands).map (fun j => (j % 4, j / 4)) ∧ x.sbase = 0 ∧
      x.share = share ∧ x.accPhys = List.range l.record.acc ∧
      (c.card.root = true → x.n = c.card.w5.toNat + j ∧ x.x.toNat = x.n % l.record.gx ∧ x.y.toNat = x.n / l.record.gx % l.record.gy) ∧
      (c.card.root = false → x.x = c.card.x ∧ x.y = c.card.y ∧ x.z = c.card.z ∧
        x.n = x.x.toNat + l.record.gx * (x.y.toNat + l.record.gy * x.z.toNat)) ∧
      x.lix = x.n :: [l.record.s3, l.record.s4, l.record.s5, l.record.s6].map (fun m => if m = 0 then 0xFFFFFFFF else x.n / m)
    let i := l.trace.length
    let room : Prop := 8 + 16 * (i + 1) ≤ l.record.tlen
    let tr := l.record.trace
    (c.resume = none → c.card.am = false → l.record.acc ≤ 256 → c.card.level ≠ 3 → idle core →
      (l.dmode < 2 → first) → ∀ (mem : SMap Byte) (l' : Launch),
      (l.dmode = 0 → mem = s.mem ∧ l' = l) →
      (l.dmode = 1 → s.traceWaits l 1 = false ∧
        (room → l' = { l with trace := l.trace ++ [⟨core, 0, c.card.w5, true⟩] } ∧
          ∃ u v, s.vwrite l.pasid (tr + 8 + 16 * i) (toBytes 8 (core * 2 ^ 55) ++ toBytes 8 c.card.w5.toNat) = .ok u ∧
            u.vwrite l.pasid tr (toBytes 8 ((if l.truncated then 2 ^ 63 else 0) + i + 1)) = .ok v ∧ mem = v.mem) ∧
        (¬room → l' = { l with truncated := true } ∧ ∃ v, s.vwrite l.pasid tr (toBytes 8 (2 ^ 63 + i)) = .ok v ∧ mem = v.mem)) →
      (l.dmode = 2 → mem = s.mem ∧ l' = { l with trace := markPlaced core l.trace } ∧
        (l.trace.find? fun e => e.core == core && !e.placed) = some ⟨core, 0, c.card.w5, false⟩ ∧
        ∀ e ∈ l.trace, e.kind = 0 → e.lid = c.card.w5 → e.placed = false → e.core = core) → l.dmode < 3 →
      ∃ (t : State) (x : Team), exec (.dealerPop die) s = .next t ∧ t.teams = s.teams ++ [x] ∧ seated x core 0 ∧ x.gang = none ∧
        cleared t core share ∧ popped t ∧ t.mem = mem ∧ t.launch? c.part c.launch = some l') ∧
    (c.resume = none → c.card.level ≠ 3 → l.dmode = 2 → (∀ e ∈ l.trace, e.kind = 0 → e.lid = c.card.w5 → e.placed = true) →
      ∃ (t : State) (l' : Launch), exec (.dealerPop die) s = .next t ∧ t.teams = s.teams ∧ t.mem = s.mem ∧
        t.launch? c.part c.launch = some l' ∧ l'.st = .failing ∧ l'.cause = 0x16) ∧
    (c.resume = none → c.card.am = false → l.record.acc ≤ 256 → c.card.level = 3 → c.card.root = true → l.dmode = 0 →
      0 < l.record.s3 → l.record.s3 ≤ 6 → core % 6 = 0 → (∀ j, j < 6 → idle (core + j)) → first →
      ∃ (t : State) (xs : List Team), exec (.dealerPop die) s = .next t ∧ t.teams = s.teams ++ xs ∧ xs.length = l.record.s3 ∧
        (∀ j x, xs[j]? = some x → seated x (core + j) j ∧ x.gang = some c.card.w5.toNat ∧ cleared t (core + j) share) ∧
        popped t ∧ t.mem = s.mem ∧ t.launches = s.launches) ∧
    (∀ (x : Team) (bs : List Byte), c.resume ≠ none → c.gang = none → s.team? c.team = some x → idle core → first →
      s.vread l.pasid x.section_ 128 = (.ok bs, s) →
      let w (n : Nat) : Dword := BitVec.ofNat 64 (ofBytes ((bs.drop (8 * n)).take 8))
      let hands := fld (w 9) 63 56
      let depth := 32 * (fld (w 9) 55 54 + 1)
      let acc := if fld (w 0) 17 17 = 1 then 0 else l.record.acc
      0 < hands → hands ≤ 64 → (hands + 3) / 4 * (512 * depth) ≤ 0x40000 → fld (w 9) 31 0 ≤ 0x80000 → x.share = fld (w 9) 31 0 →
      acc ≤ 256 → bs.length = 128 →
      ∃ t : State, exec (.dealerPop die) s = .next t ∧ popped t ∧ cleared t core x.share ∧ t.mem = s.mem ∧ t.launches = s.launches ∧
        t.team? c.team = some { x with st := .restoring, core, sbase := 0, depth
                                       quads := (List.range hands).map (fun j => (j % 4, j / 4)), accPhys := List.range acc } ∧
        ∀ k, k ≠ c.team → t.team? k = s.team? k)) ∧
  (∀ (s : State) (die n : Nat) (d : Die) (c : DealCard), s.die? die = some d → d.deal[n]? = some c →
    let replay : Prop := ∃ l, s.launch? c.part c.launch = some l ∧ l.dmode = 2
    let ahead (k : Nat) (x : DealCard) : Prop :=
      (¬replay ∧ k < n) ∨ (replay ∧ c.resume.isSome = true ∧ x.resume.isSome = true ∧ k < n) ∨
      (replay ∧ c.resume = none ∧ x.resume = none ∧
        if s.isNext c then s.isNext x = true ∧ k < n else s.isNext x = true ∨ k < n)
    (∀ k x, k ≠ n → d.deal[k]? = some x → x.part = c.part → x.launch = c.launch → ¬ahead k x) →
    (c.since + 0x800000 ≤ s.cyc → exec (.cardAged die n) s =
      .next (s.updDie die fun x => { x with deal := setAt x.deal n fun y => { y with prio := 7 } })) ∧
    (s.cyc < c.since + 0x800000 → exec (.cardAged die n) s = .next s)) ∧
  (∀ (s : State) (n : Nat) (x : Team), s.team? n = some x → x.st = .running →
    let ths : List Thread := ((s.handsOf n).flatMap (·.threads)).filter fun y => y.st != .retired
    let due : Prop := x.due = true ∨ x.rcyc0 + 0x200000 ≤ x.rcyc ∨
      ((∀ y ∈ ths, y.st = .parked ∨ y.st = .faultParked) ∧ ∃ y ∈ ths, y.st = .faultParked)
    (due → ∃ t, exec (.teamDue n) s = .next t ∧ t.team? n = some { x with due := true } ∧ t.hands = s.hands ∧
      t.mem = s.mem ∧ t.cores = s.cores ∧ ∀ k, k ≠ n → t.team? k = s.team? k) ∧
    (¬due → exec (.teamDue n) s = .next s)) ∧
  (∀ (s : State) (n : Nat) (x : Team) (l : Launch) (w : Dword), s.team? n = some x → x.st = .placed → x.gang = none →
    s.launch? x.part x.launch = some l → l.st = .live → (s.part x.part).inRegion x.card.entry = false →
    s.Code x false x.card.entry w → fld w 63 56 = 1 → w.getLsbD 16 = true →
    ∃ t, exec (.teamStart n) s = .next t ∧ t.mem = s.mem ∧ t.cores = s.cores ∧ t.launches = s.launches ∧
      t.team? n = some { x with st := .running, placeAt := s.cyc, rcyc0 := x.rcyc } ∧
      (∀ k, k ≠ n → t.team? k = s.team? k) ∧ t.hands.length = s.hands.length + x.quads.length ∧
      (∀ k, k < s.hands.length → t.hands[k]? = s.hands[k]?) ∧
      ∀ h q, x.quads[h]? = some q → ∃ hd, t.hands[s.hands.length + h]? = some hd ∧
        { hd with k := [] } =
          { team := n, hix := h, quad := q.1, slot := q.2, resStart := s.cyc
            threads := List.replicate (min 128 (x.threads - 128 * h)) { wa := x.card.entry } } ∧
        (hd.k.getRun 0 0 8 = [x.card.w1.extractLsb' 0 32, x.card.w1.extractLsb' 32 32 &&& 0xFFFFF#32,
          x.card.w6.extractLsb' 0 32, x.card.w6.extractLsb' 32 32, x.card.w7.extractLsb' 0 32,
          x.card.w7.extractLsb' 32 32, x.card.w2.extractLsb' 0 32, x.card.w2.extractLsb' 32 32 &&& 0xFFFFF#32]) ∧
        ∀ k, 8 ≤ k → hd.k.get k 0 = 0)

/-- R62, R52, R293: a message that arrives joins its core's queue, which holds 64; one that the dealer rejects fails its
launch, and those of a failed launch are dropped. R62, R51: the core's first message starts a handler team of one hand,
with the sender's indices and without scratchpad and banks. Stated for a core without teams, outside D mode, and for a
block that has ENTRY and is fetched without a walk. -/
def Obligations.ActiveMessages : Prop :=
  (∀ (s : State) (core : Nat) (m : Msg) (r : List Msg) (l : Launch), s.amFlight = m :: r → m.core = core →
    s.launch? m.part m.launch = some l →
    (l.st = .live → m.card.rejected true = false → (s.core core).msgs.length < 64 →
      ∃ t, exec (.amArrival core) s = .next t ∧ t.amFlight = r ∧ (t.core core).msgs = (s.core core).msgs ++ [m] ∧
        (∀ k, k ≠ core → t.core k = s.core k) ∧ t.mem = s.mem ∧ t.teams = s.teams ∧ t.hands = s.hands) ∧
    (l.st = .live → m.card.rejected true = false → 64 ≤ (s.core core).msgs.length → exec (.amArrival core) s = .next s) ∧
    (l.st = .live → m.card.rejected true = true → ∃ t l', exec (.amArrival core) s = .next t ∧ t.amFlight = r ∧
      t.cores = s.cores ∧ t.launch? m.part m.launch = some l' ∧ l'.st = .failing ∧ l'.cause = 1) ∧
    (l.st = .failing ∨ l.st = .failed → exec (.amArrival core) s = .next { s with amFlight := r })) ∧
  (∀ (s : State) (core : Nat) (m : Msg) (r : List Msg) (l : Launch) (w : Dword) (at_ : Team), (s.core core).msgs = m :: r →
    s.launch? m.part m.launch = some l → l.st = .live → l.dmode = 0 → m.card.am = true → m.card.threads ≤ 128 →
    (∀ t ∈ s.teams, t.resident = true → t.core ≠ core) → (s.core core).regCap = [0x40000, 0x40000, 0x40000, 0x40000] →
    at_.part = m.part → at_.launch = m.launch → at_.core = core → (s.part m.part).inRegion m.card.entry = false →
    s.Code at_ false m.card.entry w → fld w 63 56 = 1 → w.getLsbD 16 = true →
    ∃ t, exec (.amTeamStart core) s = .next t ∧ t.mem = s.mem ∧ (t.core core).msgs = r ∧
      (∀ k, k ≠ core → t.core k = s.core k) ∧ t.launches = s.launches ∧ t.nextId = s.nextId + 1 ∧
      (∃ x ∈ t.teams, x.id = s.nextId ∧ x.st = .running ∧ x.core = core ∧ x.part = m.part ∧ x.launch = m.launch ∧
        x.card = m.card ∧ x.lid = m.card.w5 ∧ x.x = m.x ∧ x.y = m.y ∧ x.z = m.z ∧ x.n = m.n ∧ x.lix = m.lix ∧
        x.hands = 1 ∧ x.threads = m.card.threads ∧ x.share = 0 ∧ x.accPhys = [] ∧ x.quads = [(0, 0)] ∧ x.joined = true) ∧
      ∃ hd, t.hands = s.hands ++ [hd] ∧ { hd with k := [] } =
        { team := s.nextId, hix := 0, resStart := s.cyc
          threads := List.replicate m.card.threads { wa := m.card.entry } } ∧
        hd.k.getRun 0 0 2 = [m.card.w1.extractLsb' 0 32, m.card.w1.extractLsb' 32 32 &&& 0xFFFFF#32])

/-- R57, R58: a team whose hands have all retired, with nothing of it on its way, gives back its core and tells its join
counter, which at 1 releases its continuation. R63: a launch without teams, cards, messages, entries and armed counters ends, and not while a team of it is
left. R382: a launch that has failed loses its cards and messages, and its teams are stopped and freed. R381: the refusal
of a write fails the launch of its origin entry with an imprecise-class record, which names the threads, the address and
the reason. -/
def Obligations.TeamsEnd : Prop :=
  (∀ (s : State) (n : Nat) (x : Team) (l : Launch), s.team? n = some x → x.st = .running →
    s.launch? x.part x.launch = some l → l.st = .live → (∀ c ∈ s.cores, ∀ w ∈ c.2.heldRed, w.w.team ≠ n) →
    (∃ hd ∈ s.hands, hd.team = n) → (∀ hd ∈ s.hands, hd.team = n → hd.phase = .retired ∧ hd.pend = [] ∧ hd.sbuf = []) →
    (∀ d ∈ s.dies, ∀ a ∈ d.appends, a.team ≠ n) → (∀ a ∈ s.arrivals, a.team ≠ n) →
    (∀ c ∈ s.cores, (∀ o ∈ c.2.origins, o.team ≠ n) ∧ ∀ e ∈ c.2.entries, e.team ≠ n) →
    let freed (t : State) : Prop := t.hands = s.hands.filter (fun hd => hd.team != n) ∧ (∃ y, t.team? n = some y ∧
      y.st = .gone ∧ y.quads = [] ∧ y.accPhys = [] ∧ y.claims = [] ∧ y.records = [] ∧ y.evRes = 0)
    let counter (pa count : Nat) : Prop := x.card.join % 16 = 0 ∧ pa < 0xC000000000 ∧
      (∃ unc tl, s.walkVa l.pasid x.card.join .atomic false = ((.ok pa unc, some tl), s)) ∧
      s.wordAt pa = BitVec.ofNat 64 count ∧ count < 2 ^ 32 ∧ fld (s.wordAt (pa + 8)) 63 52 = 0
    (l.dmode = 0 ∨ ((∀ (k : Nat) (d : Die), s.die? k = some d → d.staged = []) ∧ ∀ y ∈ s.teams, y.heldRed = [])) →
    (x.card.join = 0 → ∃ t, exec (.teamRetire n) s = .next t ∧ freed t ∧ t.mem = s.mem ∧ t.launches = s.launches) ∧
    (∀ pa count, x.card.join ≠ 0 → counter pa count → 1 < count →
      ∃ t, exec (.teamRetire n) s = .next t ∧ freed t ∧ s.Stored t pa (toBytes 4 (count - 1)) ∧ t.launches = s.launches) ∧
    (∀ pa c, x.card.join ≠ 0 → counter pa 1 → l.dmode = 0 → s.Releasable l pa c →
      ∃ t, exec (.teamRetire n) s = .next t ∧ freed t ∧ s.Stored t pa (toBytes 4 0) ∧ s.Releases t l pa c ∧
        t.launch? x.part x.launch = some { l with armed := l.armed.filter fun x => x != pa }) ∧
    (∀ pa, x.card.join ≠ 0 → counter pa 0 → ∃ t l', exec (.teamRetire n) s = .next t ∧ t.mem = s.mem ∧
      t.launch? x.part x.launch = some l' ∧ l'.st = .failing ∧ l'.cause = 0x13)) ∧
  (∀ (s : State) (p h : Nat) (l : Launch), s.launch? p h = some l → l.st = .live ∨ l.st = .failed →
    let mine (x : Team) : Prop := x.part = p ∧ x.launch = h
    ((∀ d ∈ s.dies, ∀ c ∈ d.deal, ¬(c.part = p ∧ c.launch = h)) → (∀ m ∈ s.amFlight, ¬(m.part = p ∧ m.launch = h)) →
      (∀ c ∈ s.cores, (∀ m ∈ c.2.msgs, ¬(m.part = p ∧ m.launch = h)) ∧ (∀ o ∈ c.2.origins, ¬(o.part = p ∧ o.launch = h)) ∧
        ∀ e ∈ c.2.entries, ∀ x ∈ s.teams, mine x → x.id ≠ e.team) →
      (∀ pa ∈ l.armed, fld (s.wordAt pa) 31 0 = 0) → (∀ x ∈ s.teams, mine x → x.st = .gone) → (∀ x ∈ s.teams, x.heldRed = []) →
      ∃ t, exec (.quiescenceReport p h) s = .next t ∧ t.mem = s.mem ∧ t.hands = s.hands ∧
        t.launch? p h = some { l with st := if l.st = .live then .ended else .endedFailed } ∧
        ∀ x ∈ t.teams, ¬mine x) ∧
    ((∃ x ∈ s.teams, mine x ∧ x.st ≠ .gone) → exec (.quiescenceReport p h) s = .next s)) ∧
  (∀ (s : State) (p h : Nat) (l : Launch), s.launch? p h = some l → l.st = .failing →
    (∀ x ∈ s.teams, x.part = p → x.launch = h → s.heldWaits (s.coreHeld x.id) = false) →
    ∃ (t : State) (l' : Launch), exec (.launchFail p h) s = .next t ∧ t.launch? p h = some l' ∧ l'.st = .failed ∧
      l'.armed = [] ∧ (∀ x ∈ t.teams, x.part = p → x.launch = h → x.st = .gone) ∧
      (∀ x ∈ s.teams, x.part = p → x.launch = h → x.st ≠ .gone → ∀ hd ∈ t.hands, hd.team ≠ x.id) ∧
      (∀ m ∈ t.amFlight, ¬(m.part = p ∧ m.launch = h)) ∧ ∀ d ∈ t.dies, ∀ c ∈ d.deal, ¬(c.part = p ∧ c.launch = h)) ∧
  (∀ (s : State) (core n : Nat) (o : Origin) (mask : BitVec 128) (va : Dword) (reason : Nat) (l : Launch),
    (s.core core).origins[n]? = some o → mask &&& o.mask ≠ 0 → reason ≤ 3 → s.launch? o.part o.launch = some l →
    l.st = .live → core < 512 → o.hix < 64 → o.launch < 2 ^ 32 →
    ∃ (t : State) (l' : Launch) (r : RingRec), exec (.impreciseStore core n mask va reason) s = .next t ∧ t.mem = s.mem ∧
      t.hands = s.hands ∧ t.cores = s.cores ∧ t.launch? o.part o.launch = some l' ∧ l'.st = .failing ∧ l'.cause = 0x1B ∧
      l'.fseq = (s.part o.part).seqNext.toNat ∧ (t.part o.part).ringWait = (s.part o.part).ringWait ++ [r] ∧
      fld r.w0 63 56 = 0x1B ∧ fld r.w0 55 47 = core ∧ fld r.w0 46 41 = o.hix ∧ fld r.w0 40 38 = 5 ∧
      fld r.w0 29 0 = o.addr.toNat ∧ fld r.w2 63 32 = o.launch ∧ fld r.w2 31 0 = (s.part o.part).seqNext.toNat ∧
      (∀ t, t < 128 → (if t < 64 then r.w3.getLsbD t else r.w4.getLsbD (t - 64)) = (mask &&& o.mask).getLsbD t) ∧
      r.w6 = va ∧ r.w7 = BitVec.ofNat 64 reason)

/-! ### Saving and restoring -/

/-- R64, R383: a team is saved for DUMP, or when its dealer picks it for a card that it cannot place: one that runs, is
due, is of the card's partition, and of no higher class; its core is then held for that card. R384: a class with nothing
under way acknowledges once, and the hands not while a result is pending. R385 to R387: when all have, the section, of
the size that R387 gives, is written at SAVE + LID × TSZ; the team leaves its core and waits as a card of its launch; a
section larger than TSZ fails the launch, and a page that the host has still to translate makes the save wait (R368). R39, R387, R388: the
section holds the card, the header, the claims, for each hand its sweep record, its registers and its thread blocks with what each thread
waits for and its resident entries, then the scratchpad and the accumulator elements. R39, R22: a hand that stops at the end of its visit
is saved at the boundary, its threads at the next header. Where a saved share's waiters point meanwhile (log 24), and that the section is
written at privilege T (log 25), are the model's readings. Stated for a team outside a gang. -/
def Obligations.TeamSaving : Prop :=
  ∀ (s : State) (n : Nat) (x : Team) (l : Launch), s.team? n = some x → s.launch? x.part x.launch = some l → l.st = .live →
    x.gang = none →
    let die := dieOf x.core
    (x.st = .running → s.dumping x.part x.launch = true → ∃ t, exec (.saveRequest n) s = .next t ∧
      t.team? n = some { x with st := .saving, acks := [] } ∧ t.hands = s.hands ∧ t.cores = s.cores ∧ t.dies = s.dies ∧
      t.mem = s.mem) ∧
    (∀ d c, x.st = .running → s.dumping x.part x.launch = false → s.die? die = some d → s.victim die = some (x, c) →
      (x.part = c.part ∧ s.prioOf x.part x.launch ≤ s.classOf c ∧ s.isDue x = true ∧ c ∈ d.deal) ∧
      ∃ t, exec (.saveRequest n) s = .next t ∧ t.team? n = some { x with st := .saving, acks := [] } ∧
        t.hands = s.hands ∧ t.cores = s.cores ∧ t.mem = s.mem ∧
        t.die? die = some { d with heldFor := d.heldFor ++ [(c.id, x.core)] }) ∧
    (∀ cls, x.st = .saving → cls ≤ 6 → cls ∉ x.acks → (∀ e ∈ (s.core x.core).entries, e.team ≠ n) →
      (∀ d ∈ s.dies, ∀ a ∈ d.appends, a.team ≠ n) →
      ((∀ hd ∈ s.hands, hd.team = n → hd.pend = [] ∧ hd.sbuf = []) → ∃ t, exec (.collectorAck n cls) s = .next t ∧
        t.team? n = some { x with acks := x.acks ++ [cls] } ∧ t.mem = s.mem ∧ t.hands = s.hands ∧
        ∀ k, { t.core k with resid := (s.core k).resid } = s.core k ∧
          ((∀ r ∈ (s.core k).resid, r.dead = false) → t.core k = s.core k)) ∧
      ((∃ hd ∈ s.hands, hd.team = n ∧ hd.pend ≠ []) → cls = 0 → exec (.collectorAck n cls) s = .next s)) ∧
    (∀ (hd : Hand), s.handsOf n = [hd] → s.hand? n hd.hix = some hd → (∀ h ∈ s.hands, h.team = n → h = hd) → hd.team = n →
      hd.phase = .visit →
      let wa := hd.pos + 1 + BitVec.ofNat 30 hd.blen
      hd.act = 0 ∨ hd.blen ≤ hd.off ∧ s.Wanted x hd.inTrap wa ∧ (∀ t ∈ hd.actives, (hd.thr t).tl = hd.inTrap) →
      ∃ (s1 : State) (m : Hand), s.endVisits x = (false, s1) ∧ s1.device = s.device ∧ s1.hand? n hd.hix = some m ∧
        m.phase = .boundary ∧ ∀ t, t < hd.threads.length → (m.thr t).wa = if t ∈ hd.actives then wa else (hd.thr t).wa) ∧
    (∀ s1 : State, x.st = .saving → (∀ c, c ≤ 6 → c ∈ x.acks) → s.dumping x.part x.launch = false →
      (∀ a ∈ s.arrivals, a.team ≠ n ∧ x.ownShare a.loc = false) → s.endVisits x = (false, s1) →
      s1.launchDead x.part x.launch = false →
      let bs := s1.sectionBytes x
      let va := (if l.save = 0 then l.saveDflt.toNat % 2 ^ 52 else l.save) + x.lid.toNat * (l.tsz * 65536)
      ((s1.handsOf n).length = x.hands → bs.length = 384 + x.hands * (9536 + 512 * x.depth) + (x.share + 63) / 64 * 64 +
        4096 * x.acc + (16 * x.records.length + 63) / 64 * 64 + 128 * (s1.entriesOf x).length) ∧
      (∀ j, j < 8 → secW bs (8 * j) = x.card.words.getD j 0) ∧ secW bs 64 = BitVec.ofNat 64 x.rcyc ∧
      secW bs 72 = BitVec.ofNat 64 (x.hands * 2 ^ 56 + (x.depth / 32 - 1) * 2 ^ 54 + x.share) ∧
      (∀ j, j < 4 → secW bs (80 + 8 * j) = x.alloc.extractLsb' (64 * j) 64) ∧
      secW bs 112 = BitVec.ofNat 64 (x.evRes * 2 ^ 32 + x.records.length) ∧
      secW bs 120 = BitVec.ofNat 64 ((s1.entriesOf x).length * 2 ^ 32) ∧
      (∀ b, b < 256 → bs.getD (128 + b) 0 = if x.claims.get b 0 = 0 then 0xFF else BitVec.ofNat 8 (x.claims.get b 0 - 1)) ∧
      let at_ (h : Nat) : Nat := 384 + h * (9536 + 512 * x.depth)
      (∀ h hd, (s1.handsOf n)[h]? = some hd → hd.off < 2 ^ 16 → (∀ a ∈ s1.heldArr, a.team ≠ n) →
        let w (o : Nat) : Dword := secW bs (at_ h + o)
        fld (w 0) 63 62 = (match hd.phase with | .visit => 0 | .boundary => 1 | .parked => 2 | .retired => 3) ∧
        (w 0).getLsbD 61 = hd.inTrap ∧ (w 0).extractLsb' 31 30 = hd.pos ∧
        fld (w 0) 30 15 = (if hd.phase = .visit then hd.off else 0) ∧ fld (w 0) 14 0 = 0 ∧
        (w 8).extractLsb' 34 30 = hd.upos.getD 0x3FFFFFFF ∧ fld (w 8) 33 32 = 0 ∧ (w 8).extractLsb' 0 32 = hd.swc ∧
        (∀ u, u < 64 → (w 16).getLsbD u = (decide (hd.phase = .visit) && hd.act.getLsbD u) ∧
          (w 24).getLsbD u = (decide (hd.phase = .visit) && hd.act.getLsbD (64 + u))) ∧
        (∀ k, k < 32 → secH bs (at_ h + 1056 + 4 * k) = hd.k.get k 0) ∧
        (∀ k, k < 8 → secH bs (at_ h + 1184 + 8 * k) = hd.ab.get k 0 ∧ secH bs (at_ h + 1188 + 8 * k) = hd.as.get k 0) ∧
        w 1248 = hd.tmr ∧ secH bs (at_ h + 1256) = hd.hs ∧ secH bs (at_ h + 1260) = hd.fmt ∧
        secH bs (at_ h + 1264) = BitVec.ofNat 32 (hd.q.toNat % 8 + if hd.tp then 8 else 0) ∧
        ∀ u, u < 128 →
          let th := hd.thr u
          let b := 1344 + u * (64 + 4 * x.depth)
          (w (32 + 8 * u)).extractLsb' 34 30 = th.wa ∧ (w (32 + 8 * u)).extractLsb' 4 30 = th.re ∧ (w (32 + 8 * u)).getLsbD 3 = th.tl ∧
          fld (w (32 + 8 * u)) 2 0 = (match th.st with | .unparked => 0 | .retired => 1 | .parked => 2 | .faultParked => 4) ∧
          (th.wb < 2 ^ 24 → th.lo < 2 ^ 24 → w b = BitVec.ofNat 64 (th.wb * 2 ^ 32 + th.lo)) ∧ w (b + 8) = th.wsp ∧
          (fld (w (b + 16)) 63 60, fld (w (b + 16)) 31 0) = (match th.wait with
            | .none => (0, 0)
            | .barw _ a _ => (1, a.toNat)
            | .heldArr _ => (2, 0)
            | .evwait g _ _ _ _ => (3, g.toNat)
            | .aclm f _ _ => (4, f % 2 ^ 32)
            | .sysc k => (5, k.toNat)
            | .park => (6, 0)
            | .fault k => (7, k % 2 ^ 32)) ∧
          fld (w (b + 24)) 6 0 = th.p.toNat % 128 ∧ (∀ k, k < 8 → secH bs (at_ h + b + 32 + 4 * k) = th.x.get k 0) ∧
          ∀ e, e < x.depth → secH bs (at_ h + b + 64 + 4 * e) = th.stack.get (th.lo + e) 0) ∧
      ((s1.handsOf n).length = x.hands →
        (∀ o, o < x.share → bs.getD (at_ x.hands + o) 0 = (s1.core x.core).spad.get (x.sbase + o) 0) ∧
        ∀ k, k < x.acc * 1024 → secH bs (at_ x.hands + (x.share + 63) / 64 * 64 + 4 * k) = x.accMem.get k 0) ∧
      (bs.length ≤ l.tsz * 65536 → s1.vwrite l.pasid va bs = .error none → exec (.teamSave n) s = .next s) ∧
      (∀ (s' : State) (d : Die), bs.length ≤ l.tsz * 65536 → s1.vwrite l.pasid va bs = .ok s' → s'.die? die = some d →
        (d.deal.filter fun y => y.part == x.part && y.launch == x.launch).length < 2 ^ 20 →
        ∃ (t : State) (y : Team) (d' : Die) (c : DealCard), exec (.teamSave n) s = .next t ∧ t.mem = s'.mem ∧
          t.team? n = some y ∧ y.st = .saved ∧ y.section_ = va ∧ y.quads = [] ∧ y.accPhys = [] ∧ y.lid = x.lid ∧
          t.hands = (s1.hands.filter fun hd => hd.team != n).map (fun hd => { hd with threads := hd.threads.map fun u =>
            match u.wait with
            | .barw (.slice k o) a ph => if k = x.core ∧ x.sbase ≤ o ∧ o < x.sbase + x.share then
                { u with wait := .barw (.slice (384 + x.id) (o - x.sbase)) a ph } else u
            | _ => u }) ∧
          t.die? die = some d' ∧ d'.deal = d.deal ++ [c] ∧ c.part = x.part ∧ c.launch = x.launch ∧ c.card = x.card ∧
          c.resume = some va ∧ c.team = n) ∧
      (l.tsz * 65536 < bs.length → ∃ t l', exec (.teamSave n) s = .next t ∧ t.mem = s1.mem ∧ t.hands = s1.hands ∧
        t.launch? x.part x.launch = some l' ∧ l'.st = .failing ∧ l'.cause = 0x1C))

/-- R390, R385, R39, R387: a placed section is read back over its team: its hands from the sweep records, hand registers
and thread blocks, its scratchpad and its resident cycles; a hand's part or a claim that breaks R39, R387 or R388 fails the launch. R40: it then runs, from this cycle on. R390, R42, R44, R50,
R53: an image without segments and sections starts its launch: the record and the banks are taken over, and each die gets
its root cards in ascending order; of an image with one section outside a gang, the team is a saved one, and its resumption card goes
to the die of its root (R53); a malformed header or record fails the launch with Illegal-Instruction. With N no multiple of S3 the
number of gang cards is rounded up, which is the model's choice (log 65). Stated for a team outside a gang, with no entries, records,
held arrivals, held commands or reductions come due (log 69), waiting at no barrier word that faults or waits for the host, and for an
image outside replay of which DUMP has kept nothing (log 73). -/
def Obligations.Restoring : Prop :=
  (∀ (s : State) (n : Nat) (x : Team) (l : Launch) (hdr bs : List Byte), s.team? n = some x → x.st = .restoring →
    s.launch? x.part x.launch = some l → l.st = .live → (∀ hd ∈ s.hands, hd.team ≠ n) → (∀ k ∈ s.kept, k.team ≠ n) →
    s.vread l.pasid x.section_ 128 = (.ok hdr, s) →
    let size := 384 + x.hands * (9536 + 512 * x.depth) + (x.share + 63) / 64 * 64 + 4096 * x.acc
    s.vread l.pasid x.section_ size = (.ok bs, s) → x.quads.length = x.hands →
    secW hdr 72 = BitVec.ofNat 64 (x.hands * 2 ^ 56 + (x.depth / 32 - 1) * 2 ^ 54 + x.share) → x.hands < 256 →
    x.share < 2 ^ 32 → x.depth ∈ [32, 64, 96, 128] → secW hdr 112 = 0 → secW hdr 120 = 0 →
    let at_ (h : Nat) : Nat := 384 + h * (9536 + 512 * x.depth)
    ((∃ b, b < 256 ∧ bs.getD (128 + b) 0xFF ≠ 0xFF ∧ x.hands ≤ (bs.getD (128 + b) 0xFF).toNat) ∨
      (∃ h, h < x.hands ∧ badHand (s.part x.part) x.depth ((bs.drop (at_ h)).take (9536 + 512 * x.depth)) = true) →
      ∃ t l', exec (.teamRestore n) s = .next t ∧ t.mem = s.mem ∧ t.hands = s.hands ∧ t.launch? x.part x.launch = some l' ∧
        l'.st = .failing ∧ l'.cause = 1) ∧
    ((∀ b, b < 256 → bs.getD (128 + b) 0xFF = 0xFF ∨ (bs.getD (128 + b) 0xFF).toNat < x.hands) →
    (∀ h, h < x.hands → badHand (s.part x.part) x.depth ((bs.drop (at_ h)).take (9536 + 512 * x.depth)) = false) →
    ∃ t, exec (.teamRestore n) s = .next t ∧ t.mem = s.mem ∧ t.hands.length = s.hands.length + x.hands ∧
      (∃ y, t.team? n = some y ∧ y.st = .restoring ∧ y.rcyc = (secW hdr 64).toNat ∧ y.depth = x.depth ∧ y.records = []) ∧
      (∀ o, o < x.share → (t.core x.core).spad.get (x.sbase + o) 0 = bs.getD (at_ x.hands + o) 0) ∧
      (∀ o, o < x.sbase ∨ x.sbase + x.share ≤ o → (t.core x.core).spad.get o 0 = (s.core x.core).spad.get o 0) ∧
      ∀ h q, x.quads[h]? = some q → ∃ hd, t.hands[s.hands.length + h]? = some hd ∧
        let w (o : Nat) : Dword := secW bs (at_ h + o)
        hd.team = n ∧ hd.hix = h ∧ hd.quad = q.1 ∧ hd.slot = q.2 ∧ hd.pos = (w 0).extractLsb' 31 30 ∧
        (hd.phase = .visit ↔ fld (w 0) 63 62 = 0) ∧ hd.inTrap = (w 0).getLsbD 61 ∧ hd.off = fld (w 0) 30 15 ∧
        hd.swc = (w 8).extractLsb' 0 32 ∧ hd.upos = (if fld (w 8) 63 34 = 0x3FFFFFFF then none else some ((w 8).extractLsb' 34 30)) ∧
        (∀ u, u < 64 → hd.act.getLsbD u = (w 16).getLsbD u ∧ hd.act.getLsbD (64 + u) = (w 24).getLsbD u) ∧
        (∀ k, k < 32 → hd.k.get k 0 = secH bs (at_ h + 1056 + 4 * k)) ∧ hd.tmr = w 1248 ∧
        hd.threads.length = min 128 (x.threads - 128 * h) ∧
        ∀ u, u < hd.threads.length →
          let b := 1344 + u * (64 + 4 * x.depth)
          (hd.thr u).wa = (w (32 + 8 * u)).extractLsb' 34 30 ∧ (hd.thr u).tl = (w (32 + 8 * u)).getLsbD 3 ∧
          ((hd.thr u).st = .retired ↔ (w (32 + 8 * u)).getLsbD 0 = true) ∧ (hd.thr u).wb = fld (w b) 63 32 ∧
          (hd.thr u).lo = fld (w b) 31 0 ∧ (hd.thr u).wsp = w (b + 8) ∧
          (∀ k, k < 8 → (hd.thr u).x.get k 0 = secH bs (at_ h + b + 32 + 4 * k)) ∧
          (∀ e, (hd.thr u).stack.get e 0 = if (hd.thr u).lo ≤ e ∧ e < (hd.thr u).lo + x.depth then
            secH bs (at_ h + b + 64 + 4 * (e - (hd.thr u).lo)) else 0))) ∧
  (∀ (s : State) (n : Nat) (x : Team) (l : Launch), s.team? n = some x → x.st = .restoring → x.gang = none →
    s.launch? x.part x.launch = some l → l.st = .live → (∃ hd ∈ s.hands, hd.team = n) →
    (∀ k ∈ s.kept, k.team = n → k.held = []) → (s.part x.part).heldCmds = [] → (∀ c ∈ s.cores, ∀ r ∈ c.2.heldRed, r.due = false) →
    (∀ a ∈ s.backAccs x [], ∃ l u, a = .at l u) →
    ∃ (t : State) (y : Team), exec (.restoreReady n) s = .next t ∧ t.mem = s.mem ∧ t.team? n = some y ∧ y.st = .running ∧
      y.placeAt = s.cyc ∧ y.rcyc = x.rcyc ∧ (∀ k ∈ t.kept, k.team ≠ n) ∧
      ∀ h hd, s.hand? n h = some hd → ∃ hd', t.hand? n h = some hd' ∧ hd'.resStart = s.cyc ∧ hd'.pos = hd.pos ∧
        hd'.act = hd.act ∧ hd'.k = hd.k ∧ hd'.threads.length = hd.threads.length ∧
        ∀ k, (hd'.thr k).wa = (hd.thr k).wa ∧ (hd'.thr k).stack = (hd.thr k).stack ∧
          ((hd.thr k).st = .retired → (hd'.thr k).st = .retired)) ∧
  (∀ (s : State) (p h : Nat) (l : Launch) (bs : List Byte), s.launch? p h = some l → l.st = .pending →
    let img := l.image.toNat
    img % 64 = 0 → s.vread l.pasid img 384 = (.ok bs, s) →
    let w (j : Nat) : Dword := secW bs (8 * j)
    let r : LaunchRec := ⟨w 8, w 9, w 10, w 11, w 12, w 13, w 14, w 15⟩
    let bank (b : Nat) : Prop := fld (w (16 + 2 * b)) 63 52 = 0 ∧ fld (w (17 + 2 * b)) 63 17 = 0 ∧ fld (w (17 + 2 * b)) 16 0 ≤ 65536
    let form : Prop := fld (w 0) 63 32 = 0x4C413149 ∧ fld (w 0) 31 16 = 1 ∧ fld (w 0) 15 0 = 0 ∧ fld (w 1) 15 0 = 0 ∧
      fld (w 3) 63 52 = 0 ∧ fld (w 4) 31 0 = 0 ∧ w 5 = 0 ∧ w 6 = 0 ∧ w 7 = 0 ∧ r.malformed = false ∧ ∀ b, b < 16 → bank b
    let dies := (s.part p).dies
    let unit (n : Nat) : Nat := if r.s4 ≠ 0 then n / r.s4 else if r.s3 ≠ 0 then n / r.s3 else n
    let step := if r.s3 = 0 then 1 else r.s3
    let cards (k : Nat) : List DealCard :=
      (((List.range ((r.grid + step - 1) / step)).map (· * step)).filter fun n => dies.getD (unit n % dies.length) 0 == k).map
        fun n => { part := p, launch := h, card := rootCard r n, prio := fld r.w0 29 27, since := s.cyc }
    (form → fld r.w0 31 30 ≠ 2 → fld (w 1) 63 16 = 0 →
      (∀ d ∈ s.dies, (d.deal.filter fun c => c.part == p && c.launch == h).length + r.grid ≤ 2 ^ 20) →
      ∃ (t : State) (l' : Launch), exec (.launchRestore p h) s = .next t ∧ t.mem = s.mem ∧ t.teams = s.teams ∧
        t.launch? p h = some l' ∧ l'.st = .live ∧ l'.record = r ∧ l'.save = fld (w 3) 51 0 ∧ l'.tsz = fld (w 4) 63 32 ∧
        (∀ b, b < 16 → l'.banks[b]? = some (fld (w (16 + 2 * b)) 51 0, fld (w (17 + 2 * b)) 16 0)) ∧
        ∀ k d, s.die? k = some d → ∃ d' cs, t.die? k = some d' ∧ d'.deal = d.deal ++ cs ∧
          cs.map (fun c => { c with id := 0 }) = cards k ∧ ∀ c ∈ cs, s.nextId ≤ c.id ∧ c.id < t.nextId) ∧
    (∀ es ws : List Byte, form → fld r.w0 31 30 ≠ 2 → fld (w 1) 63 32 = 1 → fld (w 1) 31 16 = 0 →
      s.vread l.pasid (img + 384) 16 = (.ok es, s) → let va := img + (secW es 8).toNat
      s.vread l.pasid va 128 = (.ok ws, s) → let c := cardOf (dwords ws)
      c.root = true → c.level ≠ 3 → (∀ tm ∈ s.teams, tm.id ≠ s.nextId) → (∀ d ∈ s.dumped, d.pasid ≠ l.pasid ∨ d.image ≠ img) →
      let n := (secW es 0).toNat
      let die := dies.getD (unit n % dies.length) 0
      s.DealRoom die p h →
      ∃ (t : State) (x : Team), exec (.launchRestore p h) s = .next t ∧ t.mem = s.mem ∧ t.teams = s.teams ++ [x] ∧
        x.id = s.nextId ∧ x.st = .saved ∧ x.part = p ∧ x.launch = h ∧ x.card = c ∧ x.lid = secW es 0 ∧ x.section_ = va ∧
        x.hands = fld (secW ws 72) 63 56 ∧ x.share = fld (secW ws 72) 31 0 ∧ x.n = n ∧ x.gang = none ∧
        s.Dealt t die { part := p, launch := h, card := c, prio := fld r.w0 29 27, since := s.cyc, resume := some va,
                        team := s.nextId, rlid := secW es 0 }) ∧
    (¬form → ∃ t l', exec (.launchRestore p h) s = .next t ∧ t.mem = s.mem ∧ t.launch? p h = some l' ∧
      l'.st = .failing ∧ l'.cause = 1)) ∧
  (∀ (r : LaunchRec) (n : Nat), n < 2 ^ 32 → let c := rootCard r n
    c.entry = r.w0.extractLsb' 34 30 ∧ c.level = (if r.s3 = 0 then 2 else 3) ∧ c.threads = fld r.w2 38 26 + 1 ∧ c.root = true ∧
    c.am = false ∧ c.w5.toNat = n ∧ fld c.w1 51 0 = fld r.w7 51 0 ∧ c.join = 0 ∧
    c.x.toNat = n % (fld r.w1 63 48 + 1) ∧ c.y.toNat = n / (fld r.w1 63 48 + 1) % (fld r.w1 47 32 + 1))

/-! ### Management -/

/-- R395: a fatal error stops the package with its reason, after the header of the dump and the state of the hub and of the cores.
R393, R394: an uncorrectable error marks its line, removes its residency or its drone, fails its team's launch after an error report
for each range, or stops the package, as one in a page table does (log 70). R11, R13, R345: reset leaves counters full, the rate 32, MD zero and nothing running; it keeps memory, the
floors and what repair left of a core. R343 to R345, R397: an image that passes its checks is in place, and one that
fails halts the package, or keeps its partition from starting; either is logged, and extends MD, or the partition's MP.
R346: the report. Where the dump lies, and that its sections are free bytes whose contents stand beside it, is the model's choice (log 17), as is what
reset keeps (DESIGN CHOICE, log 20). -/
def Obligations.Management : Prop :=
  (∀ (s : State) (reason : Nat), 1 ≤ reason → reason ≤ 4 → ∃ t, exec (.fatalError reason) s = .next t ∧
    t.stopped = some reason ∧ (t.hands, t.teams, t.launches, t.parts) = (s.hands, s.teams, s.launches, s.parts) ∧
    (∃ f, f < 8192 ∧ ∀ a, let o := a - Config.dumpRegion.val * 2 ^ 31
      (Config.dumpRegion.val * 2 ^ 31 ≤ a → o < 64 → t.byteAt a = (toBytes 8 (0x44554D50 * 2 ^ 32 + reason * 2 ^ 24) ++
        toBytes 8 Config.packageSerial.toNat ++ toBytes 8 (BitVec.ofNat 64 (s.periods * 8192 + f)).toNat ++ List.replicate 40 0).getD o 0) ∧
      (a < Config.dumpRegion.val * 2 ^ 31 ∨ 2 ^ 31 ≤ o → t.byteAt a = s.byteAt a)) ∧
    ∃ d : Dump, t.dump = some d ∧ d.reason = reason ∧ d.parts = s.parts ∧ d.queues = s.queues ∧ d.launches = s.launches ∧
      d.contexts = s.contexts ∧ ∀ c, c < 384 → (∃ x ∈ s.cores, x.1 = c) → ∃ k ∈ d.cores, k.core = c ∧
        (k.spad, k.entries, k.msgs, k.origins, k.resid) =
          ((s.core c).spad, (s.core c).entries, (s.core c).msgs, (s.core c).origins, (s.core c).resid) ∧
        (∀ hd, hd ∈ k.hands ↔ hd ∈ s.hands ∧ ∃ x ∈ s.teams, x.resident = true ∧ x.core = c ∧ x.id = hd.team) ∧
        ∀ x ∈ s.teams, x.resident = true → x.core = c → (x.id, x.accMem) ∈ k.acc) ∧
  (∀ s : State,
    (∀ pa, s.inTables pa = true → pa / 128 ∉ s.poison → ∃ t, exec (.uncorrectableError (.line pa)) s = .next t ∧ t.stopped = some 2) ∧
    (∀ pa, s.inTables pa = false → ∃ t, exec (.uncorrectableError (.line pa)) s = .next t ∧ (∀ l, l ∈ t.poison ↔ l = pa / 128 ∨ l ∈ s.poison) ∧
      { t with poison := s.poison } = s) ∧
    (∀ core n r, (s.core core).resid[n]? = some r → r.dead = false →
      ∃ t, exec (.uncorrectableError (.meld core n)) s = .next t ∧ t.mem = s.mem ∧ t.hands = s.hands ∧
        ∀ x ∈ (t.core core).resid, x.id = r.id → x.dead = true) ∧
    (∀ n x ranges l, s.team? n = some x → x.resident = true → s.launch? x.part x.launch = some l → l.st = .live → ranges ≠ [] →
      x.core < 512 → x.launch < 2 ^ 32 → ∃ (t : State) (l' : Launch) (rs : List RingRec) (r1 : RingRec),
        exec (.uncorrectableError (.team n ranges)) s = .next t ∧
        t.mem = s.mem ∧ t.launch? x.part x.launch = some l' ∧ l'.st = .failing ∧ l'.cause = 0x1A ∧ rs.length = ranges.length ∧
        (t.part x.part).ringWait = (s.part x.part).ringWait ++ rs ++ [r1] ∧
        (∀ (j : Nat) (r0 : RingRec) (space off len : Nat), rs[j]? = some r0 → ranges[j]? = some (space, off, len) →
          fld r0.w0 63 56 = 0x1A ∧ fld r0.w0 55 47 = x.core ∧ fld r0.w0 40 38 = 7 ∧ r0.w1 = x.lid ∧ fld r0.w2 63 32 = x.launch ∧
          fld r0.w2 31 0 = ((s.part x.part).seqNext.toNat + j) % 2 ^ 32 ∧ fld r0.w6 63 60 = space % 16 ∧
          fld r0.w6 51 0 = off % 2 ^ 52 ∧ r0.w7 = BitVec.ofNat 64 len) ∧
        fld r1.w0 63 56 = 0x1A ∧ fld r1.w0 40 38 = 6) ∧
    (∀ p h e, s.droneEnt p h = some e → ∃ t, exec (.uncorrectableError (.drone p h)) s = .next t ∧ t.droneEnt p h = none ∧
      (∀ k, k ≠ h → t.droneEnt p k = s.droneEnt p k) ∧ (e.res = true → t.droneAt e.core p h = none) ∧ t.mem = s.mem) ∧
    (∃ t, exec (.uncorrectableError .hub) s = .next t ∧ t.stopped = some 2) ∧
    (∃ t, exec .reset s = .next t ∧ t.mem = s.mem ∧ t.poison = s.poison ∧ t.floors = s.floors ∧ t.pkgId = s.pkgId ∧
      (t.host, t.keys, t.periods, t.dump) = (s.host, s.keys, s.periods, s.dump) ∧ t.refill = 32 ∧ t.md = 0 ∧ t.stopped = none ∧ t.bootStage = 0 ∧ t.bootHalt = none ∧
      (∀ c, (t.core c).activity = 262144 ∧ (t.core c).spad = [] ∧ (t.core c).entries = [] ∧
        ∀ v, (s.core c).regCap = v → (∀ e ∈ s.cores, e.1 = c → e.2.regCap = v) → (t.core c).regCap = v) ∧
      (t.teams, t.hands, t.launches, t.queues, t.parts, t.contexts, t.stageMap) = ([], [], [], [], [], [], []))) ∧
  (∀ (s : State) (stage p pa : Nat), 1 ≤ stage → stage ≤ 3 → p < 16 → s.bootHalt = none →
    (stage = 3 → s.bootStage = 2) → (stage ≠ 3 → s.bootStage + 1 = stage ∧ p = 0) →
    let hdr := s.bytesAt pa 2048
    let payload := s.bytesAt (pa + 2048) (secW hdr 16).toNat
    let c := s.bootCheck stage p hdr payload
    let keyid := fld (secW hdr 0) 23 16
    let entry := toBytes 8 (stage * 2 ^ 56 + p * 2 ^ 52 + c * 2 ^ 48 + keyid * 2 ^ 40) ++
      toBytes 8 (fld (secW hdr 8) 63 32 * 2 ^ 32) ++ (hdr.drop 32).take 64 ++ List.replicate 48 0
    let longer (m : BitVec 512) : BitVec 512 := BitVec.ofNat 512 (ofBytes (sha512 (toBytes 64 m.toNat ++ entry)))
    (fld (secW hdr 0) 63 32 ≠ 0x53574B49 → c = 1) ∧ (fld (secW hdr 0) 31 24 ≠ stage → c = 1) ∧
    (fld (secW hdr 8) 63 32 < s.floors.get (stage * 256 + p * 16 + keyid) 0 → c = 1 ∨ c = 2 ∨ c = 3) ∧
    (sha512 payload ≠ (hdr.drop 32).take 64 → c ≠ 0) ∧
    ∃ t, exec (.imageVerify stage p pa) s = .next t ∧ t.mlog = s.mlog ++ [dwords entry] ∧
      (c = 0 → s.Stored t (secW hdr 24).toNat payload ∧ t.bootHalt = none ∧ (stage ≠ 3 → t.bootStage = stage) ∧
        (stage = 3 → t.bootStage = 2 ∧ (t.part p).sealGen = s.keys + 1 ∧ t.keys = s.keys + 1 ∧ (t.part p).vectors = [])) ∧
      (c ≠ 0 → t.mem = s.mem ∧ t.bootStage = s.bootStage ∧ (stage ≠ 3 → t.bootHalt = some c) ∧
        (stage = 3 → t.bootHalt = none ∧ (t.part p).sealGen = (s.part p).sealGen ∧ t.keys = s.keys)) ∧
      (stage ≠ 3 → t.md = longer s.md) ∧ (stage = 2 → ∀ k, k < 16 → (t.part k).mp = t.md) ∧
      (stage = 3 → t.md = s.md ∧ (t.part p).mp = longer (s.part p).mp ∧ ∀ k, k ≠ p → t.part k = s.part k)) ∧
  (∀ (s : State) (p : Nat) (nonce : BitVec 512), ∃ r : List Dword,
    exec (.attestationReport p nonce) s = .next { s with reply := r } ∧ r.length = 90 ∧
    (∀ j, j < 8 → r.getD j 0 = nonce.extractLsb' (64 * j) 64 ∧ r.getD (8 + j) 0 = s.md.extractLsb' (64 * j) 64 ∧
      r.getD (16 + j) 0 = (s.part p).mp.extractLsb' (64 * j) 64) ∧
    r.getD 24 0 = Config.packageSerial ∧ r.getD 25 0 = BitVec.ofNat 64 s.mlog.length)

/-! ### Hypervisor and kernel -/

/-- R338 to R340: an assignment is made while the partition has no resident or saved team and nothing would be two
partitions'; otherwise it is refused (reply 1), and nothing changes. R350: the rings' bases, aligned, in pages of the
partition, and the bytes that the control page reads as. R339: a kitty's limit, which a pin that is at the head of its queue does not
see; a core whose count is over a lowered limit takes no pin until unpins have brought it below. R372: a vector entry, which for cause 0x00, 0x16, 0x19 and 0x1B to 0x1F cannot be in
the hand, and else needs a TRAPENT header at its handler, which the model reads in the partition's context of the lowest PASID (log 27).
R350: SCCONS, but for a write that would leave more than 4096 records unread. The replies 0 and 1 stand for done and refused. A range
of PASIDs that leaves out one of a queue or a valid context of the partition is refused too. -/
def Obligations.HubControl : Prop :=
  ∀ (s : State) (p : Nat), p < 16 →
    let x := s.part p
    let idle : Prop := ∀ t ∈ s.teams, t.part = p → t.st = .gone
    let others (f : Part → Prop) : Prop := ∀ y ∈ s.parts, y.1 ≠ p → f y.2
    let refused (o : Out) : Prop := o = .next { s with reply := [1] }
    let done (o : Out) (x' : Part) : Prop := ∃ t, o = .next t ∧ t.part p = x' ∧ (∀ k, k ≠ p → t.part k = s.part k) ∧
      { t with parts := s.parts, reply := s.reply } = s ∧ t.reply = [0]
    let sum (f : Part → Nat) (n : Nat) : Nat := ((s.parts.filter fun y => y.1 != p).map fun y => f y.2).foldl (· + ·) n
    let assigns (r : Assign) (ok : Prop) (x' : Part) : Prop :=
      (idle → ok → done (exec (.partitionAssign p r) s) x') ∧ (¬ok → refused (exec (.partitionAssign p r) s)) ∧
      (¬idle → refused (exec (.partitionAssign p r) s))
    let run (a n : Nat) : Prop := a + n ≤ 0xC000000000 ∧ ∀ k, k < n → (s.stageMap.get ((a + k) / 65536) 0).getLsbD p = true
    (∀ l, assigns (.clusters l) ((∀ k ∈ l, k < 64) ∧ l.eraseDups = l ∧ l ≠ [] ∧ others fun y => ∀ k ∈ l, k ∉ y.clusters)
      { x with clusters := l }) ∧
    (∀ b n, assigns (.pasids b n) (1 ≤ n ∧ n ≤ 4096 ∧ b + n ≤ 2 ^ 20 ∧
      (others fun y => y.pasidBase + y.pasidCount ≤ b ∨ b + n ≤ y.pasidBase) ∧
      (∀ q ∈ s.queues, q.part = p → q.dead = false → b ≤ q.pasid ∧ q.pasid < b + n) ∧
      ∀ c ∈ s.contexts, c.2.part = p → c.2.valid = true → b ≤ c.1 ∧ c.1 < b + n) { x with pasidBase := b, pasidCount := n }) ∧
    (∀ b l, assigns (.trapRegion b l) (b < l ∧ l ≤ 2 ^ 30) { x with trapBase := b, trapLimit := l }) ∧
    (∀ a v, assigns (.share a v) (a < 7 ∧ 1 ≤ v ∧ sum (fun y => y.shares.get a 0) v ≤ 1024)
      { x with shares := x.shares.set a v 0 }) ∧
    (∀ m, assigns (.peers m) True { x with peers := m }) ∧
    (∀ port mac vlans, assigns (.iface port mac vlans) (port < 2)
      { x with ifaces := x.ifaces.filter (fun i => i.port != port) ++ [⟨port, mac, vlans⟩] }) ∧
    (∀ port n, assigns (.nvme port n) (port < 2 ∧ sum (fun y => y.nvme.get port 0) n ≤ 64) { x with nvme := x.nvme.set port n 0 }) ∧
    (∀ port l, assigns (.namespaces port l)
      (port < 2 ∧ l.eraseDups = l ∧ others fun y => ∀ n ∈ l, n ∉ y.namespaces.get port [])
      { x with namespaces := x.namespaces.set port l [] }) ∧
    (∀ (which : Nat) (base : Dword), which < 3 →
      let size := if which = 0 then 262144 else 8192
      let ok : Prop := idle ∧ base.toNat % (if which = 0 then 65536 else 8192) = 0 ∧ run base.toNat size
      (ok → done (exec (.controlPageSet p which base) s) (if which = 0 then { x with scBase := base }
        else if which = 1 then { x with hsBase := base } else { x with fsBase := base })) ∧
      (¬ok → refused (exec (.controlPageSet p which base) s))) ∧
    (∀ kitty limit, kitty < 16 → limit ≤ 16 → ∃ t, exec (.kittyLimitWrite p kitty limit) s = .next t ∧
      (∀ k, (t.part p).kitty.get k 0 = if k = kitty then limit else x.kitty.get k 0) ∧
      { t with parts := s.parts, cores := s.cores } = s ∧
      ∀ c, let es := (s.core c).entries
        let heads := [8, 9].filterMap fun q => (es.find? fun e => e.queue == q).map (·.id)
        let pin (e : Entry) : Prop := x.hasCore c = true ∧ e.id ∈ heads ∧ e.kind = .meld ∧ e.op = 0xA3#8 ∧ e.w0.getLsbD 12 = true ∧
          Desc.kitty e.copy = kitty ∧ e.limit = none
        let slots := (s.core c).kittySlots kitty
        ∃ (es' : List Entry) (ov : List Nat), t.core c = { s.core c with entries := es', overLimit := ov } ∧ es'.length = es.length ∧
          (∀ k, k ≠ kitty → (k ∈ ov ↔ k ∈ (s.core c).overLimit)) ∧
          (kitty ∈ ov ↔ if x.hasCore c then limit < slots ∨ kitty ∈ (s.core c).overLimit ∧ limit = slots else kitty ∈ (s.core c).overLimit) ∧
          ∀ (j : Nat) (e : Entry), es[j]? = some e → (pin e → es'[j]? = some { e with limit := some (x.kitty.get kitty 0) }) ∧
            (¬pin e → es'[j]? = some e)) ∧
    (∀ (cause : Nat) (v : Dword), cause < 32 →
      let ok : Prop := fld v 62 30 = 0 ∧ (v.getLsbD 63 = true →
        cause ∉ [0, 0x16, 0x19, 0x1B, 0x1C, 0x1D, 0x1E, 0x1F] ∧ s.isTrapent p (v.extractLsb' 0 30) = true)
      (v.getLsbD 63 = true → s.codeWaits p (v.extractLsb' 0 30) = false) →
      (ok → done (exec (.trapVectorWrite p cause v) s) { x with vectors := x.vectors.set cause v 0 }) ∧
      (¬ok → refused (exec (.trapVectorWrite p cause v) s))) ∧
    (let read (off n : Nat) : Nat := ofBytes ((List.range n).map fun j => x.pageByte (off + j))
     read 0x000 8 = x.scBase.toNat ∧ read 0x008 4 = x.scProd.toNat ∧ read 0x00C 4 = x.scCons.toNat ∧
     read 0x010 8 = x.hsBase.toNat ∧ read 0x018 4 = x.hsProd.toNat ∧ read 0x01C 4 = x.hsCons.toNat ∧
     read 0x020 8 = x.fsBase.toNat ∧ read 0x028 4 = x.fsProd.toNat ∧ read 0x02C 4 = x.fsCons.toNat ∧
     ∀ off, 0x030 ≤ off → x.pageByte off = 0) ∧
    ∀ v : Word, ((x.scProd - v).toNat ≤ 4096 → ∃ t, exec (.scconsWrite p v) s = .next t ∧
        t.part p = { x with scCons := v } ∧ { t with parts := s.parts } = s) ∧
      (4096 < (x.scProd - v).toNat → exec (.scconsWrite p v) s = .next s)

/-- R348, R349: the hand-state channel takes its next command, of a team that runs or is about to start: a read gives the register, the
predicate or the number of the system call as VALUE, a write sets the register or the predicate, and a wake unparks the
thread; a thread that is not parked by SYSC or PARK refuses (STATUS 1), and a reserved OP or SEL is malformed (STATUS 3). The
STATUS is written into the command, and CONS advances. R376: the fault-service channel takes its next command: resume
sends the record's threads to its address, retire retires them, and fail fails the launch with the record's cause; when
none is fault-parked by the record any more, it refuses. Stated for channels without held commands, for threads that no
barrier holds, and for wanted addresses that are fetched without a walk. -/
def Obligations.HubChannels : Prop :=
  (∀ (s : State) (p : Nat) (prod : Word) (l : Launch) (x : Team) (hd : Hand), let y := s.part p
    y.heldCmds = [] → (prod - y.hsCons).toNat ≤ 256 → y.hsTaken ≠ prod →
    let a := y.hsBase.toNat + y.hsTaken.toNat % 256 * 32
    let w (j : Nat) : Dword := s.wordAt (a + 8 * j)
    let hix := fld (w 0) 40 35
    let tid := fld (w 0) 47 41
    let sel := fld (w 0) 55 48
    let u := hd.thr tid
    let served : Prop := u.st = .parked ∧ (u.wait = .park ∨ ∃ n, u.wait = .sysc n)
    let all (f : Instr → Nat → Prop) : Prop := f (.hsRead p prod) 1 ∧ f (.hsWrite p prod) 2 ∧ f (.hsWake p prod) 3
    let took (t : State) (m : List (Nat × Byte)) : Prop := (t.part p).hsTaken = y.hsTaken + 1 ∧
      (t.part p).hsCons = y.hsTaken + 1 ∧ (t.part p).hsProd = prod ∧ t.teams = s.teams ∧ t.launches = s.launches ∧
      ∀ z, t.byteAt z = match m.find? (fun e => e.1 == z) with | some e => e.2 | none => s.byteAt z
    let value (v : Word) : List (Nat × Byte) :=
      (a, 0) :: (List.range 4).map fun j => (a + 24 + j, (toBytes 4 v.toNat).getD j 0)
    fld (w 0) 34 8 = 0 → fld (w 2) 31 0 = 0 → fld (w 3) 63 32 = 0 → s.launch? p (fld (w 2) 63 32) = some l → l.st = .live →
    s.cmdTeam p (fld (w 2) 63 32) (w 1) = some x → x.st = .running ∨ x.st = .placed → s.hand? x.id hix = some hd →
    let upd (t : State) (f : Thread → Thread) : Prop := t.hand? x.id hix = some (hd.updThr tid f) ∧
      ∀ b c, ¬(b = x.id ∧ c = hix) → t.hand? b c = s.hand? b c
    (sel ≤ 0x1E → served → let e := u.wb + sel
      let here : Prop := u.lo ≤ e ∧ e < u.lo + x.depth
      (fld (w 0) 63 56 = 1 → ∃ t, exec (.hsRead p prod) s = .next t ∧
        took t (value (if here then u.stack.get e 0 else 0)) ∧ t.hands = s.hands) ∧
      (fld (w 0) 63 56 = 2 → here → ∃ t, exec (.hsWrite p prod) s = .next t ∧ took t [(a, 0)] ∧
        upd t fun v => { v with stack := v.stack.set e ((w 3).extractLsb' 0 32) 0 })) ∧
    (0x20 ≤ sel → sel ≤ 0x26 → served → let n := sel - 0x20
      (fld (w 0) 63 56 = 1 → ∃ t, exec (.hsRead p prod) s = .next t ∧
        took t (value (if u.p.getLsbD n then 1 else 0)) ∧ t.hands = s.hands) ∧
      (fld (w 0) 63 56 = 2 → ∃ t m, exec (.hsWrite p prod) s = .next t ∧ took t [(a, 0)] ∧ t.hand? x.id hix = some m ∧
        (∀ k, k < 8 → (m.thr tid).p.getLsbD k = if k = n then (w 3).getLsbD 0 else u.p.getLsbD k) ∧
        { m.thr tid with p := u.p } = u ∧ ∀ k, k ≠ tid → m.thr k = hd.thr k)) ∧
    (∀ n : Word, sel = 0x7F → u.st = .parked → u.wait = .sysc n → fld (w 0) 63 56 = 1 →
      ∃ t, exec (.hsRead p prod) s = .next t ∧ took t (value n) ∧ t.hands = s.hands) ∧
    (served → u.bheld = [] → fld (w 0) 63 56 = 3 → ∃ t m, exec (.hsWake p prod) s = .next t ∧ took t [(a, 0)] ∧
      t.hand? x.id hix = some m ∧ m.thr tid = { u with st := .unparked, wait := .none } ∧
      (hd.phase = .parked → m.phase = .boundary) ∧ (hd.phase ≠ .parked → m.phase = hd.phase)) ∧
    (¬served → sel ≤ 0x1E → all fun i op => fld (w 0) 63 56 = op →
      ∃ t, exec i s = .next t ∧ took t [(a, 1)] ∧ t.hands = s.hands) ∧
    (fld (w 0) 63 56 = 0 ∨ (fld (w 0) 63 56 = 1 ∨ fld (w 0) 63 56 = 2) ∧ (sel = 0x1F ∨ 0x27 ≤ sel ∧ sel ≠ 0x7F) → all fun i _ => ∃ t, exec i s = .next t ∧ took t [(a, 3)] ∧ t.hands = s.hands)) ∧
  (∀ (s : State) (p : Nat) (prod : Word) (l : Launch) (x : Team) (r : RingRec), let y := s.part p
    y.heldCmds = [] → (prod - y.fsCons).toNat ≤ 256 → y.fsTaken ≠ prod →
    let a := y.fsBase.toNat + y.fsTaken.toNat % 256 * 32
    let w (j : Nat) : Dword := s.wordAt (a + 8 * j)
    let h := fld (w 1) 63 32
    let op := fld (w 0) 63 56
    let hix := fld r.w0 46 41
    let found := s.faulted p h ((w 1).extractLsb' 0 32) hix r.w1
    let took (t : State) (status : Byte) : Prop := (t.part p).fsTaken = y.fsTaken + 1 ∧ (t.part p).fsCons = y.fsTaken + 1 ∧
      (t.part p).fsProd = prod ∧ t.teams = s.teams ∧ s.Stored t a [status]
    fld (w 0) 55 8 = 0 → fld (w 2) 62 30 = 0 → w 3 = 0 → s.launch? p h = some l → l.st = .live →
    y.recordOf h ((w 1).extractLsb' 0 32) = some r → s.cmdTeam p h r.w1 = some x → x.st = .running ∨ x.st = .placed →
    (∀ (ts : List Nat) (hd : Hand), found = some (x.id, hix, ts) → s.hand? x.id hix = some hd →
      (∀ i ∈ ts, (hd.thr i).st = .faultParked) → (∀ u ∈ hd.threads, u.bheld = []) →
      (op = 1 → let to_ : CodeAddr := if (w 2).getLsbD 63 then (w 2).extractLsb' 0 30 else r.w5.extractLsb' 34 30
        (∀ i ∈ ts, s.Wanted x (hd.thr i).tl to_) → ∃ t m, exec (.fsResume p prod) s = .next t ∧ took t 0 ∧
          t.hand? x.id hix = some m ∧ (∀ i ∈ ts, m.thr i = { hd.thr i with st := .unparked, wait := .none, wa := to_ }) ∧
          (∀ i, i ∉ ts → m.thr i = hd.thr i) ∧ (m.k, m.pend, m.act) = (hd.k, hd.pend, hd.act)) ∧
      (op = 2 → ∃ t m, exec (.fsRetire p prod) s = .next t ∧ took t 0 ∧ t.hand? x.id hix = some m ∧
        (∀ i ∈ ts, (m.thr i).st = .retired ∧ m.act.getLsbD i = false) ∧ (∀ i, i ∉ ts → m.thr i = hd.thr i) ∧
        (hd.phase = .parked → m.phase = .boundary)) ∧
      (op = 3 → ∃ t l', exec (.fsFail p prod) s = .next t ∧ took t 0 ∧ t.hands = s.hands ∧ t.launch? p h = some l' ∧
        l'.st = .failing ∧ l'.cause = fld r.w0 63 56)) ∧
    (found = none → (op = 1 → ∃ t, exec (.fsResume p prod) s = .next t ∧ took t 1 ∧ t.hands = s.hands) ∧
      (op = 2 → ∃ t, exec (.fsRetire p prod) s = .next t ∧ took t 1 ∧ t.hands = s.hands) ∧
      (op = 3 → ∃ t, exec (.fsFail p prod) s = .next t ∧ took t 1 ∧ t.hands = s.hands)))

/-! ### Translation and ports -/

/-- R357 to R360, R363, R364: a walk through four tables to a 64 KiB page that permits the access sets A in the leaf, and
D for a write, and enters the translation in the die's TLB; the walkers keep the entries that named the tables. R356: a context descriptor is replaced, but not that of a dead
PASID whose requests have not drained, and a PASID is given only to the partition whose range holds it, while that has no team (R338).
R362, R367: after a change of the stage map no TLB holds the page, through this package's own id or not (R361); a page is given to no
partition that has a team. R368: an ATS answer, when there is a host (R351), and an invalidation. R369: a PASID that is torn down is
dead; its translations, its ATC entries and its residencies are gone (one that an entry of a matrix unit holds is dead), and its queues
dead. The reply 1 stands for the report of completion, 0 says that an origin entry of the PASID has not drained. What the walkers keep,
which walks fill and TLBH, the stage map and a teardown drop, and when a ninth translation of a set leaves, is the model's (log 13).
R370: a page that migrates has its bytes at the new page, and its leaf names it; no TLB holds the old one. -/
def Obligations.Translation : Prop :=
  (∀ (s : State) (die pasid : Nat) (va : Dword) (kind : AccKind) (privT : Bool) (c : Context) (y : Die)
      (t2 t1 t0 page flags : Nat), s.ctx? pasid = some c → c.valid = true → c.dead = false → s.die? die = some y →
    (∀ x ∈ y.walks, x.pasid ≠ pasid) →
    va.toNat < 2 ^ 52 → (∀ k ∈ [t2, t1, t0], k % 4096 = 0 ∧ k < 2 ^ 52) → page % 65536 = 0 → page < 0xC000000000 →
    flags < 256 → flags % 4 = 3 →
    let v := va.toNat
    let at_ (tab tier : Nat) : Nat := tab + v / 2 ^ (16 + 9 * tier) % 512 * 8
    let leaf := at_ t0 0
    s.wordAt (at_ c.root 3) = BitVec.ofNat 64 (t2 + 1) → s.wordAt (at_ t2 2) = BitVec.ofNat 64 (t1 + 1) →
    s.wordAt (at_ t1 1) = BitVec.ofNat 64 (t0 + 1) → s.wordAt leaf = BitVec.ofNat 64 (page + flags) →
    (s.stageMap.get (page / 65536) 0).getLsbD c.part = true → permBad (BitVec.ofNat 8 flags) kind privT = none →
    let e : Dword := BitVec.ofNat 64 (page + flags) ||| (if kind = .write ∨ kind = .atomic then 0xC0#64 else 0x40#64)
    ∃ t y', exec (.pageWalk die pasid va kind privT) s = .next t ∧ s.Stored t leaf (toBytes 8 e.toNat) ∧
      t.hands = s.hands ∧ t.die? die = some y' ∧
      y'.tlb.head? = some ⟨pasid, v / 65536 * 65536, 65536, page, e.extractLsb' 0 8, false⟩ ∧
      (∀ x ∈ [(3, t2), (2, t1), (1, t0)], ⟨pasid, x.1, v / 2 ^ (16 + 9 * x.1), BitVec.ofNat 64 (x.2 + 1)⟩ ∈ y'.walks) ∧
      y'.walks.length ≤ 512) ∧
  (∀ (s : State) (pasid : Nat) (w0 w1 w2 : Dword), pasid < 2 ^ 20 →
    let waits : Prop := ((∃ c, s.ctx? pasid = some c ∧ c.dead = true) ∧ ∃ c ∈ s.cores, ∃ o ∈ c.2.origins,
      ∃ l, s.launch? o.part o.launch = some l ∧ l.pasid = pasid) ∨
      (w0.getLsbD 63 = true ∧ let x := s.part (fld w0 61 58)
        (¬(x.pasidBase ≤ pasid ∧ pasid < x.pasidBase + x.pasidCount) ∨ ∃ tm ∈ s.teams, tm.part = fld w0 61 58 ∧ tm.st ≠ .gone))
    (¬waits → ∃ t, exec (.contextDescriptorWrite pasid w0 w1 w2) s = .next t ∧ (∀ k, k ≠ pasid → t.ctx? k = s.ctx? k) ∧
      t.ctx? pasid = some { valid := w0.getLsbD 63, dead := w0.getLsbD 62, part := fld w0 61 58, root := fld w0 51 12 * 4096,
                            code := w1 &&& 0xFFFFFFFFFFFFF#64, hpasid := fld w2 19 0 } ∧ { t with contexts := s.contexts } = s) ∧
    (waits → exec (.contextDescriptorWrite pasid w0 w1 w2) s = .next s)) ∧
  (∀ (s : State) (page : Nat) (mask : BitVec 16), page < 0xC00000 → (∀ hd ∈ s.hands, hd.sbuf = []) →
    (∀ d ∈ s.dies, d.appends = []) →
    let off (x : Tlb) : Prop := s.ownPa x.pbase + x.size ≤ page * 65536 ∨ page * 65536 + 65536 ≤ s.ownPa x.pbase
    let here (pa : Nat) : Prop := page * 65536 ≤ pa ∧ pa < page * 65536 + 65536
    let busy : Prop := ∃ p, p < 16 ∧ mask.getLsbD p = true ∧ (s.stageMap.get page 0).getLsbD p = false ∧
      ∃ tm ∈ s.teams, tm.part = p ∧ tm.st ≠ .gone
    (busy → exec (.stageMapUpdate page mask) s = .next s) ∧
    (¬busy → (∀ a ∈ s.arrivals, ∀ pa, a.loc = .mem pa → ¬here pa) →
      (∀ r ∈ s.readReqs, ∀ x ∈ r.items, x.got = none → ∀ pa, x.loc = .mem pa → ¬here pa) →
     ∃ t, exec (.stageMapUpdate page mask) s = .next t ∧ t.mem = s.mem ∧
      (∀ k, t.stageMap.get k 0 = if k = page then mask else s.stageMap.get k 0) ∧
      (∀ c x, x ∈ (t.core c).tlb ↔ x ∈ (s.core c).tlb ∧ off x) ∧
      ∀ d ∈ t.dies, d.walks = [] ∧ ∀ x ∈ d.tlb, off x)) ∧
  (∀ (s : State) (hpasid page : Nat) (out : Option Nat), s.host = false → exec (.atsResponse hpasid page out) s = .next s) ∧
  (∀ (s : State) (hpasid page : Nat) (out : Option Nat), s.host = true → ∃ t, exec (.atsResponse hpasid page out) s = .next t ∧
    t.atc.head? = some (hpasid, page, out) ∧ t.atc.length ≤ 4096 ∧ { t with atc := s.atc } = s ∧
    (s.atc.length < 4096 → ∀ e, ¬(e.1 = hpasid ∧ e.2.1 = page) → (e ∈ t.atc ↔ e ∈ s.atc))) ∧
  (∀ (s : State) (hpasid page count : Nat), (∀ hd ∈ s.hands, hd.sbuf = []) → (∀ d ∈ s.dies, d.appends = []) →
    (∀ a ∈ s.arrivals, ∀ pa, a.loc = .mem pa → pa < hostKey) →
    (∀ r ∈ s.readReqs, ∀ x ∈ r.items, x.got = none → ∀ pa, x.loc = .mem pa → pa < hostKey) →
    ∃ t, exec (.atsInvalidation hpasid page count) s = .next t ∧ t.mem = s.mem ∧
      ∀ e, e ∈ t.atc ↔ e ∈ s.atc ∧ ¬(e.1 = hpasid ∧ page ≤ e.2.1 ∧ e.2.1 < page + count)) ∧
  (∀ (s : State) (pasid : Nat) (c : Context), s.ctx? pasid = some c → c.dead = false →
    ∃ t, exec (.pasidTeardown pasid) s = .next t ∧ t.mem = s.mem ∧ t.ctx? pasid = some { c with dead := true } ∧
      (∀ k x, x ∈ (t.core k).tlb → x.pasid ≠ pasid) ∧
      (∀ d ∈ t.dies, (∀ x ∈ d.tlb, x.pasid ≠ pasid) ∧ ∀ x ∈ d.walks, x.pasid ≠ pasid) ∧
      (∀ e, e ∈ t.atc ↔ e ∈ s.atc ∧ e.1 ≠ c.hpasid) ∧
      (∀ k, ∀ r ∈ (t.core k).resid, r.pasid = pasid → r.dead = true) ∧
      let held : Prop := ∃ k ∈ s.cores, ∃ o ∈ k.2.origins, ∃ l, s.launch? o.part o.launch = some l ∧ l.pasid = pasid
      (held → t.reply = [0]) ∧ (¬held → t.reply = [1])) ∧
  (∀ (s : State) (pasid : Nat), ∃ t, exec (.pasidTeardown pasid) s = .next t ∧
    ∀ k q, s.queue? k = some q → q.pasid = pasid → ∃ q', t.queue? k = some q' ∧ q'.dead = true) ∧
  (∀ (s : State) (pasid : Nat) (va : Dword) (new leaf : Nat) (e : Dword) (c : Context), s.MemOk → s.ctx? pasid = some c →
    s.walkFrom va.toNat 3 c.root = .leaf leaf 0 e → fld e 57 56 = 0 → new % 65536 = 0 → new < 0xC000000000 →
    (s.stageMap.get (new / 65536) 0).getLsbD c.part = true →
    let old := fld e 51 12 * 4096
    old < 0xC000000000 → old ≠ new → (leaf + 8 ≤ old ∨ old + 65536 ≤ leaf) → (leaf + 8 ≤ new ∨ new + 65536 ≤ leaf) →
    ∃ t, exec (.pageMigration pasid va new) s = .next t ∧
      (∀ j, j < 65536 → t.byteAt (new + j) = s.byteAt (old + j)) ∧
      (∀ j, j < 8 → t.byteAt (leaf + j) = (toBytes 8 (e.toNat - old + new)).getD j 0) ∧
      (∀ p, (p < new ∨ new + 65536 ≤ p) → (p < leaf ∨ leaf + 8 ≤ p) → t.byteAt p = s.byteAt p) ∧
      (∀ k x, x ∈ (t.core k).tlb → s.ownPa x.pbase + x.size ≤ old ∨ old + 65536 ≤ s.ownPa x.pbase) ∧
      ∀ d ∈ t.dies, ∀ x ∈ d.tlb, s.ownPa x.pbase + x.size ≤ old ∨ old + 65536 ≤ s.ownPa x.pbase)

/-- R362: a peer's request reads or writes the partition's own pages, and is refused elsewhere. R354: a plane fails and
comes back. R353: a frame goes to the partition whose filter it matches, by DMA into its pages and within its budget; one without a
match is dropped. A frame that is sent is read from the partition's pages, and only the checksum of its TCP or UDP segment is put into
it, so that it verifies. R352: a device transfers in the partition's pages, and is aborted elsewhere; it waits while the budget is
spent. R9: there are two ports of each kind. A reply of 0 stands for done, 1 for refused. That the checksum is put into every frame, and
that its verdict stands beside the frame, is the model's choice (DESIGN CHOICE, log 68). -/
def Obligations.Ports : Prop :=
  ∀ s : State,
    let mayUse (p pa n : Nat) : Prop :=
      pa + n ≤ 0xC000000000 ∧ ∀ k, k < n → (s.stageMap.get ((pa + k) / 65536) 0).getLsbD p = true
    let frame (t : State) : Prop := (t.hands, t.teams, t.launches, t.parts) = (s.hands, s.teams, s.launches, s.parts)
    (∀ (p : Nat) (write : Bool) (pa : Nat) (data : List Byte), let o := exec (.peerRequest p write pa data) s
      (mayUse p pa data.length → s.poisoned pa data.length = false → ∃ t, o = .next t ∧ frame t ∧
        s.Stored t pa (if write then data else []) ∧
        t.reply = 0 :: if write then [] else (s.bytesAt pa data.length).map fun b => b.setWidth 64) ∧
      (¬mayUse p pa data.length → o = .next { s with reply := [1] })) ∧
    (∀ peer plane, peer < 192 → plane < 18 → ∃ t u, exec (.linkFailure peer plane) s = .next t ∧
      (∀ x, x ∈ t.deadPlanes ↔ x = (peer, plane) ∨ x ∈ s.deadPlanes) ∧ { t with deadPlanes := s.deadPlanes } = s ∧
      exec (.linkRestored peer plane) s = .next u ∧
      (∀ x, x ∈ u.deadPlanes ↔ x ∈ s.deadPlanes ∧ x ≠ (peer, plane)) ∧ { u with deadPlanes := s.deadPlanes } = s) ∧
    (∀ (port p buf : Nat) (f : Frame), let n := (f.data.length + 63) / 64
      let takes (x : Part) : Prop := ∃ i ∈ x.ifaces, i.port = port ∧ i.mac = f.dst ∧ f.vlan ∈ i.vlans
      let room := s.inBudget actEth port p n capEth
      let x := s.part p
      let o := exec (.ethFrameReceive port ⟨f, buf⟩) s
      ((∃ y r, s.parts = (p, y) :: r ∧ takes y) → port < 2 →
        (room = true → mayUse p buf f.data.length → ∃ t, o = .next t ∧ s.Stored t buf f.data ∧
          t.part p = { x with rx := x.rx ++ [(port, f)], rxSums := x.rxSums ++ [checksumOk f.data] } ∧
          ∀ k, k ≠ p → t.part k = s.part k) ∧
        (room = true → ¬mayUse p buf f.data.length → ∃ t, o = .next t ∧ frame t ∧ t.mem = s.mem) ∧
        (room = false → o = .next s)) ∧
      ((∀ y ∈ s.parts, ¬takes y.2) ∨ 2 ≤ port → o = .next s)) ∧
    (∀ (port p vlan buf len : Nat) (dst : BitVec 48), let n := (len + 63) / 64
      let room := s.inBudget actEth port p n capEth
      let x := s.part p
      let may : Prop := port < 2 ∧ (∃ i ∈ x.ifaces, i.port = port) ∧ room = true ∧ mayUse p buf len ∧ s.poisoned buf len = false
      let o := exec (.ethFrameTransmit port p ⟨dst, vlan, buf, len⟩) s
      (may → ∃ (t : State) (data : List Byte), o = .next t ∧ t.part p = { x with tx := x.tx ++ [(port, ⟨dst, vlan, data⟩)] } ∧
        (∀ k, k ≠ p → t.part k = s.part k) ∧ t.mem = s.mem ∧ data.length = len ∧ checksumOk data ≠ some false ∧
        ∀ j, j < len → (∀ g, segmentOf (s.bytesAt buf len) = some g → j ≠ g.at_ + g.field ∧ j ≠ g.at_ + g.field + 1) →
          data.getD j 0 = s.byteAt (buf + j)) ∧
      (¬may → o = .next s)) ∧
    (∀ (port p : Nat) (write : Bool) (pa : Nat) (data : List Byte), let o := exec (.nvmeDma port p write pa data) s
      let room := s.inBudget actNvme port p ((data.length + 4095) / 4096) capNvme
      (2 ≤ port → o = .next s) ∧ (port < 2 → (s.part p).nvme.get port 0 ≠ 0 →
      (room = true → mayUse p pa data.length → s.poisoned pa data.length = false → ∃ t, o = .next t ∧ frame t ∧
        s.Stored t pa (if write then data else []) ∧
        t.reply = 0 :: if write then [] else (s.bytesAt pa data.length).map fun b => b.setWidth 64) ∧
      (room = true → ¬mayUse p pa data.length → ∃ t, o = .next t ∧ frame t ∧ t.mem = s.mem ∧ t.reply = [1]) ∧
      (room = false → o = .next s)))

/-! ### Queues -/

/-- R397, R338: a queue that is created is empty, and its capability seals its words; a call that breaks a rule is refused
(reply 1), and so is one for a partition that has not started, or has a team, and one for a PASID that is not the partition's. A
revocation raises GEN. R406: a queue that is destroyed is dead, and its launches in flight fail with Translation, while its other
commands stay; a partition that is torn down has only dead queues, no seal key and no trap vector; a dead queue's COMP and HEAD can be
read, and R399 the refused wakes. R398, R399: a wake that passes its checks moves TAIL, and any other only adds 1 to the
partition's refused wakes. That a refused call replies 1, and that a call for a partition which has not started is refused, since there
is no key to seal with, is the model's reading (DEDUCED, log 29). -/
def Obligations.Queues : Prop :=
  ∀ s : State,
    (∀ (p qid pasid : Nat) (base : Dword) (lsz : Nat) (rights : BitVec 8),
      let o := exec (.queueCreate p qid pasid base lsz rights) s
      let form : Prop := p < 16 ∧ qid < 16384 ∧ pasid < 2 ^ 20 ∧ 12 ≤ lsz ∧ lsz ≤ 26 ∧ base.toNat < 2 ^ 52 ∧
        base.toNat % 4096 = 0 ∧ fld rights 7 6 = 0 ∧ (s.part p).sealGen ≠ 0 ∧
        (s.part p).pasidBase ≤ pasid ∧ pasid < (s.part p).pasidBase + (s.part p).pasidCount ∧
        ∀ tm ∈ s.teams, tm.part = p → tm.st = .gone
      (form → s.queue? qid = none → (s.queues.filter fun q => q.part == p && !q.dead).length < 1024 →
        ∃ t w0 w1 w2 w3, o = .next t ∧ t.queue? qid = some { qid, part := p, pasid, base, lsz, rights } ∧
          t.reply = [w0, w1, w2, w3] ∧ w0 = base ∧ fld w1 63 58 = lsz ∧ fld w1 57 44 = qid ∧ fld w1 43 40 = p ∧
          fld w1 37 32 = rights.toNat ∧ fld w1 19 0 = pasid ∧ w2 = 0 ∧ w3 = sealOf p (s.part p).sealGen [w0, w1, w2] ∧
          (∀ k, k ≠ qid → t.queue? k = s.queue? k) ∧ { t with queues := s.queues, reply := s.reply } = s) ∧
      (¬form ∨ (∃ q, s.queue? qid = some q ∧ q.dead = false) → o = .next { s with reply := [1] })) ∧
    (∀ (qid : Nat) (q : Queue), s.queue? qid = some q →
      (∃ t, exec (.capabilityRevoke qid) s = .next t ∧ t.queue? qid = some { q with gen := (q.gen + 1) % 2 ^ 32 } ∧
        (∀ k, k ≠ qid → t.queue? k = s.queue? k) ∧ { t with queues := s.queues } = s) ∧
      (q.dead = false → ∃ t, exec (.queueDestroy qid) s = .next t ∧ t.mem = s.mem ∧
        t.queue? qid = some { q with dead := true, cmds := q.cmds.filter fun c => !s.flying q c } ∧
        ∀ h l, s.launch? q.part h = some l → l.qid = qid → l.st = .live → ∃ l', t.launch? q.part h = some l' ∧
          l'.st = .failing ∧ l'.cause = 8) ∧
      (q.dead = true → exec (.deadQueueRead qid) s = .next { s with reply := [BitVec.ofNat 64 q.comp, BitVec.ofNat 64 q.head] }) ∧
      (q.dead = false → exec (.deadQueueRead qid) s = .next { s with reply := [1] })) ∧
    (∀ p, exec (.refusedWakeRead p) s = .next { s with reply := [BitVec.ofNat 64 (s.part p).refused] } ∧
      ∃ t, exec (.partitionTeardown p) s = .next t ∧ t.mem = s.mem ∧ (t.part p).sealGen = 0 ∧ (t.part p).vectors = [] ∧
        (∀ k q, s.queue? k = some q → q.part = p → ∃ q', t.queue? k = some q' ∧ q'.dead = true) ∧
        ∀ k q, s.queue? k = some q → (∀ y ∈ s.queues, y.qid = k → y.part ≠ p) → t.queue? k = some q) ∧
    (∀ (p window : Nat) (w0 w1 w2 w3 w4 : Dword), p < 16 → window < 1024 →
      let qid := fld w1 57 44
      let tail := fld w4 31 0
      let ok (q : Queue) : Prop := s.queue? qid = some q ∧ fld w0 63 52 = 0 ∧ fld w1 39 38 = 0 ∧ fld w1 31 20 = 0 ∧
        fld w2 31 0 = 0 ∧ fld w4 63 32 = 0 ∧ (s.part p).sealGen ≠ 0 ∧ w3 = sealOf p (s.part p).sealGen [w0, w1, w2] ∧ fld w1 43 40 = p ∧
        q.part = p ∧ q.dead = false ∧ fld w2 63 32 = q.gen ∧ (tail + 2 ^ 32 - q.tail) % 2 ^ 32 ≤ 2 ^ (q.lsz - 3)
      let o := exec (.queueWake p window w0 w1 w2 w3 w4) s
      (∀ q, ok q → ∃ t, o = .next t ∧ t.queue? qid = some { q with tail } ∧ (∀ k, k ≠ qid → t.queue? k = s.queue? k) ∧
        (t.part p).refused = (s.part p).refused ∧ t.mem = s.mem) ∧
      ((∀ q, ¬ok q) → ∃ t, o = .next t ∧ t.queues = s.queues ∧ (t.part p).refused = (s.part p).refused + 1 ∧ t.mem = s.mem))

/-- R401, R402: a whole packet at HEAD is consumed: HEAD moves behind it, its values stand in the shadow registers, and its
command starts; a reserved field gives STATUS 2, and a missing right STATUS 3. R403: NOP, SIGNAL, ICINV and a refused
command are done at once; LAUNCH gets a handle, DUMP its oldest launch, FENCE its queue and its count; TEARDOWN kills the
queue with its PASID. R403, R404: the oldest command completes when its effect is done: COMP goes up by 1, the completion
record is written, and the interrupt is raised, if there is a host and the partition has that vector (R351); a command whose effect is
to come stays. R396: LAUNCH waits until the policy core serves the queue's core. Stated for a queue with no
command before the packet, and for addresses that translate without setting A or D. That DUMP starts behind a launch in flight, that the
launch it saves completes with STATUS 0, and that no interrupt of a vector from 64 on is raised, is log 29 (DEDUCED); that the accesses
of the queue core and the hub are made at privilege T, and of the policy core here, is log 25 (DEDUCED). -/
def Obligations.Packets : Prop :=
  ∀ (s : State) (qid : Nat) (q : Queue), s.queue? qid = some q →
    (∀ p : Packet, q.dead = false → s.packetRead q = some (p, s) →
      let m := shadowSet q.shadow p
      let r (i : Nat) : Dword := m.get i 0
      let head := (q.head + 1 + ((List.range 32).filter fun i => p.hdr.getLsbD i).length) % 2 ^ 32
      let whole : Prop := fld p.hdr 55 50 = 0 ∧ fld p.hdr 47 32 = 0 ∧ fld p.hdr 31 11 = 0
      let may (n : Nat) : Prop := whole ∧ fld p.hdr 63 56 = n ∧ (n ≠ 0 → q.rights.getLsbD (n - 1) = true)
      let starts (t : State) (m : SMap Dword) (c : Cmd) : Prop :=
        t.queue? qid = some { q with head, shadow := m, cmds := q.cmds ++ [c] } ∧ (∀ k, k ≠ qid → t.queue? k = s.queue? k) ∧
        t.hands = s.hands ∧ t.teams = s.teams
      let cmd (n : Nat) (st : Option (Nat × Nat)) : Cmd :=
        { cmd := n, irq := p.hdr.getLsbD 48, cpl := r 2, cval := r 3, head, vector := fld (r 10) 10 0, status := st }
      let writes (va n pa : Nat) : Prop := va < 2 ^ 52 ∧ va % n = 0 ∧ s.Sound pa n ∧
        ∃ unc tl, s.walkVa q.pasid va .write true = ((.ok pa unc, some tl), s)
      (∀ st, q.cmds = [] → st = 2 ∧ ¬whole ∨ st = 3 ∧ whole ∧ fld p.hdr 63 56 = 1 ∧ q.rights.getLsbD 0 = false →
        fld p.hdr 63 56 = 1 → ∃ t c, exec (.pktLaunch qid) s = .next t ∧ starts t (if st = 2 then q.shadow else m) c ∧
          c.status = some (st, 0) ∧ t.launches = s.launches ∧ t.mem = s.mem) ∧
      (q.cmds = [] →
        (may 0 → ∃ t, exec (.pktNop qid) s = .next t ∧ starts t m (cmd 0 (some (0, 0))) ∧ t.mem = s.mem) ∧
        (∀ bs, may 1 → (r 0).toNat % 64 = 0 → s.vread q.pasid (r 0).toNat 64 = (.ok bs, s) → s.policyTurn ≠ some (qid % 6) →
          exec (.pktLaunch qid) s = .next s) ∧
        (∀ bs, may 1 → (r 0).toNat % 64 = 0 → s.vread q.pasid (r 0).toNat 64 = (.ok bs, s) → s.policyTurn = some (qid % 6) →
          ∃ t, exec (.pktLaunch qid) s = .next t ∧ t.mem = s.mem ∧
            starts t m { cmd 1 none with launch := (s.part q.part).nextHandle } ∧
            t.policyLast = some (qid % 6) ∧ (t.part q.part).nextHandle = ((s.part q.part).nextHandle + 1) % 2 ^ 32 ∧
            t.launch? q.part (s.part q.part).nextHandle = some { part := q.part, handle := (s.part q.part).nextHandle, qid := q.qid, pasid := q.pasid, image := r 0, saveDflt := r 1, st := .pending }) ∧
        (∀ pa, may 2 → writes (r 4).toNat 8 pa → ∃ t, exec (.pktSignal qid) s = .next t ∧
          starts t m (cmd 2 (some (0, 0))) ∧ s.Stored t pa (toBytes 8 (r 5).toNat)) ∧
        (∀ f, may 3 → s.queue? (fld (r 6) 13 0) = some f → f.part = q.part → ∃ t, exec (.pktFence qid) s = .next t ∧
          starts t m { cmd 3 none with x := r 6, y := r 7 } ∧ t.mem = s.mem) ∧
        (may 4 → ∃ t, exec (.pktIcinv qid) s = .next t ∧ starts t m (cmd 4 (some (0, 0))) ∧ t.mem = s.mem ∧
          ∀ c e, e ∈ (t.core c).icache ↔ e ∈ (s.core c).icache ∧
            ¬(e.1 = q.part ∧ (e.2.2.1.toNat + 2 ^ 30 - fld (r 8) 29 0) % 2 ^ 30 < fld (r 9) 31 0)) ∧
        (may 5 → ∃ t, exec (.pktDump qid) s = .next t ∧ starts t m (cmd 5 (some (4, 0))) ∧ t.mem = s.mem) ∧
        (∀ c, may 6 → s.ctx? q.pasid = some c → c.dead = false → ∃ t q', exec (.pktTeardown qid) s = .next t ∧
          t.mem = s.mem ∧ t.queue? qid = some q' ∧ q'.dead = true ∧ t.ctx? q.pasid = some { c with dead := true })) ∧
      (∀ c, q.cmds = [c] → s.flying q c = true → may 5 → ∃ t, exec (.pktDump qid) s = .next t ∧
        starts t m { cmd 5 none with launch := c.launch, x := r 0 } ∧ t.mem = s.mem)) ∧
    (∀ (c : Cmd) (rest : List Cmd) (st cause : Nat), q.cmds = c :: rest → (∀ y ∈ q.cmds, y.cmd ≠ 5) →
      let done (fseq : Nat) : Prop := (c.status = some (st, cause) ∧ st ≠ 1 ∧ fseq = 0) ∨
        (c.status = none ∧ c.cmd = 1 ∧ ∃ l, s.launch? q.part c.launch = some l ∧
          (((l.st = .ended ∨ l.st = .saved) ∧ st = 0 ∧ cause = 0 ∧ fseq = 0) ∨ (l.st = .endedFailed ∧ st = 1 ∧ cause = l.cause ∧ fseq = l.fseq))) ∨
        (c.status = none ∧ c.cmd = 3 ∧ st = 0 ∧ cause = 0 ∧ fseq = 0 ∧ ∃ f, s.queue? (fld c.x 13 0) = some f ∧ f.part = q.part ∧ c.y.toNat ≤ f.comp) ∨
        (c.status = none ∧ c.cmd = 6 ∧ st = 0 ∧ cause = 0 ∧ fseq = 0 ∧ ∀ k ∈ s.cores, k.2.origins = [])
      let left (t : State) : Prop := t.queue? qid = some { q with comp := q.comp + 1, cmds := rest } ∧
        t.irqs = (if c.irq = true ∧ s.host = true ∧ c.vector < 64 then s.irqs ++ [(q.part, c.vector)] else s.irqs) ∧ (∀ k, k ≠ qid → t.queue? k = s.queue? k) ∧
        t.hands = s.hands ∧ t.launches = s.launches
      (∀ fseq, done fseq → c.cpl = 0 → ∃ t, exec (.commandComplete qid) s = .next t ∧ left t ∧ t.mem = s.mem) ∧
      (∀ fseq pa unc tl, done fseq → c.cpl ≠ 0 → c.cpl.toNat < 2 ^ 52 → c.cpl.toNat % 32 = 0 → s.Sound pa 32 →
        s.walkVa q.pasid c.cpl.toNat .write true = ((.ok pa unc, some tl), s) →
        ∃ t, exec (.commandComplete qid) s = .next t ∧ left t ∧ s.Stored t pa (toBytes 8 c.cval.toNat ++
          toBytes 8 (st * 2 ^ 56 + cause * 2 ^ 48 + c.head) ++ toBytes 8 (c.launch * 2 ^ 32 + fseq % 2 ^ 32) ++
          toBytes 8 (q.comp + 1))) ∧
      (∀ l, c.status = none → c.cmd = 1 → s.launch? q.part c.launch = some l → l.st = .live ∨ l.st = .pending →
        exec (.commandComplete qid) s = .next s))

/-! ### Issue, decoding and the step -/

/-- R12, R207 check 5, R371, R373: in a cycle that started with the core's counter not positive, an instruction of a vector pipe does not
issue: nothing changes. One whose operands are of a class that its positions disallow raises Reserved-Operand for every
participant, and has no effect of its own: those at privilege U whose vector entry delivers in the hand enter the trap
region, with their restart entry as the return address. That the credits of the refused word are taken is the model's
reading (DEDUCED, log 28). -/
def Obligations.IssueChecks : Prop :=
  ∀ (s : State) (i : Iss) (h : Hdr) (ty : Ty) (d a b : Opnd) (imm : Word) (sr : BitVec 8), s.Issues i →
    (h.u = false → (s.core i.tm.core).actStart ≤ 0 →
      ∀ x ∈ [Instr.iadd h ty d a b, .iaddImm h ty d a imm, .isub h ty d a b, .imul h ty d a b, .idiv h ty d a b,
          .and h ty d a b, .shl h ty d a b, .mov h ty d a, .movi h ty d imm, .fadd h d a b, .frcp h d a, .rdsr h d sr,
          .wrsr h a sr, .shfl h ty .idx 0 d a b, .redux h ty .add d a], exec x s = .next { s with cur := none }) ∧
    (∀ v : Dword, argsOk h.u i.hd.privT (args2 ty d a (.o b)) = false →
      (h.u = false → 0 < (s.core i.tm.core).actStart) → (s.part i.tm.part).vectors.get 2 0 = v → v.getLsbD 63 = true →
      (∀ t ∈ i.hd.parts h, (i.hd.thr t).tl = false) →
      ∀ x ∈ [Instr.iadd h ty d a b, .isub h ty d a b, .imul h ty d a b, .imulh h ty d a b, .imin h ty d a b,
          .imax h ty d a b, .and h ty d a b, .or h ty d a b, .xor h ty d a b, .andn h ty d a b, .idiv h ty d a b],
        ∃ (t : State) (m : Hand), exec x s = .next t ∧ s.Did t i (costOf h 2) 0 (m.goesOn i h) ∧
          (∀ k, k < i.hd.threads.length → k ∉ i.hd.parts h → m.thr k = i.hd.thr k) ∧
          (∀ k ∈ i.hd.parts h, k < i.hd.threads.length →
            { m.thr k with x := (i.hd.thr k).x } =
              { i.hd.thr k with tl := true, wa := v.extractLsb' 0 30, st := .unparked, wait := .none } ∧
            (m.thr k).x.getRun 0 0 8 = [0x102, (i.hd.thr k).re.setWidth 32, i.c.addr.setWidth 32, 0, 0, 0, 0, 0]) ∧
          (∀ k, m.act.getLsbD k = (i.hd.act.getLsbD k && decide (k ∉ i.hd.parts h))) ∧
          { m with threads := [], act := 0 } = { i.hd with threads := [], act := 0 })

/-- R36, R195, R207: a step of a ready hand fetches the word at its place, and the extension of a long form, decodes
them, and is `exec` of what they decode to, with that instruction as the one that issues. R274, R140: an instruction that reads or
writes memory waits for the barrier operations of the hand's FENCE, for the sample of its BART and for its BARI (DEDUCED, log 40), and, where
it performs what the hand has stored, until the budgets allow that (R340; the model's, log 62). R308: an AALC or AFRE waits for that of
a hand of another quadrant which comes first (log 3). A step of the device is `exec` of its row. R395, R344: a package that has stopped, or halted, takes only RESET. Which step comes next is the model's schedule, and where
that is empty the first of the default moves that changes something (DESIGN CHOICE, log 3). Stated for words that are fetched without a
walk. -/
def Obligations.StepRuns : Prop :=
  ∀ s : State,
    let halted : Prop := s.stopped ≠ none ∨ s.bootHalt ≠ none
    (∀ (t h : Nat) (tm : Team) (hd : Hand) (w : Dword) (r : List Move), ¬halted → s.team? t = some tm →
      s.hand? t h = some hd → s.handLive tm = true → hd.phase = .visit → hd.busy = 0 → hd.act ≠ 0 → hd.off < hd.blen →
      (hd.sw = true → hd.pend = []) →
      let a : CodeAddr := hd.pos + 1 + BitVec.ofNat 30 hd.off
      let held (u : State) (i : Instr) : Prop := (fencedInstr i = true ∧ ∃ x ∈ s.arrivals ++ s.heldArr, x.id ∈ hd.fence) ∨
        ((fencedInstr i = true ∨ touchesMem i = true) ∧ ∃ x ∈ s.arrivals, x.kind ≠ .arrive ∧ x.team = t ∧ x.hix = h) ∨
        (flushes i = true ∧ u.flushPaid tm hd = false) ∨ u.bankHeld tm hd i = true
      let next : State := { s with schedule := r }
      let runs (i : Instr) (c : Cur) : Prop :=
        (s.schedule = .issue t h :: r → ¬held next i → step s = exec i { s with schedule := r, cur := some c }) ∧
        (s.schedule = .issue t h :: r → held next i → step s = .next next) ∧
        (∀ u ms, s.schedule = [] → s.defaultMoves = .issue t h :: ms → ¬held s i → exec i { s with cur := some c } = .next u →
          u ≠ s → u ≠ { s with cur := none } → step s = .next { u with turn := (t, h) :: u.turn })
      s.Code tm hd.inTrap a w →
      (∀ i, fld w 63 56 < 0xC0 → decode w 0 = .ok i → runs i ⟨t, h, a, 1, w, 0⟩) ∧
      (∀ i e, 0xC0 ≤ fld w 63 56 → hd.off + 1 < hd.blen → s.Code tm hd.inTrap (a + 1) e → decode w e = .ok i →
        runs i ⟨t, h, a, 2, w, e⟩)) ∧
    (∀ i r, s.schedule = .event i :: r → i.isWord = false → ¬halted → step s = exec i { s with schedule := r, cur := none }) ∧
    (∀ r, halted → s.schedule = .event .reset :: r → step s = exec .reset { s with schedule := r, cur := none }) ∧
    (∀ m r, halted → m ≠ .event .reset → s.schedule = m :: r → step s = .fault .packageStopped)

/-- R196 to R199: words that the manual works out decode to the instructions that it says they encode. -/
def Obligations.DecodeWords : Prop :=
  let v : Hdr := ⟨false, false, false, 7, 0⟩
  let u : Hdr := ⟨true, false, false, 3, 0⟩
  decode 0x101C0284E27C0000 0 = .ok (.iadd v .i32 (.g 5) (.g 4) (.imm 17)) ∧
  decode 0xC01C02843E7C0000 0x3E8 = .ok (.iaddImm v .i32 (.g 5) (.g 4) 1000) ∧
  decode 0x0204000002000000 0 = .ok (.go ⟨false, false, false, 1, 0⟩ 2) ∧
  decode 0x041C000020001000 0 = .ok (.call v 0x20 .s8) ∧
  decode 0xCC8C209F3E7C0000 0x400000100 = .ok (.amovImm u (.a 1) 0x100 4) ∧
  decode 0x551C02843E7C0C90 0 = .ok (.cvt v .e4m3 .f32 .dflt (.g 5) (.g 4)) ∧
  decode 0x725C02403E7C0900 0 = .ok (.lds ⟨false, true, false, 7, 0⟩ .f32 ⟨.plain, .h⟩ (.g 4) (.a 0)) ∧
  decode 0x761C02A40C7C004C 0 = .ok (.atom v .i32 ⟨.rlx, .c⟩ .spad .add (.g 5) (.k 4) (.g 6)) ∧
  decode 0xF01C0FA043C40000 4 = .ok (.barw v (.k 0) (.k 1) (.imm 17) 4) ∧
  decode 0xB31C02A6827C0900 0 = .ok (.ard v .f32 (.g 5) (.k 6) (.a 1)) ∧
  decode 0x0 0 = .error .unassigned ∧ decode 0x109C0284E27C0000 0 = .error .form ∧
  decode 0x101C0284E27C0E00 0 = .error .reserved

/-- R195, R205, R207, R16: what decodes is well-formed, and its words are the ones that the encoder gives it, so that no
two words have one meaning and no reserved bit is passed over. An opcode without a row, a header, and U = 1 with
PR[2] = 1 do not decode; the HINT field decides nothing. -/
def Obligations.DecodeExact : Prop :=
  ∀ w e : Dword,
    (∀ i, decode w e = .ok i → i.isWord = true ∧ i.wf = true ∧
      encode i = some (w, if 0xC0 ≤ fld w 63 56 then some e else none)) ∧
    (let op := fld w 63 56
     op ≤ 1 ∨ [14, 15, 15, 9, 15, 9, 7, 10, 5, 8, 7, 11, 15, 6, 9, 7].getD (op / 16) 0 ≤ op % 16 →
      decode w e = .error .unassigned) ∧
    (w.getLsbD 55 = true → w.getLsbD 52 = true → ∀ i, decode w e ≠ .ok i) ∧
    (∀ n : BitVec 4, ((decode w e).toOption).isSome = ((decode (w ^^^ (n.setWidth 64 <<< 46)) e).toOption).isSome)

/-- R195 to R206: every well-formed instruction of a hand, with every operand at every value, has words, and they decode
to it. -/
def Obligations.DecodeEncode : Prop :=
  ∀ i : Instr, i.isWord = true → i.wf = true →
    ∃ (w : Dword) (e : Option Dword), encode i = some (w, e) ∧ (e.isSome = true ↔ 0xC0 ≤ fld w 63 56) ∧
      decode w (e.getD 0) = .ok i

/-- Every instruction and every step of the device completes in every state: it answers a next state, and neither a
fault nor a refusal. (Where a rule lets a step wait, it is taken again; DESIGN CHOICE, log 4.) -/
def Obligations.ExecAnswersNext : Prop := ∀ (i : Instr) (s : State), ∃ t, exec i s = .next t

/-- R11, R13, R345: at reset every counter is full, the refill rate is 32 and MD is zero; memory lists nothing, and has its
canonical form. That nothing is assigned and nothing runs is the model's choice (DESIGN CHOICE, log 20). -/
def Obligations.ResetState : Prop :=
  let s := State.reset
  s.MemOk ∧ s.mem = [] ∧ (∀ c, (s.core c).activity = 262144) ∧ s.refill = 32 ∧ s.md = 0 ∧ s.stopped = none ∧ s.bootStage = 0 ∧
  (s.teams, s.hands, s.launches, s.queues, s.parts, s.contexts) = ([], [], [], [], [], [])

/-- The memory keeps its canonical form: addresses strictly rise, and no entry equals what an unlisted one reads as. -/
def Obligations.StepKeepsMemOk : Prop := ∀ s t : State, s.MemOk → step s = .next t → t.MemOk
end

