-- ==== Sys2Proof/Laws/Dispatch.lean ====
section
/-! SUPPORT. One lemma per instruction: `exec` is its meaning. -/

namespace Sys2Proof.Machine

theorem exec_go (h : Hdr) (off : BitVec 22) (s : State) : exec (.go h off) s = execGo h off s := rfl
theorem exec_got (h : Hdr) (a b : Opnd) (s : State) : exec (.got h a b) s = execGot h a b s := rfl
theorem exec_call (h : Hdr) (off : BitVec 22) (sl : Slide) (s : State) : exec (.call h off sl) s = execCall h off sl s := rfl
theorem exec_callt (h : Hdr) (off : BitVec 22) (sl : Slide) (s : State) : exec (.callt h off sl) s = execCallt h off sl s := rfl
theorem exec_ret (h : Hdr) (s : State) : exec (.ret h) s = execRet h s := rfl
theorem exec_exit (h : Hdr) (s : State) : exec (.exit h) s = execExit h s := rfl
theorem exec_park (h : Hdr) (off : BitVec 22) (s : State) : exec (.park h off) s = execPark h off s := rfl
theorem exec_yield (h : Hdr) (s : State) : exec (.yield h) s = execYield h s := rfl
theorem exec_nop (h : Hdr) (s : State) : exec (.nop h) s = execNop h s := rfl
theorem exec_trap (h : Hdr) (a : Opnd) (s : State) : exec (.trap h a) s = execTrap h a s := rfl
theorem exec_sysc (h : Hdr) (a : Opnd) (s : State) : exec (.sysc h a) s = execSysc h a s := rfl
theorem exec_tret (h : Hdr) (s : State) : exec (.tret h) s = execTret h s := rfl
theorem exec_iadd (h : Hdr) (t : Ty) (d a b : Opnd) (s : State) : exec (.iadd h t d a b) s = execIadd h t d a b s := rfl
theorem exec_iaddImm (h : Hdr) (t : Ty) (d a : Opnd) (imm : Word) (s : State) : exec (.iaddImm h t d a imm) s = execIaddImm h t d a imm s := rfl
theorem exec_isub (h : Hdr) (t : Ty) (d a b : Opnd) (s : State) : exec (.isub h t d a b) s = execIsub h t d a b s := rfl
theorem exec_isubImm (h : Hdr) (t : Ty) (d a : Opnd) (imm : Word) (s : State) : exec (.isubImm h t d a imm) s = execIsubImm h t d a imm s := rfl
theorem exec_iaddc (h : Hdr) (t : Ty) (d a b : Opnd) (c : POpnd) (s : State) : exec (.iaddc h t d a b c) s = execIaddc h t d a b c s := rfl
theorem exec_isubb (h : Hdr) (t : Ty) (d a b : Opnd) (c : POpnd) (s : State) : exec (.isubb h t d a b c) s = execIsubb h t d a b c s := rfl
theorem exec_imul (h : Hdr) (t : Ty) (d a b : Opnd) (s : State) : exec (.imul h t d a b) s = execImul h t d a b s := rfl
theorem exec_imulImm (h : Hdr) (t : Ty) (d a : Opnd) (imm : Word) (s : State) : exec (.imulImm h t d a imm) s = execImulImm h t d a imm s := rfl
theorem exec_imulh (h : Hdr) (t : Ty) (d a b : Opnd) (s : State) : exec (.imulh h t d a b) s = execImulh h t d a b s := rfl
theorem exec_imad (h : Hdr) (t : Ty) (d a b c : Opnd) (s : State) : exec (.imad h t d a b c) s = execImad h t d a b c s := rfl
theorem exec_idiv (h : Hdr) (t : Ty) (d a b : Opnd) (s : State) : exec (.idiv h t d a b) s = execIdiv h t d a b s := rfl
theorem exec_irem (h : Hdr) (t : Ty) (d a b : Opnd) (s : State) : exec (.irem h t d a b) s = execIrem h t d a b s := rfl
theorem exec_imin (h : Hdr) (t : Ty) (d a b : Opnd) (s : State) : exec (.imin h t d a b) s = execImin h t d a b s := rfl
theorem exec_iminImm (h : Hdr) (t : Ty) (d a : Opnd) (imm : Word) (s : State) : exec (.iminImm h t d a imm) s = execIminImm h t d a imm s := rfl
theorem exec_imax (h : Hdr) (t : Ty) (d a b : Opnd) (s : State) : exec (.imax h t d a b) s = execImax h t d a b s := rfl
theorem exec_imaxImm (h : Hdr) (t : Ty) (d a : Opnd) (imm : Word) (s : State) : exec (.imaxImm h t d a imm) s = execImaxImm h t d a imm s := rfl
theorem exec_iabs (h : Hdr) (t : Ty) (d a : Opnd) (s : State) : exec (.iabs h t d a) s = execIabs h t d a s := rfl
theorem exec_ineg (h : Hdr) (t : Ty) (d a : Opnd) (s : State) : exec (.ineg h t d a) s = execIneg h t d a s := rfl
theorem exec_isel (h : Hdr) (t : Ty) (d a b : Opnd) (c : POpnd) (s : State) : exec (.isel h t d a b c) s = execIsel h t d a b c s := rfl
theorem exec_icmp (h : Hdr) (t : Ty) (cond : Cond) (d : POpnd) (a b : Opnd) (s : State) : exec (.icmp h t cond d a b) s = execIcmp h t cond d a b s := rfl
theorem exec_icmpImm (h : Hdr) (t : Ty) (cond : Cond) (d : POpnd) (a : Opnd) (imm : Word) (s : State) : exec (.icmpImm h t cond d a imm) s = execIcmpImm h t cond d a imm s := rfl
theorem exec_and (h : Hdr) (t : Ty) (d a b : Opnd) (s : State) : exec (.and h t d a b) s = execAnd h t d a b s := rfl
theorem exec_andImm (h : Hdr) (t : Ty) (d a : Opnd) (imm : Word) (s : State) : exec (.andImm h t d a imm) s = execAndImm h t d a imm s := rfl
theorem exec_or (h : Hdr) (t : Ty) (d a b : Opnd) (s : State) : exec (.or h t d a b) s = execOr h t d a b s := rfl
theorem exec_orImm (h : Hdr) (t : Ty) (d a : Opnd) (imm : Word) (s : State) : exec (.orImm h t d a imm) s = execOrImm h t d a imm s := rfl
theorem exec_xor (h : Hdr) (t : Ty) (d a b : Opnd) (s : State) : exec (.xor h t d a b) s = execXor h t d a b s := rfl
theorem exec_xorImm (h : Hdr) (t : Ty) (d a : Opnd) (imm : Word) (s : State) : exec (.xorImm h t d a imm) s = execXorImm h t d a imm s := rfl
theorem exec_andn (h : Hdr) (t : Ty) (d a b : Opnd) (s : State) : exec (.andn h t d a b) s = execAndn h t d a b s := rfl
theorem exec_andnImm (h : Hdr) (t : Ty) (d a : Opnd) (imm : Word) (s : State) : exec (.andnImm h t d a imm) s = execAndnImm h t d a imm s := rfl
theorem exec_not (h : Hdr) (t : Ty) (d a : Opnd) (s : State) : exec (.not h t d a) s = execNot h t d a s := rfl
theorem exec_shl (h : Hdr) (t : Ty) (d a b : Opnd) (s : State) : exec (.shl h t d a b) s = execShl h t d a b s := rfl
theorem exec_shr (h : Hdr) (t : Ty) (d a b : Opnd) (s : State) : exec (.shr h t d a b) s = execShr h t d a b s := rfl
theorem exec_sar (h : Hdr) (t : Ty) (d a b : Opnd) (s : State) : exec (.sar h t d a b) s = execSar h t d a b s := rfl
theorem exec_rol (h : Hdr) (t : Ty) (d a b : Opnd) (s : State) : exec (.rol h t d a b) s = execRol h t d a b s := rfl
theorem exec_bfx (h : Hdr) (t : Ty) (d a b c : Opnd) (s : State) : exec (.bfx h t d a b c) s = execBfx h t d a b c s := rfl
theorem exec_bfi (h : Hdr) (t : Ty) (d a b c : Opnd) (s : State) : exec (.bfi h t d a b c) s = execBfi h t d a b c s := rfl
theorem exec_popc (h : Hdr) (t : Ty) (d a : Opnd) (s : State) : exec (.popc h t d a) s = execPopc h t d a s := rfl
theorem exec_clz (h : Hdr) (t : Ty) (d a : Opnd) (s : State) : exec (.clz h t d a) s = execClz h t d a s := rfl
theorem exec_ctz (h : Hdr) (t : Ty) (d a : Opnd) (s : State) : exec (.ctz h t d a) s = execCtz h t d a s := rfl
theorem exec_brev (h : Hdr) (t : Ty) (d a : Opnd) (s : State) : exec (.brev h t d a) s = execBrev h t d a s := rfl
theorem exec_mov (h : Hdr) (t : Ty) (d a : Opnd) (s : State) : exec (.mov h t d a) s = execMov h t d a s := rfl
theorem exec_movi (h : Hdr) (t : Ty) (d : Opnd) (imm : Word) (s : State) : exec (.movi h t d imm) s = execMovi h t d imm s := rfl
theorem exec_movw (h : Hdr) (t : Ty) (d : Opnd) (imm : Dword) (s : State) : exec (.movw h t d imm) s = execMovw h t d imm s := rfl
theorem exec_pset (h : Hdr) (op : PsetOp) (d a b : POpnd) (s : State) : exec (.pset h op d a b) s = execPset h op d a b s := rfl
theorem exec_amov (h : Hdr) (d a b : Opnd) (s : State) : exec (.amov h d a b) s = execAmov h d a b s := rfl
theorem exec_amovImm (h : Hdr) (d : Opnd) (base stride : Word) (s : State) : exec (.amovImm h d base stride) s = execAmovImm h d base stride s := rfl
theorem exec_aadd (h : Hdr) (d a b : Opnd) (s : State) : exec (.aadd h d a b) s = execAadd h d a b s := rfl
theorem exec_aaddImm (h : Hdr) (d a : Opnd) (base stride : Word) (s : State) : exec (.aaddImm h d a base stride) s = execAaddImm h d a base stride s := rfl
theorem exec_amul (h : Hdr) (d a b : Opnd) (s : State) : exec (.amul h d a b) s = execAmul h d a b s := rfl
theorem exec_amulImm (h : Hdr) (d a : Opnd) (imm : Word) (s : State) : exec (.amulImm h d a imm) s = execAmulImm h d a imm s := rfl
theorem exec_aget (h : Hdr) (d a : Opnd) (s : State) : exec (.aget h d a) s = execAget h d a s := rfl
theorem exec_alea (h : Hdr) (d a b c : Opnd) (s : State) : exec (.alea h d a b c) s = execAlea h d a b c s := rfl
theorem exec_rdsr (h : Hdr) (d : Opnd) (sr : BitVec 8) (s : State) : exec (.rdsr h d sr) s = execRdsr h d sr s := rfl
theorem exec_wrsr (h : Hdr) (a : Opnd) (sr : BitVec 8) (s : State) : exec (.wrsr h a sr) s = execWrsr h a sr s := rfl
theorem exec_wrsrWlo (h : Hdr) (a : Opnd) (s : State) : exec (.wrsrWlo h a) s = execWrsrWlo h a s := rfl
theorem exec_wrsrTmr (h : Hdr) (a : Opnd) (s : State) : exec (.wrsrTmr h a) s = execWrsrTmr h a s := rfl
theorem exec_wrsrHs (h : Hdr) (a : Opnd) (s : State) : exec (.wrsrHs h a) s = execWrsrHs h a s := rfl
theorem exec_fadd (h : Hdr) (d a b : Opnd) (s : State) : exec (.fadd h d a b) s = execFadd h d a b s := rfl
theorem exec_faddImm (h : Hdr) (d a : Opnd) (imm : Word) (s : State) : exec (.faddImm h d a imm) s = execFaddImm h d a imm s := rfl
theorem exec_fsub (h : Hdr) (d a b : Opnd) (s : State) : exec (.fsub h d a b) s = execFsub h d a b s := rfl
theorem exec_fmul (h : Hdr) (d a b : Opnd) (s : State) : exec (.fmul h d a b) s = execFmul h d a b s := rfl
theorem exec_fmulImm (h : Hdr) (d a : Opnd) (imm : Word) (s : State) : exec (.fmulImm h d a imm) s = execFmulImm h d a imm s := rfl
theorem exec_ffma (h : Hdr) (d a b c : Opnd) (s : State) : exec (.ffma h d a b c) s = execFfma h d a b c s := rfl
theorem exec_ffmaImm (h : Hdr) (d a c : Opnd) (imm : Word) (s : State) : exec (.ffmaImm h d a c imm) s = execFfmaImm h d a c imm s := rfl
theorem exec_fmin (h : Hdr) (d a b : Opnd) (s : State) : exec (.fmin h d a b) s = execFmin h d a b s := rfl
theorem exec_fminImm (h : Hdr) (d a : Opnd) (imm : Word) (s : State) : exec (.fminImm h d a imm) s = execFminImm h d a imm s := rfl
theorem exec_fmax (h : Hdr) (d a b : Opnd) (s : State) : exec (.fmax h d a b) s = execFmax h d a b s := rfl
theorem exec_fmaxImm (h : Hdr) (d a : Opnd) (imm : Word) (s : State) : exec (.fmaxImm h d a imm) s = execFmaxImm h d a imm s := rfl
theorem exec_fcmp (h : Hdr) (cond : Cond) (d : POpnd) (a b : Opnd) (s : State) : exec (.fcmp h cond d a b) s = execFcmp h cond d a b s := rfl
theorem exec_fcmpImm (h : Hdr) (cond : Cond) (d : POpnd) (a : Opnd) (imm : Word) (s : State) : exec (.fcmpImm h cond d a imm) s = execFcmpImm h cond d a imm s := rfl
theorem exec_fclass (h : Hdr) (d a : Opnd) (s : State) : exec (.fclass h d a) s = execFclass h d a s := rfl
theorem exec_frnd (h : Hdr) (d a b : Opnd) (s : State) : exec (.frnd h d a b) s = execFrnd h d a b s := rfl
theorem exec_fscale (h : Hdr) (d a b : Opnd) (s : State) : exec (.fscale h d a b) s = execFscale h d a b s := rfl
theorem exec_frcp (h : Hdr) (d a : Opnd) (s : State) : exec (.frcp h d a) s = execFrcp h d a s := rfl
theorem exec_frsq (h : Hdr) (d a : Opnd) (s : State) : exec (.frsq h d a) s = execFrsq h d a s := rfl
theorem exec_fsqrt (h : Hdr) (d a : Opnd) (s : State) : exec (.fsqrt h d a) s = execFsqrt h d a s := rfl
theorem exec_fexp2 (h : Hdr) (d a : Opnd) (s : State) : exec (.fexp2 h d a) s = execFexp2 h d a s := rfl
theorem exec_flog2 (h : Hdr) (d a : Opnd) (s : State) : exec (.flog2 h d a) s = execFlog2 h d a s := rfl
theorem exec_fsin (h : Hdr) (d a : Opnd) (s : State) : exec (.fsin h d a) s = execFsin h d a s := rfl
theorem exec_fcos (h : Hdr) (d a : Opnd) (s : State) : exec (.fcos h d a) s = execFcos h d a s := rfl
theorem exec_hadd2 (h : Hdr) (t : Ty) (d a b : Opnd) (s : State) : exec (.hadd2 h t d a b) s = execHadd2 h t d a b s := rfl
theorem exec_hmul2 (h : Hdr) (t : Ty) (d a b : Opnd) (s : State) : exec (.hmul2 h t d a b) s = execHmul2 h t d a b s := rfl
theorem exec_hfma2 (h : Hdr) (t : Ty) (d a b c : Opnd) (s : State) : exec (.hfma2 h t d a b c) s = execHfma2 h t d a b c s := rfl
theorem exec_cvt (h : Hdr) (dst src : Ty) (rnd : Rnd) (d a : Opnd) (s : State) : exec (.cvt h dst src rnd d a) s = execCvt h dst src rnd d a s := rfl
theorem exec_cvtp (h : Hdr) (dst src : Ty) (rnd : Rnd) (half : Bool) (d a b : Opnd) (s : State) : exec (.cvtp h dst src rnd half d a b) s = execCvtp h dst src rnd half d a b s := rfl
theorem exec_tspack (h : Hdr) (tw : Twin) (d a : Opnd) (s : State) : exec (.tspack h tw d a) s = execTspack h tw d a s := rfl
theorem exec_tsunpack (h : Hdr) (tw : Twin) (d a b : Opnd) (s : State) : exec (.tsunpack h tw d a b) s = execTsunpack h tw d a b s := rfl
theorem exec_shfl (h : Hdr) (t : Ty) (mode : ShflMode) (seg : BitVec 3) (d a b : Opnd) (s : State) : exec (.shfl h t mode seg d a b) s = execShfl h t mode seg d a b s := rfl
theorem exec_vote (h : Hdr) (mode : VoteMode) (d a : POpnd) (s : State) : exec (.vote h mode d a) s = execVote h mode d a s := rfl
theorem exec_ballot (h : Hdr) (turn : BitVec 2) (d : Opnd) (a : POpnd) (s : State) : exec (.ballot h turn d a) s = execBallot h turn d a s := rfl
theorem exec_redux (h : Hdr) (t : Ty) (op : RedOp) (d a : Opnd) (s : State) : exec (.redux h t op d a) s = execRedux h t op d a s := rfl
theorem exec_scan (h : Hdr) (t : Ty) (op : RedOp) (d a : Opnd) (s : State) : exec (.scan h t op d a) s = execScan h t op d a s := rfl
theorem exec_bcast (h : Hdr) (t : Ty) (d a b : Opnd) (s : State) : exec (.bcast h t d a b) s = execBcast h t d a b s := rfl
theorem exec_matchI (h : Hdr) (t : Ty) (d a : Opnd) (s : State) : exec (.matchI h t d a) s = execMatchI h t d a s := rfl
theorem exec_ld (h : Hdr) (t : Ty) (m : MemMod) (d a : Opnd) (s : State) : exec (.ld h t m d a) s = execLd h t m d a s := rfl
theorem exec_ldDisp (h : Hdr) (t : Ty) (m : MemMod) (d a : Opnd) (disp : Word) (s : State) : exec (.ldDisp h t m d a disp) s = execLdDisp h t m d a disp s := rfl
theorem exec_st (h : Hdr) (t : Ty) (m : MemMod) (a b : Opnd) (s : State) : exec (.st h t m a b) s = execSt h t m a b s := rfl
theorem exec_stDisp (h : Hdr) (t : Ty) (m : MemMod) (a b : Opnd) (disp : Word) (s : State) : exec (.stDisp h t m a b disp) s = execStDisp h t m a b disp s := rfl
theorem exec_lds (h : Hdr) (t : Ty) (m : MemMod) (d a : Opnd) (s : State) : exec (.lds h t m d a) s = execLds h t m d a s := rfl
theorem exec_ldsDisp (h : Hdr) (t : Ty) (m : MemMod) (d a : Opnd) (disp : Word) (s : State) : exec (.ldsDisp h t m d a disp) s = execLdsDisp h t m d a disp s := rfl
theorem exec_sts (h : Hdr) (t : Ty) (m : MemMod) (a b : Opnd) (s : State) : exec (.sts h t m a b) s = execSts h t m a b s := rfl
theorem exec_stsDisp (h : Hdr) (t : Ty) (m : MemMod) (a b : Opnd) (disp : Word) (s : State) : exec (.stsDisp h t m a b disp) s = execStsDisp h t m a b disp s := rfl
theorem exec_ldc (h : Hdr) (t : Ty) (bank : BitVec 4) (d a : Opnd) (s : State) : exec (.ldc h t bank d a) s = execLdc h t bank d a s := rfl
theorem exec_ldcDisp (h : Hdr) (t : Ty) (bank : BitVec 4) (d a : Opnd) (disp : Word) (s : State) : exec (.ldcDisp h t bank d a disp) s = execLdcDisp h t bank d a disp s := rfl
theorem exec_pref (h : Hdr) (l2 : Bool) (a : Opnd) (s : State) : exec (.pref h l2 a) s = execPref h l2 a s := rfl
theorem exec_prefDisp (h : Hdr) (l2 : Bool) (a : Opnd) (disp : Word) (s : State) : exec (.prefDisp h l2 a disp) s = execPrefDisp h l2 a disp s := rfl
theorem exec_atom (h : Hdr) (t : Ty) (m : MemMod) (sp : Space) (op : RedOp) (d a b : Opnd) (s : State) : exec (.atom h t m sp op d a b) s = execAtom h t m sp op d a b s := rfl
theorem exec_atomDisp (h : Hdr) (t : Ty) (m : MemMod) (sp : Space) (op : RedOp) (d a b : Opnd) (disp : Word) (s : State) : exec (.atomDisp h t m sp op d a b disp) s = execAtomDisp h t m sp op d a b disp s := rfl
theorem exec_atomc (h : Hdr) (t : Ty) (m : MemMod) (sp : Space) (d a b c : Opnd) (s : State) : exec (.atomc h t m sp d a b c) s = execAtomc h t m sp d a b c s := rfl
theorem exec_atomcDisp (h : Hdr) (t : Ty) (m : MemMod) (sp : Space) (d a b c : Opnd) (disp : Word) (s : State) : exec (.atomcDisp h t m sp d a b c disp) s = execAtomcDisp h t m sp d a b c disp s := rfl
theorem exec_red (h : Hdr) (t : Ty) (m : MemMod) (sp : Space) (op : RedOp) (a b : Opnd) (s : State) : exec (.red h t m sp op a b) s = execRed h t m sp op a b s := rfl
theorem exec_redDisp (h : Hdr) (t : Ty) (m : MemMod) (sp : Space) (op : RedOp) (a b : Opnd) (disp : Word) (s : State) : exec (.redDisp h t m sp op a b disp) s = execRedDisp h t m sp op a b disp s := rfl
theorem exec_fence (h : Hdr) (scope : Scope) (s : State) : exec (.fence h scope) s = execFence h scope s := rfl
theorem exec_bari (h : Hdr) (a b c : Opnd) (s : State) : exec (.bari h a b c) s = execBari h a b c s := rfl
theorem exec_bara (h : Hdr) (a b c : Opnd) (s : State) : exec (.bara h a b c) s = execBara h a b c s := rfl
theorem exec_barw (h : Hdr) (a b c : Opnd) (cont : BitVec 22) (s : State) : exec (.barw h a b c cont) s = execBarw h a b c cont s := rfl
theorem exec_bart (h : Hdr) (d : POpnd) (a b : Opnd) (s : State) : exec (.bart h d a b) s = execBart h d a b s := rfl
theorem exec_cpy (h : Hdr) (dsp ssp : Space) (a b c : Opnd) (e : EngExt) (s : State) : exec (.cpy h dsp ssp a b c e) s = execCpy h dsp ssp a b c e s := rfl
theorem exec_cpyx (h : Hdr) (ssp : Space) (a b c : Opnd) (e : EngExt) (s : State) : exec (.cpyx h ssp a b c e) s = execCpyx h ssp a b c e s := rfl
theorem exec_qfence (h : Hdr) (a b : Opnd) (s : State) : exec (.qfence h a b) s = execQfence h a b s := rfl
theorem exec_evpop (h : Hdr) (d : Opnd) (s : State) : exec (.evpop h d) s = execEvpop h d s := rfl
theorem exec_evwait (h : Hdr) (d b : Opnd) (cont : BitVec 22) (s : State) : exec (.evwait h d b cont) s = execEvwait h d b cont s := rfl
theorem exec_card (h : Hdr) (a : Opnd) (s : State) : exec (.card h a) s = execCard h a s := rfl
theorem exec_joinDecrement (h : Hdr) (a : Opnd) (s : State) : exec (.joinDecrement h a) s = execJoinDecrement h a s := rfl
theorem exec_joinArm (h : Hdr) (a b c : Opnd) (s : State) : exec (.joinArm h a b c) s = execJoinArm h a b c s := rfl
theorem exec_wlapp (h : Hdr) (d a b : Opnd) (s : State) : exec (.wlapp h d a b) s = execWlapp h d a b s := rfl
theorem exec_wlpop (h : Hdr) (d a : Opnd) (s : State) : exec (.wlpop h d a) s = execWlpop h d a s := rfl
theorem exec_qscn (h : Hdr) (d a : Opnd) (s : State) : exec (.qscn h d a) s = execQscn h d a s := rfl
theorem exec_amsg (h : Hdr) (a b : Opnd) (s : State) : exec (.amsg h a b) s = execAmsg h a b s := rfl
theorem exec_icinv (h : Hdr) (d a b : Opnd) (s : State) : exec (.icinv h d a b) s = execIcinv h d a b s := rfl
theorem exec_tlbh (h : Hdr) (d a b : Opnd) (s : State) : exec (.tlbh h d a b) s = execTlbh h d a b s := rfl
theorem exec_mlda (h : Hdr) (a b : Opnd) (s : State) : exec (.mlda h a b) s = execMlda h a b s := rfl
theorem exec_mldl (h : Hdr) (a b : Opnd) (s : State) : exec (.mldl h a b) s = execMldl h a b s := rfl
theorem exec_mlds (h : Hdr) (a b : Opnd) (s : State) : exec (.mlds h a b) s = execMlds h a b s := rfl
theorem exec_mldpPin (h : Hdr) (a b : Opnd) (s : State) : exec (.mldpPin h a b) s = execMldpPin h a b s := rfl
theorem exec_mldpUnpin (h : Hdr) (a b : Opnd) (s : State) : exec (.mldpUnpin h a b) s = execMldpUnpin h a b s := rfl
theorem exec_mldv (h : Hdr) (a b : Opnd) (s : State) : exec (.mldv h a b) s = execMldv h a b s := rfl
theorem exec_mldq (h : Hdr) (d a : Opnd) (s : State) : exec (.mldq h d a) s = execMldq h d a s := rfl
theorem exec_mma (h : Hdr) (apitch : BitVec 8) (a b c : Opnd) (e : MatExt) (s : State) : exec (.mma h apitch a b c e) s = execMma h apitch a b c e s := rfl
theorem exec_mmas (h : Hdr) (apitch : BitVec 8) (a b c : Opnd) (e : MatExt) (s : State) : exec (.mmas h apitch a b c e) s = execMmas h apitch a b c e s := rfl
theorem exec_spz (h : Hdr) (t : Ty) (d a : Opnd) (s : State) : exec (.spz h t d a) s = execSpz h t d a s := rfl
theorem exec_aalc (h : Hdr) (d a : Opnd) (s : State) : exec (.aalc h d a) s = execAalc h d a s := rfl
theorem exec_afre (h : Hdr) (a b : Opnd) (s : State) : exec (.afre h a b) s = execAfre h a b s := rfl
theorem exec_aclm (h : Hdr) (a b : Opnd) (cont : BitVec 22) (s : State) : exec (.aclm h a b cont) s = execAclm h a b cont s := rfl
theorem exec_arel (h : Hdr) (a b : Opnd) (s : State) : exec (.arel h a b) s = execArel h a b s := rfl
theorem exec_ard (h : Hdr) (t : Ty) (d a b : Opnd) (s : State) : exec (.ard h t d a b) s = execArd h t d a b s := rfl
theorem exec_awr (h : Hdr) (t : Ty) (a b c : Opnd) (s : State) : exec (.awr h t a b c) s = execAwr h t a b c s := rfl
theorem exec_azro (h : Hdr) (a b : Opnd) (s : State) : exec (.azro h a b) s = execAzro h a b s := rfl
theorem exec_adrn (h : Hdr) (t : Ty) (zero : Bool) (pitch : BitVec 8) (a b c : Opnd) (s : State) : exec (.adrn h t zero pitch a b c) s = execAdrn h t zero pitch a b c s := rfl
theorem exec_drpn (h : Hdr) (load : Bool) (dvq dkq : BitVec 3) (d a b c : Opnd) (s : State) : exec (.drpn h load dvq dkq d a b c) s = execDrpn h load dvq dkq d a b c s := rfl
theorem exec_drun (h : Hdr) (a b : Opnd) (s : State) : exec (.drun h a b) s = execDrun h a b s := rfl
theorem exec_drsv (h : Hdr) (a b : Opnd) (s : State) : exec (.drsv h a b) s = execDrsv h a b s := rfl
theorem exec_delta (h : Hdr) (tm1 : BitVec 4) (a b c : Opnd) (s : State) : exec (.delta h tm1 a b c) s = execDelta h tm1 a b c s := rfl
theorem exec_blockChoice (team hix : Nat) (s : State) : exec (.blockChoice team hix) s = execBlockChoice team hix s := rfl
theorem exec_timerPending (team hix : Nat) (s : State) : exec (.timerPending team hix) s = execTimerPending team hix s := rfl
theorem exec_faultRecordAppend (part : Nat) (s : State) : exec (.faultRecordAppend part) s = execFaultRecordAppend part s := rfl
theorem exec_longResultWrite (team hix index : Nat) (s : State) : exec (.longResultWrite team hix index) s = execLongResultWrite team hix index s := rfl
theorem exec_requestDrain (core index : Nat) (s : State) : exec (.requestDrain core index) s = execRequestDrain core index s := rfl
theorem exec_scratchpadBankAccess (core bank : Nat) (s : State) : exec (.scratchpadBankAccess core bank) s = execScratchpadBankAccess core bank s := rfl
theorem exec_homeSliceRequest (team hix : Nat) (miss : Bool) (s : State) : exec (.homeSliceRequest team hix miss) s = execHomeSliceRequest team hix miss s := rfl
theorem exec_hbmAccess (die chan : Nat) (s : State) : exec (.hbmAccess die chan) s = execHbmAccess die chan s := rfl
theorem exec_remoteWriteApply (die index : Nat) (s : State) : exec (.remoteWriteApply die index) s = execRemoteWriteApply die index s := rfl
theorem exec_barrierArrivalApply (index : Nat) (s : State) : exec (.barrierArrivalApply index) s = execBarrierArrivalApply index s := rfl
theorem exec_barrierHeldReport (index : Nat) (s : State) : exec (.barrierHeldReport index) s = execBarrierHeldReport index s := rfl
theorem exec_compactionAppend (die index : Nat) (s : State) : exec (.compactionAppend die index) s = execCompactionAppend die index s := rfl
theorem exec_copyChunk (core queue : Nat) (s : State) : exec (.copyChunk core queue) s = execCopyChunk core queue s := rfl
theorem exec_copyComplete (core queue : Nat) (s : State) : exec (.copyComplete core queue) s = execCopyComplete core queue s := rfl
theorem exec_qfenceComplete (core queue : Nat) (s : State) : exec (.qfenceComplete core queue) s = execQfenceComplete core queue s := rfl
theorem exec_meldEntryHead (core queue : Nat) (s : State) : exec (.meldEntryHead core queue) s = execMeldEntryHead core queue s := rfl
theorem exec_meldFillSlot (core queue : Nat) (s : State) : exec (.meldFillSlot core queue) s = execMeldFillSlot core queue s := rfl
theorem exec_meldEntryComplete (core queue : Nat) (s : State) : exec (.meldEntryComplete core queue) s = execMeldEntryComplete core queue s := rfl
theorem exec_mldvAck (core queue : Nat) (s : State) : exec (.mldvAck core queue) s = execMldvAck core queue s := rfl
theorem exec_mmaEntryHead (core queue : Nat) (s : State) : exec (.mmaEntryHead core queue) s = execMmaEntryHead core queue s := rfl
theorem exec_mmaKStep (core queue : Nat) (s : State) : exec (.mmaKStep core queue) s = execMmaKStep core queue s := rfl
theorem exec_mmaComplete (core queue : Nat) (s : State) : exec (.mmaComplete core queue) s = execMmaComplete core queue s := rfl
theorem exec_droneEntryHead (core : Nat) (s : State) : exec (.droneEntryHead core) s = execDroneEntryHead core s := rfl
theorem exec_droneBring (core : Nat) (s : State) : exec (.droneBring core) s = execDroneBring core s := rfl
theorem exec_deltaToken (core : Nat) (s : State) : exec (.deltaToken core) s = execDeltaToken core s := rfl
theorem exec_deltaComplete (core : Nat) (s : State) : exec (.deltaComplete core) s = execDeltaComplete core s := rfl
theorem exec_dealerPop (die : Nat) (s : State) : exec (.dealerPop die) s = execDealerPop die s := rfl
theorem exec_cardAged (die index : Nat) (s : State) : exec (.cardAged die index) s = execCardAged die index s := rfl
theorem exec_teamStart (team : Nat) (s : State) : exec (.teamStart team) s = execTeamStart team s := rfl
theorem exec_teamDue (team : Nat) (s : State) : exec (.teamDue team) s = execTeamDue team s := rfl
theorem exec_teamRetire (team : Nat) (s : State) : exec (.teamRetire team) s = execTeamRetire team s := rfl
theorem exec_amArrival (core : Nat) (s : State) : exec (.amArrival core) s = execAmArrival core s := rfl
theorem exec_amTeamStart (core : Nat) (s : State) : exec (.amTeamStart core) s = execAmTeamStart core s := rfl
theorem exec_quiescenceReport (part handle : Nat) (s : State) : exec (.quiescenceReport part handle) s = execQuiescenceReport part handle s := rfl
theorem exec_launchFail (part handle : Nat) (s : State) : exec (.launchFail part handle) s = execLaunchFail part handle s := rfl
theorem exec_impreciseStore (core index : Nat) (mask : BitVec 128) (va : Dword) (reason : Nat) (s : State) : exec (.impreciseStore core index mask va reason) s = execImpreciseStore core index mask va reason s := rfl
theorem exec_saveRequest (team : Nat) (s : State) : exec (.saveRequest team) s = execSaveRequest team s := rfl
theorem exec_collectorAck (team cls : Nat) (s : State) : exec (.collectorAck team cls) s = execCollectorAck team cls s := rfl
theorem exec_teamSave (team : Nat) (s : State) : exec (.teamSave team) s = execTeamSave team s := rfl
theorem exec_launchRestore (part handle : Nat) (s : State) : exec (.launchRestore part handle) s = execLaunchRestore part handle s := rfl
theorem exec_teamRestore (team : Nat) (s : State) : exec (.teamRestore team) s = execTeamRestore team s := rfl
theorem exec_restoreReady (team : Nat) (s : State) : exec (.restoreReady team) s = execRestoreReady team s := rfl
theorem exec_congWindowEnd (die : Nat) (counts : List Nat) (s : State) : exec (.congWindowEnd die counts) s = execCongWindowEnd die counts s := rfl
theorem exec_budgetPeriodEnd (s : State) : exec (.budgetPeriodEnd) s = execBudgetPeriodEnd s := rfl
theorem exec_refillRateChange (rate : Nat) (s : State) : exec (.refillRateChange rate) s = execRefillRateChange rate s := rfl
theorem exec_thermalEvent (junction rail flow : Nat) (cool1s : Bool) (s : State) : exec (.thermalEvent junction rail flow cool1s) s = execThermalEvent junction rail flow cool1s s := rfl
theorem exec_fatalError (reason : Nat) (s : State) : exec (.fatalError reason) s = execFatalError reason s := rfl
theorem exec_uncorrectableError (w : ErrAt) (s : State) : exec (.uncorrectableError w) s = execUncorrectableError w s := rfl
theorem exec_reset (s : State) : exec (.reset) s = execReset s := rfl
theorem exec_imageVerify (stage part pa : Nat) (s : State) : exec (.imageVerify stage part pa) s = execImageVerify stage part pa s := rfl
theorem exec_attestationReport (part : Nat) (nonce : BitVec 512) (s : State) : exec (.attestationReport part nonce) s = execAttestationReport part nonce s := rfl
theorem exec_partitionAssign (part : Nat) (r : Assign) (s : State) : exec (.partitionAssign part r) s = execPartitionAssign part r s := rfl
theorem exec_controlPageSet (part which : Nat) (base : Dword) (s : State) : exec (.controlPageSet part which base) s = execControlPageSet part which base s := rfl
theorem exec_kittyLimitWrite (part kitty limit : Nat) (s : State) : exec (.kittyLimitWrite part kitty limit) s = execKittyLimitWrite part kitty limit s := rfl
theorem exec_trapVectorWrite (part cause : Nat) (value : Dword) (s : State) : exec (.trapVectorWrite part cause value) s = execTrapVectorWrite part cause value s := rfl
theorem exec_stageMapUpdate (page : Nat) (mask : BitVec 16) (s : State) : exec (.stageMapUpdate page mask) s = execStageMapUpdate page mask s := rfl
theorem exec_scconsWrite (part : Nat) (value : Word) (s : State) : exec (.scconsWrite part value) s = execScconsWrite part value s := rfl
theorem exec_hsRead (part : Nat) (prod : Word) (s : State) : exec (.hsRead part prod) s = execHsRead part prod s := rfl
theorem exec_hsWrite (part : Nat) (prod : Word) (s : State) : exec (.hsWrite part prod) s = execHsWrite part prod s := rfl
theorem exec_hsWake (part : Nat) (prod : Word) (s : State) : exec (.hsWake part prod) s = execHsWake part prod s := rfl
theorem exec_fsResume (part : Nat) (prod : Word) (s : State) : exec (.fsResume part prod) s = execFsResume part prod s := rfl
theorem exec_fsRetire (part : Nat) (prod : Word) (s : State) : exec (.fsRetire part prod) s = execFsRetire part prod s := rfl
theorem exec_fsFail (part : Nat) (prod : Word) (s : State) : exec (.fsFail part prod) s = execFsFail part prod s := rfl
theorem exec_pageWalk (die pasid : Nat) (va : Dword) (kind : AccKind) (privT : Bool) (s : State) : exec (.pageWalk die pasid va kind privT) s = execPageWalk die pasid va kind privT s := rfl
theorem exec_atsResponse (hpasid page : Nat) (out : Option Nat) (s : State) : exec (.atsResponse hpasid page out) s = execAtsResponse hpasid page out s := rfl
theorem exec_atsInvalidation (hpasid page count : Nat) (s : State) : exec (.atsInvalidation hpasid page count) s = execAtsInvalidation hpasid page count s := rfl
theorem exec_pasidTeardown (pasid : Nat) (s : State) : exec (.pasidTeardown pasid) s = execPasidTeardown pasid s := rfl
theorem exec_pageMigration (pasid : Nat) (va : Dword) (new : Nat) (s : State) : exec (.pageMigration pasid va new) s = execPageMigration pasid va new s := rfl
theorem exec_peerRequest (part : Nat) (write : Bool) (pa : Nat) (data : List Byte) (s : State) : exec (.peerRequest part write pa data) s = execPeerRequest part write pa data s := rfl
theorem exec_linkFailure (peer plane : Nat) (s : State) : exec (.linkFailure peer plane) s = execLinkFailure peer plane s := rfl
theorem exec_ethFrameReceive (port : Nat) (f : RxFrame) (s : State) : exec (.ethFrameReceive port f) s = execEthFrameReceive port f s := rfl
theorem exec_ethFrameTransmit (port part : Nat) (f : TxFrame) (s : State) : exec (.ethFrameTransmit port part f) s = execEthFrameTransmit port part f s := rfl
theorem exec_nvmeDma (port part : Nat) (toMem : Bool) (pa : Nat) (data : List Byte) (s : State) : exec (.nvmeDma port part toMem pa data) s = execNvmeDma port part toMem pa data s := rfl
theorem exec_queueCreate (part qid pasid : Nat) (base : Dword) (lsz : Nat) (rights : BitVec 8) (s : State) : exec (.queueCreate part qid pasid base lsz rights) s = execQueueCreate part qid pasid base lsz rights s := rfl
theorem exec_capabilityRevoke (qid : Nat) (s : State) : exec (.capabilityRevoke qid) s = execCapabilityRevoke qid s := rfl
theorem exec_queueDestroy (qid : Nat) (s : State) : exec (.queueDestroy qid) s = execQueueDestroy qid s := rfl
theorem exec_partitionTeardown (part : Nat) (s : State) : exec (.partitionTeardown part) s = execPartitionTeardown part s := rfl
theorem exec_deadQueueRead (qid : Nat) (s : State) : exec (.deadQueueRead qid) s = execDeadQueueRead qid s := rfl
theorem exec_refusedWakeRead (part : Nat) (s : State) : exec (.refusedWakeRead part) s = execRefusedWakeRead part s := rfl
theorem exec_queueWake (part window : Nat) (w0 w1 w2 w3 w4 : Dword) (s : State) : exec (.queueWake part window w0 w1 w2 w3 w4) s = execQueueWake part window w0 w1 w2 w3 w4 s := rfl
theorem exec_pktNop (qid : Nat) (s : State) : exec (.pktNop qid) s = execPktNop qid s := rfl
theorem exec_pktLaunch (qid : Nat) (s : State) : exec (.pktLaunch qid) s = execPktLaunch qid s := rfl
theorem exec_pktSignal (qid : Nat) (s : State) : exec (.pktSignal qid) s = execPktSignal qid s := rfl
theorem exec_pktFence (qid : Nat) (s : State) : exec (.pktFence qid) s = execPktFence qid s := rfl
theorem exec_pktIcinv (qid : Nat) (s : State) : exec (.pktIcinv qid) s = execPktIcinv qid s := rfl
theorem exec_pktDump (qid : Nat) (s : State) : exec (.pktDump qid) s = execPktDump qid s := rfl
theorem exec_pktTeardown (qid : Nat) (s : State) : exec (.pktTeardown qid) s = execPktTeardown qid s := rfl
theorem exec_commandComplete (qid : Nat) (s : State) : exec (.commandComplete qid) s = execCommandComplete qid s := rfl
theorem exec_activityCounterRefill (s : State) : exec (.activityCounterRefill) s = execActivityCounterRefill s := rfl
theorem exec_contextDescriptorWrite (pasid : Nat) (w0 w1 w2 : Dword) (s : State) : exec (.contextDescriptorWrite pasid w0 w1 w2) s = execContextDescriptorWrite pasid w0 w1 w2 s := rfl
theorem exec_linkRestored (peer plane : Nat) (s : State) : exec (.linkRestored peer plane) s = execLinkRestored peer plane s := rfl

end Sys2Proof.Machine
end

