-- ==== Sys2Proof/Laws/State.lean ====
section
/-! SUPPORT. What each update of a table of State leaves alone: one lemma per field per update. -/

namespace Sys2Proof.Machine

variable (s : State)

/-! ### `updHand` -/

@[simp] theorem updHand_cyc (t h : Nat) (f : Hand → Hand) : (s.updHand t h f).cyc = s.cyc := rfl
@[simp] theorem updHand_stopped (t h : Nat) (f : Hand → Hand) : (s.updHand t h f).stopped = s.stopped := rfl
@[simp] theorem updHand_refill (t h : Nat) (f : Hand → Hand) : (s.updHand t h f).refill = s.refill := rfl
@[simp] theorem updHand_refillNext (t h : Nat) (f : Hand → Hand) : (s.updHand t h f).refillNext = s.refillNext := rfl
@[simp] theorem updHand_mem (t h : Nat) (f : Hand → Hand) : (s.updHand t h f).mem = s.mem := rfl
@[simp] theorem updHand_poison (t h : Nat) (f : Hand → Hand) : (s.updHand t h f).poison = s.poison := rfl
@[simp] theorem updHand_stageMap (t h : Nat) (f : Hand → Hand) : (s.updHand t h f).stageMap = s.stageMap := rfl
@[simp] theorem updHand_contexts (t h : Nat) (f : Hand → Hand) : (s.updHand t h f).contexts = s.contexts := rfl
@[simp] theorem updHand_atc (t h : Nat) (f : Hand → Hand) : (s.updHand t h f).atc = s.atc := rfl
@[simp] theorem updHand_deadPlanes (t h : Nat) (f : Hand → Hand) : (s.updHand t h f).deadPlanes = s.deadPlanes := rfl
@[simp] theorem updHand_pkgId (t h : Nat) (f : Hand → Hand) : (s.updHand t h f).pkgId = s.pkgId := rfl
@[simp] theorem updHand_host (t h : Nat) (f : Hand → Hand) : (s.updHand t h f).host = s.host := rfl
@[simp] theorem updHand_cong (t h : Nat) (f : Hand → Hand) : (s.updHand t h f).cong = s.cong := rfl
@[simp] theorem updHand_md (t h : Nat) (f : Hand → Hand) : (s.updHand t h f).md = s.md := rfl
@[simp] theorem updHand_mlog (t h : Nat) (f : Hand → Hand) : (s.updHand t h f).mlog = s.mlog := rfl
@[simp] theorem updHand_bootStage (t h : Nat) (f : Hand → Hand) : (s.updHand t h f).bootStage = s.bootStage := rfl
@[simp] theorem updHand_bootHalt (t h : Nat) (f : Hand → Hand) : (s.updHand t h f).bootHalt = s.bootHalt := rfl
@[simp] theorem updHand_keys (t h : Nat) (f : Hand → Hand) : (s.updHand t h f).keys = s.keys := rfl
@[simp] theorem updHand_periods (t h : Nat) (f : Hand → Hand) : (s.updHand t h f).periods = s.periods := rfl
@[simp] theorem updHand_dump (t h : Nat) (f : Hand → Hand) : (s.updHand t h f).dump = s.dump := rfl
@[simp] theorem updHand_policyLast (t h : Nat) (f : Hand → Hand) : (s.updHand t h f).policyLast = s.policyLast := rfl
@[simp] theorem updHand_floors (t h : Nat) (f : Hand → Hand) : (s.updHand t h f).floors = s.floors := rfl
@[simp] theorem updHand_budget (t h : Nat) (f : Hand → Hand) : (s.updHand t h f).budget = s.budget := rfl
@[simp] theorem updHand_chanQ (t h : Nat) (f : Hand → Hand) : (s.updHand t h f).chanQ = s.chanQ := rfl
@[simp] theorem updHand_openRow (t h : Nat) (f : Hand → Hand) : (s.updHand t h f).openRow = s.openRow := rfl
@[simp] theorem updHand_irqs (t h : Nat) (f : Hand → Hand) : (s.updHand t h f).irqs = s.irqs := rfl
@[simp] theorem updHand_reply (t h : Nat) (f : Hand → Hand) : (s.updHand t h f).reply = s.reply := rfl
@[simp] theorem updHand_dies (t h : Nat) (f : Hand → Hand) : (s.updHand t h f).dies = s.dies := rfl
@[simp] theorem updHand_cores (t h : Nat) (f : Hand → Hand) : (s.updHand t h f).cores = s.cores := rfl
@[simp] theorem updHand_teams (t h : Nat) (f : Hand → Hand) : (s.updHand t h f).teams = s.teams := rfl
@[simp] theorem updHand_launches (t h : Nat) (f : Hand → Hand) : (s.updHand t h f).launches = s.launches := rfl
@[simp] theorem updHand_parts (t h : Nat) (f : Hand → Hand) : (s.updHand t h f).parts = s.parts := rfl
@[simp] theorem updHand_queues (t h : Nat) (f : Hand → Hand) : (s.updHand t h f).queues = s.queues := rfl
@[simp] theorem updHand_arrivals (t h : Nat) (f : Hand → Hand) : (s.updHand t h f).arrivals = s.arrivals := rfl
@[simp] theorem updHand_heldArr (t h : Nat) (f : Hand → Hand) : (s.updHand t h f).heldArr = s.heldArr := rfl
@[simp] theorem updHand_phases (t h : Nat) (f : Hand → Hand) : (s.updHand t h f).phases = s.phases := rfl
@[simp] theorem updHand_amFlight (t h : Nat) (f : Hand → Hand) : (s.updHand t h f).amFlight = s.amFlight := rfl
@[simp] theorem updHand_kept (t h : Nat) (f : Hand → Hand) : (s.updHand t h f).kept = s.kept := rfl
@[simp] theorem updHand_dumped (t h : Nat) (f : Hand → Hand) : (s.updHand t h f).dumped = s.dumped := rfl
@[simp] theorem updHand_schedule (t h : Nat) (f : Hand → Hand) : (s.updHand t h f).schedule = s.schedule := rfl
@[simp] theorem updHand_cur (t h : Nat) (f : Hand → Hand) : (s.updHand t h f).cur = s.cur := rfl
@[simp] theorem updHand_turn (t h : Nat) (f : Hand → Hand) : (s.updHand t h f).turn = s.turn := rfl
@[simp] theorem updHand_freeCtr (t h : Nat) (f : Hand → Hand) : (s.updHand t h f).freeCtr = s.freeCtr := rfl
@[simp] theorem updHand_nextId (t h : Nat) (f : Hand → Hand) : (s.updHand t h f).nextId = s.nextId := rfl

/-! ### `updTeam` -/

@[simp] theorem updTeam_cyc (t : Nat) (f : Team → Team) : (s.updTeam t f).cyc = s.cyc := rfl
@[simp] theorem updTeam_stopped (t : Nat) (f : Team → Team) : (s.updTeam t f).stopped = s.stopped := rfl
@[simp] theorem updTeam_refill (t : Nat) (f : Team → Team) : (s.updTeam t f).refill = s.refill := rfl
@[simp] theorem updTeam_refillNext (t : Nat) (f : Team → Team) : (s.updTeam t f).refillNext = s.refillNext := rfl
@[simp] theorem updTeam_mem (t : Nat) (f : Team → Team) : (s.updTeam t f).mem = s.mem := rfl
@[simp] theorem updTeam_poison (t : Nat) (f : Team → Team) : (s.updTeam t f).poison = s.poison := rfl
@[simp] theorem updTeam_stageMap (t : Nat) (f : Team → Team) : (s.updTeam t f).stageMap = s.stageMap := rfl
@[simp] theorem updTeam_contexts (t : Nat) (f : Team → Team) : (s.updTeam t f).contexts = s.contexts := rfl
@[simp] theorem updTeam_atc (t : Nat) (f : Team → Team) : (s.updTeam t f).atc = s.atc := rfl
@[simp] theorem updTeam_deadPlanes (t : Nat) (f : Team → Team) : (s.updTeam t f).deadPlanes = s.deadPlanes := rfl
@[simp] theorem updTeam_pkgId (t : Nat) (f : Team → Team) : (s.updTeam t f).pkgId = s.pkgId := rfl
@[simp] theorem updTeam_host (t : Nat) (f : Team → Team) : (s.updTeam t f).host = s.host := rfl
@[simp] theorem updTeam_cong (t : Nat) (f : Team → Team) : (s.updTeam t f).cong = s.cong := rfl
@[simp] theorem updTeam_md (t : Nat) (f : Team → Team) : (s.updTeam t f).md = s.md := rfl
@[simp] theorem updTeam_mlog (t : Nat) (f : Team → Team) : (s.updTeam t f).mlog = s.mlog := rfl
@[simp] theorem updTeam_bootStage (t : Nat) (f : Team → Team) : (s.updTeam t f).bootStage = s.bootStage := rfl
@[simp] theorem updTeam_bootHalt (t : Nat) (f : Team → Team) : (s.updTeam t f).bootHalt = s.bootHalt := rfl
@[simp] theorem updTeam_keys (t : Nat) (f : Team → Team) : (s.updTeam t f).keys = s.keys := rfl
@[simp] theorem updTeam_periods (t : Nat) (f : Team → Team) : (s.updTeam t f).periods = s.periods := rfl
@[simp] theorem updTeam_dump (t : Nat) (f : Team → Team) : (s.updTeam t f).dump = s.dump := rfl
@[simp] theorem updTeam_policyLast (t : Nat) (f : Team → Team) : (s.updTeam t f).policyLast = s.policyLast := rfl
@[simp] theorem updTeam_floors (t : Nat) (f : Team → Team) : (s.updTeam t f).floors = s.floors := rfl
@[simp] theorem updTeam_budget (t : Nat) (f : Team → Team) : (s.updTeam t f).budget = s.budget := rfl
@[simp] theorem updTeam_chanQ (t : Nat) (f : Team → Team) : (s.updTeam t f).chanQ = s.chanQ := rfl
@[simp] theorem updTeam_openRow (t : Nat) (f : Team → Team) : (s.updTeam t f).openRow = s.openRow := rfl
@[simp] theorem updTeam_irqs (t : Nat) (f : Team → Team) : (s.updTeam t f).irqs = s.irqs := rfl
@[simp] theorem updTeam_reply (t : Nat) (f : Team → Team) : (s.updTeam t f).reply = s.reply := rfl
@[simp] theorem updTeam_dies (t : Nat) (f : Team → Team) : (s.updTeam t f).dies = s.dies := rfl
@[simp] theorem updTeam_cores (t : Nat) (f : Team → Team) : (s.updTeam t f).cores = s.cores := rfl
@[simp] theorem updTeam_hands (t : Nat) (f : Team → Team) : (s.updTeam t f).hands = s.hands := rfl
@[simp] theorem updTeam_launches (t : Nat) (f : Team → Team) : (s.updTeam t f).launches = s.launches := rfl
@[simp] theorem updTeam_parts (t : Nat) (f : Team → Team) : (s.updTeam t f).parts = s.parts := rfl
@[simp] theorem updTeam_queues (t : Nat) (f : Team → Team) : (s.updTeam t f).queues = s.queues := rfl
@[simp] theorem updTeam_arrivals (t : Nat) (f : Team → Team) : (s.updTeam t f).arrivals = s.arrivals := rfl
@[simp] theorem updTeam_heldArr (t : Nat) (f : Team → Team) : (s.updTeam t f).heldArr = s.heldArr := rfl
@[simp] theorem updTeam_phases (t : Nat) (f : Team → Team) : (s.updTeam t f).phases = s.phases := rfl
@[simp] theorem updTeam_amFlight (t : Nat) (f : Team → Team) : (s.updTeam t f).amFlight = s.amFlight := rfl
@[simp] theorem updTeam_kept (t : Nat) (f : Team → Team) : (s.updTeam t f).kept = s.kept := rfl
@[simp] theorem updTeam_dumped (t : Nat) (f : Team → Team) : (s.updTeam t f).dumped = s.dumped := rfl
@[simp] theorem updTeam_schedule (t : Nat) (f : Team → Team) : (s.updTeam t f).schedule = s.schedule := rfl
@[simp] theorem updTeam_cur (t : Nat) (f : Team → Team) : (s.updTeam t f).cur = s.cur := rfl
@[simp] theorem updTeam_turn (t : Nat) (f : Team → Team) : (s.updTeam t f).turn = s.turn := rfl
@[simp] theorem updTeam_freeCtr (t : Nat) (f : Team → Team) : (s.updTeam t f).freeCtr = s.freeCtr := rfl
@[simp] theorem updTeam_nextId (t : Nat) (f : Team → Team) : (s.updTeam t f).nextId = s.nextId := rfl

/-! ### `updLaunch` -/

@[simp] theorem updLaunch_cyc (p h : Nat) (f : Launch → Launch) : (s.updLaunch p h f).cyc = s.cyc := rfl
@[simp] theorem updLaunch_stopped (p h : Nat) (f : Launch → Launch) : (s.updLaunch p h f).stopped = s.stopped := rfl
@[simp] theorem updLaunch_refill (p h : Nat) (f : Launch → Launch) : (s.updLaunch p h f).refill = s.refill := rfl
@[simp] theorem updLaunch_refillNext (p h : Nat) (f : Launch → Launch) : (s.updLaunch p h f).refillNext = s.refillNext := rfl
@[simp] theorem updLaunch_mem (p h : Nat) (f : Launch → Launch) : (s.updLaunch p h f).mem = s.mem := rfl
@[simp] theorem updLaunch_poison (p h : Nat) (f : Launch → Launch) : (s.updLaunch p h f).poison = s.poison := rfl
@[simp] theorem updLaunch_stageMap (p h : Nat) (f : Launch → Launch) : (s.updLaunch p h f).stageMap = s.stageMap := rfl
@[simp] theorem updLaunch_contexts (p h : Nat) (f : Launch → Launch) : (s.updLaunch p h f).contexts = s.contexts := rfl
@[simp] theorem updLaunch_atc (p h : Nat) (f : Launch → Launch) : (s.updLaunch p h f).atc = s.atc := rfl
@[simp] theorem updLaunch_deadPlanes (p h : Nat) (f : Launch → Launch) : (s.updLaunch p h f).deadPlanes = s.deadPlanes := rfl
@[simp] theorem updLaunch_pkgId (p h : Nat) (f : Launch → Launch) : (s.updLaunch p h f).pkgId = s.pkgId := rfl
@[simp] theorem updLaunch_host (p h : Nat) (f : Launch → Launch) : (s.updLaunch p h f).host = s.host := rfl
@[simp] theorem updLaunch_cong (p h : Nat) (f : Launch → Launch) : (s.updLaunch p h f).cong = s.cong := rfl
@[simp] theorem updLaunch_md (p h : Nat) (f : Launch → Launch) : (s.updLaunch p h f).md = s.md := rfl
@[simp] theorem updLaunch_mlog (p h : Nat) (f : Launch → Launch) : (s.updLaunch p h f).mlog = s.mlog := rfl
@[simp] theorem updLaunch_bootStage (p h : Nat) (f : Launch → Launch) : (s.updLaunch p h f).bootStage = s.bootStage := rfl
@[simp] theorem updLaunch_bootHalt (p h : Nat) (f : Launch → Launch) : (s.updLaunch p h f).bootHalt = s.bootHalt := rfl
@[simp] theorem updLaunch_keys (p h : Nat) (f : Launch → Launch) : (s.updLaunch p h f).keys = s.keys := rfl
@[simp] theorem updLaunch_periods (p h : Nat) (f : Launch → Launch) : (s.updLaunch p h f).periods = s.periods := rfl
@[simp] theorem updLaunch_dump (p h : Nat) (f : Launch → Launch) : (s.updLaunch p h f).dump = s.dump := rfl
@[simp] theorem updLaunch_policyLast (p h : Nat) (f : Launch → Launch) : (s.updLaunch p h f).policyLast = s.policyLast := rfl
@[simp] theorem updLaunch_floors (p h : Nat) (f : Launch → Launch) : (s.updLaunch p h f).floors = s.floors := rfl
@[simp] theorem updLaunch_budget (p h : Nat) (f : Launch → Launch) : (s.updLaunch p h f).budget = s.budget := rfl
@[simp] theorem updLaunch_chanQ (p h : Nat) (f : Launch → Launch) : (s.updLaunch p h f).chanQ = s.chanQ := rfl
@[simp] theorem updLaunch_openRow (p h : Nat) (f : Launch → Launch) : (s.updLaunch p h f).openRow = s.openRow := rfl
@[simp] theorem updLaunch_irqs (p h : Nat) (f : Launch → Launch) : (s.updLaunch p h f).irqs = s.irqs := rfl
@[simp] theorem updLaunch_reply (p h : Nat) (f : Launch → Launch) : (s.updLaunch p h f).reply = s.reply := rfl
@[simp] theorem updLaunch_dies (p h : Nat) (f : Launch → Launch) : (s.updLaunch p h f).dies = s.dies := rfl
@[simp] theorem updLaunch_cores (p h : Nat) (f : Launch → Launch) : (s.updLaunch p h f).cores = s.cores := rfl
@[simp] theorem updLaunch_teams (p h : Nat) (f : Launch → Launch) : (s.updLaunch p h f).teams = s.teams := rfl
@[simp] theorem updLaunch_hands (p h : Nat) (f : Launch → Launch) : (s.updLaunch p h f).hands = s.hands := rfl
@[simp] theorem updLaunch_parts (p h : Nat) (f : Launch → Launch) : (s.updLaunch p h f).parts = s.parts := rfl
@[simp] theorem updLaunch_queues (p h : Nat) (f : Launch → Launch) : (s.updLaunch p h f).queues = s.queues := rfl
@[simp] theorem updLaunch_arrivals (p h : Nat) (f : Launch → Launch) : (s.updLaunch p h f).arrivals = s.arrivals := rfl
@[simp] theorem updLaunch_heldArr (p h : Nat) (f : Launch → Launch) : (s.updLaunch p h f).heldArr = s.heldArr := rfl
@[simp] theorem updLaunch_phases (p h : Nat) (f : Launch → Launch) : (s.updLaunch p h f).phases = s.phases := rfl
@[simp] theorem updLaunch_amFlight (p h : Nat) (f : Launch → Launch) : (s.updLaunch p h f).amFlight = s.amFlight := rfl
@[simp] theorem updLaunch_kept (p h : Nat) (f : Launch → Launch) : (s.updLaunch p h f).kept = s.kept := rfl
@[simp] theorem updLaunch_dumped (p h : Nat) (f : Launch → Launch) : (s.updLaunch p h f).dumped = s.dumped := rfl
@[simp] theorem updLaunch_schedule (p h : Nat) (f : Launch → Launch) : (s.updLaunch p h f).schedule = s.schedule := rfl
@[simp] theorem updLaunch_cur (p h : Nat) (f : Launch → Launch) : (s.updLaunch p h f).cur = s.cur := rfl
@[simp] theorem updLaunch_turn (p h : Nat) (f : Launch → Launch) : (s.updLaunch p h f).turn = s.turn := rfl
@[simp] theorem updLaunch_freeCtr (p h : Nat) (f : Launch → Launch) : (s.updLaunch p h f).freeCtr = s.freeCtr := rfl
@[simp] theorem updLaunch_nextId (p h : Nat) (f : Launch → Launch) : (s.updLaunch p h f).nextId = s.nextId := rfl

/-! ### `updQueue` -/

@[simp] theorem updQueue_cyc (q : Nat) (f : Queue → Queue) : (s.updQueue q f).cyc = s.cyc := rfl
@[simp] theorem updQueue_stopped (q : Nat) (f : Queue → Queue) : (s.updQueue q f).stopped = s.stopped := rfl
@[simp] theorem updQueue_refill (q : Nat) (f : Queue → Queue) : (s.updQueue q f).refill = s.refill := rfl
@[simp] theorem updQueue_refillNext (q : Nat) (f : Queue → Queue) : (s.updQueue q f).refillNext = s.refillNext := rfl
@[simp] theorem updQueue_mem (q : Nat) (f : Queue → Queue) : (s.updQueue q f).mem = s.mem := rfl
@[simp] theorem updQueue_poison (q : Nat) (f : Queue → Queue) : (s.updQueue q f).poison = s.poison := rfl
@[simp] theorem updQueue_stageMap (q : Nat) (f : Queue → Queue) : (s.updQueue q f).stageMap = s.stageMap := rfl
@[simp] theorem updQueue_contexts (q : Nat) (f : Queue → Queue) : (s.updQueue q f).contexts = s.contexts := rfl
@[simp] theorem updQueue_atc (q : Nat) (f : Queue → Queue) : (s.updQueue q f).atc = s.atc := rfl
@[simp] theorem updQueue_deadPlanes (q : Nat) (f : Queue → Queue) : (s.updQueue q f).deadPlanes = s.deadPlanes := rfl
@[simp] theorem updQueue_pkgId (q : Nat) (f : Queue → Queue) : (s.updQueue q f).pkgId = s.pkgId := rfl
@[simp] theorem updQueue_host (q : Nat) (f : Queue → Queue) : (s.updQueue q f).host = s.host := rfl
@[simp] theorem updQueue_cong (q : Nat) (f : Queue → Queue) : (s.updQueue q f).cong = s.cong := rfl
@[simp] theorem updQueue_md (q : Nat) (f : Queue → Queue) : (s.updQueue q f).md = s.md := rfl
@[simp] theorem updQueue_mlog (q : Nat) (f : Queue → Queue) : (s.updQueue q f).mlog = s.mlog := rfl
@[simp] theorem updQueue_bootStage (q : Nat) (f : Queue → Queue) : (s.updQueue q f).bootStage = s.bootStage := rfl
@[simp] theorem updQueue_bootHalt (q : Nat) (f : Queue → Queue) : (s.updQueue q f).bootHalt = s.bootHalt := rfl
@[simp] theorem updQueue_keys (q : Nat) (f : Queue → Queue) : (s.updQueue q f).keys = s.keys := rfl
@[simp] theorem updQueue_periods (q : Nat) (f : Queue → Queue) : (s.updQueue q f).periods = s.periods := rfl
@[simp] theorem updQueue_dump (q : Nat) (f : Queue → Queue) : (s.updQueue q f).dump = s.dump := rfl
@[simp] theorem updQueue_policyLast (q : Nat) (f : Queue → Queue) : (s.updQueue q f).policyLast = s.policyLast := rfl
@[simp] theorem updQueue_floors (q : Nat) (f : Queue → Queue) : (s.updQueue q f).floors = s.floors := rfl
@[simp] theorem updQueue_budget (q : Nat) (f : Queue → Queue) : (s.updQueue q f).budget = s.budget := rfl
@[simp] theorem updQueue_chanQ (q : Nat) (f : Queue → Queue) : (s.updQueue q f).chanQ = s.chanQ := rfl
@[simp] theorem updQueue_openRow (q : Nat) (f : Queue → Queue) : (s.updQueue q f).openRow = s.openRow := rfl
@[simp] theorem updQueue_irqs (q : Nat) (f : Queue → Queue) : (s.updQueue q f).irqs = s.irqs := rfl
@[simp] theorem updQueue_reply (q : Nat) (f : Queue → Queue) : (s.updQueue q f).reply = s.reply := rfl
@[simp] theorem updQueue_dies (q : Nat) (f : Queue → Queue) : (s.updQueue q f).dies = s.dies := rfl
@[simp] theorem updQueue_cores (q : Nat) (f : Queue → Queue) : (s.updQueue q f).cores = s.cores := rfl
@[simp] theorem updQueue_teams (q : Nat) (f : Queue → Queue) : (s.updQueue q f).teams = s.teams := rfl
@[simp] theorem updQueue_hands (q : Nat) (f : Queue → Queue) : (s.updQueue q f).hands = s.hands := rfl
@[simp] theorem updQueue_launches (q : Nat) (f : Queue → Queue) : (s.updQueue q f).launches = s.launches := rfl
@[simp] theorem updQueue_parts (q : Nat) (f : Queue → Queue) : (s.updQueue q f).parts = s.parts := rfl
@[simp] theorem updQueue_arrivals (q : Nat) (f : Queue → Queue) : (s.updQueue q f).arrivals = s.arrivals := rfl
@[simp] theorem updQueue_heldArr (q : Nat) (f : Queue → Queue) : (s.updQueue q f).heldArr = s.heldArr := rfl
@[simp] theorem updQueue_phases (q : Nat) (f : Queue → Queue) : (s.updQueue q f).phases = s.phases := rfl
@[simp] theorem updQueue_amFlight (q : Nat) (f : Queue → Queue) : (s.updQueue q f).amFlight = s.amFlight := rfl
@[simp] theorem updQueue_kept (q : Nat) (f : Queue → Queue) : (s.updQueue q f).kept = s.kept := rfl
@[simp] theorem updQueue_dumped (q : Nat) (f : Queue → Queue) : (s.updQueue q f).dumped = s.dumped := rfl
@[simp] theorem updQueue_schedule (q : Nat) (f : Queue → Queue) : (s.updQueue q f).schedule = s.schedule := rfl
@[simp] theorem updQueue_cur (q : Nat) (f : Queue → Queue) : (s.updQueue q f).cur = s.cur := rfl
@[simp] theorem updQueue_turn (q : Nat) (f : Queue → Queue) : (s.updQueue q f).turn = s.turn := rfl
@[simp] theorem updQueue_freeCtr (q : Nat) (f : Queue → Queue) : (s.updQueue q f).freeCtr = s.freeCtr := rfl
@[simp] theorem updQueue_nextId (q : Nat) (f : Queue → Queue) : (s.updQueue q f).nextId = s.nextId := rfl

/-! ### `updCore` -/

@[simp] theorem updCore_cyc (c : Nat) (f : Core → Core) : (s.updCore c f).cyc = s.cyc := rfl
@[simp] theorem updCore_stopped (c : Nat) (f : Core → Core) : (s.updCore c f).stopped = s.stopped := rfl
@[simp] theorem updCore_refill (c : Nat) (f : Core → Core) : (s.updCore c f).refill = s.refill := rfl
@[simp] theorem updCore_refillNext (c : Nat) (f : Core → Core) : (s.updCore c f).refillNext = s.refillNext := rfl
@[simp] theorem updCore_mem (c : Nat) (f : Core → Core) : (s.updCore c f).mem = s.mem := rfl
@[simp] theorem updCore_poison (c : Nat) (f : Core → Core) : (s.updCore c f).poison = s.poison := rfl
@[simp] theorem updCore_stageMap (c : Nat) (f : Core → Core) : (s.updCore c f).stageMap = s.stageMap := rfl
@[simp] theorem updCore_contexts (c : Nat) (f : Core → Core) : (s.updCore c f).contexts = s.contexts := rfl
@[simp] theorem updCore_atc (c : Nat) (f : Core → Core) : (s.updCore c f).atc = s.atc := rfl
@[simp] theorem updCore_deadPlanes (c : Nat) (f : Core → Core) : (s.updCore c f).deadPlanes = s.deadPlanes := rfl
@[simp] theorem updCore_pkgId (c : Nat) (f : Core → Core) : (s.updCore c f).pkgId = s.pkgId := rfl
@[simp] theorem updCore_host (c : Nat) (f : Core → Core) : (s.updCore c f).host = s.host := rfl
@[simp] theorem updCore_cong (c : Nat) (f : Core → Core) : (s.updCore c f).cong = s.cong := rfl
@[simp] theorem updCore_md (c : Nat) (f : Core → Core) : (s.updCore c f).md = s.md := rfl
@[simp] theorem updCore_mlog (c : Nat) (f : Core → Core) : (s.updCore c f).mlog = s.mlog := rfl
@[simp] theorem updCore_bootStage (c : Nat) (f : Core → Core) : (s.updCore c f).bootStage = s.bootStage := rfl
@[simp] theorem updCore_bootHalt (c : Nat) (f : Core → Core) : (s.updCore c f).bootHalt = s.bootHalt := rfl
@[simp] theorem updCore_keys (c : Nat) (f : Core → Core) : (s.updCore c f).keys = s.keys := rfl
@[simp] theorem updCore_periods (c : Nat) (f : Core → Core) : (s.updCore c f).periods = s.periods := rfl
@[simp] theorem updCore_dump (c : Nat) (f : Core → Core) : (s.updCore c f).dump = s.dump := rfl
@[simp] theorem updCore_policyLast (c : Nat) (f : Core → Core) : (s.updCore c f).policyLast = s.policyLast := rfl
@[simp] theorem updCore_floors (c : Nat) (f : Core → Core) : (s.updCore c f).floors = s.floors := rfl
@[simp] theorem updCore_budget (c : Nat) (f : Core → Core) : (s.updCore c f).budget = s.budget := rfl
@[simp] theorem updCore_chanQ (c : Nat) (f : Core → Core) : (s.updCore c f).chanQ = s.chanQ := rfl
@[simp] theorem updCore_openRow (c : Nat) (f : Core → Core) : (s.updCore c f).openRow = s.openRow := rfl
@[simp] theorem updCore_irqs (c : Nat) (f : Core → Core) : (s.updCore c f).irqs = s.irqs := rfl
@[simp] theorem updCore_reply (c : Nat) (f : Core → Core) : (s.updCore c f).reply = s.reply := rfl
@[simp] theorem updCore_dies (c : Nat) (f : Core → Core) : (s.updCore c f).dies = s.dies := rfl
@[simp] theorem updCore_teams (c : Nat) (f : Core → Core) : (s.updCore c f).teams = s.teams := rfl
@[simp] theorem updCore_hands (c : Nat) (f : Core → Core) : (s.updCore c f).hands = s.hands := rfl
@[simp] theorem updCore_launches (c : Nat) (f : Core → Core) : (s.updCore c f).launches = s.launches := rfl
@[simp] theorem updCore_parts (c : Nat) (f : Core → Core) : (s.updCore c f).parts = s.parts := rfl
@[simp] theorem updCore_queues (c : Nat) (f : Core → Core) : (s.updCore c f).queues = s.queues := rfl
@[simp] theorem updCore_arrivals (c : Nat) (f : Core → Core) : (s.updCore c f).arrivals = s.arrivals := rfl
@[simp] theorem updCore_heldArr (c : Nat) (f : Core → Core) : (s.updCore c f).heldArr = s.heldArr := rfl
@[simp] theorem updCore_phases (c : Nat) (f : Core → Core) : (s.updCore c f).phases = s.phases := rfl
@[simp] theorem updCore_amFlight (c : Nat) (f : Core → Core) : (s.updCore c f).amFlight = s.amFlight := rfl
@[simp] theorem updCore_kept (c : Nat) (f : Core → Core) : (s.updCore c f).kept = s.kept := rfl
@[simp] theorem updCore_dumped (c : Nat) (f : Core → Core) : (s.updCore c f).dumped = s.dumped := rfl
@[simp] theorem updCore_schedule (c : Nat) (f : Core → Core) : (s.updCore c f).schedule = s.schedule := rfl
@[simp] theorem updCore_cur (c : Nat) (f : Core → Core) : (s.updCore c f).cur = s.cur := rfl
@[simp] theorem updCore_turn (c : Nat) (f : Core → Core) : (s.updCore c f).turn = s.turn := rfl
@[simp] theorem updCore_freeCtr (c : Nat) (f : Core → Core) : (s.updCore c f).freeCtr = s.freeCtr := rfl
@[simp] theorem updCore_nextId (c : Nat) (f : Core → Core) : (s.updCore c f).nextId = s.nextId := rfl

/-! ### `updPart` -/

@[simp] theorem updPart_cyc (p : Nat) (f : Part → Part) : (s.updPart p f).cyc = s.cyc := rfl
@[simp] theorem updPart_stopped (p : Nat) (f : Part → Part) : (s.updPart p f).stopped = s.stopped := rfl
@[simp] theorem updPart_refill (p : Nat) (f : Part → Part) : (s.updPart p f).refill = s.refill := rfl
@[simp] theorem updPart_refillNext (p : Nat) (f : Part → Part) : (s.updPart p f).refillNext = s.refillNext := rfl
@[simp] theorem updPart_mem (p : Nat) (f : Part → Part) : (s.updPart p f).mem = s.mem := rfl
@[simp] theorem updPart_poison (p : Nat) (f : Part → Part) : (s.updPart p f).poison = s.poison := rfl
@[simp] theorem updPart_stageMap (p : Nat) (f : Part → Part) : (s.updPart p f).stageMap = s.stageMap := rfl
@[simp] theorem updPart_contexts (p : Nat) (f : Part → Part) : (s.updPart p f).contexts = s.contexts := rfl
@[simp] theorem updPart_atc (p : Nat) (f : Part → Part) : (s.updPart p f).atc = s.atc := rfl
@[simp] theorem updPart_deadPlanes (p : Nat) (f : Part → Part) : (s.updPart p f).deadPlanes = s.deadPlanes := rfl
@[simp] theorem updPart_pkgId (p : Nat) (f : Part → Part) : (s.updPart p f).pkgId = s.pkgId := rfl
@[simp] theorem updPart_host (p : Nat) (f : Part → Part) : (s.updPart p f).host = s.host := rfl
@[simp] theorem updPart_cong (p : Nat) (f : Part → Part) : (s.updPart p f).cong = s.cong := rfl
@[simp] theorem updPart_md (p : Nat) (f : Part → Part) : (s.updPart p f).md = s.md := rfl
@[simp] theorem updPart_mlog (p : Nat) (f : Part → Part) : (s.updPart p f).mlog = s.mlog := rfl
@[simp] theorem updPart_bootStage (p : Nat) (f : Part → Part) : (s.updPart p f).bootStage = s.bootStage := rfl
@[simp] theorem updPart_bootHalt (p : Nat) (f : Part → Part) : (s.updPart p f).bootHalt = s.bootHalt := rfl
@[simp] theorem updPart_keys (p : Nat) (f : Part → Part) : (s.updPart p f).keys = s.keys := rfl
@[simp] theorem updPart_periods (p : Nat) (f : Part → Part) : (s.updPart p f).periods = s.periods := rfl
@[simp] theorem updPart_dump (p : Nat) (f : Part → Part) : (s.updPart p f).dump = s.dump := rfl
@[simp] theorem updPart_policyLast (p : Nat) (f : Part → Part) : (s.updPart p f).policyLast = s.policyLast := rfl
@[simp] theorem updPart_floors (p : Nat) (f : Part → Part) : (s.updPart p f).floors = s.floors := rfl
@[simp] theorem updPart_budget (p : Nat) (f : Part → Part) : (s.updPart p f).budget = s.budget := rfl
@[simp] theorem updPart_chanQ (p : Nat) (f : Part → Part) : (s.updPart p f).chanQ = s.chanQ := rfl
@[simp] theorem updPart_openRow (p : Nat) (f : Part → Part) : (s.updPart p f).openRow = s.openRow := rfl
@[simp] theorem updPart_irqs (p : Nat) (f : Part → Part) : (s.updPart p f).irqs = s.irqs := rfl
@[simp] theorem updPart_reply (p : Nat) (f : Part → Part) : (s.updPart p f).reply = s.reply := rfl
@[simp] theorem updPart_dies (p : Nat) (f : Part → Part) : (s.updPart p f).dies = s.dies := rfl
@[simp] theorem updPart_cores (p : Nat) (f : Part → Part) : (s.updPart p f).cores = s.cores := rfl
@[simp] theorem updPart_teams (p : Nat) (f : Part → Part) : (s.updPart p f).teams = s.teams := rfl
@[simp] theorem updPart_hands (p : Nat) (f : Part → Part) : (s.updPart p f).hands = s.hands := rfl
@[simp] theorem updPart_launches (p : Nat) (f : Part → Part) : (s.updPart p f).launches = s.launches := rfl
@[simp] theorem updPart_queues (p : Nat) (f : Part → Part) : (s.updPart p f).queues = s.queues := rfl
@[simp] theorem updPart_arrivals (p : Nat) (f : Part → Part) : (s.updPart p f).arrivals = s.arrivals := rfl
@[simp] theorem updPart_heldArr (p : Nat) (f : Part → Part) : (s.updPart p f).heldArr = s.heldArr := rfl
@[simp] theorem updPart_phases (p : Nat) (f : Part → Part) : (s.updPart p f).phases = s.phases := rfl
@[simp] theorem updPart_amFlight (p : Nat) (f : Part → Part) : (s.updPart p f).amFlight = s.amFlight := rfl
@[simp] theorem updPart_kept (p : Nat) (f : Part → Part) : (s.updPart p f).kept = s.kept := rfl
@[simp] theorem updPart_dumped (p : Nat) (f : Part → Part) : (s.updPart p f).dumped = s.dumped := rfl
@[simp] theorem updPart_schedule (p : Nat) (f : Part → Part) : (s.updPart p f).schedule = s.schedule := rfl
@[simp] theorem updPart_cur (p : Nat) (f : Part → Part) : (s.updPart p f).cur = s.cur := rfl
@[simp] theorem updPart_turn (p : Nat) (f : Part → Part) : (s.updPart p f).turn = s.turn := rfl
@[simp] theorem updPart_freeCtr (p : Nat) (f : Part → Part) : (s.updPart p f).freeCtr = s.freeCtr := rfl
@[simp] theorem updPart_nextId (p : Nat) (f : Part → Part) : (s.updPart p f).nextId = s.nextId := rfl

/-! ### `updDie` -/

@[simp] theorem updDie_cyc (d : Nat) (f : Die → Die) : (s.updDie d f).cyc = s.cyc := rfl
@[simp] theorem updDie_stopped (d : Nat) (f : Die → Die) : (s.updDie d f).stopped = s.stopped := rfl
@[simp] theorem updDie_refill (d : Nat) (f : Die → Die) : (s.updDie d f).refill = s.refill := rfl
@[simp] theorem updDie_refillNext (d : Nat) (f : Die → Die) : (s.updDie d f).refillNext = s.refillNext := rfl
@[simp] theorem updDie_mem (d : Nat) (f : Die → Die) : (s.updDie d f).mem = s.mem := rfl
@[simp] theorem updDie_poison (d : Nat) (f : Die → Die) : (s.updDie d f).poison = s.poison := rfl
@[simp] theorem updDie_stageMap (d : Nat) (f : Die → Die) : (s.updDie d f).stageMap = s.stageMap := rfl
@[simp] theorem updDie_contexts (d : Nat) (f : Die → Die) : (s.updDie d f).contexts = s.contexts := rfl
@[simp] theorem updDie_atc (d : Nat) (f : Die → Die) : (s.updDie d f).atc = s.atc := rfl
@[simp] theorem updDie_deadPlanes (d : Nat) (f : Die → Die) : (s.updDie d f).deadPlanes = s.deadPlanes := rfl
@[simp] theorem updDie_pkgId (d : Nat) (f : Die → Die) : (s.updDie d f).pkgId = s.pkgId := rfl
@[simp] theorem updDie_host (d : Nat) (f : Die → Die) : (s.updDie d f).host = s.host := rfl
@[simp] theorem updDie_cong (d : Nat) (f : Die → Die) : (s.updDie d f).cong = s.cong := rfl
@[simp] theorem updDie_md (d : Nat) (f : Die → Die) : (s.updDie d f).md = s.md := rfl
@[simp] theorem updDie_mlog (d : Nat) (f : Die → Die) : (s.updDie d f).mlog = s.mlog := rfl
@[simp] theorem updDie_bootStage (d : Nat) (f : Die → Die) : (s.updDie d f).bootStage = s.bootStage := rfl
@[simp] theorem updDie_bootHalt (d : Nat) (f : Die → Die) : (s.updDie d f).bootHalt = s.bootHalt := rfl
@[simp] theorem updDie_keys (d : Nat) (f : Die → Die) : (s.updDie d f).keys = s.keys := rfl
@[simp] theorem updDie_periods (d : Nat) (f : Die → Die) : (s.updDie d f).periods = s.periods := rfl
@[simp] theorem updDie_dump (d : Nat) (f : Die → Die) : (s.updDie d f).dump = s.dump := rfl
@[simp] theorem updDie_policyLast (d : Nat) (f : Die → Die) : (s.updDie d f).policyLast = s.policyLast := rfl
@[simp] theorem updDie_floors (d : Nat) (f : Die → Die) : (s.updDie d f).floors = s.floors := rfl
@[simp] theorem updDie_budget (d : Nat) (f : Die → Die) : (s.updDie d f).budget = s.budget := rfl
@[simp] theorem updDie_chanQ (d : Nat) (f : Die → Die) : (s.updDie d f).chanQ = s.chanQ := rfl
@[simp] theorem updDie_openRow (d : Nat) (f : Die → Die) : (s.updDie d f).openRow = s.openRow := rfl
@[simp] theorem updDie_irqs (d : Nat) (f : Die → Die) : (s.updDie d f).irqs = s.irqs := rfl
@[simp] theorem updDie_reply (d : Nat) (f : Die → Die) : (s.updDie d f).reply = s.reply := rfl
@[simp] theorem updDie_cores (d : Nat) (f : Die → Die) : (s.updDie d f).cores = s.cores := rfl
@[simp] theorem updDie_teams (d : Nat) (f : Die → Die) : (s.updDie d f).teams = s.teams := rfl
@[simp] theorem updDie_hands (d : Nat) (f : Die → Die) : (s.updDie d f).hands = s.hands := rfl
@[simp] theorem updDie_launches (d : Nat) (f : Die → Die) : (s.updDie d f).launches = s.launches := rfl
@[simp] theorem updDie_parts (d : Nat) (f : Die → Die) : (s.updDie d f).parts = s.parts := rfl
@[simp] theorem updDie_queues (d : Nat) (f : Die → Die) : (s.updDie d f).queues = s.queues := rfl
@[simp] theorem updDie_arrivals (d : Nat) (f : Die → Die) : (s.updDie d f).arrivals = s.arrivals := rfl
@[simp] theorem updDie_heldArr (d : Nat) (f : Die → Die) : (s.updDie d f).heldArr = s.heldArr := rfl
@[simp] theorem updDie_phases (d : Nat) (f : Die → Die) : (s.updDie d f).phases = s.phases := rfl
@[simp] theorem updDie_amFlight (d : Nat) (f : Die → Die) : (s.updDie d f).amFlight = s.amFlight := rfl
@[simp] theorem updDie_kept (d : Nat) (f : Die → Die) : (s.updDie d f).kept = s.kept := rfl
@[simp] theorem updDie_dumped (d : Nat) (f : Die → Die) : (s.updDie d f).dumped = s.dumped := rfl
@[simp] theorem updDie_schedule (d : Nat) (f : Die → Die) : (s.updDie d f).schedule = s.schedule := rfl
@[simp] theorem updDie_cur (d : Nat) (f : Die → Die) : (s.updDie d f).cur = s.cur := rfl
@[simp] theorem updDie_turn (d : Nat) (f : Die → Die) : (s.updDie d f).turn = s.turn := rfl
@[simp] theorem updDie_freeCtr (d : Nat) (f : Die → Die) : (s.updDie d f).freeCtr = s.freeCtr := rfl
@[simp] theorem updDie_nextId (d : Nat) (f : Die → Die) : (s.updDie d f).nextId = s.nextId := rfl

end Sys2Proof.Machine
end

