-- ==== Sys2Proof/Laws/Tables.lean ====
section
/-! SUPPORT. Sparse tables read what was set and keep their canonical form; the tables of State read what was
updated. -/

namespace Sys2Proof.Machine

/-! ### Sparse tables: reading -/

namespace SMap

variable {α : Type}

@[simp] theorem get_nil (k : Nat) (d : α) : SMap.get [] k d = d := rfl

theorem get_put (m : SMap α) (k j : Nat) (v d : α) : (m.put k v).get j d = if j = k then v else m.get j d := by
  induction m with
  | nil => simp [put, get, eq_comm]
  | cons e r ih =>
    obtain ⟨k', v'⟩ := e
    simp only [put]
    split
    · by_cases h : j = k <;> simp [get, h]
    · split
      · subst_vars; by_cases h : j = k' <;> simp [get, h]
      · by_cases h : j = k
        · subst h; simp [get, ih]; intro h'; omega
        · simp [get, ih, h]

theorem get_filter_ne (m : SMap α) (k j : Nat) (d : α) :
    SMap.get (m.filter fun e => e.1 != k) j d = if j = k then d else m.get j d := by
  induction m with
  | nil => simp [get]
  | cons e r ih =>
    obtain ⟨k', v'⟩ := e
    by_cases hk : k' = k
    · subst hk
      by_cases h : j = k'
      · subst h; simpa using ih
      · simpa [get, h, Ne.symm h] using ih
    · by_cases h : j = k
      · subst h; simpa [get, hk, Ne.symm hk] using ih
      · simp only [h, if_false] at ih; simp [get, h, hk, ih]

/-- Reading after setting: the key set reads as its new value, and every other key as before. -/
@[simp] theorem get_set [DecidableEq α] (m : SMap α) (k j : Nat) (v d : α) :
    (m.set k v d).get j d = if j = k then v else m.get j d := by
  unfold set
  split
  · rename_i e; subst e; exact get_filter_ne m k j v
  · exact get_put m k j v d

theorem get_set_same [DecidableEq α] (m : SMap α) (k : Nat) (v d : α) : (m.set k v d).get k d = v := by simp
theorem get_set_other [DecidableEq α] (m : SMap α) {k j : Nat} (h : j ≠ k) (v d : α) :
    (m.set k v d).get j d = m.get j d := by simp [h]

/-- Reading after setting a run of keys. -/
theorem get_setRun [DecidableEq α] (d : α) (vs : List α) (m : SMap α) (k j : Nat) :
    (m.setRun d k vs).get j d = if k ≤ j ∧ j < k + vs.length then vs.getD (j - k) d else m.get j d := by
  induction vs generalizing m k with
  | nil => rw [if_neg (by show ¬ (k ≤ j ∧ j < k + 0); omega)]; rfl
  | cons v vs ih =>
    simp only [setRun, ih, get_set, List.length_cons]
    by_cases h1 : j = k
    · subst h1; rw [if_neg (by omega), if_pos rfl, if_pos (by omega), Nat.sub_self]; rfl
    · by_cases h2 : k + 1 ≤ j ∧ j < k + 1 + vs.length
      · have : j - k = j - (k + 1) + 1 := by omega
        rw [if_pos h2, if_pos (by omega), this]; simp
      · rw [if_neg h2, if_neg h1, if_neg (by omega)]

theorem get_setRun_other [DecidableEq α] (d : α) (vs : List α) (m : SMap α) {k j : Nat}
    (h : j < k ∨ k + vs.length ≤ j) : (m.setRun d k vs).get j d = m.get j d := by
  rw [get_setRun, if_neg (by omega)]

@[simp] theorem length_getRun (m : SMap α) (d : α) (k n : Nat) : (m.getRun d k n).length = n := by
  induction n generalizing k with
  | zero => rfl
  | succ n ih => simp [getRun, ih]

theorem getRun_eq (m : SMap α) (d : α) (k n : Nat) : m.getRun d k n = (List.range n).map fun i => m.get (k + i) d := by
  induction n generalizing k with
  | zero => rfl
  | succ n ih =>
    rw [getRun, ih, List.range_succ_eq_map]
    simp [Function.comp_def, Nat.add_assoc, Nat.add_comm 1]

/-! ### Sparse tables: the canonical form -/

variable [DecidableEq α] {d : α}

theorem wfFrom_weaken {m : SMap α} {a b : Nat} (h : a ≤ b) (w : wfFrom d (some b) m = true) : wfFrom d (some a) m = true := by
  cases m with
  | nil => rfl
  | cons e r => simp [wfFrom] at w ⊢; exact ⟨⟨by omega, w.1.2⟩, w.2⟩

theorem wfFrom_put {m : SMap α} {lo : Option Nat} {k : Nat} {v : α} (hv : v ≠ d) (hlo : ∀ l, lo = some l → l < k)
    (w : wfFrom d lo m = true) : wfFrom d lo (m.put k v) = true := by
  induction m generalizing lo with
  | nil => cases lo <;> simp [put, wfFrom, hv]; exact hlo _ rfl
  | cons e r ih =>
    obtain ⟨k', v'⟩ := e
    simp only [wfFrom, Bool.and_eq_true] at w
    simp only [put]
    split
    · cases lo <;> simp_all [wfFrom]
    · split
      · subst_vars; simp_all [wfFrom]
      · simp only [wfFrom, Bool.and_eq_true]
        exact ⟨w.1, ih (by intro l hl; cases hl; omega) w.2⟩

theorem wfFrom_filter {m : SMap α} {lo : Option Nat} (p : Nat × α → Bool) (w : wfFrom d lo m = true) :
    wfFrom d lo (m.filter p) = true := by
  induction m generalizing lo with
  | nil => rfl
  | cons e r ih =>
    obtain ⟨k', v'⟩ := e
    simp only [wfFrom, Bool.and_eq_true] at w
    by_cases h : p (k', v')
    · rw [List.filter_cons_of_pos h]
      simp only [wfFrom, Bool.and_eq_true]
      exact ⟨w.1, ih w.2⟩
    · rw [List.filter_cons_of_neg h]
      cases lo with
      | none =>
        have := ih w.2
        revert this; generalize List.filter p r = l
        cases l <;> simp [wfFrom]; intros; simp_all
      | some l => exact ih (wfFrom_weaken (by simp at w; omega) w.2)

/-- Setting a key keeps the canonical form. -/
theorem wf_set {m : SMap α} (k : Nat) (v : α) (w : m.wf d = true) : (m.set k v d).wf d = true := by
  unfold set
  split
  · exact wfFrom_filter _ w
  · exact wfFrom_put ‹_› (by simp) w

theorem wf_setRun {m : SMap α} (k : Nat) (vs : List α) (w : m.wf d = true) : (m.setRun d k vs).wf d = true := by
  induction vs generalizing m k with
  | nil => exact w
  | cons v vs ih => exact ih _ (wf_set k v w)

theorem wf_drop {m : SMap α} (lo hi : Nat) (w : m.wf d = true) : SMap.wf d (m.drop lo hi) = true := wfFrom_filter _ w

end SMap

/-! ### Lists -/

@[simp] theorem length_setAt {α : Type} (l : List α) (i : Nat) (f : α → α) : (setAt l i f).length = l.length := by
  induction l generalizing i with
  | nil => rfl
  | cons a r ih => cases i <;> simp [setAt, ih]

theorem getElem?_setAt {α : Type} (l : List α) (i j : Nat) (f : α → α) :
    (setAt l i f)[j]? = if j = i then l[j]?.map f else l[j]? := by
  induction l generalizing i j with
  | nil => simp [setAt]
  | cons a r ih =>
    cases i with
    | zero => cases j <;> simp [setAt]
    | succ i => cases j <;> simp [setAt, ih]

theorem find?_map_upd {α : Type} (p q : α → Bool) (f : α → α) (l : List α)
    (hp : ∀ x ∈ l, q x = true → p (f x) = p x) :
    (l.map fun x => if q x then f x else x).find? p = (l.find? p).map fun x => if q x then f x else x := by
  induction l with
  | nil => rfl
  | cons a r ih =>
    have ih := ih fun x hx => hp x (List.mem_cons_of_mem _ hx)
    have ha : p (if q a then f a else a) = p a := by
      split
      · exact hp a List.mem_cons_self ‹_›
      · rfl
    simp only [List.map_cons, List.find?_cons, ha]
    cases p a <;> simp [ih]

/-! ### Tables of State: reading after an update -/

namespace State

variable (s : State)

theorem hand?_updHand (t h t' h' : Nat) (f : Hand → Hand) (hf : ∀ x, (f x).team = x.team ∧ (f x).hix = x.hix) :
    (s.updHand t h f).hand? t' h' = if t' = t ∧ h' = h then (s.hand? t h).map f else s.hand? t' h' := by
  unfold hand? updHand
  dsimp only
  rw [find?_map_upd _ (fun x => x.team == t && x.hix == h) f _ (by intro x _ _; simp [hf x])]
  split
  · rename_i e; obtain ⟨rfl, rfl⟩ := e
    cases e : List.find? (fun x => x.team == t' && x.hix == h') s.hands with
    | none => rfl
    | some x => have := List.find?_some e; simp_all
  · rename_i e
    cases e' : List.find? (fun x => x.team == t' && x.hix == h') s.hands with
    | none => rfl
    | some x =>
      have := List.find?_some e'
      simp only [Bool.and_eq_true, beq_iff_eq] at this
      simp [this, e]

theorem updHand_id (t h : Nat) : s.updHand t h id = s := by
  unfold updHand
  have : (s.hands.map fun x => if (x.team == t && x.hix == h) = true then id x else x) = s.hands := by simp
  rw [this]

theorem team?_updTeam (t t' : Nat) (f : Team → Team) (hf : ∀ x, (f x).id = x.id) :
    (s.updTeam t f).team? t' = if t' = t then (s.team? t).map f else s.team? t' := by
  unfold team? updTeam
  dsimp only
  rw [find?_map_upd _ (fun x => x.id == t) f _ (by intro x _ _; simp [hf x])]
  split
  · rename_i e; subst e
    cases e : List.find? (fun x => x.id == t') s.teams with
    | none => rfl
    | some x => have := List.find?_some e; simp_all
  · rename_i e
    cases e' : List.find? (fun x => x.id == t') s.teams with
    | none => rfl
    | some x => have := List.find?_some e'; simp only [beq_iff_eq] at this; simp [this, e]

theorem launch?_updLaunch (p h p' h' : Nat) (f : Launch → Launch)
    (hf : ∀ x, (f x).part = x.part ∧ (f x).handle = x.handle) :
    (s.updLaunch p h f).launch? p' h' = if p' = p ∧ h' = h then (s.launch? p h).map f else s.launch? p' h' := by
  unfold launch? updLaunch
  dsimp only
  rw [find?_map_upd _ (fun x => x.part == p && x.handle == h) f _ (by intro x _ _; simp [hf x])]
  split
  · rename_i e; obtain ⟨rfl, rfl⟩ := e
    cases e : List.find? (fun x => x.part == p' && x.handle == h') s.launches with
    | none => rfl
    | some x => have := List.find?_some e; simp_all
  · rename_i e
    cases e' : List.find? (fun x => x.part == p' && x.handle == h') s.launches with
    | none => rfl
    | some x =>
      have := List.find?_some e'
      simp only [Bool.and_eq_true, beq_iff_eq] at this
      simp [this, e]

theorem queue?_updQueue (q q' : Nat) (f : Queue → Queue) (hf : ∀ x, (f x).qid = x.qid) :
    (s.updQueue q f).queue? q' = if q' = q then (s.queue? q).map f else s.queue? q' := by
  unfold queue? updQueue
  dsimp only
  rw [find?_map_upd _ (fun x => x.qid == q) f _ (by intro x _ _; simp [hf x])]
  split
  · rename_i e; subst e
    cases e : List.find? (fun x => x.qid == q') s.queues with
    | none => rfl
    | some x => have := List.find?_some e; simp_all
  · rename_i e
    cases e' : List.find? (fun x => x.qid == q') s.queues with
    | none => rfl
    | some x => have := List.find?_some e'; simp only [beq_iff_eq] at this; simp [this, e]

@[simp] theorem core_updCore (c c' : Nat) (f : Core → Core) :
    (s.updCore c f).core c' = if c' = c then f (s.core c) else s.core c' := by
  simp only [core, updCore, SMap.get_set]

@[simp] theorem part_updPart (p p' : Nat) (f : Part → Part) :
    (s.updPart p f).part p' = if p' = p then f (s.part p) else s.part p' := by
  simp only [part, updPart, SMap.get_set]

theorem die?_updDie (d d' : Nat) (f : Die → Die) :
    (s.updDie d f).die? d' = if d' = d then (s.die? d).map f else s.die? d' := by
  unfold die? updDie
  dsimp only
  rw [getElem?_setAt]
  split
  · subst_vars; rfl
  · rfl

/-! Reading another table after an update. -/

@[simp] theorem hand?_updTeam (t a b : Nat) (f : Team → Team) : (s.updTeam t f).hand? a b = s.hand? a b := rfl
@[simp] theorem hand?_updCore (c a b : Nat) (f : Core → Core) : (s.updCore c f).hand? a b = s.hand? a b := rfl
@[simp] theorem hand?_updPart (p a b : Nat) (f : Part → Part) : (s.updPart p f).hand? a b = s.hand? a b := rfl
@[simp] theorem hand?_updLaunch (p h a b : Nat) (f : Launch → Launch) : (s.updLaunch p h f).hand? a b = s.hand? a b := rfl
@[simp] theorem hand?_updQueue (q a b : Nat) (f : Queue → Queue) : (s.updQueue q f).hand? a b = s.hand? a b := rfl
@[simp] theorem hand?_updDie (d a b : Nat) (f : Die → Die) : (s.updDie d f).hand? a b = s.hand? a b := rfl
@[simp] theorem team?_updHand (t h a : Nat) (f : Hand → Hand) : (s.updHand t h f).team? a = s.team? a := rfl
@[simp] theorem team?_updCore (c a : Nat) (f : Core → Core) : (s.updCore c f).team? a = s.team? a := rfl
@[simp] theorem team?_updPart (p a : Nat) (f : Part → Part) : (s.updPart p f).team? a = s.team? a := rfl
@[simp] theorem core_updHand (t h c : Nat) (f : Hand → Hand) : (s.updHand t h f).core c = s.core c := rfl
@[simp] theorem core_updTeam (t c : Nat) (f : Team → Team) : (s.updTeam t f).core c = s.core c := rfl
@[simp] theorem core_updPart (p c : Nat) (f : Part → Part) : (s.updPart p f).core c = s.core c := rfl
@[simp] theorem part_updHand (t h p : Nat) (f : Hand → Hand) : (s.updHand t h f).part p = s.part p := rfl
@[simp] theorem part_updTeam (t p : Nat) (f : Team → Team) : (s.updTeam t f).part p = s.part p := rfl
@[simp] theorem part_updCore (c p : Nat) (f : Core → Core) : (s.updCore c f).part p = s.part p := rfl

end State

end Sys2Proof.Machine
end

