-- ==== Sys2Proof/Laws/Registers.lean ====
section
/-! SUPPORT. The registers of a hand: what a write leaves at every place, that lanes read and write apart, and what
the frames of register instructions (`shortOp`, `longOp`) do. -/

namespace Sys2Proof.Machine

/-! ### Threads -/

theorem Hand.thr_updThr (hd : Hand) (t u : Nat) (f : Thread → Thread) :
    (hd.updThr t f).thr u = if u = t ∧ t < hd.threads.length then f (hd.thr u) else hd.thr u := by
  unfold thr updThr
  dsimp only
  rw [getElem?_setAt]
  by_cases h : u = t
  · subst h
    by_cases h' : u < hd.threads.length
    · simp [h']
    · simp [h']
  · simp [h]

@[simp] theorem Hand.length_updThr (hd : Hand) (t : Nat) (f : Thread → Thread) :
    (hd.updThr t f).threads.length = hd.threads.length := length_setAt _ _ _

theorem map_setAt_of {α β : Type} (l : List α) (i : Nat) (f : α → α) (g : α → β) (h : ∀ x, g (f x) = g x) :
    (setAt l i f).map g = l.map g := by
  induction l generalizing i with
  | nil => rfl
  | cons a r ih => cases i <;> simp [setAt, ih, h]

@[simp] theorem Hand.put_team (hd : Hand) (d : Dst) (v : Word) : (hd.put d v).team = hd.team := by cases d <;> rfl
@[simp] theorem Hand.put_hix (hd : Hand) (d : Dst) (v : Word) : (hd.put d v).hix = hd.hix := by cases d <;> rfl
@[simp] theorem Hand.put_hs (hd : Hand) (d : Dst) (v : Word) : (hd.put d v).hs = hd.hs := by cases d <;> rfl
@[simp] theorem Hand.put_ab (hd : Hand) (d : Dst) (v : Word) : (hd.put d v).ab = hd.ab := by cases d <;> rfl
@[simp] theorem Hand.put_as (hd : Hand) (d : Dst) (v : Word) : (hd.put d v).as = hd.as := by cases d <;> rfl
@[simp] theorem Hand.length_put (hd : Hand) (d : Dst) (v : Word) : (hd.put d v).threads.length = hd.threads.length := by
  cases d <;> simp [put]

@[simp] theorem Hand.has_put (hd : Hand) (d : Dst) (v : Word) (p : Dst) : (hd.put d v).has p = hd.has p := by
  cases p <;> simp [has]

/-! ### Writing a place -/

theorem getLsbD_two_pow {w : Nat} (i n : Nat) (h : i < w) : (BitVec.ofNat w (2 ^ i)).getLsbD n = decide (n = i) := by
  simp only [BitVec.getLsbD_ofNat, Nat.testBit_two_pow]
  by_cases e : i = n
  · subst e; simp [h]
  · simp [e, Ne.symm e]

theorem getLsbD_setBit {w : Nat} (x : BitVec w) (i n : Nat) (b : Bool) (h : i < w) :
    (setBit x i b).getLsbD n = if n = i then b else x.getLsbD n := by
  unfold setBit
  cases b
  · simp only [Bool.false_eq_true, if_false, BitVec.getLsbD_and, BitVec.getLsbD_not, getLsbD_two_pow i n h]
    by_cases e : n = i
    · simp [e]
    · by_cases hn : n < w
      · simp [e, hn]
      · simp [e, BitVec.getLsbD_of_ge _ _ (Nat.le_of_not_lt hn)]
  · simp only [if_true, BitVec.getLsbD_or, getLsbD_two_pow i n h]
    by_cases e : n = i <;> simp [e]

/-- A place can hold the value: a predicate holds 0 or 1. A move of the resident entries is no place. -/
def Dst.fits : Dst → Word → Prop
  | .pred _ _, v => v = 0 ∨ v = 1
  | .qpred _, v => v = 0 ∨ v = 1
  | .frame .., _ => False
  | _, _ => True

theorem Hand.put_rest (hd : Hand) (d : Dst) (v : Word) (hv : d.fits v) : (hd.put d v).rest = hd.rest := by
  cases d <;> first | exact absurd hv id | (simp [put, rest, updThr] <;> exact map_setAt_of _ _ _ _ fun _ => rfl)

@[simp] theorem Hand.updThr_k (hd : Hand) (t : Nat) (f : Thread → Thread) : (hd.updThr t f).k = hd.k := rfl
@[simp] theorem Hand.updThr_q (hd : Hand) (t : Nat) (f : Thread → Thread) : (hd.updThr t f).q = hd.q := rfl
@[simp] theorem Hand.thr_k (hd : Hand) (k : SMap Word) (t : Nat) : ({ hd with k } : Hand).thr t = hd.thr t := rfl
@[simp] theorem Hand.thr_q (hd : Hand) (q : BitVec 4) (t : Nat) : ({ hd with q } : Hand).thr t = hd.thr t := rfl

theorem setBit_ge {w : Nat} (x : BitVec w) (i : Nat) (b : Bool) (h : w ≤ i) : setBit x i b = x := by
  have : BitVec.ofNat w (2 ^ i) = 0#w := by
    apply BitVec.eq_of_toNat_eq
    simp only [BitVec.toNat_ofNat, Nat.zero_mod]
    exact Nat.mod_eq_zero_of_dvd (Nat.pow_dvd_pow 2 h)
  cases b <;> simp [setBit, this]

theorem getLsbD_setBit' {w : Nat} (x : BitVec w) (i n : Nat) (b : Bool) (h : n < w) :
    (setBit x i b).getLsbD n = if n = i then b else x.getLsbD n := by
  by_cases hi : i < w
  · exact getLsbD_setBit x i n b hi
  · rw [setBit_ge x i b (Nat.le_of_not_lt hi), if_neg (by omega)]

/-- Read after write: the place written holds the value, and every other place what it held. -/
theorem Hand.holds_put (hd : Hand) (d : Dst) (v : Word) (p : Dst) (hp : hd.has p = true) (hv : d.fits v) :
    (hd.put d v).holds p = if d = p then v else hd.holds p := by
  have bit (b : Bool) (n j : Nat) : (if (if j = n then v.getLsbD 0 else b) = true then (1 : Word) else 0)
      = if j = n then (if v.getLsbD 0 then 1 else 0) else if b then 1 else 0 := by split <;> rfl
  have one (e : v = 0 ∨ v = 1) : (if v.getLsbD 0 = true then (1 : Word) else 0) = v := by
    rcases e with rfl | rfl <;> decide
  cases d with
  | ent t i =>
    cases p <;> simp only [put, holds, thr_updThr, updThr_k, updThr_q, reduceCtorEq, if_false]
    case ent t' i' =>
      have hp : t' < hd.threads.length := by simpa [has] using hp
      by_cases h : t' = t
      · subst h
        by_cases h' : i' = i
        · subst h'; simp [hp, Thread.setEnt]
        · simp [hp, Thread.setEnt, h', Ne.symm h']
      · simp [h, Ne.symm h]
    all_goals first | rfl | (split <;> rfl)
  | kreg n =>
    cases p <;> simp only [put, holds, thr_k, reduceCtorEq, if_false]
    case kreg n' =>
      by_cases h : n' = n
      · subst h; simp
      · simp [h, Ne.symm h]
    all_goals rfl
  | xreg t i =>
    cases p <;> simp only [put, holds, thr_updThr, updThr_k, updThr_q, reduceCtorEq, if_false]
    case xreg t' i' =>
      have hp : t' < hd.threads.length := by simpa [has] using hp
      by_cases h : t' = t
      · subst h
        by_cases h' : i' = i
        · subst h'; simp [hp]
        · simp [hp, h', Ne.symm h']
      · simp [h, Ne.symm h]
    all_goals first | rfl | (split <;> rfl)
  | pred t i =>
    cases p <;> simp only [put, holds, thr_updThr, updThr_k, updThr_q, reduceCtorEq, if_false]
    case pred t' i' =>
      have hp : t' < hd.threads.length ∧ i' < 8 := by simpa [has] using hp
      by_cases h : t' = t
      · subst h
        simp only [hp.1, and_self, if_true, getLsbD_setBit' _ _ _ _ hp.2, bit, one hv, Dst.pred.injEq, true_and]
        by_cases h' : i' = i
        · simp [h']
        · simp [h', Ne.symm h']
      · simp [h, Ne.symm h]
    all_goals first | rfl | (split <;> rfl)
  | qpred i =>
    cases p <;> simp only [put, holds, thr_q, reduceCtorEq, if_false]
    case qpred i' =>
      have hp : i' < 4 := by simpa [has] using hp
      simp only [getLsbD_setBit' _ _ _ _ hp, bit, one hv, Dst.qpred.injEq]
      by_cases h' : i' = i
      · simp [h']
      · simp [h', Ne.symm h']
    all_goals rfl
  | frame => exact absurd hv id
  | drop => cases p <;> simp [put, has] at hp ⊢

/-! ### Several writes -/

/-- Make writes one after another. -/
def Hand.puts (hd : Hand) (l : List (Dst × Word)) : Hand := l.foldl (fun m x => m.put x.1 x.2) hd

@[simp] theorem Hand.puts_nil (hd : Hand) : hd.puts [] = hd := rfl
@[simp] theorem Hand.puts_cons (hd : Hand) (x : Dst × Word) (l : List (Dst × Word)) :
    hd.puts (x :: l) = (hd.put x.1 x.2).puts l := rfl
theorem Hand.puts_append (hd : Hand) (l l' : List (Dst × Word)) : hd.puts (l ++ l') = (hd.puts l).puts l' := by
  simp [puts, List.foldl_append]

@[simp] theorem Hand.puts_hs (hd : Hand) (l : List (Dst × Word)) : (hd.puts l).hs = hd.hs := by
  induction l generalizing hd with
  | nil => rfl
  | cons x r ih => simp [ih]
@[simp] theorem Hand.puts_team (hd : Hand) (l : List (Dst × Word)) : (hd.puts l).team = hd.team := by
  induction l generalizing hd with
  | nil => rfl
  | cons x r ih => simp [ih]
@[simp] theorem Hand.puts_hix (hd : Hand) (l : List (Dst × Word)) : (hd.puts l).hix = hd.hix := by
  induction l generalizing hd with
  | nil => rfl
  | cons x r ih => simp [ih]
theorem Hand.puts_rest (hd : Hand) (l : List (Dst × Word)) (hv : ∀ x ∈ l, x.1.fits x.2) : (hd.puts l).rest = hd.rest := by
  induction l generalizing hd with
  | nil => rfl
  | cons x r ih =>
    rw [puts_cons, ih _ fun y hy => hv y (List.mem_cons_of_mem _ hy), put_rest _ _ _ (hv x List.mem_cons_self)]

theorem Hand.holds_puts (hd : Hand) (l : List (Dst × Word)) (p : Dst) (hp : hd.has p = true)
    (hv : ∀ x ∈ l, x.1.fits x.2) : (hd.puts l).holds p = lastWrite l p (hd.holds p) := by
  induction l generalizing hd with
  | nil => rfl
  | cons x r ih =>
    rw [puts_cons, ih _ (by simpa using hp) fun y hy => hv y (List.mem_cons_of_mem _ hy),
      holds_put _ _ _ _ hp (hv x List.mem_cons_self)]
    rfl

/-- A hand after some writes, and perhaps with `nr` set. -/
theorem Hand.wrote_puts (hd : Hand) (nr : Bool) (l : List (Dst × Word)) (hv : ∀ x ∈ l, x.1.fits x.2) :
    hd.Wrote ((if nr then hd.setHs hsNr else hd).puts l) nr l := by
  constructor
  · intro p hp
    rw [holds_puts _ _ _ (by cases nr <;> exact hp) hv]
    cases nr <;> cases p <;> rfl
  · cases nr <;> simp [setHs]
  · rw [puts_rest _ _ hv]; cases nr <;> rfl

/-! ### Lanes -/

/-- Is the place a register of the lane: its thread's, or the hand's? -/
def Dst.mine : Dst → Lane → Bool
  | .ent t _, .thr u | .xreg t _, .thr u | .pred t _, .thr u => t == u
  | .kreg _, .uni | .qpred _, .uni => true
  | .drop, _ => true
  | _, _ => false

/-- Two hands between which a lane sees no difference. -/
structure Hand.Like (hd m : Hand) (ln : Lane) : Prop where
  thr : ∀ t, ln = .thr t → m.thr t = hd.thr t
  k : m.k = hd.k
  q : m.q = hd.q
  ab : m.ab = hd.ab
  as : m.as = hd.as

theorem Hand.Like.refl (hd : Hand) (ln : Lane) : hd.Like hd ln := ⟨fun _ _ => rfl, rfl, rfl, rfl, rfl⟩

theorem Hand.Like.rdO {hd m : Hand} {ln : Lane} (h : hd.Like m ln) (o : Opnd) : m.rdO ln o = hd.rdO ln o := by
  cases ln with
  | thr t => cases o <;> simp [Hand.rdO, h.k, h.ab, h.as, h.thr t rfl]
  | uni => cases o <;> simp [Hand.rdO, h.k, h.ab]
theorem Hand.Like.rdO64 {hd m : Hand} {ln : Lane} (h : hd.Like m ln) (o : Opnd) : m.rdO64 ln o = hd.rdO64 ln o := by
  cases o <;> simp [Hand.rdO64, h.rdO]
theorem Hand.Like.rd {hd m : Hand} {ln : Lane} (h : hd.Like m ln) (x : Src) : m.rd ln x = hd.rd ln x := by
  cases x <;> simp [Hand.rd, h.rdO]
theorem Hand.Like.rd64 {hd m : Hand} {ln : Lane} (h : hd.Like m ln) (x : Src) : m.rd64 ln x = hd.rd64 ln x := by
  cases x <;> simp [Hand.rd64, h.rdO64]
theorem Hand.Like.rdP {hd m : Hand} {ln : Lane} (h : hd.Like m ln) (o : POpnd) : m.rdP ln o = hd.rdP ln o := by
  cases ln with
  | thr t => cases o <;> simp [Hand.rdP, h.q, h.thr t rfl]
  | uni => cases o <;> simp [Hand.rdP, h.q]
theorem Hand.Like.dstOf {hd m : Hand} {ln : Lane} (h : hd.Like m ln) (depth : Nat) (o : Opnd) :
    m.dstOf depth ln o = hd.dstOf depth ln o := by
  cases ln with
  | thr t => cases o <;> simp [Hand.dstOf, h.thr t rfl]
  | uni => cases o <;> simp [Hand.dstOf]

/-- A write of another lane's place is not seen. -/
theorem Hand.Like.put {hd m : Hand} {ln ln' : Lane} (h : hd.Like m ln) {d : Dst} (hd' : d.mine ln' = true)
    (hl : ln' ≠ ln) (hn : ln ≠ .uni) (hn' : ln' ≠ .uni) (v : Word) : hd.Like (m.put d v) ln := by
  obtain ⟨ht, hk, hq, ha, hs⟩ := h
  refine ⟨fun t e => ?_, ?_, ?_, by simpa using ha, by simpa using hs⟩
  · subst e
    cases d <;> cases ln' <;> simp_all [Dst.mine, Hand.put, Hand.thr_updThr]
    all_goals exact fun h => absurd h (Ne.symm hl)
  · cases d <;> cases ln' <;> simp_all [Dst.mine, Hand.put, Hand.updThr]
  · cases d <;> cases ln' <;> simp_all [Dst.mine, Hand.put, Hand.updThr]

theorem Hand.Like.puts {hd m : Hand} {ln ln' : Lane} (h : hd.Like m ln) {l : List (Dst × Word)}
    (hm : ∀ x ∈ l, x.1.mine ln' = true) (hl : ln' ≠ ln) (hn : ln ≠ .uni) (hn' : ln' ≠ .uni) :
    hd.Like (m.puts l) ln := by
  induction l generalizing m with
  | nil => exact h
  | cons x r ih =>
    exact ih (h.put (hm x List.mem_cons_self) hl hn hn' _) fun y hy => hm y (List.mem_cons_of_mem _ hy)

theorem Hand.actives_nodup (hd : Hand) : hd.actives.Nodup := by
  unfold actives bitsOf idxs
  exact List.nodup_range.filter _

/-- The lanes of an instruction differ from each other, and `uni` stands alone. -/
theorem Hand.lanes_nodup (hd : Hand) (h : Hdr) :
    (hd.lanes h).Nodup ∧ (hd.lanes h = [] ∨ hd.lanes h = [.uni] ∨ ∀ ln ∈ hd.lanes h, ln ≠ .uni) := by
  unfold lanes
  split
  · split <;> simp
  · unfold parts
    rw [if_neg ‹_›]
    refine ⟨List.pairwise_map.mpr ((hd.actives_nodup.filter _).imp fun h e => h (Lane.thr.inj e)), .inr (.inr ?_)⟩
    intro ln hl
    obtain ⟨t, -, rfl⟩ := List.mem_map.mp hl
    simp

/-- The lanes of a fold over lanes that write apart read what the hand held before the first of them. -/
theorem foldl_lanes (hd : Hand) (f : Hand → Lane → Hand) (w : Lane → List (Dst × Word)) (ls : List Lane)
    (hnd : ls.Nodup) (hu : ls = [] ∨ ls = [.uni] ∨ ∀ ln ∈ ls, ln ≠ .uni)
    (hf : ∀ ln ∈ ls, ∀ m, hd.Like m ln → f m ln = m.puts (w ln))
    (hw : ∀ ln ∈ ls, ∀ x ∈ w ln, x.1.mine ln = true) (m : Hand) (hm : ∀ ln ∈ ls, hd.Like m ln) :
    ls.foldl f m = m.puts (ls.flatMap w) := by
  rcases hu with rfl | rfl | hu
  · rfl
  · simp [hf .uni List.mem_cons_self m (hm _ List.mem_cons_self)]
  · induction ls generalizing m with
    | nil => rfl
    | cons a r ih =>
      simp only [List.foldl_cons, List.flatMap_cons, Hand.puts_append]
      rw [hf a List.mem_cons_self m (hm a List.mem_cons_self)]
      have ha : a ∉ r := (List.nodup_cons.mp hnd).1
      refine ih (List.nodup_cons.mp hnd).2 (fun ln hl => hf ln (List.mem_cons_of_mem _ hl))
        (fun ln hl => hw ln (List.mem_cons_of_mem _ hl)) _ (fun ln hl => ?_) fun ln hl => hu ln (List.mem_cons_of_mem _ hl)
      exact (hm ln (List.mem_cons_of_mem _ hl)).puts (hw a List.mem_cons_self) (fun e => ha (e ▸ hl))
        (hu ln (List.mem_cons_of_mem _ hl)) (hu a List.mem_cons_self)

/-! ### Destinations that check 5 admits are the lane's -/

theorem Hand.mem_lanes {hd : Hand} {h : Hdr} {ln : Lane} (hl : ln ∈ hd.lanes h) :
    (h.u = true ∧ ln = .uni) ∨ (h.u = false ∧ ∃ t, ln = .thr t) := by
  unfold lanes at hl
  split at hl
  · split at hl <;> simp_all
  · rename_i hu
    obtain ⟨t, -, rfl⟩ := List.mem_map.mp hl
    exact .inr ⟨by simpa using hu, t, rfl⟩

theorem Hand.dstOf_mine (hd : Hand) (depth : Nat) (h : Hdr) {ln : Lane} (hl : ln ∈ hd.lanes h) {p : Bool} {o : Opnd}
    (ho : dstOk h.u p o = true) : (hd.dstOf depth ln o).mine ln = true := by
  obtain ⟨hu, rfl⟩ | ⟨hu, t, rfl⟩ := Hand.mem_lanes hl
  · cases o <;> simp_all [Hand.dstOf, dstOk, Dst.mine]
  · cases o <;> simp_all [Hand.dstOf, dstOk, Dst.mine]
    generalize (hd.thr t).resident _ _ = b
    cases b <;> simp

theorem dstOk_oddOf {u p : Bool} {o : Opnd} (h : dstOk u p o = true) : dstOk u p (oddOf o) = true := by
  cases o with
  | g n => simp only [oddOf]; split <;> simp_all [dstOk]
  | k n => simp only [oddOf]; split <;> simp_all [dstOk]
  | x n => simp only [oddOf]; split <;> simp_all [dstOk]
  | _ => simp_all [dstOk, oddOf]

theorem Hand.pdstOf_mine (hd : Hand) (h : Hdr) {ln : Lane} (hl : ln ∈ hd.lanes h) {o : POpnd}
    (ho : pdstOk h.u o = true) : (pdstOf ln o).mine ln = true := by
  obtain ⟨hu, rfl⟩ | ⟨hu, t, rfl⟩ := Hand.mem_lanes hl
  · cases o with
    | q n => by_cases e : n.val = 3 <;> simp [pdstOf, Dst.mine, e]
    | _ => simp_all [pdstOk]
  · cases o with
    | p n => by_cases e : n.val = 7 <;> simp [pdstOf, Dst.mine, e]
    | rsv n => simp [pdstOk] at ho
    | q n => simp [pdstOk, hu] at ho

theorem fits_of_reg (o : Opnd) (hd : Hand) (depth : Nat) (ln : Lane) (v : Word) : (hd.dstOf depth ln o).fits v := by
  cases o with
  | g n =>
    cases ln with
    | uni => trivial
    | thr t => simp only [Hand.dstOf]; split <;> trivial
  | _ => cases ln <;> trivial

theorem fits_of_pred (o : POpnd) (ln : Lane) (b : Bool) : (pdstOf ln o).fits (if b then 1 else 0) := by
  cases o <;> cases ln <;> simp only [pdstOf] <;> (try split) <;> cases b <;> simp [Dst.fits]

theorem Hand.dest_ok (hd : Hand) (depth : Nat) (h : Hdr) {ln : Lane} (hl : ln ∈ hd.lanes h) {p : Bool} {o : Opnd}
    (ho : dstOk h.u p o = true) (ty : Ty) (v : Dword) :
    ∀ x ∈ hd.dest depth ln ty o v, x.1.mine ln = true ∧ x.1.fits x.2 := by
  intro x hx
  unfold dest at hx
  split at hx
  · split at hx
    · simp at hx
    · simp only [List.mem_cons, List.not_mem_nil, or_false] at hx
      rcases hx with rfl | rfl
      · exact ⟨hd.dstOf_mine depth h hl ho, fits_of_reg _ _ _ _ _⟩
      · exact ⟨hd.dstOf_mine depth h hl (dstOk_oddOf ho), fits_of_reg _ _ _ _ _⟩
  · simp only [List.mem_cons, List.not_mem_nil, or_false] at hx
    subst hx
    exact ⟨hd.dstOf_mine depth h hl ho, fits_of_reg _ _ _ _ _⟩

theorem Hand.pdest_ok (hd : Hand) (h : Hdr) {ln : Lane} (hl : ln ∈ hd.lanes h) {o : POpnd}
    (ho : pdstOk h.u o = true) (b : Bool) : ∀ x ∈ hd.pdest ln o b, x.1.mine ln = true ∧ x.1.fits x.2 := by
  intro x hx
  simp only [pdest, List.mem_cons, List.not_mem_nil, or_false] at hx
  subst hx
  exact ⟨hd.pdstOf_mine h hl ho, fits_of_pred _ _ _⟩

/-- `wr`, `wr64` and `wrP` make the writes of `dest` and `pdest`. -/
theorem Hand.Like.wr {hd m : Hand} {ln : Lane} (hl : hd.Like m ln) (depth : Nat) {ty : Ty} (ht : ty.is64 = false)
    (o : Opnd) (v : Word) : m.wr depth ln o v = m.puts (hd.dest depth ln ty o (v.setWidth 64)) := by
  have : lo32 (v.setWidth 64) = v := by
    apply BitVec.eq_of_toNat_eq
    have : v.toNat < 4294967296 := v.isLt
    simp [lo32, this]
  simp [Hand.wr, Hand.dest, ht, hl.dstOf, this]

theorem Hand.dstOf_put (m : Hand) (d : Dst) (v : Word) (hv : d.fits v) (depth : Nat) (ln : Lane) (o : Opnd) :
    (m.put d v).dstOf depth ln o = m.dstOf depth ln o := by
  cases o <;> cases ln <;> try rfl
  rename_i n t
  have (u : Nat) : ((m.put d v).thr u).wb = (m.thr u).wb ∧ ((m.put d v).thr u).lo = (m.thr u).lo := by
    cases d <;> simp only [put, thr_updThr] <;> first | exact absurd hv id | exact ⟨rfl, rfl⟩ | exact ⟨trivial, trivial⟩ | (split <;> exact ⟨rfl, rfl⟩)
  simp [dstOf, Thread.resident, this t]

theorem Hand.Like.wr64 {hd m : Hand} {ln : Lane} (hl : hd.Like m ln) (depth : Nat) {ty : Ty} (ht : ty.is64 = true)
    (o : Opnd) (v : Dword) : m.wr64 depth ln o v = m.puts (hd.dest depth ln ty o v) := by
  by_cases e : o = .gz
  · subst e; simp [Hand.wr64, Hand.dest, ht]
  · have : m.wr64 depth ln o v = (m.wr depth ln o (lo32 v)).wr depth ln (oddOf o) (hi32 v) := by
      cases o <;> first | exact absurd rfl e | rfl
    simp [this, Hand.wr, Hand.dest, ht, e, Hand.dstOf_put _ _ _ (fits_of_reg _ _ _ _ _), hl.dstOf]

theorem Hand.wrP_eq (hd m : Hand) (ln : Lane) (o : POpnd) (b : Bool) : m.wrP ln o b = m.puts (hd.pdest ln o b) := rfl

/-! ### The frames of register instructions -/

theorem Hand.settle_team (old hd : Hand) : (old.settle hd).team = hd.team := by
  unfold settle; dsimp only; split <;> rfl
theorem Hand.settle_hix (old hd : Hand) : (old.settle hd).hix = hd.hix := by
  unfold settle; dsimp only; split <;> rfl
theorem Hand.goesOn_team (m : Hand) (i : Iss) (h : Hdr) (w : Bool) : (m.goesOn i h w).team = m.team := by
  rfl
theorem Hand.goesOn_hix (m : Hand) (i : Iss) (h : Hdr) (w : Bool) : (m.goesOn i h w).hix = m.hix := by
  rfl

variable {s : State} {i : Iss} {h : Hdr}

theorem State.Issues.issuing (hi : s.Issues i) (k : Iss → Out) : s.issuing k = k i := by
  unfold State.issuing
  simp [hi.cur, hi.team, hi.hand]

theorem State.Passes.governed {credits : Nat} {args : List Arg} {more : Bool → Bool}
    (hp : s.Passes i h credits args more) : s.governed h credits i.tm.core = false := by
  unfold State.governed
  rcases hp.ungoverned with e | e | e
  · simp [e]
  · simp [e]
  · have : ¬ (s.core i.tm.core).actStart ≤ 0 := by omega
    simp [this]

@[simp] theorem State.charge_hands (credits c : Nat) : (s.charge h credits c).hands = s.hands := by
  unfold State.charge; split <;> rfl
@[simp] theorem State.charge_hand? (credits c a b : Nat) : (s.charge h credits c).hand? a b = s.hand? a b := by
  unfold State.charge; split <;> rfl
@[simp] theorem State.charge_nextId (credits c : Nat) : (s.charge h credits c).nextId = s.nextId := by
  unfold State.charge; split <;> rfl
theorem State.charge_core (credits c c' : Nat) : (s.charge h credits c).core c' =
    if c' = c then { s.core c' with activity := (s.core c').activity - costOf h credits } else s.core c' := by
  unfold State.charge costOf
  by_cases hu : h.u
  · simp [hu]
  · by_cases hc : credits = 0
    · subst hc
      simp
    · simp only [Bool.not_eq_true] at hu
      simp only [hu, beq_eq_false_iff_ne.mpr hc, Bool.or_false, Bool.false_eq_true, if_false, core_updCore]
      split
      · subst_vars; rfl
      · rfl
@[simp] theorem State.device_charge (credits c : Nat) : (s.charge h credits c).device = s.device := by
  unfold State.charge; split <;> rfl
@[simp] theorem State.device_updHand (a b : Nat) (f : Hand → Hand) : (s.updHand a b f).device = s.device := rfl
@[simp] theorem State.device_updCore (c : Nat) (f : Core → Core) : (s.updCore c f).device = s.device := rfl
@[simp] theorem State.device_advance (waiting : Bool) : (s.advance i h waiting).device = s.device := rfl

theorem State.hand?_keys {t h' : Nat} {x : Hand} (e : s.hand? t h' = some x) : x.team = t ∧ x.hix = h' := by
  have := List.find?_some e
  simpa using this

/-- The state in which an instruction runs on its lanes: charged, and with `nr` set where it must be. -/
def State.entered (s : State) (i : Iss) (h : Hdr) (credits : Nat) (args : List Arg) : State :=
  if i.nr h args then (s.charge h credits i.tm.core).updHand i.c.team i.c.hix fun hd => hd.setHs hsNr
  else s.charge h credits i.tm.core

/-- The issuing hand there. -/
def Iss.entered (i : Iss) (h : Hdr) (args : List Arg) : Hand := if i.nr h args then i.hd.setHs hsNr else i.hd

theorem State.entered_hand? (hi : s.Issues i) (credits : Nat) (args : List Arg) (a b : Nat) :
    (s.entered i h credits args).hand? a b = if a = i.c.team ∧ b = i.c.hix then some (i.entered h args) else s.hand? a b := by
  unfold State.entered Iss.entered
  split
  · rw [State.hand?_updHand _ _ _ _ _ (fun hd => hd.setHs hsNr) fun _ => ⟨rfl, rfl⟩]
    simp [hi.hand]
  · rw [State.charge_hand?]
    split
    · rename_i e; rw [e.1, e.2, hi.hand]
    · rfl

@[simp] theorem State.entered_nextId (credits : Nat) (args : List Arg) : (s.entered i h credits args).nextId = s.nextId := by
  unfold State.entered; split <;> simp
theorem State.entered_core (credits : Nat) (args : List Arg) (c : Nat) : (s.entered i h credits args).core c =
    if c = i.tm.core then { s.core c with activity := (s.core c).activity - costOf h credits } else s.core c := by
  rw [← State.charge_core]
  unfold State.entered; split <;> rfl
@[simp] theorem State.entered_device (credits : Nat) (args : List Arg) : (s.entered i h credits args).device = s.device := by
  unfold State.entered; split <;> simp

/-- An instruction that passes its checks runs on its lanes, with `nr` set where it names a register that is not
resident. -/
theorem State.onLanes_entered {credits : Nat} {args : List Arg} {more : Bool → Bool} {body : Iss → List Lane → State → Out}
    (hi : s.Issues i) (hp : s.Passes i h credits args more) :
    s.onLanes h credits args more body = body i (i.hd.lanes h) (s.entered i h credits args) := by
  unfold State.onLanes
  rw [hi.issuing]
  simp only [hp.governed, hp.args, hp.more, Bool.and_self, Bool.not_true, Bool.false_eq_true, if_false]
  rfl

theorem State.hand?_congr {u v : State} (e : u.hands = v.hands) (a b : Nat) : u.hand? a b = v.hand? a b := by
  unfold State.hand?; rw [e]
theorem State.core_congr {u v : State} (e : u.cores = v.cores) (c : Nat) : u.core c = v.core c := by
  unfold State.core; rw [e]

/-- An update of the issuing hand, `n` numbers drawn, and the move on behind the word, is all that happened. -/
theorem State.did_of {credits n : Nat} {args : List Arg} {f : Hand → Hand} {t u : State} {waiting : Bool}
    (hi : s.Issues i) (hf : ∀ x, (f x).team = x.team ∧ (f x).hix = x.hix)
    (hu : u = (s.entered i h credits args).updHand i.c.team i.c.hix f)
    (ht : t = ({ u with nextId := s.nextId + n }).advance i h waiting) :
    s.Did t i (costOf h credits) n ((f (i.entered h args)).goesOn i h waiting) := by
  have hand (a b : Nat) : t.hand? a b = if a = i.c.team ∧ b = i.c.hix then
      some ((f (i.entered h args)).goesOn i h waiting) else s.hand? a b := by
    have e : t.hand? a b = (u.updHand i.c.team i.c.hix fun hd => hd.goesOn i h waiting).hand? a b :=
      State.hand?_congr (by rw [ht]; rfl) a b
    rw [e, State.hand?_updHand _ _ _ _ _ _ fun x => ⟨Hand.goesOn_team x i h waiting, Hand.goesOn_hix x i h waiting⟩,
      hu, State.hand?_updHand _ _ _ _ _ _ hf, State.hand?_updHand _ _ _ _ _ _ hf, State.entered_hand? hi, State.entered_hand? hi]
    by_cases e : a = i.c.team ∧ b = i.c.hix <;> simp [e]
  have core (c : Nat) : t.core c = (s.entered i h credits args).core c :=
    by rw [State.core_congr (u := t) (v := u) (by rw [ht]; rfl) c, hu, State.core_updHand]
  refine ⟨by simp [hand], fun a b e => by simp [hand, e], fun c => by rw [core, State.entered_core], by rw [ht]; rfl,
    by rw [ht]; rfl, ?_⟩
  have e : t.device = u.device := by rw [ht]; rfl
  rw [e, hu, State.device_updHand, State.entered_device]

/-- The same where no number is drawn. -/
theorem State.did_of' {credits : Nat} {args : List Arg} {f : Hand → Hand} {u : State} {waiting : Bool}
    (hi : s.Issues i) (hf : ∀ x, (f x).team = x.team ∧ (f x).hix = x.hix)
    (hu : u = (s.entered i h credits args).updHand i.c.team i.c.hix f) :
    s.Did (u.advance i h waiting) i (costOf h credits) 0 ((f (i.entered h args)).goesOn i h waiting) := by
  refine State.did_of (n := 0) (u := u) hi hf hu (congrArg (State.advance · i h waiting) ?_)
  have : u.nextId = s.nextId := by rw [hu]; simp
  rw [← this]; rfl

/-- A short-class instruction whose lanes make the writes `w` makes exactly those. -/
theorem State.shortOpC_writes {credits : Nat} {args : List Arg} {more : Bool → Bool} {f : Hand → Nat → Lane → Hand}
    {w : Lane → List (Dst × Word)} (hi : s.Issues i) (hp : s.Passes i h credits args more)
    (hf : ∀ ln ∈ i.hd.lanes h, ∀ m, i.hd.Like m ln → f m i.tm.depth ln = m.puts (w ln))
    (hk : ∀ m ln, (f m i.tm.depth ln).team = m.team ∧ (f m i.tm.depth ln).hix = m.hix)
    (hw : ∀ ln ∈ i.hd.lanes h, ∀ x ∈ w ln, x.1.mine ln = true ∧ x.1.fits x.2) :
    s.Writes (s.shortOpC h credits args more f) i h credits args w := by
  unfold State.shortOpC
  rw [State.onLanes_entered hi hp]
  have hl := i.hd.lanes_nodup h
  have fold : ((i.hd.lanes h).foldl (fun hd ln => f hd i.tm.depth ln) (i.entered h args))
      = (i.entered h args).puts ((i.hd.lanes h).flatMap w) := by
    refine foldl_lanes i.hd _ w _ hl.1 hl.2 hf (fun ln hl x hx => (hw ln hl x hx).1) _ fun ln _ => ?_
    unfold Iss.entered
    split <;> exact ⟨fun _ _ => rfl, rfl, rfl, rfl, rfl⟩
  have keys (ls : List Lane) (x : Hand) : (ls.foldl (fun hd ln => f hd i.tm.depth ln) x).team = x.team
      ∧ (ls.foldl (fun hd ln => f hd i.tm.depth ln) x).hix = x.hix := by
    induction ls generalizing x with
    | nil => exact ⟨rfl, rfl⟩
    | cons a r ih => exact ⟨(ih _).1.trans (hk x a).1, (ih _).2.trans (hk x a).2⟩
  have wrote (l) (hv) : i.hd.Wrote ((i.entered h args).puts l) (i.nr h args) l := Hand.wrote_puts i.hd (i.nr h args) l hv
  refine ⟨_, _, rfl, wrote _ ?_, ?_⟩
  · intro x hx
    obtain ⟨ln, hln, hx⟩ := List.mem_flatMap.mp hx
    exact (hw ln hln x hx).2
  · rw [← fold]
    exact State.did_of' (waiting := false) hi (keys (i.hd.lanes h)) rfl

/-- The same for one that occupies a pipe for 4 cycles. -/
theorem State.shortOp_writes {args : List Arg} {more : Bool → Bool} {f : Hand → Nat → Lane → Hand}
    {w : Lane → List (Dst × Word)} (hi : s.Issues i) (hp : s.Passes i h 2 args more)
    (hf : ∀ ln ∈ i.hd.lanes h, ∀ m, i.hd.Like m ln → f m i.tm.depth ln = m.puts (w ln))
    (hk : ∀ m ln, (f m i.tm.depth ln).team = m.team ∧ (f m i.tm.depth ln).hix = m.hix)
    (hw : ∀ ln ∈ i.hd.lanes h, ∀ x ∈ w ln, x.1.mine ln = true ∧ x.1.fits x.2) :
    s.Writes (s.shortOp h args more f) i h 2 args w := State.shortOpC_writes hi hp hf hk hw

/-- Append results to a hand's pending ones. -/
def Hand.pends (hd : Hand) (ps : List Pend) : Hand := { hd with pend := hd.pend ++ ps }

theorem State.post_eq (u : State) (t h' : Nat) (l : List (Dst × Option Word)) : u.post t h' l =
    { u.updHand t h' (·.pends (pendings u.nextId l)) with nextId := u.nextId + (pendings u.nextId l).length } := by
  have e : (l.filter fun x => x.1 != .drop).length = (pendings u.nextId l).length := by simp [pendings]
  unfold State.post
  dsimp only
  rw [e]
  rfl

/-- Posting results and moving on posts those. -/
theorem State.posts_of {credits : Nat} {args : List Arg} {w : Lane → List (Dst × Option Word)} (hi : s.Issues i) :
    s.Posts (.next (((s.entered i h credits args).post i.c.team i.c.hix ((i.hd.lanes h).flatMap w)).advance i h))
      i h credits args w := by
  unfold State.Posts
  generalize (i.hd.lanes h).flatMap w = l
  have hhd : (i.entered h args).pends (pendings s.nextId l)
      = { i.hd with pend := i.hd.pend ++ pendings s.nextId l, hs := if i.nr h args then i.hd.hs ||| hsNr else i.hd.hs } := by
    unfold Iss.entered; split <;> rfl
  have := State.did_of (n := (pendings s.nextId l).length) (waiting := false) (credits := credits) (args := args) (h := h)
    (f := (·.pends (pendings s.nextId l))) hi (fun _ => ⟨rfl, rfl⟩) rfl rfl
  rw [hhd] at this
  refine ⟨_, rfl, ?_⟩
  rw [State.post_eq, State.entered_nextId]
  exact this

/-- A long-class instruction posts the results `w` of its lanes. -/
theorem State.longOp_posts {credits : Nat} {args : List Arg} {more : Bool → Bool}
    {f : Hand → Nat → Lane → List (Dst × Option Word)} {w : Lane → List (Dst × Option Word)}
    (hi : s.Issues i) (hp : s.Passes i h credits args more) (hw : ∀ ln, f i.hd i.tm.depth ln = w ln) :
    s.Posts (s.longOp h credits args more f) i h credits args w := by
  unfold State.longOp
  rw [State.onLanes_entered hi hp]
  have : (fun ln => f i.hd i.tm.depth ln) = w := funext hw
  rw [this]
  exact State.posts_of hi

end Sys2Proof.Machine
end

