-- ==== Sys2Proof/Laws/Integer.lean ====
section
/-! SUPPORT. What the shared operations of the integer, move and affine instructions do. -/

namespace Sys2Proof.Machine

variable {s : State} {i : Iss} {h : Hdr}

theorem Hand.wr_keys (m : Hand) (depth : Nat) (ln : Lane) (o : Opnd) (v : Word) :
    (m.wr depth ln o v).team = m.team ∧ (m.wr depth ln o v).hix = m.hix := by simp [wr]
theorem Hand.wr64_keys (m : Hand) (depth : Nat) (ln : Lane) (o : Opnd) (v : Dword) :
    (m.wr64 depth ln o v).team = m.team ∧ (m.wr64 depth ln o v).hix = m.hix := by
  cases o <;> simp [wr64, wr]
theorem Hand.wrP_keys (m : Hand) (ln : Lane) (o : POpnd) (b : Bool) :
    (m.wrP ln o b).team = m.team ∧ (m.wrP ln o b).hix = m.hix := by simp [wrP]

theorem dstOk_of_rdst {u p : Bool} {ty : Ty} {o : Opnd} (h : (rdst ty).ok u p (.o o) = true) : dstOk u p o = true := by
  unfold rdst at h; split at h <;> simp_all [Role.ok]

theorem Ty.is64_i32 : Ty.is64 .i32 = false := rfl

/-- D ← f(A, B): the write of `f` of the sources as they were. -/
theorem intBin_writes {ty : Ty} {d a : Opnd} {b : Src} {f : Bin} (hi : s.Issues i)
    (hp : s.Passes i h 2 (args2 ty d a b)) :
    s.Writes (intBin h ty d a b f s) i h 2 (args2 ty d a b)
      fun ln => i.hd.dest i.tm.depth ln ty d (i.hd.of2 ln ty f (.o a) b) := by
  have hd : dstOk h.u i.hd.privT d = true := by
    have := hp.args; simp only [argsOk, args2, List.all_cons, Bool.and_eq_true] at this
    exact dstOk_of_rdst this.1
  refine State.shortOp_writes hi hp (fun ln _ m hl => ?_) (fun m ln => ?_) (fun ln hln => i.hd.dest_ok _ h hln hd _ _)
  · by_cases ht : ty.is64 = true
    · simp only [ht, if_true, hl.rd64, Hand.of2]; exact hl.wr64 _ ht _ _
    · simp only [ht, hl.rd, Hand.of2]; exact hl.wr _ (by simpa using ht) _ _
  · split
    · exact Hand.wr64_keys ..
    · exact Hand.wr_keys ..

/-- D ← f(A): the write of `f` of the source as it was. -/
theorem intUn_writes {ty : Ty} {d a : Opnd} {f : Un} (hi : s.Issues i) (hp : s.Passes i h 2 (args1 ty d a)) :
    s.Writes (intUn h ty d a f s) i h 2 (args1 ty d a)
      fun ln => i.hd.dest i.tm.depth ln ty d (i.hd.of1 ln ty f (.o a)) := by
  have hd : dstOk h.u i.hd.privT d = true := by
    have := hp.args; simp only [argsOk, args1, List.all_cons, Bool.and_eq_true] at this
    exact dstOk_of_rdst this.1
  refine State.shortOp_writes hi hp (fun ln _ m hl => ?_) (fun m ln => ?_) (fun ln hln => i.hd.dest_ok _ h hln hd _ _)
  · by_cases ht : ty.is64 = true
    · simp only [ht, if_true, hl.rd64, Hand.of1]; exact hl.wr64 _ ht _ _
    · simp only [ht, hl.rd, Hand.of1]; exact hl.wr _ (by simpa using ht) _ _
  · split
    · exact Hand.wr64_keys ..
    · exact Hand.wr_keys ..

/-- The results of a destination, as pending ones. -/
theorem Hand.halves_dest (hd : Hand) (depth : Nat) (ln : Lane) {ty : Ty} (ht : ty.is64 = true) (o : Opnd) (v : Dword) :
    hd.halves depth ln o v = (hd.dest depth ln ty o v).map fun x => (x.1, some x.2) := by
  by_cases e : o = .gz
  · subst e; simp [halves, dest, ht]
  · simp only [dest, ht, e, if_true, if_false, List.map_cons, List.map_nil]
    cases o <;> first | rfl | exact absurd rfl e
theorem Hand.half_dest (hd : Hand) (depth : Nat) (ln : Lane) {ty : Ty} (ht : ty.is64 = false) (o : Opnd) (v : Dword) :
    hd.half depth ln o (lo32 v) = (hd.dest depth ln ty o v).map fun x => (x.1, some x.2) := by
  simp [half, dest, ht]

theorem lo32_setWidth (v : Word) : lo32 (v.setWidth 64) = v := by
  apply BitVec.eq_of_toNat_eq
  have : v.toNat < 4294967296 := v.isLt
  simp [lo32, this]

/-- A divide posts `f` of its sources. -/
theorem intDiv_posts {ty : Ty} {d a b : Opnd} {f : Bin} (hi : s.Issues i) (hp : s.Passes i h 2 (args2 ty d a (.o b))) :
    s.Posts (intDiv h ty d a b f s) i h 2 (args2 ty d a (.o b)) fun ln =>
      (i.hd.dest i.tm.depth ln ty d (i.hd.of2 ln ty f (.o a) (.o b))).map fun x => (x.1, some x.2) := by
  refine State.longOp_posts hi hp fun ln => ?_
  by_cases ht : ty.is64 = true
  · simp only [ht, if_true, Hand.of2]; exact Hand.halves_dest _ _ _ ht _ _
  · have ht : ty.is64 = false := by simpa using ht
    simp only [ht, Bool.false_eq_true, if_false, Hand.of2, ← Hand.half_dest _ _ _ ht, lo32_setWidth]

/-- A chained add or subtract: D takes the result, C the carry or borrow. -/
theorem intChain_writes {ty : Ty} {d a b : Opnd} {c : POpnd}
    {f : (w : Nat) → BitVec w → BitVec w → Bool → BitVec w × Bool} (hi : s.Issues i)
    (hp : s.Passes i h 2 (args2 ty d a (.o b)) fun u => pdstOk u c) :
    s.Writes (intChain h ty d a b c f s) i h 2 (args2 ty d a (.o b)) fun ln =>
      i.hd.dest i.tm.depth ln ty d (i.hd.of2 ln ty (fun w x y => (f w x y (i.hd.rdP ln c)).1) (.o a) (.o b)) ++
        i.hd.pdest ln c (if ty.is64 then (f 64 (i.hd.rdO64 ln a) (i.hd.rdO64 ln b) (i.hd.rdP ln c)).2
          else (f 32 (i.hd.rdO ln a) (i.hd.rdO ln b) (i.hd.rdP ln c)).2) := by
  have hd : dstOk h.u i.hd.privT d = true := by
    have := hp.args; simp only [argsOk, args2, List.all_cons, Bool.and_eq_true] at this
    exact dstOk_of_rdst this.1
  refine State.shortOp_writes hi hp (fun ln _ m hl => ?_) (fun m ln => ?_) (fun ln hln x hx => ?_)
  · by_cases ht : ty.is64 = true
    · simp only [ht, if_true, hl.rd64, hl.rdP, Hand.of2, hl.wr64 _ ht, Hand.puts_append, Hand.wrP_eq i.hd]
      rfl
    · have ht : ty.is64 = false := by simpa using ht
      simp only [ht, Bool.false_eq_true, if_false, hl.rd, hl.rdP, Hand.of2, hl.wr _ ht, Hand.puts_append, Hand.wrP_eq i.hd]
      rfl
  · split
    · exact ⟨(Hand.wrP_keys ..).1.trans (Hand.wr64_keys ..).1, (Hand.wrP_keys ..).2.trans (Hand.wr64_keys ..).2⟩
    · exact ⟨(Hand.wrP_keys ..).1.trans (Hand.wr_keys ..).1, (Hand.wrP_keys ..).2.trans (Hand.wr_keys ..).2⟩
  · rcases List.mem_append.mp hx with hx | hx
    · exact i.hd.dest_ok _ h hln hd _ _ x hx
    · exact i.hd.pdest_ok h hln hp.more _ x hx

/-- An instruction that writes one predicate for each lane. -/
theorem State.shortOp_pred {args : List Arg} {more : Bool → Bool} {d : POpnd} {v : Hand → Lane → Bool} (hi : s.Issues i)
    (hp : s.Passes i h 2 args more) (hd : pdstOk h.u d = true) (hv : ∀ m ln, i.hd.Like m ln → v m ln = v i.hd ln) :
    s.Writes (s.shortOp h args more fun hd _ ln => hd.wrP ln d (v hd ln)) i h 2 args fun ln =>
      i.hd.pdest ln d (v i.hd ln) := by
  refine State.shortOp_writes hi hp (fun ln _ m hl => ?_) (fun m ln => Hand.wrP_keys ..)
    (fun ln hln => i.hd.pdest_ok h hln hd _)
  rw [Hand.wrP_eq i.hd, hv m ln hl]

/-- An instruction that writes one 32-bit register for each lane. -/
theorem State.shortOp_word {args : List Arg} {more : Bool → Bool} {d : Opnd} {v : Hand → Lane → Word} (hi : s.Issues i)
    (hp : s.Passes i h 2 args more) (hd : dstOk h.u i.hd.privT d = true)
    (hv : ∀ m ln, i.hd.Like m ln → v m ln = v i.hd ln) :
    s.Writes (s.shortOp h args more fun hd dep ln => hd.wr dep ln d (v hd ln)) i h 2 args fun ln =>
      i.hd.dest i.tm.depth ln .i32 d ((v i.hd ln).setWidth 64) := by
  refine State.shortOp_writes hi hp (fun ln _ m hl => ?_) (fun m ln => Hand.wr_keys ..)
    (fun ln hln => i.hd.dest_ok _ h hln hd _ _)
  rw [hl.wr _ Ty.is64_i32, hv m ln hl]

/-- An instruction that writes one register or pair of type `ty` for each lane. -/
theorem State.shortOp_ty {args : List Arg} {more : Bool → Bool} {ty : Ty} {d : Opnd} {v : Hand → Lane → Word}
    {v64 : Hand → Lane → Dword} (hi : s.Issues i)
    (hp : s.Passes i h 2 args more) (hd : dstOk h.u i.hd.privT d = true)
    (hv : ∀ m ln, i.hd.Like m ln → v m ln = v i.hd ln) (hv64 : ∀ m ln, i.hd.Like m ln → v64 m ln = v64 i.hd ln) :
    s.Writes (s.shortOp h args more fun hd dep ln =>
        if ty.is64 then hd.wr64 dep ln d (v64 hd ln) else hd.wr dep ln d (v hd ln)) i h 2 args fun ln =>
      i.hd.dest i.tm.depth ln ty d (if ty.is64 then v64 i.hd ln else (v i.hd ln).setWidth 64) := by
  refine State.shortOp_writes hi hp (fun ln _ m hl => ?_) (fun m ln => ?_) (fun ln hln => i.hd.dest_ok _ h hln hd _ _)
  · by_cases ht : ty.is64 = true
    · simp only [ht, if_true, hv64 m ln hl]; exact hl.wr64 _ ht _ _
    · simp only [ht, hv m ln hl]; exact hl.wr _ (by simpa using ht) _ _
  · split
    · exact Hand.wr64_keys ..
    · exact Hand.wr_keys ..

theorem State.Passes.dst {credits : Nat} {args : List Arg} {more : Bool → Bool} {ty : Ty} {d : Opnd}
    (hp : s.Passes i h credits args more) (hm : (rdst ty, .o d) ∈ args) : dstOk h.u i.hd.privT d = true :=
  dstOk_of_rdst (List.all_eq_true.mp hp.args _ hm)

/-- An affine instruction runs `f` once for the hand, if it has a lane. -/
theorem affOp_next {args : List Arg} {f : Hand → Hand} (hi : s.Issues i) (hp : s.Passes i h 0 args)
    (hnr : i.nr h args = false) (hf : ∀ x, (f x).team = x.team ∧ (f x).hix = x.hix) :
    ∃ t, affOp h args f s = .next t ∧
      s.Did t i 0 0 ((if i.hd.lanes h = [] then i.hd else f i.hd).goesOn i h) := by
  unfold affOp
  rw [State.onLanes_entered hi hp]
  have he : i.entered h args = i.hd := by simp [Iss.entered, hnr]
  refine ⟨_, rfl, ?_⟩
  have key (g : Hand → Hand) (hg : ∀ x, (g x).team = x.team ∧ (g x).hix = x.hix) :
      s.Did (((s.entered i h 0 args).updHand i.c.team i.c.hix g).advance i h) i 0 0 ((g i.hd).goesOn i h) := by
    have := State.did_of' (credits := 0) (args := args) (waiting := false) (h := h) hi hg rfl
    rw [he] at this
    simpa [costOf] using this
  by_cases e : i.hd.lanes h = []
  · have := key id fun _ => ⟨rfl, rfl⟩
    rw [State.updHand_id] at this
    simpa [e] using this
  · have : (i.hd.lanes h).isEmpty = false := by simpa using e
    simp only [this, e, if_false, Bool.false_eq_true]
    exact key f hf

end Sys2Proof.Machine
end

