-- ==== Sys2Proof/Laws/Memory.lean ====
section
/-! SUPPORT. What the operations over memory do: the bytes that they write, the bytes that they leave, and that each
keeps the canonical form of memory. -/

namespace Sys2Proof.Machine.State

variable (s : State)

/-! ### What each operation writes -/

@[simp] theorem mem_flushInbox (d : Nat) : (s.flushInbox d).mem = s.mem := rfl
@[simp] theorem mem_flushAll : s.flushAll.mem = s.mem := rfl
@[simp] theorem mem_markStale (pa n : Nat) : (s.markStale pa n).mem = s.mem := rfl
@[simp] theorem mem_poke (pa : Nat) (l : List Byte) :
    (s.poke pa l).mem = s.mem.setRun Config.memFill pa l := rfl
@[simp] theorem mem_writeHome (d pa : Nat) (l : List Byte) :
    (s.writeHome d pa l).mem = s.mem.setRun Config.memFill pa l := rfl
@[simp] theorem mem_writePlain (d pa : Nat) (l : List Byte) :
    (s.writePlain d pa l).mem = s.mem.setRun Config.memFill pa l := by
  have key (b : Bool) : (if b = true then s.flushInbox d else s).mem = s.mem := by cases b <;> rfl
  exact congrArg (fun m => SMap.setRun Config.memFill m pa l) (key _)

/-- A byte after a write at its home: the new one inside the run, and the old one outside it. -/
theorem byteAt_of_mem {s t : State} {pa : Nat} {l : List Byte} (h : t.mem = s.mem.setRun Config.memFill pa l) (x : Nat) :
    t.byteAt x = if pa ≤ x ∧ x < pa + l.length then l.getD (x - pa) 0 else s.byteAt x := by
  unfold byteAt
  rw [h, SMap.get_setRun]
  by_cases hx : pa ≤ x ∧ x < pa + l.length
  · have h' : x - pa < l.length := by omega
    simp [hx, h']
  · simp [hx]

theorem byteAt_poke (pa : Nat) (l : List Byte) (x : Nat) :
    (s.poke pa l).byteAt x = if pa ≤ x ∧ x < pa + l.length then l.getD (x - pa) 0 else s.byteAt x :=
  byteAt_of_mem (s.mem_poke pa l) x
theorem byteAt_writeHome (d pa : Nat) (l : List Byte) (x : Nat) :
    (s.writeHome d pa l).byteAt x = if pa ≤ x ∧ x < pa + l.length then l.getD (x - pa) 0 else s.byteAt x :=
  byteAt_of_mem (s.mem_writeHome d pa l) x
theorem byteAt_writePlain (d pa : Nat) (l : List Byte) (x : Nat) :
    (s.writePlain d pa l).byteAt x = if pa ≤ x ∧ x < pa + l.length then l.getD (x - pa) 0 else s.byteAt x :=
  byteAt_of_mem (s.mem_writePlain d pa l) x

/-! ### The canonical form -/

theorem wf_poke {s : State} (pa : Nat) (l : List Byte) (w : Memory.wf s.mem = true) : Memory.wf (s.poke pa l).mem = true := by
  rw [mem_poke]; exact SMap.wf_setRun _ _ w
theorem wf_writeHome {s : State} (d pa : Nat) (l : List Byte) (w : Memory.wf s.mem = true) :
    Memory.wf (s.writeHome d pa l).mem = true := by
  rw [mem_writeHome]; exact SMap.wf_setRun _ _ w
theorem wf_writePlain {s : State} (d pa : Nat) (l : List Byte) (w : Memory.wf s.mem = true) :
    Memory.wf (s.writePlain d pa l).mem = true := by
  rw [mem_writePlain]; exact SMap.wf_setRun _ _ w

/-- Setting a list of cells one after another keeps the form. -/
theorem wf_sets (f : Nat × Byte → Nat) (l : List (Nat × Byte)) {m : SMap Byte} (w : Memory.wf m = true) :
    Memory.wf (l.foldl (fun m e => m.set (f e) e.2 Config.memFill) m) = true := by
  induction l generalizing m with
  | nil => exact w
  | cons e r ih => exact ih (SMap.wf_set _ _ w)

theorem wf_copyPage {s : State} (old new : Nat) (w : Memory.wf s.mem = true) : Memory.wf (s.copyPage old new).mem = true :=
  wf_sets _ _ (SMap.wf_drop _ _ w)

/-- Memory at reset lists nothing, which is the canonical form. -/
theorem wf_reset : Memory.wf State.reset.mem = true := rfl

end Sys2Proof.Machine.State
end

