-- ==== Sys2Proof/Laws/PerInstr.lean ====
section
/-! SUPPORT. The family of statements about every instruction as syntax: the encoder gives words to exactly the
instructions of a hand, and never those of a block header or of the opcode that is always illegal (R16, R205). -/

namespace Sys2Proof.Laws.Encoding

/-- Words for the instructions of a hand, none for the steps of the device, and an opcode above 0x01. -/
def wordOk (i : Instr) : Bool :=
  match encodeRaw i with
  | none => !i.isWord
  | some r => i.isWord && decide (1 < r.op.toNat)

/-- What the family says of an instruction. -/
def Statement (i : Instr) : Prop := wordOk i = true

theorem go (h : Hdr) (off : BitVec 22) : Statement (.go h off) := rfl
theorem got (h : Hdr) (a b : Opnd) : Statement (.got h a b) := rfl
theorem call (h : Hdr) (off : BitVec 22) (sl : Slide) : Statement (.call h off sl) := rfl
theorem callt (h : Hdr) (off : BitVec 22) (sl : Slide) : Statement (.callt h off sl) := rfl
theorem ret (h : Hdr) : Statement (.ret h) := rfl
theorem exit (h : Hdr) : Statement (.exit h) := rfl
theorem park (h : Hdr) (off : BitVec 22) : Statement (.park h off) := rfl
theorem yield (h : Hdr) : Statement (.yield h) := rfl
theorem nop (h : Hdr) : Statement (.nop h) := rfl
theorem trap (h : Hdr) (a : Opnd) : Statement (.trap h a) := rfl
theorem sysc (h : Hdr) (a : Opnd) : Statement (.sysc h a) := rfl
theorem tret (h : Hdr) : Statement (.tret h) := rfl
theorem iadd (h : Hdr) (t : Ty) (d a b : Opnd) : Statement (.iadd h t d a b) := rfl
theorem iaddImm (h : Hdr) (t : Ty) (d a : Opnd) (imm : Word) : Statement (.iaddImm h t d a imm) := rfl
theorem isub (h : Hdr) (t : Ty) (d a b : Opnd) : Statement (.isub h t d a b) := rfl
theorem isubImm (h : Hdr) (t : Ty) (d a : Opnd) (imm : Word) : Statement (.isubImm h t d a imm) := rfl
theorem iaddc (h : Hdr) (t : Ty) (d a b : Opnd) (c : POpnd) : Statement (.iaddc h t d a b c) := rfl
theorem isubb (h : Hdr) (t : Ty) (d a b : Opnd) (c : POpnd) : Statement (.isubb h t d a b c) := rfl
theorem imul (h : Hdr) (t : Ty) (d a b : Opnd) : Statement (.imul h t d a b) := rfl
theorem imulImm (h : Hdr) (t : Ty) (d a : Opnd) (imm : Word) : Statement (.imulImm h t d a imm) := rfl
theorem imulh (h : Hdr) (t : Ty) (d a b : Opnd) : Statement (.imulh h t d a b) := rfl
theorem imad (h : Hdr) (t : Ty) (d a b c : Opnd) : Statement (.imad h t d a b c) := rfl
theorem idiv (h : Hdr) (t : Ty) (d a b : Opnd) : Statement (.idiv h t d a b) := rfl
theorem irem (h : Hdr) (t : Ty) (d a b : Opnd) : Statement (.irem h t d a b) := rfl
theorem imin (h : Hdr) (t : Ty) (d a b : Opnd) : Statement (.imin h t d a b) := rfl
theorem iminImm (h : Hdr) (t : Ty) (d a : Opnd) (imm : Word) : Statement (.iminImm h t d a imm) := rfl
theorem imax (h : Hdr) (t : Ty) (d a b : Opnd) : Statement (.imax h t d a b) := rfl
theorem imaxImm (h : Hdr) (t : Ty) (d a : Opnd) (imm : Word) : Statement (.imaxImm h t d a imm) := rfl
theorem iabs (h : Hdr) (t : Ty) (d a : Opnd) : Statement (.iabs h t d a) := rfl
theorem ineg (h : Hdr) (t : Ty) (d a : Opnd) : Statement (.ineg h t d a) := rfl
theorem isel (h : Hdr) (t : Ty) (d a b : Opnd) (c : POpnd) : Statement (.isel h t d a b c) := rfl
theorem icmp (h : Hdr) (t : Ty) (cond : Cond) (d : POpnd) (a b : Opnd) : Statement (.icmp h t cond d a b) := rfl
theorem icmpImm (h : Hdr) (t : Ty) (cond : Cond) (d : POpnd) (a : Opnd) (imm : Word) : Statement (.icmpImm h t cond d a imm) := rfl
theorem and (h : Hdr) (t : Ty) (d a b : Opnd) : Statement (.and h t d a b) := rfl
theorem andImm (h : Hdr) (t : Ty) (d a : Opnd) (imm : Word) : Statement (.andImm h t d a imm) := rfl
theorem or (h : Hdr) (t : Ty) (d a b : Opnd) : Statement (.or h t d a b) := rfl
theorem orImm (h : Hdr) (t : Ty) (d a : Opnd) (imm : Word) : Statement (.orImm h t d a imm) := rfl
theorem xor (h : Hdr) (t : Ty) (d a b : Opnd) : Statement (.xor h t d a b) := rfl
theorem xorImm (h : Hdr) (t : Ty) (d a : Opnd) (imm : Word) : Statement (.xorImm h t d a imm) := rfl
theorem andn (h : Hdr) (t : Ty) (d a b : Opnd) : Statement (.andn h t d a b) := rfl
theorem andnImm (h : Hdr) (t : Ty) (d a : Opnd) (imm : Word) : Statement (.andnImm h t d a imm) := rfl
theorem not (h : Hdr) (t : Ty) (d a : Opnd) : Statement (.not h t d a) := rfl
theorem shl (h : Hdr) (t : Ty) (d a b : Opnd) : Statement (.shl h t d a b) := rfl
theorem shr (h : Hdr) (t : Ty) (d a b : Opnd) : Statement (.shr h t d a b) := rfl
theorem sar (h : Hdr) (t : Ty) (d a b : Opnd) : Statement (.sar h t d a b) := rfl
theorem rol (h : Hdr) (t : Ty) (d a b : Opnd) : Statement (.rol h t d a b) := rfl
theorem bfx (h : Hdr) (t : Ty) (d a b c : Opnd) : Statement (.bfx h t d a b c) := rfl
theorem bfi (h : Hdr) (t : Ty) (d a b c : Opnd) : Statement (.bfi h t d a b c) := rfl
theorem popc (h : Hdr) (t : Ty) (d a : Opnd) : Statement (.popc h t d a) := rfl
theorem clz (h : Hdr) (t : Ty) (d a : Opnd) : Statement (.clz h t d a) := rfl
theorem ctz (h : Hdr) (t : Ty) (d a : Opnd) : Statement (.ctz h t d a) := rfl
theorem brev (h : Hdr) (t : Ty) (d a : Opnd) : Statement (.brev h t d a) := rfl
theorem mov (h : Hdr) (t : Ty) (d a : Opnd) : Statement (.mov h t d a) := rfl
theorem movi (h : Hdr) (t : Ty) (d : Opnd) (imm : Word) : Statement (.movi h t d imm) := rfl
theorem movw (h : Hdr) (t : Ty) (d : Opnd) (imm : Dword) : Statement (.movw h t d imm) := rfl
theorem pset (h : Hdr) (op : PsetOp) (d a b : POpnd) : Statement (.pset h op d a b) := rfl
theorem amov (h : Hdr) (d a b : Opnd) : Statement (.amov h d a b) := rfl
theorem amovImm (h : Hdr) (d : Opnd) (base stride : Word) : Statement (.amovImm h d base stride) := rfl
theorem aadd (h : Hdr) (d a b : Opnd) : Statement (.aadd h d a b) := rfl
theorem aaddImm (h : Hdr) (d a : Opnd) (base stride : Word) : Statement (.aaddImm h d a base stride) := rfl
theorem amul (h : Hdr) (d a b : Opnd) : Statement (.amul h d a b) := rfl
theorem amulImm (h : Hdr) (d a : Opnd) (imm : Word) : Statement (.amulImm h d a imm) := rfl
theorem aget (h : Hdr) (d a : Opnd) : Statement (.aget h d a) := rfl
theorem alea (h : Hdr) (d a b c : Opnd) : Statement (.alea h d a b c) := rfl
theorem rdsr (h : Hdr) (d : Opnd) (sr : BitVec 8) : Statement (.rdsr h d sr) := rfl
theorem wrsr (h : Hdr) (a : Opnd) (sr : BitVec 8) : Statement (.wrsr h a sr) := rfl
theorem wrsrWlo (h : Hdr) (a : Opnd) : Statement (.wrsrWlo h a) := rfl
theorem wrsrTmr (h : Hdr) (a : Opnd) : Statement (.wrsrTmr h a) := rfl
theorem wrsrHs (h : Hdr) (a : Opnd) : Statement (.wrsrHs h a) := rfl
theorem fadd (h : Hdr) (d a b : Opnd) : Statement (.fadd h d a b) := rfl
theorem faddImm (h : Hdr) (d a : Opnd) (imm : Word) : Statement (.faddImm h d a imm) := rfl
theorem fsub (h : Hdr) (d a b : Opnd) : Statement (.fsub h d a b) := rfl
theorem fmul (h : Hdr) (d a b : Opnd) : Statement (.fmul h d a b) := rfl
theorem fmulImm (h : Hdr) (d a : Opnd) (imm : Word) : Statement (.fmulImm h d a imm) := rfl
theorem ffma (h : Hdr) (d a b c : Opnd) : Statement (.ffma h d a b c) := rfl
theorem ffmaImm (h : Hdr) (d a c : Opnd) (imm : Word) : Statement (.ffmaImm h d a c imm) := rfl
theorem fmin (h : Hdr) (d a b : Opnd) : Statement (.fmin h d a b) := rfl
theorem fminImm (h : Hdr) (d a : Opnd) (imm : Word) : Statement (.fminImm h d a imm) := rfl
theorem fmax (h : Hdr) (d a b : Opnd) : Statement (.fmax h d a b) := rfl
theorem fmaxImm (h : Hdr) (d a : Opnd) (imm : Word) : Statement (.fmaxImm h d a imm) := rfl
theorem fcmp (h : Hdr) (cond : Cond) (d : POpnd) (a b : Opnd) : Statement (.fcmp h cond d a b) := rfl
theorem fcmpImm (h : Hdr) (cond : Cond) (d : POpnd) (a : Opnd) (imm : Word) : Statement (.fcmpImm h cond d a imm) := rfl
theorem fclass (h : Hdr) (d a : Opnd) : Statement (.fclass h d a) := rfl
theorem frnd (h : Hdr) (d a b : Opnd) : Statement (.frnd h d a b) := rfl
theorem fscale (h : Hdr) (d a b : Opnd) : Statement (.fscale h d a b) := rfl
theorem frcp (h : Hdr) (d a : Opnd) : Statement (.frcp h d a) := rfl
theorem frsq (h : Hdr) (d a : Opnd) : Statement (.frsq h d a) := rfl
theorem fsqrt (h : Hdr) (d a : Opnd) : Statement (.fsqrt h d a) := rfl
theorem fexp2 (h : Hdr) (d a : Opnd) : Statement (.fexp2 h d a) := rfl
theorem flog2 (h : Hdr) (d a : Opnd) : Statement (.flog2 h d a) := rfl
theorem fsin (h : Hdr) (d a : Opnd) : Statement (.fsin h d a) := rfl
theorem fcos (h : Hdr) (d a : Opnd) : Statement (.fcos h d a) := rfl
theorem hadd2 (h : Hdr) (t : Ty) (d a b : Opnd) : Statement (.hadd2 h t d a b) := rfl
theorem hmul2 (h : Hdr) (t : Ty) (d a b : Opnd) : Statement (.hmul2 h t d a b) := rfl
theorem hfma2 (h : Hdr) (t : Ty) (d a b c : Opnd) : Statement (.hfma2 h t d a b c) := rfl
theorem cvt (h : Hdr) (dst src : Ty) (rnd : Rnd) (d a : Opnd) : Statement (.cvt h dst src rnd d a) := rfl
theorem cvtp (h : Hdr) (dst src : Ty) (rnd : Rnd) (half : Bool) (d a b : Opnd) : Statement (.cvtp h dst src rnd half d a b) := rfl
theorem tspack (h : Hdr) (tw : Twin) (d a : Opnd) : Statement (.tspack h tw d a) := rfl
theorem tsunpack (h : Hdr) (tw : Twin) (d a b : Opnd) : Statement (.tsunpack h tw d a b) := rfl
theorem shfl (h : Hdr) (t : Ty) (mode : ShflMode) (seg : BitVec 3) (d a b : Opnd) : Statement (.shfl h t mode seg d a b) := rfl
theorem vote (h : Hdr) (mode : VoteMode) (d a : POpnd) : Statement (.vote h mode d a) := rfl
theorem ballot (h : Hdr) (turn : BitVec 2) (d : Opnd) (a : POpnd) : Statement (.ballot h turn d a) := rfl
theorem redux (h : Hdr) (t : Ty) (op : RedOp) (d a : Opnd) : Statement (.redux h t op d a) := rfl
theorem scan (h : Hdr) (t : Ty) (op : RedOp) (d a : Opnd) : Statement (.scan h t op d a) := rfl
theorem bcast (h : Hdr) (t : Ty) (d a b : Opnd) : Statement (.bcast h t d a b) := rfl
theorem matchI (h : Hdr) (t : Ty) (d a : Opnd) : Statement (.matchI h t d a) := rfl
theorem ld (h : Hdr) (t : Ty) (m : MemMod) (d a : Opnd) : Statement (.ld h t m d a) := rfl
theorem ldDisp (h : Hdr) (t : Ty) (m : MemMod) (d a : Opnd) (disp : Word) : Statement (.ldDisp h t m d a disp) := rfl
theorem st (h : Hdr) (t : Ty) (m : MemMod) (a b : Opnd) : Statement (.st h t m a b) := rfl
theorem stDisp (h : Hdr) (t : Ty) (m : MemMod) (a b : Opnd) (disp : Word) : Statement (.stDisp h t m a b disp) := rfl
theorem lds (h : Hdr) (t : Ty) (m : MemMod) (d a : Opnd) : Statement (.lds h t m d a) := rfl
theorem ldsDisp (h : Hdr) (t : Ty) (m : MemMod) (d a : Opnd) (disp : Word) : Statement (.ldsDisp h t m d a disp) := rfl
theorem sts (h : Hdr) (t : Ty) (m : MemMod) (a b : Opnd) : Statement (.sts h t m a b) := rfl
theorem stsDisp (h : Hdr) (t : Ty) (m : MemMod) (a b : Opnd) (disp : Word) : Statement (.stsDisp h t m a b disp) := rfl
theorem ldc (h : Hdr) (t : Ty) (bank : BitVec 4) (d a : Opnd) : Statement (.ldc h t bank d a) := rfl
theorem ldcDisp (h : Hdr) (t : Ty) (bank : BitVec 4) (d a : Opnd) (disp : Word) : Statement (.ldcDisp h t bank d a disp) := rfl
theorem pref (h : Hdr) (l2 : Bool) (a : Opnd) : Statement (.pref h l2 a) := rfl
theorem prefDisp (h : Hdr) (l2 : Bool) (a : Opnd) (disp : Word) : Statement (.prefDisp h l2 a disp) := rfl
theorem atom (h : Hdr) (t : Ty) (m : MemMod) (sp : Space) (op : RedOp) (d a b : Opnd) : Statement (.atom h t m sp op d a b) := rfl
theorem atomDisp (h : Hdr) (t : Ty) (m : MemMod) (sp : Space) (op : RedOp) (d a b : Opnd) (disp : Word) : Statement (.atomDisp h t m sp op d a b disp) := rfl
theorem atomc (h : Hdr) (t : Ty) (m : MemMod) (sp : Space) (d a b c : Opnd) : Statement (.atomc h t m sp d a b c) := rfl
theorem atomcDisp (h : Hdr) (t : Ty) (m : MemMod) (sp : Space) (d a b c : Opnd) (disp : Word) : Statement (.atomcDisp h t m sp d a b c disp) := rfl
theorem red (h : Hdr) (t : Ty) (m : MemMod) (sp : Space) (op : RedOp) (a b : Opnd) : Statement (.red h t m sp op a b) := rfl
theorem redDisp (h : Hdr) (t : Ty) (m : MemMod) (sp : Space) (op : RedOp) (a b : Opnd) (disp : Word) : Statement (.redDisp h t m sp op a b disp) := rfl
theorem fence (h : Hdr) (scope : Scope) : Statement (.fence h scope) := rfl
theorem bari (h : Hdr) (a b c : Opnd) : Statement (.bari h a b c) := rfl
theorem bara (h : Hdr) (a b c : Opnd) : Statement (.bara h a b c) := rfl
theorem barw (h : Hdr) (a b c : Opnd) (cont : BitVec 22) : Statement (.barw h a b c cont) := rfl
theorem bart (h : Hdr) (d : POpnd) (a b : Opnd) : Statement (.bart h d a b) := rfl
theorem cpy (h : Hdr) (dsp ssp : Space) (a b c : Opnd) (e : EngExt) : Statement (.cpy h dsp ssp a b c e) := rfl
theorem cpyx (h : Hdr) (ssp : Space) (a b c : Opnd) (e : EngExt) : Statement (.cpyx h ssp a b c e) := rfl
theorem qfence (h : Hdr) (a b : Opnd) : Statement (.qfence h a b) := rfl
theorem evpop (h : Hdr) (d : Opnd) : Statement (.evpop h d) := rfl
theorem evwait (h : Hdr) (d b : Opnd) (cont : BitVec 22) : Statement (.evwait h d b cont) := rfl
theorem card (h : Hdr) (a : Opnd) : Statement (.card h a) := rfl
theorem joinDecrement (h : Hdr) (a : Opnd) : Statement (.joinDecrement h a) := rfl
theorem joinArm (h : Hdr) (a b c : Opnd) : Statement (.joinArm h a b c) := rfl
theorem wlapp (h : Hdr) (d a b : Opnd) : Statement (.wlapp h d a b) := rfl
theorem wlpop (h : Hdr) (d a : Opnd) : Statement (.wlpop h d a) := rfl
theorem qscn (h : Hdr) (d a : Opnd) : Statement (.qscn h d a) := rfl
theorem amsg (h : Hdr) (a b : Opnd) : Statement (.amsg h a b) := rfl
theorem icinv (h : Hdr) (d a b : Opnd) : Statement (.icinv h d a b) := rfl
theorem tlbh (h : Hdr) (d a b : Opnd) : Statement (.tlbh h d a b) := rfl
theorem mlda (h : Hdr) (a b : Opnd) : Statement (.mlda h a b) := rfl
theorem mldl (h : Hdr) (a b : Opnd) : Statement (.mldl h a b) := rfl
theorem mlds (h : Hdr) (a b : Opnd) : Statement (.mlds h a b) := rfl
theorem mldpPin (h : Hdr) (a b : Opnd) : Statement (.mldpPin h a b) := rfl
theorem mldpUnpin (h : Hdr) (a b : Opnd) : Statement (.mldpUnpin h a b) := rfl
theorem mldv (h : Hdr) (a b : Opnd) : Statement (.mldv h a b) := rfl
theorem mldq (h : Hdr) (d a : Opnd) : Statement (.mldq h d a) := rfl
theorem mma (h : Hdr) (apitch : BitVec 8) (a b c : Opnd) (e : MatExt) : Statement (.mma h apitch a b c e) := rfl
theorem mmas (h : Hdr) (apitch : BitVec 8) (a b c : Opnd) (e : MatExt) : Statement (.mmas h apitch a b c e) := rfl
theorem spz (h : Hdr) (t : Ty) (d a : Opnd) : Statement (.spz h t d a) := rfl
theorem aalc (h : Hdr) (d a : Opnd) : Statement (.aalc h d a) := rfl
theorem afre (h : Hdr) (a b : Opnd) : Statement (.afre h a b) := rfl
theorem aclm (h : Hdr) (a b : Opnd) (cont : BitVec 22) : Statement (.aclm h a b cont) := rfl
theorem arel (h : Hdr) (a b : Opnd) : Statement (.arel h a b) := rfl
theorem ard (h : Hdr) (t : Ty) (d a b : Opnd) : Statement (.ard h t d a b) := rfl
theorem awr (h : Hdr) (t : Ty) (a b c : Opnd) : Statement (.awr h t a b c) := rfl
theorem azro (h : Hdr) (a b : Opnd) : Statement (.azro h a b) := rfl
theorem adrn (h : Hdr) (t : Ty) (zero : Bool) (pitch : BitVec 8) (a b c : Opnd) : Statement (.adrn h t zero pitch a b c) := rfl
theorem drpn (h : Hdr) (load : Bool) (dvq dkq : BitVec 3) (d a b c : Opnd) : Statement (.drpn h load dvq dkq d a b c) := rfl
theorem drun (h : Hdr) (a b : Opnd) : Statement (.drun h a b) := rfl
theorem drsv (h : Hdr) (a b : Opnd) : Statement (.drsv h a b) := rfl
theorem delta (h : Hdr) (tm1 : BitVec 4) (a b c : Opnd) : Statement (.delta h tm1 a b c) := rfl
theorem blockChoice (team hix : Nat) : Statement (.blockChoice team hix) := rfl
theorem timerPending (team hix : Nat) : Statement (.timerPending team hix) := rfl
theorem faultRecordAppend (part : Nat) : Statement (.faultRecordAppend part) := rfl
theorem longResultWrite (team hix index : Nat) : Statement (.longResultWrite team hix index) := rfl
theorem requestDrain (core index : Nat) : Statement (.requestDrain core index) := rfl
theorem scratchpadBankAccess (core bank : Nat) : Statement (.scratchpadBankAccess core bank) := rfl
theorem homeSliceRequest (team hix : Nat) (miss : Bool) : Statement (.homeSliceRequest team hix miss) := rfl
theorem hbmAccess (die chan : Nat) : Statement (.hbmAccess die chan) := rfl
theorem remoteWriteApply (die index : Nat) : Statement (.remoteWriteApply die index) := rfl
theorem barrierArrivalApply (index : Nat) : Statement (.barrierArrivalApply index) := rfl
theorem barrierHeldReport (index : Nat) : Statement (.barrierHeldReport index) := rfl
theorem compactionAppend (die index : Nat) : Statement (.compactionAppend die index) := rfl
theorem copyChunk (core queue : Nat) : Statement (.copyChunk core queue) := rfl
theorem copyComplete (core queue : Nat) : Statement (.copyComplete core queue) := rfl
theorem qfenceComplete (core queue : Nat) : Statement (.qfenceComplete core queue) := rfl
theorem meldEntryHead (core queue : Nat) : Statement (.meldEntryHead core queue) := rfl
theorem meldFillSlot (core queue : Nat) : Statement (.meldFillSlot core queue) := rfl
theorem meldEntryComplete (core queue : Nat) : Statement (.meldEntryComplete core queue) := rfl
theorem mldvAck (core queue : Nat) : Statement (.mldvAck core queue) := rfl
theorem mmaEntryHead (core queue : Nat) : Statement (.mmaEntryHead core queue) := rfl
theorem mmaKStep (core queue : Nat) : Statement (.mmaKStep core queue) := rfl
theorem mmaComplete (core queue : Nat) : Statement (.mmaComplete core queue) := rfl
theorem droneEntryHead (core : Nat) : Statement (.droneEntryHead core) := rfl
theorem droneBring (core : Nat) : Statement (.droneBring core) := rfl
theorem deltaToken (core : Nat) : Statement (.deltaToken core) := rfl
theorem deltaComplete (core : Nat) : Statement (.deltaComplete core) := rfl
theorem dealerPop (die : Nat) : Statement (.dealerPop die) := rfl
theorem cardAged (die index : Nat) : Statement (.cardAged die index) := rfl
theorem teamStart (team : Nat) : Statement (.teamStart team) := rfl
theorem teamDue (team : Nat) : Statement (.teamDue team) := rfl
theorem teamRetire (team : Nat) : Statement (.teamRetire team) := rfl
theorem amArrival (core : Nat) : Statement (.amArrival core) := rfl
theorem amTeamStart (core : Nat) : Statement (.amTeamStart core) := rfl
theorem quiescenceReport (part handle : Nat) : Statement (.quiescenceReport part handle) := rfl
theorem launchFail (part handle : Nat) : Statement (.launchFail part handle) := rfl
theorem impreciseStore (core index : Nat) (mask : BitVec 128) (va : Dword) (reason : Nat) : Statement (.impreciseStore core index mask va reason) := rfl
theorem saveRequest (team : Nat) : Statement (.saveRequest team) := rfl
theorem collectorAck (team cls : Nat) : Statement (.collectorAck team cls) := rfl
theorem teamSave (team : Nat) : Statement (.teamSave team) := rfl
theorem launchRestore (part handle : Nat) : Statement (.launchRestore part handle) := rfl
theorem teamRestore (team : Nat) : Statement (.teamRestore team) := rfl
theorem restoreReady (team : Nat) : Statement (.restoreReady team) := rfl
theorem congWindowEnd (die : Nat) (counts : List Nat) : Statement (.congWindowEnd die counts) := rfl
theorem budgetPeriodEnd : Statement (.budgetPeriodEnd) := rfl
theorem refillRateChange (rate : Nat) : Statement (.refillRateChange rate) := rfl
theorem thermalEvent (junction rail flow : Nat) (cool1s : Bool) : Statement (.thermalEvent junction rail flow cool1s) := rfl
theorem fatalError (reason : Nat) : Statement (.fatalError reason) := rfl
theorem uncorrectableError (w : ErrAt) : Statement (.uncorrectableError w) := rfl
theorem reset : Statement (.reset) := rfl
theorem imageVerify (stage part pa : Nat) : Statement (.imageVerify stage part pa) := rfl
theorem attestationReport (part : Nat) (nonce : BitVec 512) : Statement (.attestationReport part nonce) := rfl
theorem partitionAssign (part : Nat) (r : Assign) : Statement (.partitionAssign part r) := rfl
theorem controlPageSet (part which : Nat) (base : Dword) : Statement (.controlPageSet part which base) := rfl
theorem kittyLimitWrite (part kitty limit : Nat) : Statement (.kittyLimitWrite part kitty limit) := rfl
theorem trapVectorWrite (part cause : Nat) (value : Dword) : Statement (.trapVectorWrite part cause value) := rfl
theorem stageMapUpdate (page : Nat) (mask : BitVec 16) : Statement (.stageMapUpdate page mask) := rfl
theorem scconsWrite (part : Nat) (value : Word) : Statement (.scconsWrite part value) := rfl
theorem hsRead (part : Nat) (prod : Word) : Statement (.hsRead part prod) := rfl
theorem hsWrite (part : Nat) (prod : Word) : Statement (.hsWrite part prod) := rfl
theorem hsWake (part : Nat) (prod : Word) : Statement (.hsWake part prod) := rfl
theorem fsResume (part : Nat) (prod : Word) : Statement (.fsResume part prod) := rfl
theorem fsRetire (part : Nat) (prod : Word) : Statement (.fsRetire part prod) := rfl
theorem fsFail (part : Nat) (prod : Word) : Statement (.fsFail part prod) := rfl
theorem pageWalk (die pasid : Nat) (va : Dword) (kind : AccKind) (privT : Bool) : Statement (.pageWalk die pasid va kind privT) := rfl
theorem atsResponse (hpasid page : Nat) (out : Option Nat) : Statement (.atsResponse hpasid page out) := rfl
theorem atsInvalidation (hpasid page count : Nat) : Statement (.atsInvalidation hpasid page count) := rfl
theorem pasidTeardown (pasid : Nat) : Statement (.pasidTeardown pasid) := rfl
theorem pageMigration (pasid : Nat) (va : Dword) (new : Nat) : Statement (.pageMigration pasid va new) := rfl
theorem peerRequest (part : Nat) (write : Bool) (pa : Nat) (data : List Byte) : Statement (.peerRequest part write pa data) := rfl
theorem linkFailure (peer plane : Nat) : Statement (.linkFailure peer plane) := rfl
theorem ethFrameReceive (port : Nat) (f : RxFrame) : Statement (.ethFrameReceive port f) := rfl
theorem ethFrameTransmit (port part : Nat) (f : TxFrame) : Statement (.ethFrameTransmit port part f) := rfl
theorem nvmeDma (port part : Nat) (toMem : Bool) (pa : Nat) (data : List Byte) : Statement (.nvmeDma port part toMem pa data) := rfl
theorem queueCreate (part qid pasid : Nat) (base : Dword) (lsz : Nat) (rights : BitVec 8) : Statement (.queueCreate part qid pasid base lsz rights) := rfl
theorem capabilityRevoke (qid : Nat) : Statement (.capabilityRevoke qid) := rfl
theorem queueDestroy (qid : Nat) : Statement (.queueDestroy qid) := rfl
theorem partitionTeardown (part : Nat) : Statement (.partitionTeardown part) := rfl
theorem deadQueueRead (qid : Nat) : Statement (.deadQueueRead qid) := rfl
theorem refusedWakeRead (part : Nat) : Statement (.refusedWakeRead part) := rfl
theorem queueWake (part window : Nat) (w0 w1 w2 w3 w4 : Dword) : Statement (.queueWake part window w0 w1 w2 w3 w4) := rfl
theorem pktNop (qid : Nat) : Statement (.pktNop qid) := rfl
theorem pktLaunch (qid : Nat) : Statement (.pktLaunch qid) := rfl
theorem pktSignal (qid : Nat) : Statement (.pktSignal qid) := rfl
theorem pktFence (qid : Nat) : Statement (.pktFence qid) := rfl
theorem pktIcinv (qid : Nat) : Statement (.pktIcinv qid) := rfl
theorem pktDump (qid : Nat) : Statement (.pktDump qid) := rfl
theorem pktTeardown (qid : Nat) : Statement (.pktTeardown qid) := rfl
theorem commandComplete (qid : Nat) : Statement (.commandComplete qid) := rfl
theorem activityCounterRefill : Statement (.activityCounterRefill) := rfl
theorem contextDescriptorWrite (pasid : Nat) (w0 w1 w2 : Dword) : Statement (.contextDescriptorWrite pasid w0 w1 w2) := rfl
theorem linkRestored (peer plane : Nat) : Statement (.linkRestored peer plane) := rfl

end Sys2Proof.Laws.Encoding
end

