-- ==== Sys2Proof/Tests/Slice0.lean ====
section
/-! SUPPORT. Tests: ill-formed terms that the checks refuse, words of the spec's worked encodings, single steps with
results from the spec's tables, and for each obligation states and operands that meet its hypotheses. -/

namespace Sys2Proof.Tests

set_option Elab.async false

open Sys2Proof.Machine

/-! ### Headers of instructions, and ill-formed terms -/

/-- A vector and a uniform header whose predicates always hold. -/
def vh : Hdr := ⟨false, false, false, 7, 0⟩
def uh : Hdr := ⟨true, false, false, 3, 0⟩
/-- U = 1 with PR[2] = 1. -/
def badH : Hdr := ⟨true, false, false, 7, 0⟩
/-- Plain, relaxed, acquire and release accesses. -/
def plain : MemMod := ⟨.plain, .h⟩
def rlx : MemMod := ⟨.rlx, .c⟩
def acq : MemMod := ⟨.acq, .c⟩
def rel : MemMod := ⟨.rel, .c⟩
def ext : EngExt := ⟨1, .c, 0x11⟩
def mext : MatExt := ⟨.r64, 3, 1, 0, 0, 0x21⟩

/-- R207 check 3: a form that the mnemonic has not. -/
theorem test_wf_forms : ([.go badH 0, .got uh (.g 0) (.g 0), .call uh 0 .s8, .callt uh 0 .s8, .ret uh, .park uh 0,
    .trap uh .gz, .sysc uh .gz, .tret uh, .exit badH, .yield badH, .nop badH, .iadd badH .i32 .gz .gz .gz,
    .pset badH .and (.q 0) (.q 0) (.q 0), .amov vh (.a 0) .gz .gz, .amovImm vh (.a 0) 0 0, .aadd vh (.a 0) (.a 0) .gz,
    .aaddImm vh (.a 0) (.a 0) 0 0, .amul vh (.a 0) (.a 0) .gz, .amulImm vh (.a 0) (.a 0) 0, .aget vh .gz (.a 0),
    .alea vh (.a 0) (.a 0) .gz .gz, .wrsrWlo badH .gz, .fadd badH .gz .gz .gz, .tspack uh .te8 .gz .gz,
    .shfl uh .i32 .idx 0 .gz .gz .gz, .bcast uh .i32 .gz .gz .gz, .matchI uh .i32 .gz .gz, .vote uh .all (.q 0) (.q 0),
    .ballot uh 0 .gz (.q 0), .redux uh .i32 .add .gz .gz, .scan uh .i32 .add .gz .gz, .fence badH .c,
    .bari badH .gz .gz .gz, .qfence vh .gz .gz, .evpop badH .gz, .card badH .gz, .icinv vh .gz .gz .gz,
    .tlbh vh .gz .gz .gz, .mlda badH .gz .gz, .aalc badH .gz .gz, .drpn badH false 0 0 .gz .gz .gz .gz,
    .delta badH 0 .gz .gz .gz] : List Instr).map Instr.wf = List.replicate 43 false := by decide

/-- R207 check 4: a type that the entry does not list. -/
theorem test_wf_types : ([.iadd vh .i16 .gz .gz .gz, .iabs vh .z32 .gz .gz, .ineg vh .f32 .gz .gz, .isel vh .z64 .gz .gz .gz (.p 7),
    .icmp vh .f32 .eq (.p 0) .gz .gz, .and vh .z32 .gz .gz .gz, .shl vh .z64 .gz .gz .gz, .bfx vh .i64 .gz .gz .gz .gz,
    .bfi vh .z32 .gz .gz .gz .gz, .mov vh .f32 .gz .gz, .movi vh .f16 .gz 0, .movw vh .i32 .gz 0, .hadd2 vh .f32 .gz .gz .gz,
    .cvt vh .f32 .f32 .dflt .gz .gz, .cvtp vh .f32 .f32 .dflt false .gz .gz .gz, .shfl vh .z32 .idx 0 .gz .gz .gz,
    .ld vh .e4m3 plain .gz .gz, .st vh .f16 plain .gz .gz, .ldc vh .i4 0 .gz .gz, .atom vh .i16 rlx .glob .add .gz .gz .gz,
    .atomc vh .f32 rlx .glob .gz .gz .gz .gz, .spz vh .f16 .gz .gz, .ard vh .i64 .gz .gz .gz, .awr vh .f16 .gz .gz .gz,
    .adrn vh .e4m3 false 0 .gz .gz .gz] : List Instr).map Instr.wf = List.replicate 25 false := by decide

/-- R207 check 4: a SUB or a MOD that the entry does not list. -/
theorem test_wf_sub_mod : ([.icmp vh .i32 .num (.p 0) .gz .gz, .icmpImm vh .i32 .nan (.p 0) .gz 0, .rdsr vh .gz 3, .wrsr vh .gz 0x26,
    .wrsr vh .gz 0x21, .cvt vh .e4m3 .f32 .rz .gz .gz, .cvtp vh .f16 .f32 .dflt true .gz .gz .gz,
    .cvtp vh .f32 .e4m3 .dflt true .gz .gz (.g 0), .redux vh .i32 .xchg .gz .gz, .redux vh .f32 .and .gz .gz,
    .scan vh .f32 .cadd .gz .gz, .ld vh .i32 rel .gz .gz, .st vh .i32 acq .gz .gz, .lds vh .i32 ⟨.plain, .c⟩ .gz .gz,
    .atom vh .i32 plain .glob .add .gz .gz .gz, .atom vh .f32 rlx .glob .and .gz .gz .gz, .atomc vh .i32 plain .glob .gz .gz .gz .gz,
    .red vh .i32 acq .glob .add .gz .gz, .red vh .i32 rlx .glob .xchg .gz .gz, .cpy vh .glob .glob .gz .gz .gz ⟨0, .h, 0⟩,
    .cpyx vh .glob .gz .gz .gz ⟨0, .h, 0⟩, .mma vh 0 .gz .gz .gz ⟨.r16, 0, 1, 0, 0, 0⟩,
    .mmas vh 0 .gz .gz .gz ⟨.r16, 1, 0, 0, 0, 0⟩] : List Instr).map Instr.wf = List.replicate 23 false := by decide

/-! ### Words -/

/-- The worked words of R196 to R199 and of chapters 10 to 13, which decode to what they stand for. -/
theorem test_decode_words : Obligations.DecodeWords := by
  refine ⟨rfl, rfl, rfl, rfl, rfl, rfl, rfl, rfl, rfl, rfl, rfl, rfl, rfl⟩

theorem test_decode_control :
    decode 0x028C000005000000 0 = .ok (.go uh 5) ∧ decode 0x0418000020001000 0 = .ok (.call ⟨false, false, false, 6, 0⟩ 0x20 .s8) ∧
    decode 0x041C000020000000 0 = .error .reserved ∧ decode 0x0E1C000000000000 0 = .error .unassigned := by
  refine ⟨rfl, rfl, rfl, rfl⟩

theorem test_decode_integer :
    decode 0x1E1C0082E07C4000 0 = .ok (.icmp vh .i32 .gt (.p 1) (.g 2) (.imm 16)) ∧
    decode 0x121C038108040100 0 = .ok (.iaddc vh .z32 (.g 7) (.g 1) (.g 4) (.p 1)) ∧
    decode 0x251C0284C87C0000 0 = .ok (.shl vh .i32 (.g 5) (.g 4) (.imm 4)) ∧
    decode 0x321C209F3E7C0000 0 = .error .form ∧
    decode 0x101C0284A07C0000 0 = .ok (.iadd vh .i32 (.g 5) (.g 4) (.rsv 0)) := by
  refine ⟨rfl, rfl, rfl, rfl, rfl⟩

theorem test_decode_float_lanes :
    decode 0x431C03040A180900 0 = .ok (.ffma vh (.g 6) (.g 4) (.g 5) (.g 6)) ∧
    decode 0x401C0284E27C0900 0 = .ok (.fadd vh (.g 5) (.g 4) (.imm 17)) ∧
    decode 0xD01C02843E7C0900 0x3F000000 = .ok (.faddImm vh (.g 5) (.g 4) 0x3F000000) ∧
    decode 0x631C02843E7C0900 0 = .ok (.redux vh .f32 .add (.g 5) (.g 4)) ∧
    decode 0x601C0284E27C3005 0 = .ok (.shfl vh .i32 .bfly 5 (.g 5) (.g 4) (.imm 17)) ∧
    decode 0x551C02843E7C0C91 0 = .error .reserved ∧ decode 0x631C02843E7C6900 0 = .error .reserved ∧
    decode 0x609C0284E27C3005 0 = .error .form ∧
    decode 0x481C0284E87C0900 0 = .ok (.frnd vh (.g 5) (.g 4) (.imm 20)) := by
  refine ⟨rfl, rfl, rfl, rfl, rfl, rfl, rfl, rfl, rfl⟩

theorem test_decode_memory_engines :
    decode 0xE11C0F820A7C00E0 8 = .ok (.stDisp vh .i32 ⟨.rel, .p⟩ (.g 2) (.g 5) 8) ∧
    decode 0xF38C0FA844980001 0x2400000000000011 = .ok (.cpy uh .spad .glob (.k 8) (.k 2) (.k 6) ext) ∧
    decode 0x761C02A40C7C000C 0 = .error .reserved ∧ decode 0x721C02403E7C0908 0 = .error .reserved ∧
    decode 0x831C0FA4427C0000 0 = .error .form ∧
    decode 0xF01C0F8243C40000 4 = .ok (.barw vh (.g 2) (.k 1) (.imm 17) 4) := by
  refine ⟨rfl, rfl, rfl, rfl, rfl, rfl⟩

theorem test_decode_matrix_drones :
    decode 0xF58C0FA844900001 0x8304000000000021 = .ok (.mma uh 1 (.k 8) (.k 2) (.k 4) mext) ∧
    decode 0xF28C0FF2E27C0000 3 = .ok (.aclm uh (.imm 18) (.imm 17) 3) ∧
    decode 0xA38C0FA2F27C1000 0 = .ok (.mldpPin uh (.k 2) (.imm 25)) ∧
    decode 0xBA8C0FAAEAB00005 0 = .ok (.delta uh 5 (.k 10) (.imm 21) (.k 12)) ∧
    decode 0xA61C03043E7C0600 0 = .ok (.spz vh .i8 (.g 6) (.g 4)) ∧
    decode 0xF58C0FA844900001 0xC304000000000021 = .error .reserved ∧
    decode 0xF58C0FA844900001 0x8300000000000021 = .error .reserved ∧
    decode 0xA61C03043E7C0A00 0 = .error .reserved ∧ decode 0xA39C0FA2F27C1000 0 = .error .form := by
  refine ⟨rfl, rfl, rfl, rfl, rfl, rfl, rfl, rfl, rfl⟩

/-- From R196, R205 and the entries of R82, R234, R287 and R294. -/
theorem test_decode_others :
    decode 0x371C029F3E7C0012 0 = .ok (.rdsr vh (.g 5) 0x12) ∧
    decode 0x311C00870E7C5000 0 = .ok (.pset vh .xor (.p 1) (.p 7) (.p 7)) ∧
    decode 0x901C0F823E7C0000 0 = .ok (.card vh (.g 2)) ∧
    decode 0x968C1222467C0000 0 = .ok (.icinv uh (.k 4) (.k 2) (.k 3)) := by
  refine ⟨rfl, rfl, rfl, rfl⟩

/-! ### A small machine -/

/-- Partition 1, launch 7 in PASID 5, team 2 on core 1 with one hand, which issues the body word at 0x11 of the block
at 0x10. Page 0 is mapped to itself in the core's TLB. Headers stand at 0x15, behind the block, and at 0x20. -/
def lnch : Launch :=
  { part := 1, handle := 7, qid := 3, pasid := 5, image := 0, saveDflt := 0, st := .live, banks := [(0x1000, 0x100)] }
def tm0 : Team :=
  { id := 2, part := 1, launch := 7, card := ⟨0, 0, 0, 0, 0, 0, 0, 0⟩, lid := 9, n := 0, x := 0, y := 0, z := 0,
    lix := [0, 0, 0, 0, 0], st := .running, core := 1, sbase := 0x100, share := 0x4000, spad := 0x4000, depth := 64,
    hands := 1, threads := 4, quads := [(0, 0)], acc := 8, accPhys := [0, 1, 2, 3, 4, 5, 6, 7] }
def hdr0 : Dword := 0x0100000000000000
def tlb0 : Tlb := ⟨5, 0, 65536, 0, 0xFF#8, false⟩
def core0 : Core := { tlb := [tlb0], icache := [(1, 5, 0x15, hdr0), (1, 5, 0x20, hdr0)] }
def part0 : Part := { clusters := [0], trapBase := 0x100, trapLimit := 0x200 }
/-- `n` threads with the given stack entries, all active. -/
def hand0 (frames : List (SMap Word)) : Hand :=
  { team := 2, hix := 0, phase := .visit, pos := 0x10, blen := 4, upos := some 0x10
    act := BitVec.ofNat 128 (2 ^ frames.length - 1), threads := frames.map fun l => { wa := 0x10, stack := l } }
def cur0 : Cur := ⟨2, 0, 0x11, 1, 0, 0⟩
def base : State := { State.reset with
  mem := [(0xAF, 1), (0x107, 1)], contexts := [(5, ⟨true, false, 1, 0, 0, 0⟩)], stageMap := [(0, 2)], cores := [(1, core0)],
  launches := [lnch], teams := [tm0], parts := [(1, part0)], cur := some cur0 }
def mk (hd : Hand) (tm : Team := tm0) : State := { base with teams := [tm], hands := [hd] }
def iss (hd : Hand) (tm : Team := tm0) : Iss := ⟨cur0, tm, hd⟩
/-- One thread with g4 = `x`, g5 = `y`. -/
def one (x y : Word) : State := mk (hand0 [[(4, x), (5, y)]])

/-- The state that an instruction answers. -/
def after (i : Instr) (s : State) : State := match exec i s with | .next t => t | _ => s
def handOf (s : State) : Hand := (s.hand? 2 0).getD (hand0 [])
/-- Register g`n` of thread `t`, and its pending result. -/
def g (s : State) (t n : Nat) : Word := ((handOf s).thr t).stack.get n 0
def pnd (s : State) (t n : Nat) : Option Word := ((handOf s).pend.find? fun p => p.dst == .ent t n).bind (·.val)

/-! ### Single steps, with results from the spec's tables -/

/-- R226's example: after PSET.XOR p1, the carry chain gives g6 = 0 with p1 = 1, and from there g7 = 4 with p1 = 0. -/
theorem test_iaddc_low :
    let t := after (.iaddc vh .z32 (.g 6) (.g 4) (.g 5) (.p 1)) (one 0xFFFFFFFF 1)
    (g t 0 6, ((handOf t).thr 0).p) = (0, 0x82) := by decide +kernel
theorem test_iaddc_high :
    let t := after (.iaddc vh .z32 (.g 7) (.g 4) (.g 5) (.p 1))
      (mk { hand0 [[(4, 1), (5, 2)]] with threads := [{ stack := [(4, 1), (5, 2)], p := 0x82 }] })
    (g t 0 7, ((handOf t).thr 0).p) = (4, 0x80) := by decide +kernel
/-- R227's table. -/
theorem test_idiv : ([(.i32, 7, 0xFFFFFFFE), (.i32, 0x80000000, 0xFFFFFFFF), (.z32, 5, 0)] : List (Ty × Word × Word)).map
    (fun x => pnd (after (.idiv vh x.1 (.g 6) (.g 4) (.g 5)) (one x.2.1 x.2.2)) 0 6) =
    [some 0xFFFFFFFD, some 0x80000000, some 0xFFFFFFFF] := by decide +kernel
theorem test_irem : ([(.i32, 0xFFFFFFF9, 2), (.i32, 0x80000000, 0xFFFFFFFF), (.z32, 5, 0)] : List (Ty × Word × Word)).map
    (fun x => pnd (after (.irem vh x.1 (.g 6) (.g 4) (.g 5)) (one x.2.1 x.2.2)) 0 6) =
    [some 0xFFFFFFFF, some 0, some 5] := by decide +kernel
theorem test_imulh : (g (after (.imulh vh .i32 (.g 6) (.g 4) (.g 5)) (one 0xFFFFFFFE 3)) 0 6,
    g (after (.imulh vh .z32 (.g 6) (.g 4) (.g 5)) (one 0xFFFFFFFE 3)) 0 6) = (0xFFFFFFFF, 2) := by decide +kernel
/-- R231: specifier 0x64 shifts by 20. R232's example. -/
theorem test_shl : g (after (.shl vh .i32 (.g 6) (.g 4) (.imm 4)) (one 3 0)) 0 6 = 0x300000 := by decide +kernel
theorem test_bfx : (g (after (.bfx vh .i32 (.g 6) (.g 4) (.imm 20) (.imm 24)) (one 0xF0A0 0)) 0 6,
    g (after (.bfx vh .i32 (.g 6) (.g 4) (.imm 24) (.imm 24)) (one 0xF0A0 0)) 0 6) = (0xA, 0xFFFFFFF0) := by decide +kernel
/-- The tables of R241, R243 to R245, and R248. -/
theorem test_fmin_fmax : ([(0x7FA00000, 0x3F800000), (0x80000000, 0), (0xFFC00001, 0x7FC00005), (1, 0x80000000)] :
      List (Word × Word)).map (fun x => (g (after (.fmin vh (.g 6) (.g 4) (.g 5)) (one x.1 x.2)) 0 6,
        g (after (.fmax vh (.g 6) (.g 4) (.g 5)) (one x.1 x.2)) 0 6)) =
    [(0x3F800000, 0x3F800000), (0x80000000, 0), (0x7FC00000, 0x7FC00000), (0x80000000, 1)] := by decide +kernel
theorem test_fclass : g (after (.fclass vh (.g 6) (.g 4)) (one 0x80000001 0)) 0 6 = 4 := by decide +kernel
theorem test_frnd : ([0xC0200000, 0xBE99999A, 0x3F000000] : List Word).map (fun x =>
      (g (after (.frnd vh (.g 6) (.g 4) (.imm 16)) (one x 0)) 0 6, g (after (.frnd vh (.g 6) (.g 4) (.imm 17)) (one x 0)) 0 6,
        g (after (.frnd vh (.g 6) (.g 4) (.imm 18)) (one x 0)) 0 6, g (after (.frnd vh (.g 6) (.g 4) (.imm 19)) (one x 0)) 0 6)) =
    [(0xC0000000, 0xC0000000, 0xC0000000, 0xC0400000), (0x80000000, 0x80000000, 0x80000000, 0xBF800000),
      (0, 0, 0x3F800000, 0)] := by decide +kernel
theorem test_fscale : g (after (.fscale vh (.g 6) (.g 4) (.imm 15)) (one 0x00800001 0)) 0 6 = 0x00400000 := by decide +kernel
theorem test_hadd2 : g (after (.hadd2 vh .bf16 (.g 6) (.g 4) (.g 5)) (one 0x3F804000 0x3B803F80)) 0 6 = 0x3F804040 := by
  decide +kernel
/-- The table of R103, R251's example and R253's. -/
theorem test_cvt : ([(.bf16, .dflt, 0x3F808000), (.bf16, .ru, 0x3F808000), (.e4m3, .dflt, 0x43960000), (.e4m3, .dflt, 0x43980000),
      (.e4m3, .dflt, 0x43FA0000), (.f16, .dflt, 0x4788B800), (.f16, .rz, 0x4788B800), (.f16, .dflt, 0x33000000),
      (.e5m2, .dflt, 0x37000000), (.i32, .dflt, 0x40200000), (.i8, .dflt, 0xC0200000), (.bf16, .dflt, 0x7FA00000),
      (.i8, .dflt, 0x7FA00000)] : List (Ty × Rnd × Word)).map
    (fun x => g (after (.cvt vh x.1 .f32 x.2.1 (.g 6) (.g 4)) (one x.2.2 0)) 0 6) =
    [0x3F80, 0x3F81, 0x79, 0x7A, 0x7E, 0x7C00, 0x7BFF, 0, 1, 2, 0xFFFFFFFD, 0x7FC0, 0] := by decide +kernel
theorem test_cvtp : g (after (.cvtp vh .e4m3 .f32 .dflt false (.g 8) (.g 2) (.g 4))
    (mk (hand0 [[(2, 0x3F800000), (3, 0x43960000), (4, 0xC0200000), (5, 0x7FA00000)]]))) 0 8 = 0x7FC27938 := by decide +kernel
theorem test_tsunpack : (g (after (.tsunpack vh .te8 (.g 6) (.g 4) (.g 5)) (one 0x81 0x8238)) 0 6,
    g (after (.tsunpack vh .te8 (.g 6) (.g 4) (.g 5)) (one 0x68 0x8238)) 0 6) = (0xC1000000, 0x40200000) := by decide +kernel
theorem test_tspack :
    let t := after (.tspack vh .te8 (.g 6) (.g 4))
      (mk (hand0 [[(4, 0x43940000)], [(4, 0xC0A00000)], [(4, 0x40200000)], []]))
    ([0, 1, 2, 3].map (g t · 6), g t 0 7) = ([0x25, 0x81, 0x68, 0x40], 0x8238) := by decide +kernel
/-- The example behind R261. -/
def four : State := mk (hand0 [[(4, 0x4B800000)], [(4, 0x3F800000)], [(4, 0x3F800000)], [(4, 0x3F800000)]])
theorem test_redux : pnd (after (.redux vh .f32 .add (.g 6) (.g 4)) four) 3 6 = some 0x4B800001 := by decide +kernel
theorem test_scan : pnd (after (.scan vh .f32 .add (.g 6) (.g 4)) four) 3 6 = some 0x4B800000 := by decide +kernel
theorem test_redux_cadd :
    let t := after (.redux vh .f32 .cadd (.g 6) (.g 4)) four
    (pnd t 0 6, pnd t 0 7) = (some 0x4B800002, some 0xBF800000) := by decide +kernel
theorem test_match :
    let t := after (.matchI vh .i32 (.g 5) (.g 4)) (mk (hand0 [[(4, 7)], [(4, 9)], [(4, 7)], [(4, 9)]]))
    [0, 1, 2, 3].map (pnd t · 5) = [some 0, some 1, some 0, some 1] := by decide +kernel
/-- R235's example: a2 holds (0x180, 4), and thread 5 sees 0x194. -/
theorem test_alea :
    let t := handOf (after (.alea uh (.a 2) (.a 1) (.k 3) (.k 4))
      (mk { hand0 [[]] with ab := [(1, 0x100)], as := [(1, 4)], k := [(3, 2), (4, 64)] }))
    (t.rdO .uni (.a 2), t.rdO (.thr 5) (.a 2)) = (0x180, 0x194) := by decide +kernel
/-- R306's example. -/
theorem test_spz :
    let t := after (.spz vh .i8 (.g 6) (.g 4)) (one 0x0007F903 0x0105FD02)
    (g t 0 6, g t 0 7) = (0x0507F903, 0xC88) := by decide +kernel
/-- R214: GO at 0x11 with +15 reaches the header at 0x20. -/
theorem test_go :
    let t := handOf (after (.go vh 15) (one 0 0))
    (t.act, (t.thr 0).wa, (t.thr 0).st) = (0, 0x20, .unparked) := by decide +kernel
/-- R271's example: X holds 10 and Y 20; the bank has served the request. -/
theorem test_atom :
    let t := after (.scratchpadBankAccess 1 16) (after (.atom vh .i32 ⟨.rlx, .c⟩ .spad .add (.g 5) (.g 4) (.g 6))
      { mk (hand0 [[(4, 0), (6, 1)], [(4, 4), (6, 2)], [(4, 0), (6, 3)], [(4, 0), (6, 4)]]) with
        cores := [(1, { core0 with spad := [(0x100, 10), (0x104, 20)] })] })
    ([0, 1, 2, 3].map (pnd t · 5), (t.core 1).spad) =
      ([some 10, some 20, some 11, some 14], [(0x100, 18), (0x104, 22)]) := by decide +kernel

/-! ### Witnesses: states and operands that meet the hypotheses of the statements -/

/-- Whether the terms of the statements hold, as computations. -/
def issB (s : State) (i : Iss) : Bool :=
  decide (s.cur = some i.c ∧ s.team? i.c.team = some i.tm ∧ s.hand? i.c.team i.c.hix = some i.hd ∧ i.hd.phase = .visit)
def hitsB (s : State) (i : Iss) (k : AccKind) (n : Nat) (ln : Lane) (va pa : Nat) (unc : Bool) : Bool :=
  decide (va % n = 0 ∧ va < 2 ^ 52 ∧
    ((s.tlbHit (s.core i.tm.core).tlb (s.pasidOf i.tm) va k (i.hd.lanePriv ln)).map fun x => (x.1, x.2.uncached)) =
      some (pa, unc))
def codeB (s : State) (tm : Team) (privT : Bool) (a : CodeAddr) (w : Dword) : Bool :=
  match s.ctx? (s.pasidOf tm) with
  | some cx =>
    match s.tlbHit (s.core tm.core).tlb (s.pasidOf tm) ((cx.code.toNat + 8 * a.toNat) % 2 ^ 52) .fetch privT with
    | some (pa, x) => decide (s.poisoned pa 8 = false ∧ s.unreachable pa = false ∧ x.uncached = false ∧
        w = BitVec.ofNat 64 (ofBytes (s.viewBytes (dieOf tm.core) pa 8)) ∧
        (s.core tm.core).icache.find? (fun e => e.1 == tm.part && e.2.1 == s.pasidOf tm && e.2.2.1 == a) =
          some (tm.part, s.pasidOf tm, a, w))
    | none => false
  | none => false
def soundB (s : State) (pa n : Nat) : Bool := decide (s.poisoned pa n = false ∧ s.unreachable pa = false)

theorem ok {p : Prop} [Decidable p] (h : decide p = true := by decide +kernel) : p := of_decide_eq_true h
theorem issues {s : State} {i : Iss} (h : issB s i = true := by decide +kernel) : s.Issues i :=
  have h := of_decide_eq_true h
  ⟨h.1, h.2.1, h.2.2.1, h.2.2.2⟩
theorem passes {s : State} {i : Iss} {h : Hdr} {n : Nat} {args : List Arg} {more : Bool → Bool}
    (k : decide ((h.u = true ∨ n = 0 ∨ 0 < (s.core i.tm.core).actStart) ∧ argsOk h.u i.hd.privT args = true ∧
      more h.u = true) = true := by decide +kernel) : s.Passes i h n args more :=
  have k := of_decide_eq_true k
  ⟨k.1, k.2.1, k.2.2⟩
theorem hits {s : State} {i : Iss} {k : AccKind} {n : Nat} {ln : Lane} {va pa : Nat} {unc : Bool}
    (h : hitsB s i k n ln va pa unc = true := by decide +kernel) : s.Hits i k n ln va pa unc := by
  obtain ⟨h1, h2, h3⟩ := of_decide_eq_true h
  obtain ⟨x, hx, hy⟩ := Option.map_eq_some_iff.mp h3
  have hy := Prod.mk.inj hy
  exact ⟨h1, h2, x.2, by rw [hx, ← hy.1], hy.2⟩
theorem code {s : State} {tm : Team} {privT : Bool} {a : CodeAddr} {w : Dword}
    (h : codeB s tm privT a w = true := by decide +kernel) : s.Code tm privT a w := by
  unfold codeB at h
  split at h
  · rename_i cx hc
    split at h
    · rename_i pa x ht
      obtain ⟨h1, h2, h3, h4, h5⟩ := of_decide_eq_true h
      exact ⟨cx, pa, x, hc, ht, ⟨h1, h2⟩, (fun k => absurd (h3.symm.trans k) Bool.false_ne_true), h4, h5⟩
    · cases h
  · cases h
theorem sound {s : State} {pa n : Nat} (h : soundB s pa n = true := by decide +kernel) : s.Sound pa n :=
  have h := of_decide_eq_true h
  ⟨h.1, h.2⟩
theorem settled {s : State} {i : Iss} (h : decide ((∀ x ∈ s.hands, x.team = i.c.team → x.hix = i.c.hix → x.sbuf = []) ∧
    s.appending i.c.team i.c.hix = false ∧ ∀ r ∈ s.readReqs, r.team = i.c.team → r.hix = i.c.hix → ∀ x ∈ r.items, x.got ≠ none) = true :=
      by decide +kernel) : s.Settled i :=
  have h := of_decide_eq_true h
  ⟨h.1, h.2.1, h.2.2⟩
theorem all_hits {s : State} {i : Iss} {k : AccKind} {n : Nat} {l : List Lane} {va pa : Lane → Nat} {unc : Bool}
    (h : (l.all fun ln => hitsB s i k n ln (va ln) (pa ln) unc) = true := by decide +kernel) :
    ∀ ln ∈ l, s.Hits i k n ln (va ln) (pa ln) unc := fun ln m => hits (List.all_eq_true.mp h ln m)
theorem all_hits_to {s : State} {i : Iss} {k : AccKind} {n : Nat} {ln : Lane} {va pa : Nat → Nat} {unc : Bool} {e : Nat} (m : Nat)
    (l : e < m) (h : ((List.range m).all fun e => hitsB s i k n ln (va e) (pa e) unc) = true := by decide +kernel) :
    s.Hits i k n ln (va e) (pa e) unc := hits (List.all_eq_true.mp h e (List.mem_range.mpr l))
theorem all_sound {s : State} {α : Type} {l : List α} {pa : α → Nat} {n : Nat}
    (h : (l.all fun x => soundB s (pa x) n) = true := by decide +kernel) : ∀ x ∈ l, s.Sound (pa x) n := fun x m =>
  sound (List.all_eq_true.mp h x m)
theorem all_wanted {s : State} {tm : Team} {l : List Nat} {privT : Nat → Bool} {a : Nat → CodeAddr} (w : Dword)
    (h : (l.all fun t => decide ((s.part tm.part).inRegion (a t) = privT t) && codeB s tm (privT t) (a t) w) = true := by
      decide +kernel) (k : fld w 63 56 = 1 := by decide) : ∀ t ∈ l, s.Wanted tm (privT t) (a t) := fun t m =>
  have h := Bool.and_eq_true_iff.mp (List.all_eq_true.mp h t m)
  ⟨of_decide_eq_true h.1, w, code h.2, k⟩

/-- Little-endian words in memory, and the tables that map page 0 of PASID 5 to itself. -/
def words (a : Nat) (l : List Dword) (s : State) : State := s.poke a (l.flatMap fun w => toBytes 8 w.toNat)
def ptab (s : State) : State :=
  { words 0x8000 [0x9001] (words 0x9000 [0xA001] (words 0xA000 [0xB001] (words 0xB000 [0xFF] s))) with
    contexts := [(5, ⟨true, false, 1, 0x8000, 0, 0⟩)] }

/-- One thread, at privilege U and in the trap region. -/
def h1 : Hand := hand0 [[(4, 7), (5, 9)]]
def i1 : Iss := iss h1
def s1 : State := mk h1
def hT : Hand := { h1 with inTrap := true, threads := h1.threads.map fun (x : Thread) => { x with tl := true, wsp := 0x1000 } }

theorem wit_IntegerArithmetic : s1.Issues i1 ∧ s1.Passes i1 vh 2 (args2 .i32 (.g 6) (.g 4) (.o (.g 5))) ∧
    s1.Passes i1 vh 4 (args2 .z64 .gz (.g 4) (immT .z64 0xFFFFFFFF)) ∧ s1.Passes i1 uh 2 (args1 .i64 (.k 4) (.k 2)) ∧
    s1.Passes i1 vh 2 [(rdst .i32, .o (.g 6)), (rsrc .i32, .o (.g 4)), (rsrc .i32, .o (.imm 31)), (rsrc .i32, .o .gz)] :=
  ⟨issues, passes, passes, passes, passes⟩

theorem wit_CarryAndDivision : s1.Issues i1 ∧
    s1.Passes i1 vh 2 (args2 .i32 (.g 6) (.g 4) (.o (.g 5))) (fun u => pdstOk u (.p 7)) ∧
    s1.Passes i1 uh 2 (args2 .z64 (.k 4) (.k 2) (.o (.imm 0))) ∧
    (vh.u = true ∨ 0 < (s1.core i1.tm.core).actStart) ∧
    ∀ x ∈ ([(vh, .q 3), (uh, .p 0), (vh, .rsv 0)] : List (Hdr × POpnd)),
      (match x.2 with | .p _ => x.1.u = true | .q _ => x.1.u = false | .rsv _ => True) :=
  ⟨issues, passes, passes, ok, fun x h => by
    simp only [List.mem_cons, List.not_mem_nil, or_false] at h
    rcases h with rfl | rfl | rfl <;> decide⟩

theorem wit_MovesAndCompare : s1.Issues i1 ∧
    s1.Passes i1 vh 2 (args2 .i32 (.g 6) (.g 4) (.o (.g 5))) (fun u => psrcOk u (.q 3)) ∧
    s1.Passes i1 vh 2 [(rsrc .i64, .o (.g 4)), (rsrc .i64, immT .i64 5)] (fun u => pdstOk u (.p 1)) ∧
    s1.Passes i1 vh 2 [(rdst .i64, .o (.g 6)), (rsrc .i64, .i 5)] ∧
    s1.Passes i1 vh 2 [] (fun u => pdstOk u (.p 1) && psrcOk u (.p 7) && psrcOk u (.q 0)) ∧
    (vh.u = true ∨ 0 < (s1.core i1.tm.core).actStart) ∧ uh.u = true ∧ vh.u = false :=
  ⟨issues, passes, passes, passes, passes, ok⟩

theorem wit_LogicAndShifts : s1.Issues i1 ∧ s1.Passes i1 vh 2 (args2 .i64 (.g 6) (.g 4) (immT .i64 0x80000000)) ∧
    s1.Passes i1 vh 2 (args1 .i32 (.g 4) (.g 4)) ∧
    s1.Passes i1 vh 2 [(rdst .i64, .o (.g 6)), (rsrc .i64, .o (.g 4)), (.src, .o (.g 5))] :=
  ⟨issues, passes, passes, passes⟩

theorem wit_BitOperations : s1.Issues i1 ∧
    s1.Passes i1 vh 2 [(.dst, .o (.g 6)), (.src, .o (.g 4)), (.src, .o (.imm 31)), (.src, .o (.g 5))] ∧
    s1.Passes i1 vh 2 [(.dst, .o (.g 6)), (.src, .o (.g 6)), (.src, .o (.g 4)), (.src, .o (.imm 31)), (.src, .o (.g 5))] ∧
    argsOk vh.u i1.hd.privT [(.dst, .o (.k 6))] = false ∧ (vh.u = true ∨ 0 < (s1.core i1.tm.core).actStart) ∧
    s1.Passes i1 vh 2 [(.dst, .o (.g 6)), (rsrc .i64, .o (.g 4))] ∧ s1.Passes i1 vh 2 (args1 .i64 (.g 6) (.g 4)) :=
  ⟨issues, passes, passes, ok, ok, passes, passes⟩

theorem wit_Affine : s1.Issues i1 ∧ s1.Passes i1 uh 0 [(.adst, .o (.a 1)), (.asrc, .o (.a 1)), (.usrc, .o (.k 3)), (.usrc, .o .gz)] ∧
    s1.Passes i1 uh 0 [(.adst, .o (.a 1)), (.usrc, .o (.k 3)), (.usrc, .o (.imm 17))] ∧ s1.Passes i1 uh 0 [(.adst, .o (.a 2))] ∧
    s1.Passes i1 uh 0 [(.adst, .o (.a 2)), (.asrc, .o (.a 1)), (.usrc, .o (.k 3))] ∧
    s1.Passes i1 uh 0 [(.adst, .o (.a 2)), (.asrc, .o (.a 1))] ∧ s1.Passes i1 uh 0 [(.agot, .o (.k 3)), (.asrc, .o (.a 1))] :=
  ⟨issues, passes, passes, passes, passes, passes, passes⟩

theorem wit_ReadSpecialRegister : (s1.Issues i1 ∧ s1.Passes i1 vh 2 [(.dst, .o (.g 6))] ∧ srListed 0x10#8 = true ∧
      (vh.u = true → srThread 0x10#8 = false)) ∧
    ((mk hT).Issues (iss hT) ∧ (mk hT).Passes (iss hT) vh 2 [(.dst64, .o (.g 6))] ∧ srListed 0x22#8 = true ∧ hT.inTrap = true) ∧
    s1.Passes i1 uh 2 [(.dst64, .o (.k 6))] ∧ srListed 0x16#8 = true ∧ srThread 0x16#8 = false :=
  ⟨⟨issues, passes, ok⟩, ⟨issues, passes, ok⟩, passes, ok⟩

/-- LO to itself, spilling entries 0 and 1, and filling entry 4 of a window that begins at 5. -/
def hF : Hand := { hT with threads := hT.threads.map fun (x : Thread) => { x with lo := 5 } }
theorem wit_SpecialWrites :
    ((mk hT).Issues (iss hT) ∧ (mk hT).Passes (iss hT) vh 2 [(.src64, .o (.g 4))] ∧ (mk hT).Passes (iss hT) vh 2 [(.src, .o (.g 4))] ∧
      (∀ ln ∈ hT.lanes vh, (hT.rdO ln (.g 4)).toNat < 8) ∧ vh.u = false ∧ hT.inTrap = true ∧
      (∀ ln ∈ hT.lanes vh, fld (hT.rdO64 ln (.g 4)) 63 52 = 0)) ∧
    ((mk hT).Settled (iss hT) ∧ (mk hT).Passes (iss hT) vh 2 [(.src, .o (.imm 18))] ∧
      (hT.lanes vh = [.thr 0] ∧ 0 < hT.threads.length ∧ (hT.thr 0).tl = true ∧
      (hT.thr 0).lo = 0 ∧ (hT.rdO (.thr 0) (.imm 18)).toNat = 2 ∧ 2 ≤ 0 + tm0.depth ∧ 2 + tm0.depth ≤ 2 ^ 24) ∧
      ((mk hT).Passes (iss hT) vh 2 [(.src, .o (.imm 16))] ∧ (hT.rdO (.thr 0) (.imm 16)).toNat = (hT.thr 0).lo ∧
        0 + tm0.depth ≤ 2 ^ 24) ∧
      (∀ e, 0 ≤ e → e < 2 → (∃ unc, (mk hT).Hits (iss hT) .write 4 (.thr 0) ((hT.thr 0).wsp.toNat + 4 * e) (0x1000 + 4 * e) unc) ∧
        (mk hT).Sound (0x1000 + 4 * e) 4) ∧
      (∀ e e' : Nat, 0 ≤ e → e < e' → e' < 2 → 0x1000 + 4 * e + 4 ≤ 0x1000 + 4 * e' ∨ 0x1000 + 4 * e' + 4 ≤ 0x1000 + 4 * e)) ∧
    ((mk hF).Issues (iss hF) ∧ (mk hF).Settled (iss hF) ∧ (mk hF).Passes (iss hF) vh 2 [(.src, .o (.imm 20))] ∧
      (hF.lanes vh = [.thr 0] ∧ 0 < hF.threads.length ∧ (hF.thr 0).tl = true ∧ hF.inTrap = true ∧ (hF.thr 0).lo = 5 ∧
      (hF.rdO (.thr 0) (.imm 20)).toNat = 4 ∧ 5 ≤ 4 + tm0.depth ∧ 4 + tm0.depth ≤ 2 ^ 24) ∧
      (mk hF).Hits (iss hF) .read 4 (.thr 0) ((hF.thr 0).wsp.toNat + 4 * 4) 0x1010 false ∧ (mk hF).Sound 0x1010 4) :=
  ⟨⟨issues, passes, passes, ok⟩, ⟨settled, passes, ok, ⟨passes, ok⟩, fun e _ h =>
    ⟨⟨false, all_hits_to (va := fun e => (hT.thr 0).wsp.toNat + 4 * e) (pa := fun e => 0x1000 + 4 * e) 2 h⟩,
      all_sound (l := List.range 2) (pa := fun e => 0x1000 + 4 * e) ok e (List.mem_range.mpr h)⟩,
    by omega⟩, ⟨issues, settled, passes, ok, hits, sound⟩⟩

theorem wit_FloatArithmetic : s1.Issues i1 ∧ s1.Passes i1 vh 2 [(.dst, .o (.g 6)), (.src, .o (.g 4)), (.src, .o (.g 5))] ∧
    s1.Passes i1 vh 2 [(.dst, .o (.g 6)), (.src, .o (.g 4)), (.src, immF 0x7FC00000)] ∧
    s1.Passes i1 vh 2 [(.dst, .o (.g 6)), (.src, .o (.g 4)), (.src, .o (.g 5)), (.src, .o (.imm 16))] ∧
    s1.Passes i1 vh 2 [(.dst, .o (.g 6)), (.src, .o (.g 4)), (.src, immF 5), (.src, .o (.g 5))] ∧
    s1.Passes i1 vh 2 [(.src, .o (.g 4)), (.src, .o (.g 5))] (fun u => pdstOk u (.p 1)) ∧
    s1.Passes i1 vh 2 [(.src, .o (.g 4)), (.src, immF 5)] (fun u => pdstOk u (.p 7)) ∧
    s1.Passes i1 vh 2 [(.dst, .o (.g 6)), (.src, .o (.g 4))] ∧ (16 ≤ (16 : Fin 32).val ∧ (19 : Fin 32).val ≤ 19) :=
  ⟨issues, passes, passes, passes, passes, passes, passes, passes, ok⟩

/-- Also an integer, a half and a power of two. -/
theorem wit_Transcendentals : s1.Issues i1 ∧ s1.Passes i1 vh 4 [(.dst, .o (.g 6)), (.src, .o (.g 4))] ∧
    (f32 0x7FA00000).isNan = true ∧ f32 0x80000001 = .fin true 1 (-149) ∧
    (f32 0x40000000 = .fin false (2 ^ 23) (-22) ∧ 2 ^ 23 * 2 ^ (((-22 : Int) + 149).toNat) = 2 * 2 ^ 149 ∧
      2 ^ 23 * 2 ^ (((-22 : Int) + 149).toNat) = 2 ^ ((1 : Int) + 149).toNat) ∧
    f32 0x3FC00000 = .fin false (3 * 2 ^ 22) (-23) ∧ 3 * 2 ^ 22 * 2 ^ (((-23 : Int) + 149).toNat) = (2 * 1 + 1) * 2 ^ 148 :=
  ⟨issues, passes, ok⟩

theorem wit_PackedOperations : s1.Issues i1 ∧ s1.Passes i1 vh 2 [(.dst, .o (.g 6)), (.src, .o (.g 4)), (.src, .o (.g 5))] ∧
    s1.Passes i1 vh 2 [(.dst, .o (.g 6)), (.src, .o (.g 4)), (.src, .o (.g 5)), (.src, .o .gz)] ∧
    s1.Passes i1 vh 2 [(.dst, .o (.g 6)), (.src64, .o (.g 4)), (.src64, .o (.g 6))] ∧
    s1.Passes i1 vh 2 [(.dst64, .o (.g 6)), (.src, .o (.g 4))] ∧ vh.u = false ∧
    [cvtpRow .f16 .f32, cvtpRow .e4m3 .f32, cvtpRow .e5m2 .bf16, cvtpRow .i4 .i8, cvtpRow .f32 .f16, cvtpRow .bf16 .e4m3,
      cvtpRow .f32 .e5m2, cvtpRow .i8 .i4] =
      [some .two, some .four, some .four16, some .eight, some .wide16, some .wide8, some .half8, some .wide4] :=
  ⟨issues, passes, passes, passes, passes, ok⟩

theorem wit_Conversion : s1.Issues i1 ∧ s1.Passes i1 vh 2 [(rdst .i64, .o (.g 6)), (rsrc .f32, .o (.g 5))] ∧
    s1.Passes i1 vh 2 [(.dst, .o (.g 6)), (.src, .o (.g 4)), (.src, .o (.g 5))] :=
  ⟨issues, passes, passes⟩

theorem wit_CrossLane : s1.Issues i1 ∧ vh.u = false ∧
    s1.Passes i1 vh 2 [(rdst .i64, .o (.g 6)), (rsrc .i64, .o (.g 4)), (.src, .o (.g 5))] ∧
    s1.Passes i1 vh 2 [(rdst .i32, .o (.g 6)), (rsrc .i32, .o (.g 4)), (.usrc, .o (.k 0))] ∧
    s1.Passes i1 vh 2 [(rdst .f32, .o (.g 6)), (rsrc .f32, .o (.g 4))] ∧
    s1.Passes i1 vh 2 [(rdst .i64, .o (.g 6)), (.src64, .o (.g 4))] ∧
    s1.Passes i1 vh 2 [] (fun u => pdstOk u (.p 1) && psrcOk u (.p 7)) ∧
    s1.Passes i1 vh 2 [(.dst, .o (.g 6))] (fun u => psrcOk u (.q 0)) :=
  ⟨issues, ok, passes, passes, passes, passes, passes, passes⟩

/-- Three threads, with addresses in g2, k2 (global) and g4, k4 (scratchpad). -/
def hm : Hand :=
  { hand0 [[(2, 0x1000), (4, 0x10), (6, 5), (7, 9)], [(2, 0x1008), (4, 0x18), (6, 7)], [(2, 0x1000), (4, 0x10), (6, 9)]] with
    k := [(2, 0x1010), (4, 0x20), (6, 0x77)], pend := [{ id := 3, dst := .ent 0 9, val := none }] }
def sm : State :=
  { mk hm with mem := base.mem ++ [(0x1000, 1), (0x1003, 0x80), (0x1008, 0xFF), (0x1010, 0x44)], nextId := 10
               cores := [(1, { core0 with spad := [(0x110, 1), (0x118, 0xFF)], slots := 5 })] }
def im : Iss := iss hm
/-- The same without a participant, and with no request slot free. -/
def hz : Hand := { hm with act := 0 }
def sFul : State := { sm with cores := [(1, { core0 with slots := 1536 })] }
def va (ln : Lane) : Nat := match ln with | .thr 1 => 0x1008 | .uni => 0x1010 | _ => 0x1000

/-- What an access of `n` bytes finds at `va`, and in the slice. -/
def fnd (hd : Hand) (f : Lane → Nat) : List Found := (hd.lanes vh).map fun ln => ⟨ln, .mem (f ln), false, f ln⟩
/-- Also for a strong load that reads the home, with too few free slots, and for the last offset below a bank's SIZE. -/
theorem wit_LoadsAndConstants : sm.Issues im ∧ sm.Passes im vh 0 [(rdst .i64, .o (.g 8)), (.gbase, .o (.g 2))] ∧
    (∀ ln ∈ hm.lanes vh, sm.Hits im .read 8 ln (eaG (hm.rdO64 ln (.g 2)) 0) (va ln) false) ∧
    (∀ ln ∈ hm.lanes vh, sm.Sound (va ln) 8) ∧
    (sm.slotsFor 1 (requests (fnd hm va)).length = true ∧ sFul.slotsFor 1 (requests (fnd hm va)).length = false ∧
      (rlx.ord != .plain && scopeWide Scope.d) = true) ∧
    sm.Passes im vh 0 [(rdst .i64, .o (.g 8)), (.sbase, .o (.g 4))] ∧
    (tm0.share ≤ 0x10000000 ∧ sm.slotsFor 1 0 = true ∧ (∀ ln ∈ hm.lanes vh, eaS (hm.rdO ln (.g 4)) 8 % 8 = 0 ∧
        eaS (hm.rdO ln (.g 4)) 8 < tm0.share) ∧
      sm.launch? tm0.part tm0.launch = some lnch ∧ sm.slotsFor 1 (requests (fnd hm fun _ => 0x10FF)).length = true ∧
      (∀ ln ∈ hm.lanes vh, (hm.rdO ln .gz + 0xFF).toNat < 0x100)) ∧
    sm.Passes im vh 0 [(rdst .z8, .o (.g 8)), (.src, .o .gz)] ∧
    (∀ ln ∈ hm.lanes vh, sm.Hits im .read 1 ln (0x1000 + (hm.rdO ln .gz + 0xFF).toNat) 0x10FF false) ∧
    sm.Sound 0x10FF 1 :=
  ⟨issues, passes, all_hits, all_sound, ok, passes, ok, passes, all_hits, sound⟩

theorem wit_Stores : sm.Issues im ∧ sm.Passes im vh 0 [(.gbase, .o (.g 2)), (rsrc .i64, .o (.g 6))] ∧
    hm.lanes vh ≠ [] ∧ (∀ ln ∈ hm.lanes vh, sm.Hits im .write 8 ln (eaG (hm.rdO64 ln (.g 2)) 0) (va ln) false) ∧
    (sm.roomFor 1 (requests (fnd hm va)).length = true ∧ sFul.roomFor 1 (requests (fnd hm va)).length = false ∧ hz.lanes vh = []) ∧
    sm.Passes im vh 0 [(.sbase, .o (.g 4)), (rsrc .i64, .o (.g 6))] ∧ tm0.share ≤ 0x10000000 ∧
    (∀ ln ∈ hm.lanes vh, (hm.rdO ln (.g 4) + 8).toNat % 8 = 0 ∧ (hm.rdO ln (.g 4) + 8).toNat < tm0.share) :=
  ⟨issues, passes, ok, all_hits, ok, passes, ok⟩

/-- All lanes at one place. -/
def ha : Hand := { hm with threads := hm.threads.map fun (t : Thread) => { t with stack := t.stack.set 2 0x1000 0 } }
def sa : State := { sm with hands := [ha] }
def hu : Hand := { hm with act := 5 }
def su : State := { sm with hands := [hu] }
theorem wit_Atomics : sa.Issues (iss ha) ∧ sa.Settled (iss ha) ∧ sa.readOf 2 0 = none ∧
    sa.inBudgets 1 (sa.requestUnits 1 0x1004 false) = true ∧
    (sa.dmode tm0 = 0 ∨ rlx.scope = .h ∨ rlx.scope = .c) ∧ ha.lanes vh ≠ [] ∧
    sa.Passes (iss ha) vh 0 ([(rdst .i32, .o (.g 8)), (.gbase, .o (.g 2))] ++ [(rsrc .i32, .o (.g 6)), (rsrc .i32, .o (.g 7))]) ∧
    sa.Passes (iss ha) vh 0 ([(rdst .i32, .o (.g 8)), (.gbase, .o (.g 2))] ++ [(rsrc .i32, .o (.g 6))]) ∧
    sa.roomFor 1 1 = true ∧ sa.Sound 0x1004 4 ∧
    (∀ ln ∈ ha.lanes vh, sa.Hits (iss ha) .atomic 4 ln (eaG (ha.rdO64 ln (.g 2)) 4) 0x1004 false) ∧
    su.Issues (iss hu) ∧ su.Settled (iss hu) ∧
    su.Passes (iss hu) vh 0 ([(rdst .i32, .o (.g 8)), (.sbase, .o (.g 4))] ++ [(rsrc .i32, .o (.g 6)), (rsrc .i32, .o (.g 7))]) ∧
    su.Passes (iss hu) vh 0 ([(rdst .i32, .o (.g 8)), (.sbase, .o (.g 4))] ++ [(rsrc .i32, .o (.g 6))]) ∧
    su.dmode tm0 = 0 ∧ hu.lanes vh ≠ [] ∧ tm0.share ≤ 0x10000000 ∧ 0x14 % 4 = 0 ∧ 0x14 < tm0.share ∧ su.readOf 2 0 = none ∧
    (∀ r ∈ (su.core 1).bankQ, r.bank ≠ (tm0.sbase + 0x14) / 16 % 64) ∧
    (∀ ln ∈ hu.lanes vh, (hu.rdO ln (.g 4) + 4).toNat = 0x14) :=
  ⟨issues, settled, ok, ok, ok, ok, passes, passes, ok, sound, all_hits, issues, settled, passes, passes, ok⟩

/-- A buffered store, and a buffered reduction. -/
def bw : BufWrite :=
  { pa := 0x1000, data := [5, 6, 7, 8], red := none, wide := false, org := 4, team := 2, hix := 0, lanes := 1, va := 0x1000 }
def red2 : Rmw := { op := .add, ty := .i32, vals := [5, 6] }
def bw2 : BufWrite := { bw with data := [], ord := 1, red := some red2, wide := true }
def sbuf (w : BufWrite) : State := { sm with hands := [{ hm with sbuf := [w, bw] }] }
/-- A load on its way to the home of 0x1000, which will form result 3. -/
def rq : ReadReq :=
  { team := 2, hix := 0, part := 1, core := 1, ord := 2, code := 0x11, loc := .mem 0x1000
    items := [{ pend := 3, loc := .mem 0x1004, ty := .i32, high := false, home := false, tids := [0] }] }
def sRd : State := { sm with cores := [(1, { core0 with reads := [rq], slots := 5 })] }
theorem wit_ReductionsAndBuffers : (sa.Issues (iss ha) ∧ (sa.dmode tm0 = 0 ∨ Ty.i32 ≠ .f32) ∧ ha.lanes vh ≠ [] ∧
      sa.Passes (iss ha) vh 0 [(.gbase, .o (.g 2)), (rsrc .i32, .o (.g 6))] ∧ sa.roomFor 1 1 = true ∧
      (∀ ln ∈ ha.lanes vh, sa.Hits (iss ha) .atomic 4 ln (eaG (ha.rdO64 ln (.g 2)) 0) 0x1000 false)) ∧
    (su.Issues (iss hu) ∧ su.dmode tm0 = 0 ∧ hu.lanes vh ≠ [] ∧
      su.Passes (iss hu) vh 0 [(.sbase, .o (.g 4)), (rsrc .f32, .o (.g 6))] ∧ tm0.share ≤ 0x10000000 ∧ 0x14 % 4 = 0 ∧
      0x14 < tm0.share ∧ (∀ ln ∈ hu.lanes vh, (hu.rdO ln (.g 4) + 4).toNat = 0x14)) ∧
    ((sbuf bw).team? 2 = some tm0 ∧ (sbuf bw).hand? 2 0 = some { hm with sbuf := [bw, bw] } ∧
      (sbuf bw).readOf 2 0 = none ∧ (sbuf bw).readBefore 2 0 bw.ord = false ∧ (sbuf bw).appending 2 0 = false ∧ bw.slice = none ∧
      bw.red = none ∧ (sbuf bw).inBudgets 1 ((sbuf bw).requestUnits 1 bw.pa false) = true) ∧ (sbuf bw).Sound bw.pa bw.data.length ∧
    ((sbuf bw2).team? 2 = some tm0 ∧ (sbuf bw2).hand? 2 0 = some { hm with sbuf := [bw2, bw] } ∧
      (sbuf bw2).readOf 2 0 = none ∧ (sbuf bw2).readBefore 2 0 bw2.ord = false ∧ (sbuf bw2).appending 2 0 = false ∧ bw2.slice = none ∧
      bw2.red = some red2 ∧ (bw.ord == bw2.ord && bw.req == bw2.req) = false ∧ bw2.team = 2 ∧ bw2.hix = 0 ∧
      (sbuf bw2).inBudgets 1 ((sbuf bw2).requestUnits 1 bw2.pa false) = true) ∧ (sbuf bw2).Sound bw2.pa (tySize .i32) ∧
    (sRd.readOf 2 0 = some (1, rq) ∧ sRd.team? 2 = some tm0 ∧ sRd.hand? 2 0 = some hm ∧
      sRd.readReqs.filter (fun x => x.of 2 0 && x.ord == rq.ord) = [rq] ∧ lineOf 0x1004 = lineOf 0x1000 ∧
      (∀ x ∈ rq.items, x.loc = .mem 0x1004 ∧ soundB sRd 0x1004 (tySize x.ty) = true) ∧
      sRd.loadReady 2 0 rq.ord (rq.items.map fun x => (x.loc, tySize x.ty)) = true ∧
      sRd.inBudgets 1 (sRd.requestUnits 1 0x1000 false) = true) :=
  ⟨⟨issues, ok, ok, passes, ok, all_hits⟩, ⟨issues, ok, ok, passes, ok⟩, ok, sound, ok, sound, ok⟩

/-- A hand with a buffered write, without a participant, and with an arrival on its way. -/
def hb : Hand := { hm with sbuf := [bw] }
def arr0 (kind : ArrKind) (b c : Nat) : Arrival :=
  { id := 6, kind, loc := .slice 1 0x120, addr := 0x20, b, c, team := 2, hix := 0, mask := 3, waiter := false, code := 0x11
    pend := [3] }
def sarr : State := { sm with arrivals := [arr0 .arrive 7 1] }
theorem wit_FenceAndHints : ((mk hz).Issues (iss hz) ∧ hz.parts vh = []) ∧
    ((mk hb).Issues (iss hb) ∧ hb.parts vh ≠ [] ∧ (∀ x ∈ hb.sbuf, x.red = none ∧ (x.slice = none → soundB (mk hb) x.pa x.data.length = true)) ∧
      (mk hb).appending 2 0 = false ∧ (mk hb).readBefore 2 0 (mk hb).nextId = false) ∧
    (sm.Issues im ∧ sm.Settled im ∧ hm.parts vh ≠ [] ∧ sm.Passes im vh 0 [(.gbase, .o (.g 2))]) ∧
    sarr.Issues im ∧ sarr.Settled im ∧ hm.parts vh ≠ [] ∧
      (sarr.arrivals ++ sarr.heldArr).map (fun a => (a.id, a.team, a.hix, a.mask)) = [(6, 2, 0, 3)] :=
  ⟨⟨issues, ok⟩, ⟨issues, ok⟩, ⟨issues, settled, ok, passes⟩, issues, settled, ok⟩

/-- A jump table at 0x1000 with 3 entries, of which index 2 is the last: the header at 0x20. -/
def hg : Hand := { hm with threads := hm.threads.map fun (t : Thread) => { t with stack := [(2, 0x1000), (4, 2)] } }
def sg : State := { mk hg with mem := base.mem ++ [(0x1000, 3), (0x100C, 0x20)] }
theorem wit_Transfers : sm.Issues im ∧ (∀ t ∈ hm.parts vh, sm.Wanted tm0 (hm.thr t).tl (cur0.addr + (15 : BitVec 22).signExtend 30)) ∧
    (∀ t ∈ hm.parts vh, sm.Wanted tm0 (hm.thr t).tl (hm.pos + 1 + BitVec.ofNat 30 hm.blen)) ∧
    (mk hz).Issues (iss hz) ∧ hz.parts vh = [] ∧
    (sg.Issues (iss hg) ∧ vh.u = false ∧ sg.Passes (iss hg) vh 0 [(.jbase, .o (.g 2)), (.src, .o (.g 4))] ∧
      (sg.loadReady 2 0 sg.nextId [(.mem 0x1000, 4), (.mem 0x100C, 4)] = true ∧ ∀ t ∈ hg.parts vh, (hg.rdO64 (.thr t) (.g 2)).toNat % 8 = 0 ∧
        hg.rdO (.thr t) (.g 4) < 3#32 ∧ fld (0x20 : Word) 31 30 = 0 ∧
        ([0x1000, 0x100C].map fun pa => ofBytes ((List.range 4).map fun j =>
          (hg.forward sg.nextId (.mem (pa + j))).getD (sg.viewByte (dieOf 1) (pa + j)))) = [3, 0x20]) ∧
      (∀ t ∈ hg.parts vh, sg.Wanted tm0 (hg.thr t).tl ((0x20 : Word).extractLsb' 0 30)) ∧
      (∀ ln ∈ hg.lanes vh, sg.Hits (iss hg) .read 4 ln (hg.rdO64 ln (.g 2)).toNat 0x1000 false) ∧ sg.Sound 0x1000 4 ∧
      (∀ ln ∈ hg.lanes vh, sg.Hits (iss hg) .read 4 ln ((hg.rdO64 ln (.g 2)).toNat + 4 + 4 * (hg.rdO ln (.g 4)).toNat) 0x100C false) ∧
      sg.Sound 0x100C 4) :=
  ⟨issues, all_wanted hdr0, all_wanted hdr0, issues, ok, issues, ok, passes, ok, all_wanted hdr0, all_hits, sound, all_hits,
    sound⟩

/-- Windows at 16 with a link of RET 8 back to 0x20, and at the bound where CALL fits exactly. -/
def hc (wb link : Nat) : Hand :=
  { hm with threads := hm.threads.map fun (t : Thread) => { t with wb, stack := [(wb + 30, BitVec.ofNat 32 link)] } }
theorem wit_Calls : ((mk (hc 24 0)).Issues (iss (hc 24 0)) ∧
      (∀ t ∈ (hc 24 0).parts vh, ((hc 24 0).thr t).wb + (8 : Int) + 32 ≤ ((hc 24 0).thr t).lo + tm0.depth ∧
        ((hc 24 0).thr t).wb + (8 : Int) + 32 ≤ 2 ^ 24) ∧
      ∀ t ∈ (hc 24 0).parts vh, (mk (hc 24 0)).Wanted tm0 ((hc 24 0).thr t).tl (cur0.addr + (15 : BitVec 22).signExtend 30)) ∧
    ((mk (hc 16 0x81)).Issues (iss (hc 16 0x81)) ∧
      (∀ t ∈ (hc 16 0x81).parts vh, let x := (hc 16 0x81).thr t
        let old : Int := 8 * (fld ((hc 16 0x81).rdO (.thr t) (.g 30)) 1 0 : Int)
        (0 < 16 - old ∧ x.wb + (16 - old) + 32 ≤ x.lo + tm0.depth ∧ x.wb + (16 - old) + 32 ≤ 2 ^ 24) ∧ 8 - old = 0 ∧ -old < 0 ∧ (x.lo : Int) ≤ x.wb - old) ∧
      (∀ t ∈ (hc 16 0x81).parts vh, (mk (hc 16 0x81)).Wanted tm0 ((hc 16 0x81).thr t).tl
        (cur0.addr + (15 : BitVec 22).signExtend 30)) ∧
      ∀ t ∈ (hc 16 0x81).parts vh, (mk (hc 16 0x81)).Wanted tm0 ((hc 16 0x81).thr t).tl
        (((hc 16 0x81).rdO (.thr t) (.g 30)).extractLsb' 2 30)) :=
  ⟨⟨issues, ok, all_wanted hdr0⟩, issues, ok, all_wanted hdr0, all_wanted hdr0⟩

/-- A vector entry. -/
def svec (c : Nat) (v : Dword) : State := { sm with parts := [(1, { part0 with vectors := [(c, v)], seqNext := 5 })] }
theorem wit_TrapDelivery : ((svec 0x18 0x8000000000000104).Issues im ∧ vh.u = false ∧
      (svec 0x18 0x8000000000000104).Passes im vh 0 [(.src, .o (.g 6))] ∧
      (((svec 0x18 0x8000000000000104).part tm0.part).vectors.get 0x18 0 = 0x8000000000000104 ∧
        (0x8000000000000104 : Dword).getLsbD 63 = true ∧ ∀ t ∈ hm.parts vh, (hm.thr t).tl = false)) ∧
    ((svec 0x18 0x104).Issues im ∧ (svec 0x18 0x104).Passes im vh 0 [(.src, .o (.g 6))] ∧
      (((svec 0x18 0x104).part tm0.part).vectors.get 0x18 0).getLsbD 63 = false ∧ (∀ t ∈ hm.parts vh, (hm.thr t).tl = false) ∧
      hm.parts vh ≠ [] ∧ (∀ t ∈ hm.parts vh, t < 128) ∧ tm0.core < 512 ∧ cur0.hix < 64 ∧ tm0.launch < 2 ^ 32) :=
  ⟨⟨issues, ok, passes, ok⟩, issues, passes, ok⟩

/-- In the trap region: after an instruction, after a window trap whose slide just fits, and after one whose slide does not, with the
vector entry of its cause and without; a target in the trap region. -/
def htr (x : SMap Word) : Hand :=
  { hm with inTrap := true, threads := hm.threads.map fun (t : Thread) => { t with tl := true, x, wb := 16 } }
def htw : Hand := htr [(0, 0x204), (3, 16), (4, 0x55), (5, 0x20), (6, 1)]
def htn : Hand := { htr [(0, 0x205), (3, 24), (4, 0x55), (5, 0x20), (6, 1)] with act := 1 }
def hti : Hand := { htr [(0, 0x205), (3, 16), (4, 0x55), (5, 0x120), (6, 1)] with act := 1 }
def str_ (hd : Hand) (v : SMap Dword) : State := { mk hd with parts := [(1, { part0 with vectors := v, seqNext := 5 })] }
theorem wit_TrapReturn :
    ((mk (htr [(0, 0x100), (1, 0x20)])).Issues (iss (htr [(0, 0x100), (1, 0x20)])) ∧
      (∀ t ∈ (htr [(0, 0x100), (1, 0x20)]).parts vh, fld (((htr [(0, 0x100), (1, 0x20)]).thr t).x.get 0 0) 10 8 = 1) ∧
      ∀ t ∈ (htr [(0, 0x100), (1, 0x20)]).parts vh, (mk (htr [(0, 0x100), (1, 0x20)])).Wanted tm0 false
        ((((htr [(0, 0x100), (1, 0x20)]).thr t).x.get 1 0).extractLsb' 0 30)) ∧
    ((mk htw).Issues (iss htw) ∧ (vh.u = false ∧ htw.inTrap = true ∧ ∀ t ∈ htw.parts vh, let x := htw.thr t
        let wb : Int := x.wb + (x.x.get 3 0).toInt
        fld (x.x.get 0 0) 10 8 = 2 ∧ (x.x.get 6 0).toNat ≤ 2 ∧ (x.lo : Int) ≤ wb ∧ wb + 32 ≤ x.lo + tm0.depth ∧
          wb + 32 ≤ 2 ^ 24) ∧
      ∀ t ∈ htw.parts vh, (mk htw).Wanted tm0 false (((htw.thr t).x.get 5 0).extractLsb' 0 30)) ∧
    (∀ v ∈ [[], [(5, 0x8000000000000104)]], (str_ htn v).Issues (iss htn) ∧
      (htn.inTrap = true ∧ htn.parts vh = [0] ∧ (let x := htn.thr 0
        fld (x.x.get 0 0) 10 8 = 2 ∧ (x.x.get 6 0).toNat ≤ 2 ∧ x.lo + tm0.depth < x.wb + (x.x.get 3 0).toInt + 32) ∧
       (((str_ htn v).part 1).vectors.get 5 0).getLsbD 63 = decide (v ≠ []) ∧ (str_ htn v).launch? 1 7 = some lnch ∧ lnch.st = .live ∧
       tm0.core < 512 ∧ cur0.hix < 64)) ∧
    ((mk hti).Issues (iss hti) ∧ hti.inTrap = true ∧ hti.parts vh = [0] ∧ (let x := hti.thr 0
        let wb : Int := x.wb + (x.x.get 3 0).toInt
        fld (x.x.get 0 0) 10 8 = 2 ∧ (x.x.get 6 0).toNat ≤ 2 ∧ (x.lo : Int) ≤ wb ∧ wb + 32 ≤ x.lo + tm0.depth ∧ wb + 32 ≤ 2 ^ 24 ∧
        ((mk hti).part 1).inRegion ((x.x.get 5 0).extractLsb' 0 30) = true)) ∧
    ((mk (htr [(0, 0x500)])).Issues (iss (htr [(0, 0x500)])) ∧ (htr [(0, 0x500)]).inTrap = true ∧
      ∀ t ∈ (htr [(0, 0x500)]).parts vh, 5 ≤ fld (((htr [(0, 0x500)]).thr t).x.get 0 0) 10 8) ∧
    sm.Issues im ∧ hm.inTrap = false := by
  refine ⟨⟨issues, ok, all_wanted hdr0⟩, ⟨issues, ok, all_wanted hdr0⟩, fun v h => ?_, ⟨issues, ok⟩, ⟨issues, ok⟩, issues, ok⟩
  simp only [List.mem_cons, List.not_mem_nil, or_false] at h
  rcases h with rfl | rfl <;> exact ⟨issues, ok⟩

/-- A ring with room for one record more, and a full one. -/
def ssc (prod : Word) : State := { sm with parts := [(1, { part0 with scBase := 0x10000, scProd := prod, scCons := 3, seqNext := 5 })] }
theorem wit_SystemCall : ((ssc 4098).Issues im ∧ (ssc 4098).Passes im vh 0 [(.src, .o (.g 6))] ∧
      (vh.u = false ∧ hm.inTrap = false ∧ hm.parts vh ≠ [] ∧ ((ssc 4098).part 1).scProd - ((ssc 4098).part 1).scCons ≠ 4096 ∧
        ((ssc 4098).part 1).ringWait = [] ∧ (∀ t ∈ hm.parts vh, t < 128) ∧ tm0.core < 512 ∧ cur0.hix < 64 ∧ tm0.launch < 2 ^ 32) ∧
      (ssc 4098).Settled im ∧
      ∀ t ∈ hm.parts vh, (ssc 4098).Wanted tm0 (hm.thr t).tl (hm.pos + 1 + BitVec.ofNat 30 hm.blen)) ∧
    (ssc 4099).Issues im ∧ (ssc 4099).Passes im vh 0 [(.src, .o (.g 6))] ∧
      ((ssc 4099).part 1).scProd - ((ssc 4099).part 1).scCons = 4096 :=
  ⟨⟨issues, passes, ok, settled, all_wanted hdr0⟩, issues, passes, ok⟩

def hbar (b c : Word) : Hand := { hm with k := [(0, 0x3FF0), (1, b), (2, c)] }
theorem wit_BarrierOperations :
    ((mk (hbar 1 0xFFFF)).Issues (iss (hbar 1 0xFFFF)) ∧ (mk (hbar 1 0xFFFF)).Settled (iss (hbar 1 0xFFFF)) ∧
      (mk (hbar 1 0xFFFF)).Passes (iss (hbar 1 0xFFFF)) vh 0 [(.usrc, .o (.k 0)), (.usrc, .o (.k 1)), (.usrc, .o (.k 2))] ∧
      (let u (o : Opnd) : Nat := ((hbar 1 0xFFFF).rdO .uni o).toNat
       (hbar 1 0xFFFF).parts vh ≠ [] ∧ u (.k 0) % 16 = 0 ∧ u (.k 0) < tm0.share ∧ tm0.share ≤ 0x10000000 ∧ 1 ≤ u (.k 1) ∧
        u (.k 1) ≤ 0xFFFF ∧ 1 ≤ u (.k 2) ∧ u (.k 2) ≤ 0xFFFF ∧ u (.k 2) ≠ 0) ∧
      ∀ t ∈ (hbar 1 0xFFFF).parts vh, (mk (hbar 1 0xFFFF)).Wanted tm0 ((hbar 1 0xFFFF).thr t).tl
        (cur0.addr + (15 : BitVec 22).signExtend 30)) ∧
    ((mk (hbar 0 0)).Issues (iss (hbar 0 0)) ∧ (mk (hbar 0 0)).Settled (iss (hbar 0 0)) ∧
      (mk (hbar 0 0)).Passes (iss (hbar 0 0)) vh 0 [(.usrc, .o (.k 0)), (.usrc, .o (.k 1)), (.usrc, .o (.k 2))] ∧
      ((hbar 0 0).parts vh ≠ [] ∧ ((hbar 0 0).rdO .uni (.k 2)).toNat = 0 ∧ (mk (hbar 0 0)).dmode tm0 = 0) ∧
      (mk (hbar 0 0)).Passes (iss (hbar 0 0)) vh 0 [(.usrc, .o (.k 0)), (.usrc, .o (.k 1))] (fun v => pdstOk v (.p 7)) ∧
      ∀ t ∈ (hbar 0 0).parts vh, (mk (hbar 0 0)).Wanted tm0 ((hbar 0 0).thr t).tl
        (cur0.addr + (15 : BitVec 22).signExtend 30)) :=
  ⟨⟨issues, settled, passes, ok, all_wanted hdr0⟩, issues, settled, passes, ok, passes, all_wanted hdr0⟩

/-- A barrier word with EXPECT 3, PHASE 7 and counters, and an arrival at it behind one at another word. -/
def bar (c0 c1 c2 c3 : Nat) : List Byte := [3, 7, c0, c1, c2, c3, 0, 0].flatMap (toBytes 2)
def sbar (bs : List Byte) (x : Arrival) : State :=
  { mk hm with cores := [(1, { core0 with spad := SMap.setRun (0 : Byte) [] 0x120 bs })]
               arrivals := [{ x with loc := .slice 1 0x200 }, x, x] }
/-- The word's halves as the statement reads them. -/
def barw (bs : List Byte) (x : Arrival) : List Nat :=
  let w := (sbar bs x).readLoc x.loc 16
  let w0 : Dword := BitVec.ofNat 64 (ofBytes (w.take 8))
  let w1 : Dword := BitVec.ofNat 64 (ofBytes (w.drop 8))
  [fld w0 15 0, fld w0 31 16, fld w0 47 32, fld w0 63 48, fld w1 15 0, fld w1 31 16, fld w1 63 32, (x.b + 65536 - fld w0 31 16) % 65536]
/-- R138: does the arrival at `n` stand first? -/
def barFirst (s : State) (n : Nat) (x : Arrival) : Bool :=
  let old (r : BankRank) : Bool := decide (r.since + 64 ≤ s.cyc)
  let before (a b : BankRank) : Bool := decide ((old a ∧ ¬old b) ∨ (old a ∧ old b ∧ a.since < b.since) ∨
    ((old a ↔ old b) ∧ (old a → a.since = b.since) ∧ (a.cls < b.cls ∨ (a.cls = b.cls ∧ a.key < b.key))))
  (List.range s.arrivals.length).all fun k => k == n || (match s.arrivals[k]? with
    | some y => y.loc != x.loc || (if y.team == x.team && y.hix == x.hix then decide (n < k)
      else s.arrivalReady y == false || before x.rank y.rank || (!before y.rank x.rank && decide (n < k)))
    | none => true)
/-- An arrival and a test of the hand behind one at another word; one of another team that comes after it, and one that comes first. -/
theorem wit_BarrierWords_first : (∀ k ∈ [ArrKind.init, .arrive, .test], let x := arr0 k 7 1
      (sbar [] x).arrivals[1]? = some x ∧ (sbar [] x).arrivalReady x = true ∧ barFirst (sbar [] x) 1 x = true ∧ barFirst (sbar [] x) 2 x = false) ∧
    (let x := arr0 .arrive 7 1
     ∀ r ∈ [1, 0], let s : State := { sm with arrivals := [{ x with team := 3, rank := ⟨3, r, 0⟩ }, { x with rank := ⟨3, 0, 0⟩ }] }
      barFirst s 1 { x with rank := ⟨3, 0, 0⟩ } = decide (r = 1)) ∧
    -- a held arrival that the PHASE 8 of an initialisation brings in, and an initialisation of a counter that is not zero
    (let y := arr0 .arrive 11 2
     barw [] (arr0 .init 3 8) = [0, 0, 0, 0, 0, 0, 0, 3] ∧ y.loc = (arr0 .init 3 8).loc ∧ (11 + 65536 - 8) % 65536 < 4 ∧ y.c < 3 ∧
      ({ sbar [] (arr0 .init 3 8) with heldArr := [y] } : State).arrivals[1]? = some (arr0 .init 3 8)) ∧
    (barw (bar 0 1 0 2) (arr0 .init 3 8)).getD 3 0 ≠ 0 ∧ (∀ x, (sbar [] x).hand? 2 0 = some hm) := ⟨ok, ok, ok, ok, fun _ => rfl⟩
/-- Initialisation of a word of zeros; an arrival of phase 8, short of EXPECT; the last one of phase 7; the arrivals one
ahead of the window and one behind it; one too many; a word with a reserved bit, and one that was never initialised. -/
theorem wit_BarrierWords : barw [] (arr0 .init 3 0xFFFF) = [0, 0, 0, 0, 0, 0, 0, 3] ∧
    barw (bar 0 1 0 2) (arr0 .arrive 8 2) = [3, 7, 0, 1, 0, 2, 0, 1] ∧ (0 + 2 ≤ 3 ∧ 2 ≠ 3) ∧
    barw (bar 2 0 0 1) (arr0 .arrive 7 2) = [3, 7, 2, 0, 0, 1, 0, 0] ∧ (1 + 2 = 3 ∧ 2 ≠ 3) ∧
    ((∀ y ∈ (sbar (bar 2 0 0 1) (arr0 .arrive 7 2)).heldArr, y.loc ≠ .slice 1 0x120) ∧
      (∀ e ∈ (sbar (bar 2 0 0 1) (arr0 .arrive 7 2)).cores, e.2.heldRed = []) ∧ ({} : Core).heldRed = []) ∧
    barw (bar 2 0 0 1) (arr0 .arrive 11 1) = [3, 7, 2, 0, 0, 1, 0, 4] ∧ barw (bar 2 0 0 1) (arr0 .arrive 6 1) = [3, 7, 2, 0, 0, 1, 0, 0xFFFF] ∧
    barw (bar 2 0 0 1) (arr0 .arrive 8 2) = [3, 7, 2, 0, 0, 1, 0, 1] ∧ 3 < 2 + 2 ∧
    barw ([3, 7, 0, 0, 0, 0, 0, 1].flatMap (toBytes 2)) (arr0 .arrive 7 1) = [3, 7, 0, 0, 0, 0, 0x10000, 0] ∧ barw [] (arr0 .arrive 0 1) = [0, 0, 0, 0, 0, 0, 0, 0] := ok
/-- The report of a held arrival to a visit. -/
theorem wit_BarrierWords_report : ({ sm with heldArr := [arr0 .arrive 11 2] } : State).heldArr[0]? = some (arr0 .arrive 11 2) ∧
    (arr0 .arrive 11 2).reported = false ∧ sm.hand? 2 0 = some hm ∧ hm.phase = .visit := ok

theorem reads {ε α : Type} [DecidableEq α] {f : Except ε α × State} {x : α} {s : State}
    (h : (match f with | (.ok y, t) => decide (y = x ∧ t = s) | _ => false) = true := by decide +kernel) : f = (.ok x, s) := by
  split at h
  · rename_i y t
    obtain ⟨rfl, rfl⟩ := of_decide_eq_true h
    rfl
  · cases h
/-- What a read gives. -/
def got {ε α : Type} (d : α) (f : Except ε α × State) : α := match f with | (.ok x, _) => x | _ => d
theorem gives {ε α : Type} {d : α} {f : Except ε α × State} {s : State}
    (h : (match f with | (.ok _, t) => decide (t = s) | _ => false) = true := by decide +kernel) : f = (.ok (got d f), s) := by
  split at h
  · obtain rfl := of_decide_eq_true h
    rfl
  · cases h

/-- Descriptors: a dense meld in the scratchpad, a sparse one, and a dense one in global memory; an entry. -/
def dsc (a b c : Nat) : Desc := [BitVec.ofNat 64 (a * 2 ^ 61 + 7 * 2 ^ 52 + 0x1000), BitVec.ofNat 64 (b * 2 ^ 48 + 128 * 2 ^ 32 + 128), 0, BitVec.ofNat 64 c, 0, 0, 0, 0]
def dwS : Desc := dsc 5 256 0
def dwSp : Desc := [BitVec.ofNat 64 (5 * 2 ^ 61 + 2 ^ 60 + 7 * 2 ^ 52 + 0x1000), BitVec.ofNat 64 (512 * 2 ^ 48 + 128 * 2 ^ 32 + 128), 0, 0x2000, 0, 0, 0, 0]
def dwG : Desc := dsc 4 16 0
def en0 : Entry :=
  { id := 1, queue := 1, kind := .copy, op := 0xF3, team := 2, hix := 0, tid := 1, addr := 0x11, w0 := 0, w1 := 0, a := 0, b := 0
    c := 0, fmt := 0, tag := 0x99, sub := 1 }
def tmE : Team := { tm0 with alloc := 3, share := 0x10000, spad := 0x10000 }
def hE (f : Word) : Hand := { hm with k := [(2, 0x1200), (4, 0x20), (6, f), (8, 0x1240), (10, 4095), (11, 0), (12, 0x1280)] }
def sE (f : Word) : State :=
  words 0x1280 dwG (words 0x1240 dwSp (words 0x1200 dwS { mk (hE f) tmE with
    nextId := 10, cores := [(1, { core0 with entries := [en0], slots := 5 })] }))
def iE (f : Word) : Iss := iss (hE f) tmE
/-- R141's capacities for `n` entries more of `k` slots each. -/
def room (f : Word) (q n k : Nat) : Prop := tmE.evRes + n * k ≤ 64 ∧ (sE f).slotsHeld 1 + n * k ≤ 256 ∧
  (((sE f).core 1).entries.filter fun e => e.queue == q).length + n ≤ (if q < 8 then 128 else if q < 10 then 32 else 16)
def roomB (f : Word) (q n k : Nat) : Bool := decide (tmE.evRes + n * k ≤ 64 ∧ (sE f).slotsHeld 1 + n * k ≤ 256 ∧
  (((sE f).core 1).entries.filter fun e => e.queue == q).length + n ≤ (if q < 8 then 128 else if q < 10 then 32 else 16))
theorem rooms {f : Word} {q n k : Nat} (h : roomB f q n k = true := by decide +kernel) : room f q n k :=
  have h := of_decide_eq_true h
  ⟨h.1, h.2.1, h.2.2⟩
def matX : MatOp := { m := 16, n := 128, kc := 1, kf := 0, bank := 0, apitch := 256 }

/-- Copies, a queue fence, melds of each space, and the delta queue. -/
theorem wit_EngineSubmission : let f : Word := 0x77000000
    ((sE f).Issues (iE f) ∧ (sE f).Settled (iE f) ∧ (hE f).lanes vh ≠ [] ∧ (hE f).lanes uh ≠ [] ∧ ((sE f).core 1).resid = []) ∧
    ((sE f).Passes (iE f) vh 0 [(.gbase, .o (.g 2)), (.sbase, .o (.g 4)), (.src, .o (.g 6))] ∧ room f 1 3 1 ∧
      (sE f).roomFor 1 3 = true ∧ ((hE f).lanes vh).length = 3) ∧
    ((sE f).Passes (iE f) uh 0 [(.sbase, .o (.k 4)), (.sbase, .o (.k 4)), (.gbase, .o (.k 2))] ∧ room f 1 1 2 ∧
      (sE f).roomFor 1 1 = true ∧ ∀ ln ∈ (hE f).lanes uh, ((hE f).rdO64 ln (.k 2)).toNat % 32 = 0) ∧
    ((sE f).Passes (iE f) uh 0 [(.src, .o (.imm 26)), (.src, .o (.k 4))] ∧ room f 10 1 0 ∧
      ((hE f).rdO .uni (.imm 26)).toNat = 10 ∧ ((hE f).rdO .uni (.k 4)).toNat < 2 ^ 11) ∧
    ((sE f).Passes (iE f) uh 0 [(.ugbase, .o (.k 2)), (.usrc, .o (.k 6))] ∧
      (sE f).readDesc tmE false ((hE f).rdO64 .uni (.k 2)) = (.ok dwS, sE f) ∧ dwS.sparse = false ∧
      room f ((sE f).meldQueue 1 ((sE f).pasidOf tmE) 2 0x1200 dwS true) 1 1) ∧
    ((sE f).Passes (iE f) uh 0 [(.ugbase, .o (.k 8)), (.usrc, .o (.k 6))] ∧
      (sE f).readDesc tmE false ((hE f).rdO64 .uni (.k 8)) = (.ok dwSp, sE f) ∧ dwSp.sparse = true ∧
      room f ((sE f).meldQueue 1 ((sE f).pasidOf tmE) 2 0x1240 dwSp false) 1 1) ∧
    ((sE f).readDesc tmE false ((hE f).rdO64 .uni (.k 12)) = (.ok dwG, sE f) ∧
      ((∀ r ∈ ((sE f).core 1).resid, r.desc = 0x1280 → r.team = none) ∧ ((hE f).rdO .uni (.k 10)).toNat = 4095 ∧
        ((hE f).rdO .uni (.k 4)).toNat % 16 = 0 ∧ ((hE f).rdO64 .uni (.k 2)).toNat % 64 = 0) ∧ room f 10 1 1) ∧
    (sE f).Passes (iE f) uh 0 [(.usrc, .o (.k 10)), (.usrc, .o (.k 4))] ∧
    (sE f).Passes (iE f) uh 0 ([(.usrc, .o (.k 10)), (.usrc, .o (.k 4))] ++ [(.usrc, .o (.k 4))]) ∧
    (sE f).Passes (iE f) vh 0 ([(.usrc, .o (.k 10)), (.usrc, .o (.k 4))] ++ [(.dst, .o (.g 8)), (.ugbase, .o (.k 2))]) :=
  ⟨⟨issues, settled, ok⟩, ⟨passes, rooms, ok⟩, ⟨passes, rooms, ok⟩, ⟨passes, rooms, ok⟩, ⟨passes, reads, ok, rooms⟩,
    ⟨passes, reads, ok, rooms⟩, ⟨reads, ok, rooms⟩, passes, passes, passes⟩
/-- The matrix forms: the operands pass the checks of R304. -/
theorem wit_EngineSubmission_matrix :
    ((sE 0x77000000).Passes (iE 0x77000000) uh 0 [(.usrc, .o (.k 4)), (.ugbase, .o (.k 2)), (.fsrc, .o (.k 6))] ∧
      (sE 0x77000000).mmaCheck tmE false false matX 0x77000000 ((hE 0x77000000).rdO64 .uni (.k 2)) ((hE 0x77000000).rdO .uni (.k 4)).toNat =
        (.ok dwS, sE 0x77000000) ∧ room 0x77000000 ((sE 0x77000000).meldQueue 1 ((sE 0x77000000).pasidOf tmE) 2 0x1200 dwS false) 1 1 ∧
      ∀ ln ∈ (hE 0x77000000).lanes uh, (hE 0x77000000).rdO ln (.k 6) = 0x77000000) ∧
    (sE 0x77800000).mmaCheck tmE false true matX 0x77800000 ((hE 0x77800000).rdO64 .uni (.k 8)) ((hE 0x77800000).rdO .uni (.k 4)).toNat =
        (.ok dwSp, sE 0x77800000) ∧ room 0x77800000 ((sE 0x77800000).meldQueue 1 ((sE 0x77800000).pasidOf tmE) 2 0x1240 dwSp false) 1 1 :=
  ⟨⟨passes, reads, rooms, ok⟩, reads, rooms⟩

/-- An entry in the middle of a core's list, done with Translation, or a fence. -/
def tmC : Team := { tm0 with subs := [0, 1, 2], evRes := 3 }
def sC (e : Entry) : State :=
  { mk hm tmC with nextId := 10, parts := [(1, { part0 with shares := [(actCopy, 1024)] })]
                   cores := [(1, { core0 with entries := [{ en0 with id := 7, queue := 2 }, e, { e with id := 8 }] })] }
def doneE (k : EKind) (q : Nat) : Entry := { en0 with kind := k, queue := q, phase := .done 9 0xABCD }
def fenceE (l : List Nat) : Entry := { en0 with kind := .qfence, await := l }
theorem wit_CompletionRecords :
    (∀ x ∈ [(EKind.copy, 1), (.matrix, 8), (.meld, 9), (.delta, 10)], let e := doneE x.1 x.2
      (sC e).headOf 1 x.2 = some e ∧ (sC e).team? e.team = some tmC ∧ (sC e).launchDead tmC.part tmC.launch = false ∧
      e.kind = x.1 ∧ (e.op ≠ 0xF4#8 ∨ 9 = 0) ∧ e.phase = .done 9 0xABCD ∧ e.queue < 16 ∧ e.hix < 64 ∧ e.tid < 256 ∧
      ∀ hd ∈ (sC e).hands, ∀ x ∈ hd.threads, x.wait = .none) ∧
    ((sC (fenceE [99])).headOf 1 1 = some (fenceE [99]) ∧ ∀ x ∈ ((sC (fenceE [99])).core 1).entries, x.id ∉ [99]) ∧
    (sC (fenceE [7])).headOf 1 1 = some (fenceE [7]) ∧ ∃ x ∈ ((sC (fenceE [7])).core 1).entries, x.id ∈ [7] := ok
/-- Two records of entries that succeeded; one thread's tag is the second's, and no record's. -/
def tmV : Team := { tm0 with records := [⟨0x2100000000000055, 0, 1, 0⟩, ⟨0x4100000000000077, 0, 2, 0⟩], evRes := 5 }
def hV : Hand := { hm with act := 2, k := [(1, 0x77)] }
theorem wit_CompletionRecords_events : (mk hV tmV).Issues (iss hV tmV) ∧ (mk hV tmV).Passes (iss hV tmV) vh 0 [(.dst64, .o (.g 12))] ∧
    (mk hV tmV).Passes (iss hV tmV) vh 0 [(.dst64, .o (.g 12)), (.src, .o (.k 1))] ∧
    ((mk hV tmV).dmode tmV = 0 ∧ (∀ r ∈ tmV.records, fld r.w0 55 48 = 0) ∧ (hV.lanes vh).flatMap hV.laneThreads = [1] ∧
      1 < hV.threads.length ∧ (tmV.records.find? fun r => lo32 r.w0 == hV.rdO (.thr 1) (.k 1)) = tmV.records[1]? ∧ tmV.records.Nodup ∧
      (∀ r ∈ tmV.records, lo32 r.w0 ≠ hV.rdO (.thr 1) (.g 6)) ∧ ∀ hd ∈ (mk hV tmV).hands, ∀ x ∈ hd.threads, x.wait = .none) ∧
    ∀ t ∈ [1], (mk hV tmV).Wanted tmV (hV.thr t).tl (cur0.addr + (15 : BitVec 22).signExtend 30) :=
  ⟨issues, passes, passes, ok, all_wanted hdr0⟩

/-- The first chunk of 4096 bytes, and the last, which is shorter; with room in the period for all of its pieces, and for none. -/
def cpyE (p : Nat) : Entry := { en0 with a := 0x5000, b := 0x2000, c := 6000, phase := .begun, prog := p }
def sCb (e : Entry) (full : Bool) : State :=
  if full then { sC e with parts := [(1, { part0 with shares := [(actCopy, 0)] })], budget := [⟨actCopy, 0, 1, 1⟩] } else sC e
theorem wit_CopyChunk : ∀ p ∈ [0, 1], ∀ full ∈ [true, false], let e := cpyE p
    let s := sCb e full
    let n := min 4096 (6000 - p * 4096)
    s.headOf 1 1 = some e ∧ s.team? e.team = some tmC ∧ tmC.core = 1 ∧ s.engLive tmC = true ∧ e.kind = .copy ∧ e.op = 0xF3#8 ∧
    (e.phase = .waiting ∨ e.phase = .begun) ∧ e.w0.getLsbD 0 = false ∧ e.w0.getLsbD 1 = false ∧ fld e.c 31 0 = 6000 ∧ e.prog = p ∧
    0 < n ∧ (e.a.toNat + p * 4096) % 4096 + n ≤ 4096 ∧ (e.b.toNat + p * 4096) % 4096 + n ≤ 4096 ∧
    e.a.toNat + p * 4096 < 2 ^ 52 ∧ e.b.toNat + p * 4096 < 2 ^ 52 ∧ ¬(e.a.toNat < e.b.toNat + 6000 ∧ e.b.toNat < e.a.toNat + 6000) ∧
    s.tlbHit (s.core 1).tlb (s.pasidOf tmC) (0x2000 + p * 4096) .read e.privT = some (0x2000 + p * 4096, tlb0) ∧
    s.tlbHit (s.core 1).tlb (s.pasidOf tmC) (0x5000 + p * 4096) .write e.privT = some (0x5000 + p * 4096, tlb0) ∧
    tlb0.uncached = false ∧ ((List.range n).all fun j => soundB s (0x2000 + p * 4096 + j) 1) = true ∧
    soundB s (0x5000 + p * 4096) n = true ∧ s.inBudget actCopy (dieOf 1) tmC.part (ceilDiv n 128 - e.counted) capCopy = !full := ok

/-- A residency in the scratchpad, a residency of global memory in MA1, and entries of each operation. -/
def rsS : Resid := { id := 4, pasid := 5, desc := 0x1200, team := some 2, arr := 0, first := 0, count := 1, copy := dwS }
def rsG : Resid := { id := 5, pasid := 5, desc := 0x1280, team := none, arr := 1, first := 0, count := 1, copy := dwG }
def melE (op : BitVec 8) (a w0 : Dword) (d : Desc) : Entry := { en0 with kind := .meld, queue := 8, a, copy := d, op, w0 }
def matE : Entry := { en0 with kind := .matrix, queue := 8, b := 0x1200, copy := dwS, op := 0xF5, fmt := 0x77000000 }
def sM (e : Entry) (rs rg : Resid) (limit : Nat) : State :=
  { mk hm tmE with nextId := 10, parts := [(1, { part0 with kitty := [(0, limit)] })]
                   cores := [(1, { core0 with resid := [rs, rg], entries := [{ en0 with id := 7, queue := 2 }, e, { e with id := 8 }] })] }
def rst (r : Resid) (stale filled : Bool) (d : Desc) : Resid := { r with stale, filled, copy := d }
def dwR : Desc := dsc 7 256 0
def stp (e : Entry) : Entry := { e with again := .stopped }
def melD (op : BitVec 8) (w0 : Dword) : Entry := melE op 0x1280 w0 dwG
/-- A core whose page 0 leads to another package's memory. -/
def sAway (e : Entry) (rs rg : Resid) : State :=
  let s := sM e rs rg 1
  { s with parts := [(1, { s.part 1 with peers := 2 })], cores := [(1, { s.core 1 with tlb := [⟨5, 0, 65536, 0x8010000000000, 0xFF#8, false⟩] })] }
/-- Entries that allocate, fill a global meld and an ephemeral one with and without contents, invalidate, unpin, and pin: a meld that is
pinned, one that is not, and one whose fill a save stopped. -/
theorem wit_MeldEntriesAndInvalidation_meld :
    (∀ x ∈ [(melE 0xA0 0x1200 0 dwS, rsS, rsG), (melE 0xA1 0x1200 0 dwS, rsS, rsG), (melE 0xA1 0x1200 0 dwS, rst rsS false true dwS, rsG),
        (melD 0xA1 0, rsS, rsG), (melD 0xA4 0, rsS, rsG), (melD 0xA3 0, rsS, rsG), (melD 0xA3 0x1000, rsS, rsG),
        (melD 0xA3 0x1000, rsS, { rsG with pinned := true }), (stp (melD 0xA3 0x1000), rsS, rsG)],
      ∀ limit ∈ [0, 1], let s := sM x.1 x.2.1 x.2.2 limit
      s.headOf 1 8 = some x.1 ∧ s.team? x.1.team = some tmE ∧ s.engLive tmE = true ∧ x.1.phase = .waiting ∧ x.1.kind = .meld ∧
      s.findResid 1 (s.pasidOf tmE) 2 x.1.desc (Desc.spad x.1.copy) = some (if x.1.desc = 0x1200 then x.2.1 else x.2.2) ∧
      tmE.lostMeld x.1.desc x.1.copy = false ∧ x.2.1.fill = false ∧ x.2.2.fill = false ∧ x.2.2.stale = true ∧ x.1.limit = none ∧
      (s.part 1).kitty.get (Desc.kitty dwG) 0 = limit) ∧
    (rsG.arr = 1 ∧ Desc.spad dwS = true ∧ Desc.spad dwG = false ∧ Desc.count dwG = 1 ∧ (melD 0xA3 0).w0.getLsbD 12 = false ∧
      (melD 0xA3 0x1000).w0.getLsbD 12 = true) := ok
/-- A fill from this package's HBM, and from another package's memory. -/
theorem wit_MeldEntriesAndInvalidation_fill : ∀ x ∈ [(sM (melD 0xA1 0) rsS rsG 1, true), (sAway (melD 0xA1 0) rsS rsG, false)],
    x.1.headOf 1 8 = some (melD 0xA1 0) ∧ x.1.findResid 1 5 2 (melD 0xA1 0).desc false = some rsG ∧
    (x.1.sourceSpans tmE false dwG).2 = x.1 ∧ (x.1.sourceSpans tmE false dwG).1 ≠ [] ∧
    ((x.1.sourceSpans tmE false dwG).1.all fun y => decide (y.1 < 0xC000000000)) = x.2 := ok
/-- A pin of a pinned meld in a core that is at a limit which was lowered, and of one whose source has left. -/
theorem wit_MeldEntriesAndInvalidation_pin : ∀ r ∈ [{ rsG with pinned := true }, { rsG with spans := [(0xC000000000, 1)] }],
    let s := (sM (melD 0xA3 0x1000) rsS r 1).updCore 1 fun c => { c with overLimit := [Desc.kitty dwG] }
    s.headOf 1 8 = some (melD 0xA3 0x1000) ∧ s.team? 2 = some tmE ∧ s.findResid 1 (s.pasidOf tmE) 2 0x1280 false = some r ∧
    (melD 0xA3 0x1000).limit = none ∧ Desc.kitty dwG ∈ (s.core 1).overLimit ∧ (s.part 1).kitty.get (Desc.kitty dwG) 0 = 1 ∧
    (r.pinned = true → (((s.core 1).resid.filter fun x => x.pinned && x.kitty == Desc.kitty dwG).map (·.count)).foldl (· + ·) 0 = 1) ∧
    (r.spans.all fun x => decide (x.1 < 0xC000000000)) = r.pinned := ok
/-- Matrix entries at contents that are not stale, with a source that has left, at an ephemeral meld without contents, at one whose fill a
save stopped, and at stale contents with REFRESH = 0 and 1; and MLDV with two cores and one still to acknowledge. -/
theorem wit_MeldEntriesAndInvalidation :
    (∀ x ∈ [(matE, rst rsS false true dwS), (matE, { rst rsS false true dwS with spans := [(0xC000000000, 1)] }), (matE, rst rsS true false dwS),
        (stp matE, rst rsS true true dwS), (matE, rst rsS true true dwS), (matE, rst rsS true true dwR)], let s := sM x.1 x.2 rsG 0
      s.headOf 1 8 = some x.1 ∧ s.findResid 1 (s.pasidOf tmE) 2 x.1.desc (Desc.spad x.1.copy) = some x.2 ∧ x.1.phase = .waiting ∧
      tmE.lostMeld x.1.desc x.1.copy = false ∧ x.1.kind = .matrix ∧ x.2.fill = false) ∧
    [Desc.refresh dwS, Desc.refresh dwR] = [false, true] ∧
    ∀ c ∈ [[1, 2], [1]], let e : Entry := { melD 0xA4 0 with phase := .acking c }
      let s := sM e rsS rsG 0
      s.headOf 1 8 = some e ∧ s.team? e.team = some tmE ∧
      (∀ r ∈ (s.core 1).resid, (!r.dead && r.pasid == s.pasidOf tmE && r.desc.toNat == e.desc) = true →
        ∀ x ∈ (s.core 1).entries, x.resid ≠ r.id) ∧
      ∀ r ∈ (s.core 1).resid, ∀ r' ∈ (s.core 1).resid, r.id = r'.id → r = r' := ok

/-- The last slot of a fill of 130 × 130 elements of 16 bits. -/
def dwB : Desc := [BitVec.ofNat 64 (5 * 2 ^ 61 + 0x40), BitVec.ofNat 64 (130 * 2 ^ 48 + 130 * 2 ^ 32 + 260), 0, 0, 0, 0, 0, 0]
def filE : Entry := { melE 0xA1 0x1200 0 dwB with phase := .begun, resid := 4, filling := true, slot := 3 }
def rsB : Resid := { rsS with fill := true, stale := false, copy := dwB }
def sFil : State := sM filE rsB rsG 0
def filRanges : List (Nat × Nat) := (List.range 2).map fun k =>
  (dwB.src + (128 + k) * dwB.pitch + 128 * efWidth dwB.ef / 8, ceilDiv (130 * efWidth dwB.ef) 8 - 128 * efWidth dwB.ef / 8)
/-- A K step of a matrix entry of 16 × 32 on a meld of 35 × 20, in the format of code 0. -/
def dwI : Desc := [BitVec.ofNat 64 (5 * 2 ^ 61 + 0x40), BitVec.ofNat 64 (35 * 2 ^ 48 + 20 * 2 ^ 32 + 40), 0, 0, 0, 0, 0, 0]
def stpE : Entry :=
  { matE with a := 0x400, copy := dwI, fmt := 0, phase := .begun, resid := 4, w0 := 0xF58C0FA844900006
              w1 := BitVec.ofNat 64 (1 * 2 ^ 56 + 2 * 2 ^ 50 + 2 * 2 ^ 38) }
def rsI : Resid := rst rsS false true dwI
def sStp : State := sM stpE rsI rsG 0
def stpRanges : List (Nat × Nat) × List (Nat × Nat) :=
  stepRanges (matOp stpE.w0 stpE.w1) dwI 0 stpE.a.toNat 0 (min (Desc.kstep dwI) ((matOp stpE.w0 stpE.w1).positions dwI))
theorem wit_FillsAndSteps :
    (sFil.headOf 1 8 = some filE ∧ sFil.team? 2 = some tmE ∧ sFil.engLive tmE = true ∧ filE.filling = true ∧ filE.op ≠ 0xA3#8 ∧
      (sFil.core 1).resid.find? (fun x => x.id == filE.resid) = some rsB ∧ dwB.sparse = false ∧ efTwin dwB.ef = false ∧
      8 ≤ efWidth dwB.ef ∧ dwB.n ≤ 65536 ∧ filE.slot % dwB.ns * 128 = 128 ∧ min (128 + 128) dwB.n = 130 ∧
      filE.slot / dwB.ns * dwB.kstep = 128 ∧ min (128 + dwB.kstep) dwB.k - 128 = 2 ∧ dwB.count ≤ filE.slot + 1) ∧
    readRanges tmE filE.privT dwB.space filRanges sFil = (.ok (got [] (readRanges tmE filE.privT dwB.space filRanges sFil)), sFil) ∧
    (sStp.headOf 1 8 = some stpE ∧ sStp.team? 2 = some tmE ∧ sStp.engLive tmE = true ∧ stpE.kind = .matrix ∧ stpE.phase = .begun ∧
      stpE.filling = false ∧ (sStp.core 1).resid.find? (fun x => x.id == stpE.resid) = some rsI ∧
      stpE.prog < (matOp stpE.w0 stpE.w1).kc ∧ fld stpE.fmt 31 28 = 0 ∧ stpE.prog = 0) ∧
    readRanges tmE stpE.privT .spad stpRanges.1 sStp = (.ok (got [] (readRanges tmE stpE.privT .spad stpRanges.1 sStp)), sStp) ∧
    readRanges tmE stpE.privT .spad stpRanges.2 sStp = (.ok (got [] (readRanges tmE stpE.privT .spad stpRanges.2 sStp)), sStp) :=
  ⟨ok, gives, ok, gives, gives⟩

/-- A drone, resident and spilled to 0x2000, beside another; an image of it; a record at 0x40 in the share. -/
def drR : DroneEnt := ⟨0x15, true, 1, 9, 0, 0, 5, 0x2000⟩
def drS : DroneEnt := ⟨0x15, false, 1, 9, 0, 0, 5, 0x2000⟩
def drO : DroneEnt := ⟨0x16, true, 1, 8, 0, 0, 5, 0x2000⟩
def drn (h bank : Nat) : Drone := ⟨1, h, bank, 0, 0, 7, [(0, 0x40000000)]⟩
def drE (op : BitVec 8) (ph : EPhase) : Entry :=
  { en0 with queue := 10, kind := .delta, op, phase := ph, a := 0x15, c := if op = 0xB7 then 0x3000 else 0x40 }
def sDr (e : Entry) (ents : List DroneEnt) (drs : List Drone) : State :=
  words 0x2000 [BitVec.ofNat 64 (2 ^ 56 + 0x15 * 2 ^ 32 + 9), 0, 0, 0, 0, 0, 0, 0, 0x3F80000040000000] { mk hm with
    nextId := 10, parts := [(1, { part0 with drones := ents })]
    cores := [(1, { core0 with drones := drs, entries := [{ en0 with id := 7, queue := 2 }, e, { e with id := 8 }] })] }
def sDrS : State := sDr (drE 0xBA .waiting) [drO, drS] [drn 0x16 8]
def drS' : State := sDrS.catchUp (dieOf 1) (sDrS.clockOf (dieOf drS.core))
def drImg : List Dword × List Byte := got ([], []) (drS'.readImage 1 5 false 0x2000 0 0)
theorem wit_DronesAndDelta :
    (∀ x ∈ [(0xB8#8, [drO], none), (0xB7#8, [drO, drR], some drR), (0xB7#8, [drO], none), (0xB8#8, [drO, drR], some drR),
        (0xB8#8, [drO, drS], some drS), (0xB9#8, [drO, drS], some drS), (0xBA#8, [drO, drR], some drR), (0xBA#8, [drO, drS], some drS)],
      let e := drE x.1 .waiting
      let s := sDr e x.2.1 (drn 0x16 8 :: if x.2.2 = some drR then [drn 0x15 9] else [])
      s.headOf 1 10 = some e ∧ s.team? 2 = some tm0 ∧ s.engLive tm0 = true ∧ e.kind = .delta ∧ e.phase = .waiting ∧ e.prog = 0 ∧ e.again = .fresh ∧
      fld e.a 31 0 = 0x15 ∧ fld e.w0 5 3 = 0 ∧ fld e.w0 2 0 = 0 ∧ e.w0.getLsbD 12 = false ∧ s.droneEnt tm0.part 0x15 = x.2.2 ∧
      (x.2.2 = some drR → (s.droneAt 1 tm0.part 0x15).isSome) ∧ (x.2.2 ≠ some drR → s.droneCap 1 0 0 = false ∧ s.droneRun 1 0 0 = some 9)) ∧
    (drR.core = 1 ∧ drS.res = false ∧ (let e := stp (drE 0xBA .waiting)
      let s := sDr e [drO, drS] [drn 0x16 8]
      s.headOf 1 10 = some e ∧ s.droneEnt tm0.part 0x15 = some drS ∧ s.droneCap 1 0 0 = false ∧ s.droneRun 1 0 0 = some 9 ∧
      e.again = .stopped)) ∧ drS'.readImage 1 drS.pasid false drS.spill.toNat drS.dvq drS.dkq = (.ok drImg, drS') ∧
    (headerOk drImg.1 0x15 drS.dvq drS.dkq = true ∧ (drImg.1.getD 1 0).getLsbD 63 = false ∧
      let e := drE 0xBA .begun
      let s := sDr e [drO, drR] [drn 0x16 8, drn 0x15 9]
      s.headOf 1 10 = some e ∧ s.team? 2 = some tm0 ∧ s.engLive tm0 = true ∧ tm0.core = 1 ∧ e.phase = .begun ∧
      s.droneAt 1 tm0.part 0x15 = some (drn 0x15 9) ∧ 16 * ((drn 0x15 9).dkq + 1) ≤ 128 ∧
      (e.c.toNat + e.prog * 272) % 2 ^ 32 + 272 ≤ tm0.share ∧ tm0.share ≤ 0x10000000) :=
  ⟨ok, ok, gives, ok⟩

/-- Banks 0, 2 and 3 allocated, of which the hand claims 2 and another hand 3; and the same with 2 to be freed. -/
def tmA : Team := { tm0 with alloc := 13, claims := [(2, 1), (3, 4)], accMem := [(5, 7), (2049, 8)] }
def hA : Hand := { hm with k := [(0, 0x40), (1, 1), (2, 2), (3, 5), (4, 3), (5, 8)] }
def iA : Iss := iss hA tmA
theorem wit_Accumulators : (mk hA tmA).Issues iA ∧ (mk hA tmA).Settled iA ∧
    ((mk hA tmA).Passes iA vh 0 [(.dst, .o (.g 8)), (.usrc, .o (.k 2))] ∧ (mk hA tmA).Passes iA vh 0 [(.usrc, .o (.k 2)), (.usrc, .o (.k 1))] ∧
      (mk hA tmA).Passes iA vh 0 [(.usrc, .o (.k 4)), (.usrc, .o (.k 1))]) ∧
    (hA.parts vh ≠ [] ∧ (∀ hd ∈ (mk hA tmA).hands, ∀ x ∈ hd.threads, x.wait = .none) ∧
      -- R158: two free banks are found at 4; five are not
      (4 + 2 ≤ tmA.acc ∧ tmA.acc ≤ 256 ∧ (∀ j, j < 2 → tmA.alloc.getLsbD (4 + j) = false) ∧
        ∀ g, g < 4 → ∃ j, j < 2 ∧ tmA.alloc.getLsbD (g + j) = true) ∧
      (∀ f, f < 4 → ∃ j, j < 5 ∧ tmA.alloc.getLsbD (f + j) = true) ∧
      -- bank 2 is the hand's, bank 3 another's
      tmA.alloc.getLsbD 2 = true ∧ tmA.claims.get 2 0 = cur0.hix + 1 ∧ tmA.claims.get 3 0 ≠ 0 ∧ tmA.claims.get 3 0 ≠ cur0.hix + 1 ∧
      3 + 1 ≤ tmA.acc) ∧
    ∀ t ∈ hA.parts vh, (mk hA tmA).Wanted tmA (hA.thr t).tl (cur0.addr + (15 : BitVec 22).signExtend 30) :=
  ⟨issues, settled, ⟨passes, passes, passes⟩, ok, all_wanted hdr0⟩
/-- Elements of the hand's bank 2 and of bank 1, which is not allocated; a drain of both behind 0x40. -/
theorem wit_Accumulators_elements : (mk hA tmA).Issues iA ∧ (mk hA tmA).Settled iA ∧
    (mk hA tmA).Passes iA vh 0 [(.dst, .o (.g 8)), (.src, .o (.k 1)), (.src, .o (.k 3))] ∧
    (mk hA tmA).Passes iA vh 0 [(.src, .o (.k 2)), (.src, .o (.k 3)), (.src, .o (.g 6))] ∧
    (mk hA tmA).Passes iA vh 0 [(.usrc, .o (.k 1)), (.usrc, .o (.k 2))] ∧
    (mk hA tmA).Passes iA vh 0 [(.usrc, .o (.k 0)), (.usrc, .o (.k 1)), (.usrc, .o (.k 2))] ∧ hA.parts vh ≠ [] ∧
    (∀ bank ∈ [1, 2], bank < tmA.acc ∧ (tmA.alloc.getLsbD bank = true → tmA.claims.get bank 0 = cur0.hix + 1)) ∧
    (∀ ln ∈ hA.lanes vh, ∀ k ∈ [1, 2], (hA.rdO ln (.k k)).toNat * 1024 + (hA.rdO ln (.k 3)).toNat < 3 * 1024) ∧
    0x40 % 4 = 0 ∧ 64 * 2 * 4 ≤ 64 * 2 * 4 ∧ 0x40 + 15 * (64 * 2 * 4) + 64 * 2 * 4 ≤ tmA.share ∧ tmA.share ≤ 0x10000000 :=
  ⟨issues, settled, passes, passes, passes, passes, ok⟩

def hS : Hand := { h1 with k := [(2, 0x1200)] }
def sS (l : List Resid) : State := words 0x1200 dwG { mk hS with nextId := 10, cores := [(1, { core0 with resid := l })] }
def rsQ : Resid := { rsG with desc := 0x1200, first := 15, count := 31 }
theorem wit_SparseSelect : (sS []).Issues (iss hS) ∧ (sS []).Settled (iss hS) ∧ Ty.i8 ∈ [Ty.i8, .z8, .e4m3, .e5m2, .i4] ∧
    (sS []).Passes (iss hS) vh 2 [(.dst64, .o (.g 6)), (.src64, .o (.g 4))] ∧
    (sS []).Passes (iss hS) vh 0 [(.dst, .o (.g 6)), (.ugbase, .o (.k 2))] ∧
    (hS.lanes vh ≠ [] ∧ (sS []).dmode tm0 = 0 ∧ (sS []).findResid 1 ((sS []).pasidOf tm0) 2 0x1200 (Desc.spad dwG) = none ∧
      (sS [rsQ]).findResid 1 ((sS [rsQ]).pasidOf tm0) 2 0x1200 (Desc.spad dwG) = some rsQ ∧ rsQ.arr < 2 ∧ rsQ.first < 16 ∧ rsQ.count < 32) ∧
    (sS []).readDesc tm0 false (hS.rdO64 .uni (.k 2)) = (.ok dwG, sS []) ∧
    (sS [rsQ]).readDesc tm0 false (hS.rdO64 .uni (.k 2)) = (.ok dwG, sS [rsQ]) :=
  ⟨issues, settled, ok, passes, passes, ok, reads, reads⟩

/-- One participant; a card at 0x1200; a counter or a list descriptor at 0x1280. -/
def hW : Hand := { hand0 [[(2, 0x1200), (4, 0x1280), (6, 2), (8, 0x1000), (10, 1)], []] with act := 1 }
def cardw : List Dword := [0x100000000, 0x10, 0, 0, 0, 3, 0, 0]
def sW (j : List Dword) : State := words 0x1280 j (words 0x1200 cardw { mk hW with nextId := 10 })
/-- The counter at 1 whose CONT names the card at 0x1200, with the page tables. -/
def sWc : State := ptab (sW [1, 0x1200])
def sWu : State := sWc.writeHome 0 0x1280 (toBytes 4 0)
theorem wit_WorkIssue : (sW [0, 0]).Issues (iss hW) ∧ (sW [0, 0]).Settled (iss hW) ∧
    (hW.lanes vh = [.thr 0] ∧ (sW [0, 0]).launch? 1 7 = some lnch ∧ lnch.st = .live) ∧
    (sW [0, 0]).Passes (iss hW) vh 0 [(.gbase, .o (.g 2))] ∧
    (sW [0, 0]).Hits (iss hW) .read 64 (.thr 0) (hW.rdO64 (.thr 0) (.g 2)).toNat 0x1200 false ∧ (sW [0, 0]).Sound 0x1200 64 ∧
    (let card := cardOf ((List.range 8).map fun j => (sW [0, 0]).wordAt (0x1200 + 8 * j))
     card.rejected false = false ∧ fld card.w3 51 0 = 0 ∧ lnch.dmode = 0 ∧ ((sW [0, 0]).part 1).dies = [0]) ∧
    (sW [0, 0]).DealRoom 0 1 7 ∧ (sW [0, 0]).slotsFor 1 1 = true ∧
    ((sW [0, 0]).Passes (iss hW) vh 0 [(.gbase, .o (.g 4))] ∧
      (sW [0, 0]).Passes (iss hW) vh 0 [(.gbase, .o (.g 4)), (.src, .o (.g 6)), (.gbase, .o (.g 8))] ∧
      (sW [0, 0]).Passes (iss hW) vh 0 [(.gbase, .o (.g 2)), (.src, .o (.g 10))]) ∧
    (sW [0, 0]).Hits (iss hW) .atomic 16 (.thr 0) (hW.rdO64 (.thr 0) (.g 4)).toNat 0x1280 false ∧ (sW [0, 0]).Sound 0x1280 16 ∧
    ((sW [0, 0]).wordAt 0x1280 = 0 ∧ (sW [0, 0]).wordAt 0x1288 = 0 ∧ (sW [0, 0]).roomFor 1 1 = true ∧
      (sW [2, 0x1200]).wordAt 0x1280 = 2 ∧ fld ((sW [2, 0x1200]).wordAt 0x1288) 63 52 = 0 ∧ (hW.rdO (.thr 0) (.g 6)).toNat ≠ 0 ∧
      (hW.rdO64 (.thr 0) (.g 8)).toNat ≠ 0 ∧ (((sW [0, 0]).part 1).hasCore (hW.rdO (.thr 0) (.g 10)).toNat = true)) ∧
    (sW [0, 0]).Hits (iss hW) .read 64 (.thr 0) (hW.rdO64 (.thr 0) (.g 8)).toNat 0x1000 false ∧
    -- a counter at 1, without CONT and with one
    ((sW [1, 0]).Issues (iss hW) ∧ (sW [1, 0]).Passes (iss hW) vh 0 [(.gbase, .o (.g 4))] ∧
      (sW [1, 0]).Hits (iss hW) .atomic 16 (.thr 0) (hW.rdO64 (.thr 0) (.g 4)).toNat 0x1280 false ∧
      fld ((sW [1, 0]).wordAt 0x1280) 31 0 = 1 ∧ (sW [1, 0]).Releasable lnch 0x1280 none) ∧
    (sWc.Issues (iss hW) ∧ sWc.Passes (iss hW) vh 0 [(.gbase, .o (.g 4))] ∧ sWc.Settled (iss hW) ∧
      sWc.Hits (iss hW) .atomic 16 (.thr 0) (hW.rdO64 (.thr 0) (.g 4)).toNat 0x1280 false ∧ sWc.Sound 0x1280 16 ∧
      (sWc.launch? 1 7 = some lnch ∧ sWc.roomFor 1 1 = true ∧ fld (sWc.wordAt 0x1280) 31 0 = 1 ∧ fld (sWc.wordAt 0x1280) 63 32 = 0 ∧
        fld (sWc.wordAt 0x1288) 63 52 = 0) ∧
      ∃ c, sWc.Releasable lnch 0x1280 (some c)) := by
  refine ⟨issues, settled, ok, passes, hits, sound, ok, ⟨{}, ok⟩, ok, ⟨passes, passes, passes⟩, hits, sound, ok, hits,
    ⟨issues, passes, hits, ok, show fld _ 51 0 = 0 from ok⟩, issues, passes, settled, hits, sound, ok,
    cardOf ((List.range 8).map fun j => sWu.wordAt (0x1200 + 8 * j)), ok, ⟨0x1200, false, tlbOf 5 0 0x1200 0xFF, ?_⟩, {}, ok⟩
  exact ⟨ok, ok, ok, ok, sound, rfl, ok⟩

/-- A list of capacity 4 with `tail - head` items of 8 bytes at 0x2000. -/
def wl (head tail : Nat) : List Dword := [0x2000, BitVec.ofNat 64 (4 * 2 ^ 32 + 2 ^ 29), BitVec.ofNat 64 (head * 2 ^ 32 + tail), 0]
def sL (l : List Dword) : State := words 0x1280 l { mk hW with nextId := 10 }
def ap0 : Append :=
  { team := 2, hix := 0, tids := [0], tid := 0, order := 4, desc := 0x1280, item := toBytes 8 0x1122334455667788, src := none
    pend := [9], lid := 9, core := 1, part := 1, launch := 7, pasid := 5, org := 3, code := 0x11, privT := false }
def dieA : Die := { appends := [{ ap0 with order := 5 }, ap0] }
def sAp (l : List Dword) : State := ptab { sL l with dies := [dieA, {}, {}, {}, {}, {}, {}, {}] }
theorem wit_WorkLists : (sL (wl 5 5)).Issues (iss hW) ∧ (sL (wl 5 5)).Settled (iss hW) ∧ hW.lanes vh = [.thr 0] ∧
    (sL (wl 5 5)).Hits (iss hW) .atomic 32 (.thr 0) (hW.rdO64 (.thr 0) (.g 4)).toNat 0x1280 false ∧
    (sL (wl 5 5)).Hits (iss hW) .read 32 (.thr 0) (hW.rdO64 (.thr 0) (.g 4)).toNat 0x1280 false ∧ (sL (wl 5 5)).Sound 0x1280 32 ∧
    ((sL (wl 5 5)).Passes (iss hW) vh 0 [(.dst, .o (.g 12)), (.gbase, .o (.g 4)), (.src64, .o (.g 2))] ∧
      (sL (wl 5 5)).Passes (iss hW) vh 0 [(.dst, .o (.g 12)), (.gbase, .o (.g 4))] ∧
      (sL (wl 5 5)).Passes (iss hW) vh 0 [(.dst64, .o (.g 12)), (.gbase, .o (.g 4))]) ∧
    ((sL (wl 5 5)).dmode tm0 = 0 ∧ (sL (wl 5 5)).die? (paDie 0x1280) = some {} ∧ (sL (wl 5 5)).roomFor 1 1 = true ∧ (sL (wl 5 5)).slotsFor 1 1 = true ∧
      (∀ x ∈ [(sL (wl 5 5), 5, 5), (sL (wl 0xFFFFFFFF 3), 0xFFFFFFFF, 3), (sAp (wl 2 5), 2, 5), (sAp (wl 2 6), 2, 6)],
        let w (j : Nat) : Dword := x.1.wordAt (0x1280 + 8 * j)
        fld (w 0) 63 52 = 0 ∧ fld (w 1) 63 32 = 4 ∧ fld (w 1) 31 29 = 1 ∧ fld (w 1) 27 0 = 0 ∧ fld (w 3) 63 52 = 0 ∧
          fld (w 2) 63 32 = x.2.1 ∧ fld (w 2) 31 0 = x.2.2)) ∧
    -- the unit's append: into the last free slot, and on a full list
    (∀ l ∈ [wl 2 5, wl 2 6], (sAp l).die? 0 = some dieA ∧ dieA.appends[1]? = some ap0 ∧
      (dieA.appends.filter fun y => y.team == ap0.team && y.hix == ap0.hix && y.order == ap0.order && y.desc == ap0.desc) = [ap0] ∧
      (sAp l).launchD ap0.part ap0.launch = false ∧ ap0.src = none ∧ ap0.item.length = 8) ∧
    ((5 + 2 ^ 32 - 2) % 2 ^ 32 < 4 ∧ 4 ≤ (6 + 2 ^ 32 - 2) % 2 ^ 32 ∧ (0x2000 + 5 % 4 * 8) % 8 = 0 ∧ 0x1280 + 32 ≤ 0x2008) ∧
    (sAp (wl 2 5)).walkVa 5 0x2008 .write false = ((.ok 0x2008 false, some (tlbOf 5 0 0x2008 0xFF)), sAp (wl 2 5)) ∧
    (sAp (wl 2 5)).Sound 0x2008 8 :=
  ⟨issues, settled, ok, hits, hits, sound, ⟨passes, passes, passes⟩, ok, ok, ok, ok, sound⟩

/-- A hand at privilege T with a range of words and of addresses, with nothing of its PASID on its way, and with a load; and the same
at U. -/
def hI (t : Bool) : Hand := { h1 with inTrap := t, k := [(2, 0x15), (3, 2), (4, 0x10000), (6, 1)] }
theorem wit_CacheControl : ∀ t ∈ [true, false], (mk (hI t)).Issues (iss (hI t)) ∧ (mk (hI t)).Settled (iss (hI t)) ∧
    (mk (hI t)).Passes (iss (hI t)) uh 0 [(.dst, .o (.k 8)), (.src, .o (.k 2)), (.src, .o (.k 3))] ∧
    (mk (hI t)).Passes (iss (hI t)) uh 0 [(.dst, .o (.k 8)), (.src64, .o (.k 4)), (.src, .o (.k 6))] ∧
    (uh.u = true ∧ (hI t).parts uh ≠ [] ∧ (hI t).inTrap = t ∧ ((hI t).rdO64 .uni (.k 4)).toNat < 2 ^ 52 ∧
      (mk (hI t)).accepted (fun u => (mk (hI t)).pasidOf u == 5) (fun _ => true) = true) ∧
    let s : State := { mk (hI t) with cores := sRd.cores }
    s.Issues (iss (hI t)) ∧ s.Passes (iss (hI t)) uh 0 [(.dst, .o (.k 8)), (.src64, .o (.k 4)), (.src, .o (.k 6))] ∧
    (s.pasidOf tm0 = 5 ∧ s.accepted (fun u => s.pasidOf u == 5) (fun _ => true) = false) := by
  intro t h
  simp only [List.mem_cons, List.not_mem_nil, or_false] at h
  rcases h with rfl | rfl <;> exact ⟨issues, settled, passes, passes, ok, issues, passes, ok⟩

/-- The word of IADD g5, g4, 1. -/
def w11 : Dword := 0x101C0284E27C0000
/-- Threads that want the blocks at 0x15 and 0x20, whose headers have TRAPENT's and HOLD's bits clear. -/
def hdrB : Dword := BitVec.ofNat 64 (2 ^ 56 + 3 * 2 ^ 30 + 5 * 2 ^ 18 + 2 ^ 13)
def hBc (u : Option CodeAddr) (ts : List Thread) : Hand :=
  { hand0 [] with phase := .boundary, how := .toEnd, act := 0, upos := u, swc := 3, threads := ts }
def want2 : List Thread := [{ wa := 0x20 }, { wa := 0x15 }, { wa := 0x20, st := .parked }, { st := .retired }]
/-- The word `w` at 0x15, headers at 0x20, 0x110 and 0x114, and a vector for Timer. -/
def sBcH (w : Dword) (hd : Hand) (tm : Team := tm0) : State :=
  words 0xA8 [w] (words 0x100 [hdrB] (words 0x880 [hdrB] (words 0x8A0 [hdrB] { mk hd tm with
    mem := [], parts := [(1, { part0 with vectors := [(0x17, 0x8000000000000110)] })]
    cores := [(1, { core0 with icache := [(1, 5, 0x15, w), (1, 5, 0x20, hdrB), (1, 5, 0x110, hdrB), (1, 5, 0x114, hdrB)] })] })))
def sBcW (w : Dword) (u : Option CodeAddr) (ts : List Thread) : State := sBcH w (hBc u ts)
def sBc : Option CodeAddr → List Thread → State := sBcW hdrB
def bcOk (s : State) (hd : Hand) (tp due : Bool := false) : Bool :=
  decide ((∃ tm, tm ∈ s.teams ∧ s.team? 2 = some tm ∧ s.handLive tm = true ∧ s.timerDue tm hd = due) ∧ s.hand? 2 0 = some hd ∧
    hd.phase = .boundary ∧ hd.busy = 0 ∧ s.appending 2 0 = false ∧ hd.tp = tp)
abbrev wants (s : State) (hd : Hand) (r : Bool) (a : CodeAddr) : Prop :=
  (∃ x ∈ hd.threads, x.st = .unparked ∧ x.wa = a) ∧ (s.part 1).inRegion a = r ∧
    (s.isHold tm0 r a = false ∨ ∀ x ∈ hd.threads, x.st ≠ .retired ∧ (s.part 1).inRegion x.wa = r → a.toNat ≤ x.wa.toNat)
theorem wants_all {s : State} {hd : Hand} {r : Bool} {P : CodeAddr → Prop} (h : ∀ x ∈ hd.threads, wants s hd r x.wa → P x.wa) :
    ∀ a, wants s hd r a → P a := fun a w => by
  obtain ⟨x, hx, _, rfl⟩ := w.1
  exact h x hx w
abbrev ahead (q : Option CodeAddr) (a : CodeAddr) : Prop := ∀ y, q = some y → y.toNat < a.toNat
def picks (s : State) (hd : Hand) (r : Bool) (q : Option CodeAddr) (b : CodeAddr) (wrap : Bool) : Prop := wants s hd r b ∧
  if wrap then ∀ a, wants s hd r a → ¬ahead q a ∧ b.toNat ≤ a.toNat else ahead q b ∧ ∀ a, wants s hd r a → ahead q a → b.toNat ≤ a.toNat
theorem picked {s : State} {hd : Hand} {r : Bool} {y b : CodeAddr} {wrap : Bool} (h : decide (wants s hd r b ∧
      if wrap then ∀ x ∈ hd.threads, wants s hd r x.wa → ¬y.toNat < x.wa.toNat ∧ b.toNat ≤ x.wa.toNat
      else y.toNat < b.toNat ∧ ∀ x ∈ hd.threads, wants s hd r x.wa → y.toNat < x.wa.toNat → b.toNat ≤ x.wa.toNat) = true := by decide +kernel) :
    picks s hd r (some y) b wrap := by
  obtain ⟨h, k⟩ := of_decide_eq_true h
  refine ⟨h, ?_⟩
  cases wrap
  · refine ⟨by simpa [ahead] using k.1, wants_all fun x hx w q => k.2 x hx w (by simpa [ahead] using q)⟩
  · exact wants_all fun x hx w => ⟨by simpa [ahead] using (k x hx w).1, (k x hx w).2⟩
theorem picked_first {s : State} {hd : Hand} {r : Bool} {b : CodeAddr} (h : decide (wants s hd r b ∧
      ∀ x ∈ hd.threads, wants s hd r x.wa → b.toNat ≤ x.wa.toNat) = true := by decide +kernel) : picks s hd r none b false := by
  obtain ⟨h, k⟩ := of_decide_eq_true h
  refine ⟨h, ?_⟩
  exact ⟨(fun _ h => nomatch h), wants_all fun x hx w _ => k x hx w⟩
theorem unwanted {s : State} {hd : Hand} {r : Bool} (h : decide (∀ x ∈ hd.threads, ¬wants s hd r x.wa) = true := by decide +kernel) :
    ∀ a, ¬wants s hd r a := fun a => by
  have h := of_decide_eq_true h
  exact wants_all (P := fun _ => False) (fun x hx w => h x hx w) a
/-- A VOID header, one with a reserved bit, a word that is none, and a HOLD header. -/
def hdrVd : Dword := hdrB ||| 0x4000
def hdrRs_ : Dword := hdrB ||| 1
def hdrHo : Dword := hdrB ||| 0x1000
/-- User blocks: the one ahead of 0x10, the lowest one at the first boundary, and the lowest one after a wrap from 0x20; a HOLD block at the
lowest wanted address, and above a parked thread. -/
theorem wit_BlockChoice : (bcOk (sBc (some 0x10) want2) (hBc (some 0x10) want2) = true ∧ bcOk (sBc none want2) (hBc none want2) = true ∧
      bcOk (sBc (some 0x20) want2) (hBc (some 0x20) want2) = true) ∧
    (∀ a, ¬wants (sBc (some 0x10) want2) (hBc (some 0x10) want2) true a) ∧ (∀ a, ¬wants (sBc none want2) (hBc none want2) true a) ∧
    (∀ a, ¬wants (sBc (some 0x20) want2) (hBc (some 0x20) want2) true a) ∧
    picks (sBc (some 0x10) want2) (hBc (some 0x10) want2) false (some 0x10) 0x15 false ∧
    picks (sBc none want2) (hBc none want2) false none 0x15 false ∧
    picks (sBc (some 0x20) want2) (hBc (some 0x20) want2) false (some 0x20) 0x15 true ∧
    picks (sBcW hdrHo none want2) (hBc none want2) false none 0x15 false ∧
    (let ts : List Thread := { wa := 0x14, st := .parked } :: want2
     picks (sBcW hdrHo none ts) (hBc none ts) false none 0x20 false) ∧
    (sBc (some 0x10) want2).Code tm0 false 0x15 hdrB ∧ (sBc none want2).Code tm0 false 0x15 hdrB ∧
    (sBc (some 0x20) want2).Code tm0 false 0x15 hdrB ∧ (sBcW hdrHo none want2).Code tm0 false 0x15 hdrHo ∧
    (fld hdrB 63 56 = 1 ∧ hdrMalformed ((sBc none want2).part 1) 0x15 hdrB = false ∧ hdrB.getLsbD 14 = false) :=
  ⟨ok, unwanted, unwanted, unwanted, picked, picked_first, picked, picked_first, picked_first, code, code, code, code, ok⟩
/-- The other words at 0x15; and hands with nothing unparked: in the region, outside it, and retired. -/
theorem wit_BlockChoice_none : ((bcOk (sBcW hdrVd none want2) (hBc none want2) && bcOk (sBcW hdrRs_ none want2) (hBc none want2) && bcOk (sBcW w11 none want2) (hBc none want2)) = true ∧
      fld hdrVd 63 56 = 1 ∧ hdrVd.getLsbD 14 = true ∧ fld hdrRs_ 63 56 = 1 ∧ hdrMalformed ((sBc none want2).part 1) 0x15 hdrRs_ = true ∧
      fld w11 63 56 ≠ 1) ∧
    (picks (sBcW hdrVd none want2) (hBc none want2) false none 0x15 false ∧ picks (sBcW hdrRs_ none want2) (hBc none want2) false none 0x15 false ∧
      picks (sBcW w11 none want2) (hBc none want2) false none 0x15 false) ∧
    ((sBcW hdrVd none want2).Code tm0 false 0x15 hdrVd ∧ (sBcW hdrRs_ none want2).Code tm0 false 0x15 hdrRs_ ∧
      (sBcW w11 none want2).Code tm0 false 0x15 w11) ∧
    (let h : Hand := { hBc none (want2.drop 2) with inTrap := true }
     bcOk (sBcH hdrB h) h = true ∧ (∀ a, ¬wants (sBcH hdrB h) h true a) ∧ ∀ a, ¬wants (sBcH hdrB h) h false a) ∧
    (let h : Hand := hBc none (want2.drop 2)
     bcOk (sBcH hdrB h) h = true ∧ (∀ a, ¬wants (sBcH hdrB h) h true a) ∧ (∀ a, ¬wants (sBcH hdrB h) h false a) ∧ ∃ x ∈ h.threads, x.st ≠ .retired) ∧
    (let h : Hand := hBc none (want2.drop 3)
     bcOk (sBcH hdrB h) h = true ∧ (∀ a, ¬wants (sBcH hdrB h) h true a) ∧ (∀ a, ¬wants (sBcH hdrB h) h false a) ∧ ∀ x ∈ h.threads, x.st = .retired) :=
  ⟨ok, ⟨picked_first, picked_first, picked_first⟩, ⟨code, code, code⟩, ⟨ok, unwanted, unwanted⟩, ⟨ok, unwanted, unwanted, ok⟩, ok, unwanted, unwanted, ok⟩
/-- Blocks in the trap region: on entry, ahead of the trap position, and after a wrap; a pending Timer, and one that comes due. -/
def hTr (t : Bool) (p : CodeAddr) : Hand :=
  { hBc (some 0x10) [{ wa := 0x114, tl := true }, { wa := 0x110, tl := true }, { wa := 0x15 }] with inTrap := t, tpos := some p }
def hTp (tp : Bool) (tmr : Dword) : Hand := { hBc (some 0x10) want2 with tp, tmr }
def choosesOn (s1 s : State) : Bool :=
  match exec (.blockChoice 2 0) s1, exec (.blockChoice 2 0) s with | .next t, .next u => decide (t ≠ s1 ∧ u = t) | _, _ => false
theorem wit_BlockChoice_region : ((bcOk (sBcH hdrB (hTr false 0x110)) (hTr false 0x110) &&
      bcOk (sBcH hdrB (hTr true 0x110)) (hTr true 0x110) && bcOk (sBcH hdrB (hTr true 0x114)) (hTr true 0x114)) = true) ∧
    picks (sBcH hdrB (hTr false 0x110)) (hTr false 0x110) true none 0x110 false ∧
    picks (sBcH hdrB (hTr true 0x110)) (hTr true 0x110) true (some 0x110) 0x114 false ∧
    picks (sBcH hdrB (hTr true 0x114)) (hTr true 0x114) true (some 0x114) 0x110 true ∧
    ((sBcH hdrB (hTr false 0x110)).Code tm0 true 0x110 hdrB ∧ (sBcH hdrB (hTr true 0x110)).Code tm0 true 0x114 hdrB ∧
      (sBcH hdrB (hTr true 0x114)).Code tm0 true 0x110 hdrB) ∧
    (let s := sBcH hdrB (hTp true 0)
     let ts := [0, 1]
     bcOk s (hTp true 0) true = true ∧
     ts = (List.range 4).filter (fun k => ((hTp true 0).thr k).st == .unparked && !((hTp true 0).thr k).tl) ∧
     choosesOn ((s.updHand 2 0 fun x => { x with tp := false }).takeFaults 2 0 0 (ts.map fun k => (k, { cause := 0x17 }))) s = true) ∧
    (let s := sBcH hdrB (hTp false 5) { tm0 with rcyc := 5 }
     bcOk s (hTp false 5) false true = true ∧
     (match exec (.timerPending 2 0) s with | .next s1 => choosesOn s1 s | _ => false) = true) :=
  ⟨ok, picked_first, picked, picked, ⟨code, code, code⟩, ok, ok⟩

def hEv : Hand := { hm with sw := true, tmr := 5, pend :=
  [{ id := 3, dst := .ent 0 9, val := some 5 }, { id := 4, dst := .qpred 2, val := some 1 }, { id := 5, dst := .ent 0 99, val := some 7 }] }
/-- A window that moves up by one of depth 64 beside a pending result that stays, and beside one that it takes out. -/
def hFr (e : Nat) : Hand := { hm with pend := [{ id := 3, dst := .frame 0 1 64 [], val := some 0 }, { id := 4, dst := .ent 0 e, val := none }] }
def stayB (hd : Hand) (u lo hi : Nat) (r : Pend) : Bool :=
  match r.dst with | .ent t e => t != u || decide (lo ≤ e ∧ e < hi) | _ => decide (hd.pend ≠ [])
/-- The result of an ICINV, while the hand's fence awaits the arrival 6, and when it awaits another. -/
def hInv (f : List Nat) : Hand := { hm with fence := f, pend := [{ id := 3, dst := .ent 0 9, val := some 0, inval := some (0x15, 2) }] }
def sInv (f : List Nat) : State := { mk (hInv f) with arrivals := [arr0 .arrive 7 1] }
def rec1 : RingRec := ⟨1, 2, 3, 4, 5, 6, 7, 8⟩
def sRg (prod : Word) : Part := { part0 with scBase := 0x10000, scProd := prod, scCons := 4, ringWait := [rec1, rec1] }
theorem wit_HandEvents : (∀ st ∈ [TeamSt.running, .saving], let tm : Team := { tm0 with rcyc := 5, st }
      let s := mk hEv tm
      s.team? 2 = some tm ∧ s.hand? 2 0 = some hEv ∧ s.launchDead 1 7 = false ∧ hEv.tmr ≠ 0 ∧ hEv.tmr.toNat ≤ tm.rcyc) ∧
    (∀ n ∈ [0, 1, 2], ((hEv.pend[n]?).bind (·.val)).isSome) ∧
    (∀ e ∈ [0, 1, 63], (mk (hFr e)).team? 2 = some tm0 ∧ (mk (hFr e)).hand? 2 0 = some (hFr e) ∧
      ((hFr e).pend[0]?).map (fun p => (p.dst, p.val)) = some (.frame 0 1 64 [], some 0) ∧
      (hFr e).pend.all (stayB (hFr e) 0 1 64) = decide (e ≠ 0)) ∧
    ((∀ f ∈ [[6], [7]], (sInv f).team? 2 = some tm0 ∧ (sInv f).hand? 2 0 = some (hInv f) ∧
        ((hInv f).pend[0]?).map (fun p => (p.dst, p.val, p.inval)) = some (.ent 0 9, some 0, some (0x15, 2))) ∧
      (∀ f ∈ [[6], [7]], ((sInv f).arrivals ++ (sInv f).heldArr).map (·.id) = [6])) ∧
    (∀ n ∈ [0x1003, 0x1004], ({ base with parts := [(1, sRg (BitVec.ofNat 32 n))] } : State).part 1 = sRg (BitVec.ofNat 32 n) ∧
      (sRg (BitVec.ofNat 32 n)).ringWait = rec1 :: [rec1]) ∧
    (sRg 0x1003).scProd - 4 ≠ 4096 ∧ (sRg 0x1004).scProd - 4 = 4096 := ⟨ok, ok, ok, ok, ok, ok⟩

def org1 : Origin := { id := 4, addr := 0x11, team := 2, hix := 0, part := 1, launch := 7, mask := 7, undrained := 2, performed := 1 }
def chq (c row : Nat) : State :=
  { sm with cyc := c, chanQ := [(65, [⟨1, true, 5, none⟩, ⟨2, false, 9, none⟩, ⟨1, false, 9, some rq⟩, ⟨3, true, 2, none⟩])], openRow := [(65, row)] }
/-- A load's request at a channel that has room, and at one that holds 64. -/
def sRq (n : Nat) : State :=
  { sRd with parts := [(1, { part0 with shares := [(actHbm, 1024)] })], chanQ := [(paChan 0x1000, List.replicate n ⟨1, true, 5, none⟩)] }
/-- Bank 3: a hand's load in front of a remote window's, and another of the same row; or the last one when it has waited 64 cycles. -/
def rqB : ReadReq :=
  { rq with loc := .slice 1 0x1430, items := [{ pend := 3, loc := .slice 1 0x1434, ty := .i32, high := false, home := false, tids := [0] }] }
def bq : BankReq := { bank := 3, row := 5, rank := ⟨3, 2, 5⟩, team := 2, hix := 0, ord := 2, read := some rqB }
def bq7 : BankReq := { bank := 3, row := 7, rank := ⟨3, 9, 4⟩, team := 3, hix := 0, ord := 2 }
def bqs : List BankReq := [{ bq7 with row := 5, rank := ⟨4, 0, 5⟩ }, { bq7 with bank := 2 }, bq, bq7]
def bqFirst (s : State) (x z : BankReq) : Bool :=
  let old (x : BankReq) : Bool := decide (x.rank.since + 64 ≤ s.cyc)
  decide ((old x ∧ ¬old z) ∨ (old x ∧ old z ∧ x.rank.since < z.rank.since) ∨
    ((old x ↔ old z) ∧ (old x → x.rank.since = z.rank.since) ∧ (x.rank.cls < z.rank.cls ∨ x.rank.cls = z.rank.cls ∧ x.rank.key < z.rank.key)))
def sBq (c : Nat) (l : List BankReq) : State := { sm with cyc := c, cores := [(1, { core0 with bankQ := l })] }
def bqServed (s : State) (r x : BankReq) : Bool := x.bank == 3 && x.row == r.row && s.bankReady x
/-- A store and a reduction that wait at bank 18 of the hand's core. -/
def bws (red : Bool) : BufWrite :=
  { bw with pa := 0x120, slice := some 1, org := 0, ord := 6, data := if red then [] else [5, 6, 7, 8]
            red := if red then some red2 else none }
def bqw : BankReq := { bank := 18, row := 0, rank := ⟨3, 0, 5⟩, team := 2, hix := 0, ord := 6 }
def sBw (red : Bool) : State :=
  { sm with hands := [{ hm with sbuf := [bws red, bw] }], cores := [(1, { core0 with bankQ := [bqw] })] }
def msg (src : Nat) (clock : List Nat) (pa : Nat) : WMsg := ⟨src, clock, pa, [1, 2]⟩
def dieM : Die := { inbox := [msg 2 [0, 0, 1, 0, 0, 0, 0, 0] 0x100, msg 3 [0, 0, 1, 1, 0, 0, 0, 0] 0x102] }
/-- An origin entry with two requests left, and with one; a queue where nothing is old, and where requests are; the
request that stands first; a message that is ready, and one that counts a write that is not applied. -/
theorem wit_MemorySteps : (∀ o ∈ [org1, { org1 with undrained := 1 }],
      let s : State := { mk hm with cores := [(1, { core0 with origins := [org1, o] })] }
      (s.core 1).origins[1]? = some o ∧ o.performed ≠ 0) ∧ 1 < org1.undrained ∧
    (∀ n ∈ [0, 64], (sRq n).readOf 2 0 = some (1, rq) ∧ (sRq n).team? 2 = some tm0 ∧ (sRq n).hand? 2 0 = some hm ∧
      rq.loc = .mem 0x1000 ∧ (sRq n).readReqs.filter (fun x => x.of 2 0 && x.ord == rq.ord) = [rq] ∧
      (∀ x ∈ rq.items, x.loc = .mem 0x1004 ∧ soundB (sRq n) 0x1004 (tySize x.ty) = true) ∧ lineOf 0x1004 = lineOf 0x1000 ∧
      (sRq n).loadReady 2 0 rq.ord (rq.items.map fun x => (x.loc, tySize x.ty)) = true ∧
      (sRq n).inBudgets 1 ((sRq n).requestUnits 1 0x1000 true) = true ∧ ((sRq n).chanQ.get (paDie 0x1000 * 64 + paChan 0x1000) []).length = n) ∧
    (∀ x ∈ [(20, 1), (20, 7), (517, 7), (518, 7)], (chq x.1 x.2).chanQ.get (1 * 64 + 1) [] ≠ [] ∧ (chq x.1 x.2).hand? 2 0 = some hm) ∧
    ((∀ x ∈ (chq 20 1).chanQ.get 65 [], 20 < x.since + 512) ∧ (∀ x ∈ (chq 20 7).chanQ.get 65 [], 20 < x.since + 512 ∧ x.row ≠ 7) ∧
      (∃ x ∈ (chq 517 7).chanQ.get 65 [], x.since + 512 ≤ 517)) ∧
    (({ base with dies := [dieM] } : State).die? 0 = some dieM ∧
      ∀ k, k < 8 → (msg 2 [0, 0, 1, 0, 0, 0, 0, 0] 0).clock.getD k 0 ≤ dieM.clock.getD k 0 + if k = 2 then 1 else 0) ∧
    ∃ k, k < 8 ∧ ¬(msg 3 [0, 0, 1, 1, 0, 0, 0, 0] 0).clock.getD k 0 ≤ dieM.clock.getD k 0 + if k = 3 then 1 else 0 := ok
/-- The request that stands first at a bank, before and after one has waited 64 cycles; a store and a reduction that wait. -/
theorem wit_MemorySteps_banks :
    (∀ y ∈ [(10, bq), (68, bq7)], let s := sBq y.1 bqs
      y.2 ∈ (s.core 1).bankQ ∧ y.2.bank = 3 ∧ s.bankReady y.2 = true ∧
      (∀ x ∈ (s.core 1).bankQ, x.bank = 3 → s.bankReady x = true → x ≠ y.2 → bqFirst s y.2 x = true) ∧
      ∀ x ∈ (s.core 1).bankQ, ∀ z ∈ (s.core 1).bankQ, bqServed s y.2 x = true → z.like x = true → bqServed s y.2 z = true) ∧
    -- the load alone at its row
    (let s := sBq 10 [bq, bq7]
     s.team? 2 = some tm0 ∧ s.hand? 2 0 = some hm ∧ (s.core 1).bankQ.filter (bqServed s bq) = [bq] ∧ bq.read = some rqB ∧ s.bankReady bq = true ∧
      bqFirst s bq bq7 = true ∧ (rqB.team, rqB.hix, rqB.ord) = (bq.team, bq.hix, bq.ord) ∧
      (∀ y ∈ rqB.items, y.loc = .slice 1 0x1434 ∧ y.home = false) ∧ 0x1434 / 16 % 64 = 3 ∧ 0x1434 / 1024 % 512 = 5 ∧ s.readReqs = [rqB] ∧
      ∀ x ∈ [bq, bq7], ∀ z ∈ [bq, bq7], bqServed s bq x = true → z.like x = true → bqServed s bq z = true) ∧
    ∀ red ∈ [false, true], let s := sBw red
      bqw ∈ (s.core 1).bankQ ∧ s.bankReady bqw = true ∧ (s.core 1).bankQ = [bqw] ∧ bqw.read = none ∧ (bws red).team = bqw.team ∧
      (bws red).hix = bqw.hix ∧ s.team? 2 = some tm0 ∧
      s.hand? 2 0 = some { hm with sbuf := [bws red, bw] } ∧ ({ hm with sbuf := [bws red, bw] } : Hand).sbuf.filter (fun w => w.ord == bqw.ord &&
        w.slice == some 1 && w.pa / 16 % 64 == bqw.bank && w.pa / 1024 % 512 == bqw.row) = [bws red] ∧
      (red = false → (bws red).red = none ∧ (bws red).data ≠ []) := ⟨ok, ok, ok⟩

theorem wit_ClockAndHeat : (7 < 8 ∧ [0, 31, 32, 95, 96, 191, 192, 5000].length = 8 ∧ 64 ≠ base.refillNext.getD base.refill ∧ base.refillNext.getD base.refill = 32) ∧
    (base.part 1).clusters ≠ [] ∧ 1 < 16 ∧ 100 ≤ 109 ∧ 109 < 110 ∧ 95 ≤ 99 ∧ 89 < 90 ∧ 1499 < 1500 := ok

/-- Cards: of one core and 300 threads, and the smallest and largest such; a record of a grid of 3 × 4 × 2. -/
def rc1 : LaunchRec :=
  ⟨BitVec.ofNat 64 (0x20 * 2 ^ 34 + 3 * 2 ^ 32), BitVec.ofNat 64 (2 * 2 ^ 48 + 3 * 2 ^ 32 + 2 ^ 16 + 4 * 2 ^ 12),
    BitVec.ofNat 64 (16 * 2 ^ 48 + 5 * 2 ^ 39 + 299 * 2 ^ 26), BitVec.ofNat 64 (8 * 2 ^ 32), 0, 0, 0, 0⟩
def ln1 : Launch := { lnch with record := rc1 }
def crd (level threads root am : Nat) : Card :=
  ⟨BitVec.ofNat 64 (0x20 * 2 ^ 34 + level * 2 ^ 31 + (threads - 1) * 2 ^ 18 + am * 2 ^ 17 + root * 2 ^ 16), 0xABCDE12345678, 0, 0,
    0x0001000200010000, 17, 0x1111222233334444, 5⟩
def dc (c : Card) : DealCard := { part := 1, launch := 7, card := c, prio := 2, since := 5 }
def dieD (c : DealCard) : Die := { deal := [c] }
/-- The launch in a D mode with a trace buffer of `tlen` KiB at 0x5000. -/
def lnD (dmode tlen : Nat) (tr : List TraceEnt) : Launch :=
  { ln1 with record := { rc1 with w0 := rc1.w0 ||| BitVec.ofNat 64 (dmode * 2 ^ 30), w4 := BitVec.ofNat 64 tlen, w5 := 0x5000 }, trace := tr }
def sDe (c : DealCard) (l : Launch) (tms : List Team) : State :=
  ptab { base with parts := [(1, { part0 with shares := [(actDealer, 1024)] })], launches := [l], teams := tms
                   cyc := 0x800005, dies := [dieD c, {}, {}, {}, {}, {}, {}, {}] }
def dealsB (c : DealCard) (l : Launch) (tms : List Team) (ks : List Nat) : Bool := let s := sDe c l tms
  decide (s.die? 0 = some (dieD c) ∧ (dieD c).heldFor = [] ∧ s.launch? 1 7 = some l ∧ l.st = .live ∧ s.dumping 1 7 = false ∧
    s.inBudget actDealer 0 1 1 capDealer = true ∧ c.card.aff = 0 ∧ l.record.acc ≤ 256 ∧ c.card.am = false) &&
  ks.all fun k => decide ((s.part 1).hasCore k = true ∧ dieOf k = 0 ∧ (∀ t ∈ tms, t.resident = true → t.core ≠ k) ∧
    (s.core k).msgs = [] ∧ (s.core k).drones = [] ∧ (s.core k).regCap = [0x40000, 0x40000, 0x40000, 0x40000])
/-- A team on core 0, so that core 1 comes first. -/
def tmF : Team := { tm0 with core := 0 }
/-- Single cards without a trace, and one that is recorded: with room, and without. -/
theorem wit_TeamPlacement : ((dealsB (dc (crd 2 300 0 0)) ln1 [tmF] [1] && dealsB (dc (crd 2 300 1 0)) ln1 [tmF] [1] &&
      dealsB (dc (crd 1 4 0 0)) ln1 [tmF] [1]) = true ∧ ln1.dmode = 0 ∧ (crd 2 300 0 0).level ≠ 3 ∧ (crd 1 4 0 0).level ≠ 3 ∧
      [(crd 2 300 1 0).root, (crd 2 300 0 0).root] = [true, false] ∧ tmF.resident = true ∧ 0 < tmF.hands) ∧
    (let c := dc (crd 2 300 0 0)
     ∀ n ∈ [0, 1], let l := lnD 1 n []
      let s := sDe c l [tmF]
      dealsB c l [tmF] [1] = true ∧ l.dmode = 1 ∧ s.traceWaits l 1 = false ∧ (8 + 16 * (l.trace.length + 1) ≤ l.record.tlen ↔ n = 1) ∧
      (match s.vwrite l.pasid (0x5000 + 8) (toBytes 8 (1 * 2 ^ 55) ++ toBytes 8 c.card.w5.toNat) with
        | .ok u => (u.vwrite l.pasid 0x5000 (toBytes 8 1)).toBool
        | .error _ => false) = true ∧
      (s.vwrite l.pasid 0x5000 (toBytes 8 (2 ^ 63))).toBool = true ∧ l.record.trace = 0x5000) := ⟨ok, ok⟩
/-- In replay: the card's own entry, and no entry that is left. -/
theorem wit_TeamPlacement_replay : let c := dc (crd 2 300 0 0)
    ∀ tr ∈ [[], [⟨1, 0, c.card.w5, false⟩]], let l := lnD 2 1 tr
      dealsB c l [tmF] [1] = true ∧ l.dmode = 2 ∧ (tr ≠ [] → (tr.find? fun e => e.core == 1 && !e.placed) = some ⟨1, 0, c.card.w5, false⟩) ∧
      ∀ e ∈ tr, e.core = 1 := ok
/-- A gang card on a cluster of six idle cores. -/
theorem wit_TeamPlacement_gang : let c := dc (crd 3 300 1 0)
    dealsB c ln1 [] [0, 1, 2, 3, 4, 5] = true ∧ c.card.level = 3 ∧ c.card.root = true ∧ ln1.record.s3 = 4 ∧ ln1.dmode = 0 := ok
/-- A resumption of team 2, whose section stands at 0x1000, and of the same in replay. -/
def tmSv : Team := { tm0 with st := .saved, section_ := 0x1000, share := 0x40 }
def dcR : DealCard := { dc (crd 2 300 0 0) with resume := some 0x1000, team := 2 }
def sRsm (l : Launch) : State := words 0x1048 [0x0140000000000040] (sDe dcR l [{ tmF with id := 3 }, tmSv])
def hdrRsm (l : Launch) : List Byte := got [] ((sRsm l).vread 5 0x1000 128)
theorem wit_TeamPlacement_resume : (∀ d ∈ [0, 2], let l := lnD d 1 []
      dealsB dcR l [{ tmF with id := 3 }, tmSv] [1] = true ∧ (sRsm l).launch? 1 7 = some l ∧ (sRsm l).team? 2 = some tmSv ∧ dcR.gang = none ∧
      (let w9 : Dword := BitVec.ofNat 64 (ofBytes (((hdrRsm l).drop 72).take 8))
       fld w9 63 56 = 1 ∧ fld w9 55 54 = 1 ∧ fld w9 31 0 = 0x40) ∧ (hdrRsm l).length = 128) ∧
    (sRsm (lnD 0 1 [])).vread 5 tmSv.section_ 128 = (.ok (hdrRsm (lnD 0 1 [])), sRsm (lnD 0 1 [])) ∧
    (sRsm (lnD 2 1 [])).vread 5 tmSv.section_ 128 = (.ok (hdrRsm (lnD 2 1 [])), sRsm (lnD 2 1 [])) := ⟨ok, gives, gives⟩
/-- In replay the resumption and the traced card, which stands behind one whose entry is not next; the first card otherwise. -/
def sAg (dmode : Nat) : State :=
  { sDe dcR (lnD dmode 1 [⟨1, 0, 17, false⟩, ⟨1, 0, 6, false⟩]) [] with
    dies := [{ deal := [dcR, { dc (crd 2 300 0 0) with card := { crd 2 300 0 0 with w5 := 6 } }, dc (crd 2 300 0 0)] }, {}, {}, {}, {}, {}, {}, {}] }
theorem wit_TeamPlacement_aged : ∀ x ∈ [(2, 0), (2, 2), (0, 0)], let s := sAg x.1
    ∃ d, s.die? 0 = some d ∧ ∃ c, d.deal[x.2]? = some c ∧ (s.launch? 1 7).map Launch.dmode = some x.1 ∧ (c.resume.isSome = true ↔ x.2 = 0) ∧
      (x.2 = 2 → s.isNext c = true) ∧ c.since + 0x800000 ≤ s.cyc ∧ ({ c with since := 6 } : DealCard).since + 0x800000 > s.cyc ∧
      ∀ k, k < 3 → k ≠ x.2 → (x.1 = 0 → ¬k < x.2) ∧ (x.1 = 2 → d.deal[k]?.map (fun y => y.resume.isSome == c.resume.isSome && s.isNext y) ≠ some true) := by
  intro x h
  simp only [List.mem_cons, List.not_mem_nil, or_false] at h
  rcases h with rfl | rfl | rfl <;> exact ⟨_, rfl, _, rfl, ok⟩
/-- A team at its quantum, one short of it, and one whose threads wait for a fault. -/
def tmQ (r : Nat) : Team := { tm0 with rcyc0 := 7, rcyc := r }
def tmP : Team := { tm0 with id := 3, st := .placed, card := crd 2 300 0 0, threads := 300, hands := 3, quads := [(0, 0), (1, 0), (2, 0)] }
def hdrE : Dword := BitVec.ofNat 64 (2 ^ 56 + 2 ^ 30 + 2 ^ 16)
def sPl : State :=
  words 0x100 [hdrE] { mk hm with
    teams := [tm0, tmP], launches := [ln1], mem := [], cores := [(1, { core0 with icache := [(1, 5, 0x20, hdrE)] })] }
theorem wit_TeamPlacement_start :
    (∀ r ∈ [0x200007, 0x200006], (mk hm (tmQ r)).team? 2 = some (tmQ r) ∧ (tmQ r).st = .running) ∧
    ((tmQ 0x200007).rcyc0 + 0x200000 ≤ (tmQ 0x200007).rcyc ∧ ¬(tmQ 0x200006).rcyc0 + 0x200000 ≤ (tmQ 0x200006).rcyc ∧ tm0.due = false ∧
      ∃ y ∈ hm.threads, y.st = .unparked) ∧
    (sPl.team? 3 = some tmP ∧ tmP.st = .placed ∧ tmP.gang = none ∧ sPl.launch? tmP.part tmP.launch = some ln1 ∧ ln1.st = .live ∧
      (sPl.part 1).inRegion tmP.card.entry = false ∧ fld hdrE 63 56 = 1 ∧ hdrE.getLsbD 16 = true ∧ tmP.quads[2]? = some (2, 0)) ∧
    sPl.Code tmP false tmP.card.entry hdrE := ⟨ok, ok, ok, code⟩

/-- Messages to core 1: with 63 and with 64 in its queue, a rejected one, and one of a failed launch. -/
def am (c : Card) : Msg := { part := 1, launch := 7, core := 1, card := c, x := 1, y := 2, z := 3, n := 9, lix := [1, 2, 3, 4, 5], team := 2, hix := 0 }
def sAm (m : Msg) (k : Nat) (st : LaunchSt) : State :=
  { sPl with amFlight := [m], launches := [{ ln1 with st := st }], teams := []
             cores := [(1, { core0 with msgs := List.replicate k m, icache := [(1, 5, 0x20, hdrE)] })] }
theorem wit_ActiveMessages : (∀ x ∈ [(crd 1 4 0 1, 63, LaunchSt.live), (crd 1 4 0 1, 64, .live), (crd 1 4 0 0, 0, .live), (crd 1 4 0 1, 0, .failed)],
      let s := sAm (am x.1) x.2.1 x.2.2
      s.amFlight = am x.1 :: [] ∧ (am x.1).core = 1 ∧ s.launch? 1 7 = some { ln1 with st := x.2.2 } ∧
      (s.core 1).msgs.length = x.2.1 ∧ (am x.1).card.rejected true = decide (x.1 = crd 1 4 0 0)) ∧
    (let s := sAm (am (crd 1 4 0 1)) 1 .live
     (s.core 1).msgs = am (crd 1 4 0 1) :: [] ∧ s.launch? 1 7 = some ln1 ∧ ln1.dmode = 0 ∧ (crd 1 4 0 1).am = true ∧
      (crd 1 4 0 1).threads ≤ 128 ∧ (∀ t ∈ s.teams, t.resident = true → t.core ≠ 1) ∧
      (s.core 1).regCap = [0x40000, 0x40000, 0x40000, 0x40000] ∧ (s.part 1).inRegion (crd 1 4 0 1).entry = false ∧
      fld hdrE 63 56 = 1 ∧ hdrE.getLsbD 16 = true) ∧
    (sAm (am (crd 1 4 0 1)) 1 .live).Code { tm0 with part := 1, launch := 7, core := 1 } false (crd 1 4 0 1).entry hdrE :=
  ⟨ok, ok, code⟩

/-- A team that is done, without a counter and with one of 2, of 1 without and with a continuation, and of 0; a launch that has ended
but for its counter at 0; one with a team; one that fails. -/
def tmJ (j : Nat) : Team := { tm0 with card := { crd 1 4 0 0 with w2 := BitVec.ofNat 64 j } }
def sJ (j k : Nat) : State := ptab (words 0x1280 [BitVec.ofNat 64 k, 0x1234] { mk { hm with phase := .retired, pend := [] } with teams := [tmJ j] })
def sJ1 (cont : Dword) : State :=
  ptab (words 0x1280 [1, cont] (words 0x1200 cardw { mk { hm with phase := .retired, pend := [] } with teams := [tmJ 0x1280] }))
def sJr : State := sJ1 0x1200
def sJu : State := sJr.writeHome 0 0x1280 (toBytes 4 0)
def sEnd : State := { base with teams := [{ tm0 with st := .gone }], launches := [{ lnch with armed := [0x1280] }] }
theorem wit_TeamsEnd : (∀ x ∈ [(0, 5), (0x1280, 2), (0x1280, 0)], let s := sJ x.1 x.2
      s.team? 2 = some (tmJ x.1) ∧ (tmJ x.1).st = .running ∧ s.launch? 1 7 = some lnch ∧ lnch.st = .live ∧ lnch.dmode = 0 ∧
      (∀ c ∈ s.cores, c.2.heldRed = []) ∧
      (∃ hd ∈ s.hands, hd.team = 2) ∧ (∀ hd ∈ s.hands, hd.phase = .retired ∧ hd.pend = [] ∧ hd.sbuf = []) ∧
      (∀ d ∈ s.dies, d.appends = []) ∧ s.arrivals = [] ∧ (∀ c ∈ s.cores, c.2.origins = [] ∧ c.2.entries = []) ∧
      (tmJ x.1).card.join = x.1 ∧ x.1 % 16 = 0 ∧ s.wordAt 0x1280 = BitVec.ofNat 64 x.2 ∧ fld (s.wordAt 0x1288) 63 52 = 0) ∧
    (sJ 0x1280 2).walkVa 5 0x1280 .atomic false = ((.ok 0x1280 false, some (tlbOf 5 0 0x1280 0xFF)), sJ 0x1280 2) ∧
    (∀ s ∈ [sJ1 0, sJr],
      s.team? 2 = some (tmJ 0x1280) ∧ s.launch? 1 7 = some lnch ∧ s.arrivals = [] ∧ (∀ c ∈ s.cores, c.2 = core0) ∧
      (∀ hd ∈ s.hands, hd.phase = .retired ∧ hd.pend = [] ∧ hd.sbuf = []) ∧ s.wordAt 0x1280 = 1 ∧ fld (s.wordAt 0x1288) 63 52 = 0 ∧
      s.walkVa 5 0x1280 .atomic false = ((.ok 0x1280 false, some (tlbOf 5 0 0x1280 0xFF)), s)) ∧
    ((sJ1 0).Releasable lnch 0x1280 none ∧ ∃ c, sJr.Releasable lnch 0x1280 (some c)) ∧
    (sEnd.launch? 1 7 = some { lnch with armed := [0x1280] } ∧ (∀ d ∈ sEnd.dies, d.deal = []) ∧ sEnd.amFlight = [] ∧
      (∀ c ∈ sEnd.cores, c.2.msgs = [] ∧ c.2.origins = [] ∧ c.2.entries = []) ∧ fld (sEnd.wordAt 0x1280) 31 0 = 0 ∧
      ∀ x ∈ sEnd.teams, x.st = .gone ∧ x.heldRed = []) ∧
    ((mk hm).launch? 1 7 = some lnch ∧ ∃ x ∈ (mk hm).teams, (x.part = 1 ∧ x.launch = 7) ∧ x.st ≠ .gone) ∧
    (sAm (am (crd 1 4 0 1)) 2 .failing).launch? 1 7 = some { ln1 with st := .failing } ∧
    (let s : State := { mk hm with cores := [(511, { core0 with origins := [{ org1 with hix := 63 }] })] }
     (s.core 511).origins[0]? = some { org1 with hix := 63 } ∧ (0xA : BitVec 128) &&& org1.mask ≠ 0 ∧ 3 ≤ 3 ∧
      s.launch? 1 7 = some lnch ∧ 511 < 512 ∧ 63 < 64 ∧ org1.launch < 2 ^ 32) := by
  refine ⟨ok, ok, ok, ⟨show fld _ 51 0 = 0 from ok, cardOf ((List.range 8).map fun j => sJu.wordAt (0x1200 + 8 * j)),
    ok, ⟨0x1200, false, tlbOf 5 0 0x1200 0xFF, ?_⟩, {}, ok⟩, ok, ok, ok, ok⟩
  exact ⟨ok, ok, ok, ok, sound, rfl, ok⟩

/-- A team of one hand and no banks with a share of 64 bytes, whose launch has sections of 64 KiB at 0x1000. -/
def tmT : Team := { tm0 with lid := 0, share := 0x40, depth := 32, acc := 0, accPhys := [], threads := 2 }
def lT : Launch := { ln1 with save := 0x1000, tsz := 1 }
def hTs : Hand := { hm with threads := [{ wa := 0x20 }, { wa := 0x15 }], pend := [], act := 0 }
def sT (x : Team) (l : Launch) (h : Hand) : State := ptab { mk h x with launches := [l] }
def qDump : Queue :=
  { qid := 3, part := 1, pasid := 5, base := 0, lsz := 12, rights := 0
    cmds := [{ cmd := 5, irq := false, cpl := 0, cval := 0, head := 0, vector := 0, launch := 7 }] }
/-- Die 0 with a card of launch 8, of the same class, and every core of the partition full; team 2 is due. -/
def quad16 : List (Nat × Nat) := (List.range 16).map fun j => (j % 4, j / 4)
def tmDue : Team := { tmT with due := true, core := 0, quads := quad16, share := 0x80000, acc := 256, accPhys := List.range 256 }
def dc8 : DealCard := { dc (crd 2 300 0 0) with launch := 8 }
def sVic : State :=
  { sT tmDue lT hTs with
    dies := [{ deal := [dc8] }, {}, {}, {}, {}, {}, {}, {}]
    parts := [(1, { part0 with shares := [(actDealer, 1024)] })], launches := [lT, { lT with handle := 8 }]
    teams := tmDue :: (List.range 6).tail.map fun k => { tmDue with id := 10 + k, core := k, due := false } }
def tmAck (l : List Nat) : Team := { tmT with st := .saving, acks := l }
def hPend : Hand := { hTs with pend := [{ id := 1, dst := .kreg 3, val := none }] }
theorem wit_TeamSaving_due :
    (let s : State := { sT tmT lT hTs with queues := [qDump] }
     s.team? 2 = some tmT ∧ s.launch? 1 7 = some lT ∧ lT.st = .live ∧ tmT.gang = none ∧ tmT.st = .running ∧ s.dumping 1 7 = true) ∧
    (sVic.team? 2 = some tmDue ∧ sVic.launch? 1 7 = some lT ∧ tmDue.gang = none ∧ tmDue.st = .running ∧ sVic.dumping 1 7 = false ∧
      sVic.die? 0 = some { deal := [dc8] } ∧ sVic.victim (dieOf tmDue.core) = some (tmDue, dc8)) ∧
    (∀ h ∈ [hTs, hPend], let s := sT (tmAck [2]) lT h
      s.team? 2 = some (tmAck [2]) ∧ (tmAck [2]).st = .saving ∧ s.launch? 1 7 = some lT ∧ 0 ∉ (tmAck [2]).acks ∧
      (∀ e ∈ (s.core 1).entries, e.team ≠ 2) ∧ (∀ d ∈ s.dies, ∀ a ∈ d.appends, a.team ≠ 2) ∧
      (∀ hd ∈ s.hands, hd.sbuf = [] ∧ (hd.pend = [] ∨ h = hPend)) ∧ ∃ hd ∈ s.hands, hd.team = 2) ∧ hPend.pend ≠ [] := ok
/-- A hand that stops at the end of its visit: no thread is active, or one that goes on at the header at 0x15. -/
def hEnd : Hand := { hTs with act := 1, off := 4 }
theorem wit_TeamSaving_visits : (∀ hd ∈ [{ hTs with act := 0 }, hEnd], let s := sT tmT lT hd
      s.team? 2 = some tmT ∧ s.launch? 1 7 = some lT ∧ lT.st = .live ∧ tmT.gang = none ∧ s.handsOf 2 = [hd] ∧ s.hand? 2 hd.hix = some hd ∧
      (∀ h ∈ s.hands, h.team = 2 → h = hd) ∧ hd.team = 2 ∧ hd.phase = .visit ∧
      (hd.act = 0 ∨ (hd.blen ≤ hd.off ∧ ∀ t ∈ hd.actives, (hd.thr t).tl = hd.inTrap))) ∧
    hEnd.act ≠ 0 ∧ ∀ t ∈ [0], (sT tmT lT hEnd).Wanted tmT hEnd.inTrap ((fun _ => hEnd.pos + 1 + BitVec.ofNat 30 hEnd.blen) t) :=
  ⟨ok, ok, all_wanted (privT := fun _ => hEnd.inTrap) (a := fun _ => hEnd.pos + 1 + BitVec.ofNat 30 hEnd.blen) hdr0⟩
/-- The smallest section, of a team without hands (448 bytes); it fits into 64 KiB, and not into none; a place for it in a page of the
host that the ATC does not hold. -/
def tmAll : Team := { tmAck [0, 1, 2, 3, 4, 5, 6] with hands := 0 }
def sAll (l : Launch) : State := { sT tmAll l hTs with hands := [] }
def lHost : Launch := { lT with save := 0x10000 }
def sHost : State := words 0xB008 [0x40000000000FF] (sAll lHost)
theorem wit_TeamSaving : ((sAll lT).team? 2 = some tmAll ∧ (sAll lT).launch? 1 7 = some lT ∧ lT.st = .live ∧ tmAll.st = .saving ∧
      (∀ c, c ≤ 6 → c ∈ tmAll.acks) ∧ (sAll lT).dumping 1 7 = false ∧
      (∀ a ∈ (sAll lT).arrivals, a.team ≠ 2 ∧ tmAll.ownShare a.loc = false) ∧ ((sAll lT).handsOf 2).length = tmAll.hands ∧
      lT.save ≠ 0 ∧ ((sAll lT).sectionBytes tmAll).length ≤ lT.tsz * 65536) ∧
    -- a parked hand, whose part the section holds
    (let hP : Hand := { hTs with phase := .parked, off := 3 }
     let s := sT { tmAll with hands := 1 } lT hP
     s.endVisits { tmAll with hands := 1 } = (false, s) ∧ s.handsOf 2 = [hP] ∧ hP.off < 2 ^ 16 ∧ s.heldArr = [] ∧ s.arrivals = [] ∧
      hP.threads.all (fun u => decide (u.wb < 2 ^ 24 ∧ u.lo < 2 ^ 24)) = true) ∧
    ((sAll lT).endVisits tmAll = (false, sAll lT) ∧ (sAll lT).launchDead 1 7 = false) ∧
    (sHost.team? 2 = some tmAll ∧ sHost.launch? 1 7 = some lHost ∧ sHost.endVisits tmAll = (false, sHost) ∧ sHost.launchDead 1 7 = false ∧
      (match sHost.vwrite 5 (0x10000 + tmAll.lid.toNat * 65536) (sHost.sectionBytes tmAll) with
        | .error none => true | _ => false) = true) ∧
    (match (sAll lT).vwrite lT.pasid (0x1000 + tmAll.lid.toNat * 65536) ((sAll lT).sectionBytes tmAll) with
      | .ok t => decide (t.die? 0 = some {})
      | .error _ => false) = true ∧ ({} : Die).deal.length < 2 ^ 20 ∧
    (sAll { lT with tsz := 0 }).launch? 1 7 = some { lT with tsz := 0 } ∧
    (sAll { lT with tsz := 0 }).endVisits tmAll = (false, sAll { lT with tsz := 0 }) ∧ 0 * 65536 < ((sAll { lT with tsz := 0 }).sectionBytes tmAll).length := ok

/-- A section in memory of one hand whose words are zeros, to be restored over a share at 0x200; then its hand in place. -/
def tmRs : Team := { tmT with st := .restoring, section_ := 0x1000, threads := 100, quads := [(3, 2)], sbase := 0x200 }
def sRs (hs : List Hand) : State := words 0x1048 [0x0100000000000040] { sT tmRs lT hTs with hands := hs }
/-- The same with a claim of bank 0 by hand 5, which the team has not. -/
def sRsC : State := words 0x1080 [5] (sRs [])
def hdrOf (s : State) : List Byte := got [] (s.vread 5 0x1000 128)
def hdrRs : List Byte := hdrOf (sRs [])
def secPs : List (Nat × Nat) := [0x1000, 0x2000, 0x3000, 0x4000, 0x5000, 0x6000].map (fun a => (a, 4096)) ++ [(0x7000, 1792)]
def secOf (s : State) : List Byte := secPs.flatMap fun p => s.bytesAt p.1 p.2
def secRs : List Byte := secOf (sRs [])
theorem wit_Restoring_team : ((sRs []).team? 2 = some tmRs ∧ tmRs.st = .restoring ∧ tmRs.gang = none ∧ (sRs []).launch? 1 7 = some lT ∧
      lT.st = .live ∧ (∀ hd ∈ (sRs []).hands, hd.team ≠ 2) ∧ (sRs []).kept = [] ∧ tmRs.quads.length = tmRs.hands ∧
      384 + tmRs.hands * (9536 + 512 * tmRs.depth) + (tmRs.share + 63) / 64 * 64 + 4096 * tmRs.acc = 26368 ∧
      secW hdrRs 72 = BitVec.ofNat 64 (tmRs.hands * 2 ^ 56 + (tmRs.depth / 32 - 1) * 2 ^ 54 + tmRs.share) ∧ tmRs.hands < 256 ∧
      tmRs.share < 2 ^ 32 ∧ tmRs.depth ∈ [32, 64, 96, 128] ∧ secW hdrRs 112 = 0 ∧ secW hdrRs 120 = 0) ∧
    (sRs []).vread lT.pasid tmRs.section_ 128 = (.ok hdrRs, sRs []) ∧
    (sRs []).vread lT.pasid tmRs.section_ 26368 = (.ok secRs, sRs []) ∧
    ((sRs [hTs]).team? 2 = some tmRs ∧ (sRs [hTs]).launch? 1 7 = some lT ∧ (∃ hd ∈ (sRs [hTs]).hands, hd.team = 2) ∧
      (sRs [hTs]).kept = [] ∧ ((sRs [hTs]).part 1).heldCmds = [] ∧ (∀ c ∈ (sRs [hTs]).cores, c.2.heldRed = []) ∧
      (sRs [hTs]).backAccs tmRs [] = []) := by
  refine ⟨ok, gives, ?_, ok⟩
  have h : vpieces lT.pasid .read (spacePieces .glob tmRs.section_ 26368) (sRs []) = (.ok secPs, sRs []) := reads
  have k : (secPs.any fun p => (sRs []).poisoned p.1 p.2 || (sRs []).unreachable p.1) = false := ok
  simp only [State.vread, h, k, Bool.false_eq_true, if_false, secRs, secOf]
/-- Claims by hands of the team, and one by no hand of it. -/
theorem wit_Restoring_claims : (sRsC.team? 2 = some tmRs ∧ sRsC.launch? 1 7 = some lT ∧ sRsC.hands = [] ∧ sRsC.kept = [] ∧
      secW (hdrOf sRsC) 72 = secW hdrRs 72 ∧ secW (hdrOf sRsC) 112 = 0 ∧ secW (hdrOf sRsC) 120 = 0) ∧
    sRsC.vread lT.pasid tmRs.section_ 128 = (.ok (hdrOf sRsC), sRsC) ∧ sRsC.vread lT.pasid tmRs.section_ 26368 = (.ok (secOf sRsC), sRsC) ∧
    ((secOf sRsC).getD (128 + 0) 0xFF = 5 ∧ tmRs.hands ≤ 5) ∧
    ∀ b, b < 256 → secRs.getD (128 + b) 0xFF = 0xFF ∨ (secRs.getD (128 + b) 0xFF).toNat < tmRs.hands := by
  refine ⟨ok, gives, ?_, ok, ok⟩
  have h : vpieces lT.pasid .read (spacePieces .glob tmRs.section_ 26368) sRsC = (.ok secPs, sRsC) := reads
  have k : (secPs.any fun p => sRsC.poisoned p.1 p.2 || sRsC.unreachable p.1) = false := ok
  simp only [State.vread, h, k, Bool.false_eq_true, if_false, secOf]
theorem zeros_run (m : SMap Byte) (k n : Nat) (h : (m.all fun e => decide (e.1 < k ∨ k + n ≤ e.1)) = true) :
    m.getRun 0 k n = List.replicate n 0 := by
  have z : ∀ j, k ≤ j → j < k + n → m.get j 0 = 0 := fun j hj hn => by
    induction m with
    | nil => rfl
    | cons e r ih =>
      simp only [List.all_cons, Bool.and_eq_true, decide_eq_true_eq] at h
      rw [SMap.get, if_neg (by omega), ih h.2]
  refine List.ext_getElem (by simp) fun i hi _ => ?_
  simp only [SMap.length_getRun] at hi
  simpa [SMap.getRun_eq] using z (k + i) (by omega) (by omega)
theorem zeros_secW (n i : Nat) : secW (List.replicate n 0) i = 0 ∧ secH (List.replicate n 0) i = 0 := by
  have h : ∀ k, ofBytes (List.replicate k 0) = 0 := fun k => by
    induction k with
    | zero => rfl
    | succ k ih => rw [List.replicate_succ, ofBytes, ih]; rfl
  simp only [secW, secH, List.drop_replicate, List.take_replicate, h]
  exact ⟨rfl, rfl⟩
theorem zeros_hand (p : Part) (t : badThread p 0 = false) (r : p.inRegion 0#30 = false) (depth n : Nat) (h : 1344 ≤ n) :
    badHand p depth (List.replicate n 0) = false := by
  have z : ((List.replicate n (0 : Byte)).drop 1268).take 76 = List.replicate 76 0 := by
    rw [List.drop_replicate, List.take_replicate, Nat.min_eq_left (by omega)]
  simp only [badHand, (zeros_secW _ _).1, (zeros_secW _ _).2, t, z]
  simp [fld, r, bit]
theorem wit_Restoring_hand : badHand ((sRs []).part 1) tmRs.depth ((secRs.drop 384).take (9536 + 512 * tmRs.depth)) = false := by
  have e : (secRs.drop 384).take (9536 + 512 * tmRs.depth) = List.replicate 25920 0 := by
    have r (k n : Nat) (h : ((sRs []).mem.all fun e => decide (e.1 < k ∨ k + n ≤ e.1)) = true := by decide +kernel) :
        (sRs []).bytesAt k n = List.replicate n 0 := zeros_run _ k n h
    have f : ((sRs []).bytesAt 0x1000 4096).drop 384 = List.replicate 3712 0 := by
      have d : ((sRs []).bytesAt 0x1000 4096).drop 384 = (sRs []).bytesAt 0x1180 3712 := by
        refine List.ext_getElem (by simp [State.bytesAt]) fun i h1 _ => ?_
        simp only [State.bytesAt, SMap.getRun_eq, List.getElem_drop, List.getElem_map, List.getElem_range]
        congr 1
        omega
      rw [d, r 0x1180 3712]
    have l : ((sRs []).bytesAt 0x1000 4096).length = 4096 := SMap.length_getRun ..
    simp only [secRs, secOf, secPs, List.map_cons, List.map_nil, List.cons_append, List.nil_append, List.flatMap_cons, List.flatMap_nil,
      List.append_nil]
    rw [List.drop_append, l, f, r 0x2000 4096, r 0x3000 4096, r 0x4000 4096, r 0x5000 4096, r 0x6000 4096, r 0x7000 1792]
    simp only [List.replicate_append_replicate, List.drop_replicate, List.take_replicate]
    rfl
  have t : badThread ((sRs []).part 1) 0 = false := ok
  rw [e]
  exact zeros_hand _ t ok _ _ (by decide)

/-- A launch image at 0x4000: a record of a grid of 24 teams in groups of 4 and a SAVE field; and zeros at 0x5000. -/
def rcI : LaunchRec := { rc1 with w0 := BitVec.ofNat 64 (0x20 * 2 ^ 34 + 3 * 2 ^ 27) }
def imgW : List Dword := [BitVec.ofNat 64 (0x4C413149 * 2 ^ 32 + 2 ^ 16), 0, 0, 0x1000, BitVec.ofNat 64 (3 * 2 ^ 32), 0, 0, 0] ++ rcI.words
def lImg (a : Dword) : Launch := { lnch with st := .pending, image := a, banks := [] }
def sImg (a : Dword) : State := ptab { base with launches := [lImg a], teams := [] }
def sImgW : State := words 0x4000 imgW (sImg 0x4000)
def bsImg : List Byte := (imgW.flatMap fun w => toBytes 8 w.toNat) ++ List.replicate 256 0
theorem wit_Restoring_launch : (sImgW.launch? 1 7 = some (lImg 0x4000) ∧ (lImg 0x4000).st = .pending ∧ (lImg 0x4000).image.toNat % 64 = 0) ∧
    sImgW.vread (lImg 0x4000).pasid 0x4000 384 = (.ok bsImg, sImgW) ∧
    (let w (j : Nat) : Dword := secW bsImg (8 * j)
     let r : LaunchRec := ⟨w 8, w 9, w 10, w 11, w 12, w 13, w 14, w 15⟩
     fld (w 0) 63 32 = 0x4C413149 ∧ fld (w 0) 31 16 = 1 ∧ fld (w 0) 15 0 = 0 ∧ fld (w 1) 15 0 = 0 ∧ fld (w 3) 63 52 = 0 ∧
      fld (w 4) 31 0 = 0 ∧ w 5 = 0 ∧ w 6 = 0 ∧ w 7 = 0 ∧ r = rcI ∧ rcI.malformed = false ∧
      (∀ b, b < 16 → fld (w (16 + 2 * b)) 63 52 = 0 ∧ fld (w (17 + 2 * b)) 63 17 = 0 ∧ fld (w (17 + 2 * b)) 16 0 ≤ 65536) ∧
      fld r.w0 31 30 ≠ 2 ∧ fld (w 1) 63 16 = 0 ∧ ∀ d ∈ sImgW.dies, d.deal = []) ∧
    ((sImg 0x5000).launch? 1 7 = some (lImg 0x5000) ∧ (lImg 0x5000).image.toNat % 64 = 0) ∧
    (sImg 0x5000).vread (lImg 0x5000).pasid 0x5000 384 = (.ok (List.replicate 384 0), sImg 0x5000) ∧
    fld (secW (List.replicate 384 0) 0) 63 32 ≠ 0x4C413149 := ⟨ok, reads, ok, ok, reads, ok⟩
/-- An image with one section, of a root card, at 0x4200. -/
def imgW1 : List Dword := imgW.set 1 0x100000000
def cdW : Card := crd 2 300 1 0
def sImg1 : State :=
  words 0x4200 [cdW.w0, cdW.w1, cdW.w2, cdW.w3, cdW.w4, cdW.w5, cdW.w6, cdW.w7] (words 0x4180 [9, 0x200] (words 0x4000 imgW1 (sImg 0x4000)))
def bsImg1 : List Byte := got [] (sImg1.vread 5 0x4000 384)
def esImg : List Byte := got [] (sImg1.vread 5 0x4180 16)
def wsImg : List Byte := got [] (sImg1.vread 5 0x4200 128)
theorem wit_Restoring_section : (sImg1.launch? 1 7 = some (lImg 0x4000) ∧ (lImg 0x4000).st = .pending ∧ sImg1.teams = []) ∧
    sImg1.vread 5 0x4000 384 = (.ok bsImg1, sImg1) ∧
    (let w (j : Nat) : Dword := secW bsImg1 (8 * j)
     let r : LaunchRec := ⟨w 8, w 9, w 10, w 11, w 12, w 13, w 14, w 15⟩
     fld (w 0) 63 32 = 0x4C413149 ∧ fld (w 0) 31 16 = 1 ∧ fld (w 0) 15 0 = 0 ∧ fld (w 1) 15 0 = 0 ∧ fld (w 3) 63 52 = 0 ∧
      fld (w 4) 31 0 = 0 ∧ w 5 = 0 ∧ w 6 = 0 ∧ w 7 = 0 ∧ r = rcI ∧ rcI.malformed = false ∧
      (∀ b, b < 16 → fld (w (16 + 2 * b)) 63 52 = 0 ∧ fld (w (17 + 2 * b)) 63 17 = 0 ∧ fld (w (17 + 2 * b)) 16 0 ≤ 65536) ∧
      fld r.w0 31 30 ≠ 2 ∧ fld (w 1) 63 32 = 1 ∧ fld (w 1) 31 16 = 0) ∧
    sImg1.vread 5 (0x4000 + 384) 16 = (.ok esImg, sImg1) ∧ sImg1.vread 5 (0x4000 + (secW esImg 8).toNat) 128 = (.ok wsImg, sImg1) ∧
    ((cardOf (dwords wsImg)).root = true ∧ (cardOf (dwords wsImg)).level ≠ 3 ∧ (sImg1.part 1).dies = [0] ∧ sImg1.dumped = []) ∧ sImg1.DealRoom 0 1 7 :=
  ⟨ok, gives, ok, reads, reads, ok, {}, ok⟩

/-- A residency, a drone, a team and an image whose header is zeros, before stage 1 and after stage 2. No closed image
passes its checks, since the digests of the keys are free values of Config. -/
def sMan (n : Nat) : State := { sDr (drE 0xB7 .waiting) [drR] [drn 0x15 9] with cores := [(1, { core0 with resid := [rsS, rsG] })], bootStage := n }
theorem wit_Management : (((sMan 0).core 1).resid[1]? = some rsG ∧ rsG.dead = false ∧ (sMan 0).team? 2 = some tm0 ∧ tm0.resident = true ∧
      (sMan 0).launch? 1 7 = some lnch ∧ lnch.st = .live ∧ tm0.core < 512 ∧ (sMan 0).droneEnt 1 0x15 = some drR ∧ drR.res = true ∧
      ((sMan 0).core 9).regCap = [0x40000, 0x40000, 0x40000, 0x40000] ∧ ∀ e ∈ (sMan 0).cores, e.1 ≠ 9) ∧
    ((ptab base).inTables 0x9000 = true ∧ 0x9000 / 128 ∉ (ptab base).poison ∧ (ptab base).inTables 0x5000 = false) ∧
    ((sMan 0).bootHalt = none ∧ (sMan 0).bootStage + 1 = 1 ∧ (sMan 2).bootStage = 2 ∧ 15 < 16 ∧
      fld (secW ((sMan 0).bytesAt 0x10000 2048) 0) 63 32 ≠ 0x53574B49 ∧ fld (secW ((sMan 0).bytesAt 0x10000 2048) 0) 31 24 ≠ 3 ∧
      fld (secW ((sMan 0).bytesAt 0x10000 2048) 8) 63 32 < ({ sMan 0 with floors := [(256, 1)] } : State).floors.get (1 * 256) 0 ∧
      (sMan 2).bootCheck 3 15 ((sMan 2).bytesAt 0x10000 2048) [] = 1 ∧
      sha512 [] ≠ (((sMan 0).bytesAt 0x10000 2048).drop 32).take 64) := ok

/-- Partition 1, without teams and with one, beside partition 2; stages 0 to 7 are mapped to partition 1. -/
def ptO : Part := { clusters := [5], pasidBase := 100, pasidCount := 10, shares := [(1, 512)], nvme := [(1, 60)], namespaces := [(1, [5])] }
def sHub (tms : List Team) : State :=
  words 0x800 [BitVec.ofNat 64 (2 ^ 56 + 2 ^ 30 + 2 ^ 15)] (ptab { mk hm with
    teams := tms, parts := [(1, { part0 with scProd := 0x1003, scCons := 4 }), (2, ptO)], stageMap := (List.range 8).map fun k => (k, 2) })
theorem wit_HubControl : ((sHub []).teams = [] ∧ (sHub []).parts = [(1, (sHub []).part 1), (2, ptO)] ∧
      (∃ t ∈ (sHub [tm0]).teams, t.part = 1 ∧ t.st ≠ .gone)) ∧
    -- clusters, PASIDs, a trap region, shares and NVMe queues at the bounds of what is free, and behind them
    ((∀ k ∈ [3, 4], k < 64 ∧ k ∉ ptO.clusters) ∧ 5 ∈ ptO.clusters ∧ ptO.pasidBase + ptO.pasidCount ≤ 110 ∧
      ¬(ptO.pasidBase + ptO.pasidCount ≤ 109) ∧ 109 + 5 > ptO.pasidBase ∧ 2 ^ 30 ≤ 2 ^ 30 ∧ ptO.shares.get 1 0 + 512 ≤ 1024 ∧
      1024 < ptO.shares.get 1 0 + 513 ∧ 1 < 2 ∧ ptO.nvme.get 1 0 + 4 ≤ 64 ∧ 64 < ptO.nvme.get 1 0 + 5 ∧ 4 ∉ ptO.namespaces.get 1 [] ∧
      5 ∈ ptO.namespaces.get 1 []) ∧
    -- a page of the partition's own, one of nobody's, and a misaligned base
    (0x10000 + 262144 ≤ 0xC000000000 ∧ (∀ k ∈ [1, 2, 3, 4], ((sHub []).stageMap.get k 0).getLsbD 1 = true) ∧ 0x10000 % 65536 = 0 ∧
      0x12000 % 8192 = 0 ∧ ((sHub []).stageMap.get 9 0).getLsbD 1 = false ∧ 0x12000 % 65536 ≠ 0) ∧
    (3 < 16 ∧ 16 ≤ 16 ∧ fld (0x8000000000000100 : Dword) 62 30 = 0 ∧ (0x8000000000000100 : Dword).getLsbD 63 = true ∧
      3 ∉ [0, 0x16, 0x19, 0x1B, 0x1C, 0x1D, 0x1E, 0x1F] ∧ (sHub [tm0]).isTrapent 1 ((0x8000000000000100 : Dword).extractLsb' 0 30) = true ∧
      (sHub [tm0]).isTrapent 1 ((0x8000000000000101 : Dword).extractLsb' 0 30) = false ∧
      ∀ j, j < 2 → (sHub [tm0]).codeWaits 1 (0x100 + BitVec.ofNat 30 j) = false) ∧
    ((sHub []).contexts.map (fun c => (c.1, c.2.part, c.2.valid)) = [(5, 1, true)] ∧ 0 ≤ 5 ∧ 5 < 0 + 100 ∧ ¬6 ≤ 5) ∧
    (((sHub []).part 1).scProd - 3).toNat = 4096 ∧ 4096 < (((sHub []).part 1).scProd - 2).toNat := ok

/-- A command of each operation at slot 2 of the hand-state channel: threads parked by PARK and by SYSC, and one that is
not parked. -/
def hCh : Hand :=
  { hm with phase := .parked
            threads := [{ wa := 0x20, st := .parked, wait := .park, stack := [(5, 0x99)] }, { wa := 0x20, st := .parked, wait := .sysc 77 }, { wa := 0x20 }] }
def cmdW (op tid sel : Nat) : List Dword := [BitVec.ofNat 64 (op * 2 ^ 56 + sel * 2 ^ 48 + tid * 2 ^ 41), 9, BitVec.ofNat 64 (7 * 2 ^ 32), 1]
def sCh (c : List Dword) : State :=
  words 0x2000 c { mk hCh with parts := [(1, { part0 with hsBase := 0x1FC0, hsTaken := 2, hsCons := 2, hsProd := 2 })] }
theorem wit_HubChannels_hand : ∀ x ∈ [(1, 0, 0x1E), (2, 0, 5), (1, 0, 0x26), (2, 1, 0x20), (1, 1, 0x7F), (3, 1, 0), (1, 2, 0), (0, 0, 0)],
    let s := sCh (cmdW x.1 x.2.1 x.2.2)
    let y := s.part 1
    let w (j : Nat) : Dword := s.wordAt (y.hsBase.toNat + y.hsTaken.toNat % 256 * 32 + 8 * j)
    let u := hCh.thr x.2.1
    y.heldCmds = [] ∧ (3 - y.hsCons).toNat ≤ 256 ∧ y.hsTaken ≠ 3 ∧ fld (w 0) 63 56 = x.1 ∧ fld (w 0) 47 41 = x.2.1 ∧
    fld (w 0) 55 48 = x.2.2 ∧ fld (w 0) 34 8 = 0 ∧ fld (w 2) 31 0 = 0 ∧ fld (w 3) 63 32 = 0 ∧ s.launch? 1 (fld (w 2) 63 32) = some lnch ∧
    lnch.st = .live ∧ s.cmdTeam 1 (fld (w 2) 63 32) (w 1) = some tm0 ∧ tm0.st = .running ∧ s.hand? 2 (fld (w 0) 40 35) = some hCh ∧
    u.bheld = [] ∧ u.lo ≤ u.wb + x.2.2 % 0x20 ∧ u.wb + x.2.2 % 0x20 < u.lo + tm0.depth ∧
    (x.2.1 = 0 → u.st = .parked ∧ u.wait = .park) ∧ (x.2.1 = 1 → u.st = .parked ∧ u.wait = .sysc 77) ∧
    (x.2.1 = 2 → u.st = .unparked) := ok
/-- The same for the fault-service channel: two threads parked by the record, or none. -/
def recF : RingRec := ⟨BitVec.ofNat 64 (0x18 * 2 ^ 56 + 2 ^ 47 + 4 * 2 ^ 38 + 0x11), 9, BitVec.ofNat 64 (7 * 2 ^ 32 + 5), 3, 0, BitVec.ofNat 64 (0x15 * 2 ^ 34), 0, 0⟩
def hFp (n : Nat) : Hand := { hm with phase := .parked, act := 0, threads := List.replicate n { wa := 0x11, st := .faultParked, wait := .fault 5 } }
def sFp (op : Nat) (v : Dword) (n : Nat) : State :=
  words 0x2000 [BitVec.ofNat 64 (op * 2 ^ 56), BitVec.ofNat 64 (7 * 2 ^ 32 + 5), v, 0] { mk (hFp n) with
    parts := [(1, { part0 with fsBase := 0x1FC0, fsTaken := 2, fsCons := 2, fsProd := 2, ringLog := [recF] })] }
theorem wit_HubChannels_fault : (∀ x ∈ [(1, 2), (2, 2), (3, 2), (1, 0), (2, 0), (3, 0)],
      let s := sFp x.1 0x8000000000000020 x.2
      let y := s.part 1
      let w (j : Nat) : Dword := s.wordAt (y.fsBase.toNat + y.fsTaken.toNat % 256 * 32 + 8 * j)
      y.heldCmds = [] ∧ (3 - y.fsCons).toNat ≤ 256 ∧ y.fsTaken ≠ 3 ∧ fld (w 0) 63 56 = x.1 ∧ fld (w 0) 55 8 = 0 ∧ fld (w 2) 62 30 = 0 ∧
      w 3 = 0 ∧ s.launch? 1 (fld (w 1) 63 32) = some lnch ∧ lnch.st = .live ∧ y.recordOf 7 ((w 1).extractLsb' 0 32) = some recF ∧
      s.cmdTeam 1 7 recF.w1 = some tm0 ∧ tm0.st = .running ∧
      s.faulted 1 7 5 (fld recF.w0 46 41) recF.w1 = (if x.2 = 0 then none else some (2, 0, [0, 1])) ∧ s.hand? 2 0 = some (hFp x.2) ∧
      ∀ u ∈ (hFp x.2).threads, u.st = .faultParked ∧ u.bheld = []) ∧
    (∀ t ∈ [0, 1], (sFp 1 0x8000000000000020 2).Wanted tm0 ((hFp 2).thr t).tl ((0x8000000000000020 : Dword).extractLsb' 0 30)) ∧
    (sFp 1 0 2).wordAt 0x2010 = 0 ∧ ∀ t ∈ [0, 1], (sFp 1 0 2).Wanted tm0 ((hFp 2).thr t).tl (recF.w5.extractLsb' 34 30) :=
  ⟨ok, all_wanted hdr0, ok, all_wanted hdr0⟩

/-- The page tables with a leaf for a page at 0x20000; TLBs and an ATC with entries of it and of others. -/
def cx5 : Context := ⟨true, false, 1, 0x8000, 0, 0⟩
def qTr : Queue := { qid := 3, part := 1, pasid := 5, base := 0, lsz := 12, rights := 0 }
def sTr : State :=
  words 0xB000 [0x2003F] (ptab { mk hm with stageMap := [(0, 2), (2, 2), (3, 2)], queues := [qTr], atc := [(3, 9, none), (4, 9, some 5)] })
def sTd : State := { sTr with contexts := [(5, { cx5 with dead := true })], cores := [(1, { core0 with origins := [org1] })] }
/-- PASIDs 0 to 15 of a partition without a team, and of one that has one; a package without a host. -/
def sTn (tms : List Team) : State :=
  { sTr with teams := tms, hands := [], host := decide (tms ≠ []), parts := [(1, { part0 with pasidBase := 0, pasidCount := 16 })] }
theorem wit_Translation : (sTr.ctx? 5 = some cx5 ∧ cx5.valid = true ∧ cx5.dead = false ∧ sTr.die? 1 = some {} ∧ ({} : Die).walks = [] ∧
      (∀ k ∈ [0x9000, 0xA000, 0xB000], k % 4096 = 0) ∧ 0x20000 % 65536 = 0 ∧ 0x3F % 4 = 3 ∧
      (let at_ (tab tier : Nat) : Nat := tab + 0x1234 / 2 ^ (16 + 9 * tier) % 512 * 8
       sTr.wordAt (at_ cx5.root 3) = 0x9001 ∧ sTr.wordAt (at_ 0x9000 2) = 0xA001 ∧ sTr.wordAt (at_ 0xA000 1) = 0xB001 ∧
        sTr.wordAt (at_ 0xB000 0) = 0x2003F) ∧ (sTr.stageMap.get 2 0).getLsbD 1 = true ∧ permBad 0x3F .write false = none ∧
      permBad 0x3F .fetch false = none) ∧
    ((∃ o ∈ (sTd.core 1).origins, sTd.launch? o.part o.launch = some lnch ∧ lnch.pasid = 5) ∧ sTd.ctx? 5 = some { cx5 with dead := true } ∧
      sTd.ctx? 9 = none) ∧
    -- a valid descriptor of PASID 9, which is the partition's while it has no team, and of PASID 16
    (let w : Dword := BitVec.ofNat 64 (2 ^ 63 + 2 ^ 58)
     fld w 61 58 = 1 ∧ w.getLsbD 63 = true ∧ ((sTn []).part 1).pasidBase = 0 ∧ ((sTn []).part 1).pasidCount = 16 ∧ (sTn []).teams = [] ∧
      (sTn []).ctx? 9 = none ∧ ∃ tm ∈ (sTn [tm0]).teams, tm.part = 1 ∧ tm.st ≠ .gone) ∧
    -- page 2 stays partition 1's, page 9 is given to it, without and with a team; an ATS answer without a host and with one
    ((∀ tms ∈ [[], [tm0]], let s := sTn tms
        (∀ hd ∈ s.hands, hd.sbuf = []) ∧ (∀ d ∈ s.dies, d.appends = []) ∧ s.arrivals = [] ∧ s.readReqs = [] ∧
        (s.stageMap.get 2 0).getLsbD 1 = true ∧ (s.stageMap.get 9 0).getLsbD 1 = false ∧ s.host = decide (tms ≠ [])) ∧
      (2 : BitVec 16).getLsbD 1 = true ∧ 9 < 0xC00000) ∧
    ((∀ hd ∈ sTr.hands, hd.sbuf = []) ∧ (∀ d ∈ sTr.dies, d.appends = []) ∧ sTr.arrivals = [] ∧ sTr.readReqs = [] ∧
      2 < 0xC00000 ∧ sTr.atc.length < 4096 ∧
      (∀ k ∈ sTr.cores, k.2.origins = []) ∧ sTr.queue? 3 = some qTr ∧ qTr.pasid = 5 ∧
      (let s : State := { sTr with cores := [(1, { core0 with origins := [org1] })] }
       s.ctx? 5 = some cx5 ∧ ∃ o ∈ (s.core 1).origins, s.launch? o.part o.launch = some lnch ∧ lnch.pasid = 5)) ∧
    (Memory.wf sTr.mem = true ∧ (match sTr.walkFrom 0x1234 3 cx5.root with
        | .leaf a n e => decide (a = 0xB000 ∧ n = 0 ∧ e = 0x2003F) | _ => false) = true ∧ fld (0x2003F : Dword) 57 56 = 0 ∧
      fld (0x2003F : Dword) 51 12 * 4096 = 0x20000 ∧ 0x30000 % 65536 = 0 ∧ (sTr.stageMap.get 3 0).getLsbD 1 = true ∧ 0xB000 + 8 ≤ 0x20000) := ⟨ok, ok, ok, ok, ok, ok⟩

def frm : Frame := { dst := 5, vlan := 3, data := [1, 2, 3] }
def ptP (n : Nat) : Part := { part0 with ifaces := [⟨1, 5, [3]⟩], shares := [(actEth, n), (actNvme, n)], nvme := [(0, 5)] }
def sPo (n : Nat) : State :=
  { mk hm with parts := [(1, ptP n), (2, {})], budget := if n = 0 then [⟨actEth, 1, 1, 1⟩, ⟨actNvme, 0, 1, 1⟩] else [] }
theorem wit_Ports : (0x2001 + 2 ≤ 0xC000000000 ∧ (∀ k, k < 2 → ((sPo 1024).stageMap.get ((0x2001 + k) / 65536) 0).getLsbD 1 = true) ∧
      (sPo 1024).poisoned 0x2001 2 = false ∧ ((sPo 1024).stageMap.get 1 0).getLsbD 1 = false) ∧
    (191 < 192 ∧ 17 < 18) ∧
    ((sPo 1024).parts = (1, ptP 1024) :: [(2, {})] ∧ (∃ i ∈ (ptP 1024).ifaces, i.port = 1 ∧ i.mac = frm.dst ∧ frm.vlan ∈ i.vlans) ∧
      (∀ y ∈ (sPo 1024).parts, ¬∃ i ∈ y.2.ifaces, i.port = 0) ∧ 1 < 2 ∧ (sPo 1024).inBudget actEth 1 1 1 capEth = true ∧
      (sPo 0).inBudget actEth 1 1 1 capEth = false) ∧
    ((sPo 1024).part 1).nvme.get 0 0 ≠ 0 ∧ (sPo 1024).inBudget actNvme 0 1 1 capNvme = true ∧ (sPo 0).inBudget actNvme 0 1 1 capNvme = false := ok

/-- Live and dead queues; a capability for the live one. -/
def qL : Queue := { qid := 3, part := 1, pasid := 5, base := 0x2000, lsz := 12, rights := 0x3F, gen := 2, tail := 7, head := 4, comp := 9 }
def qD : Queue := { qL with qid := 4, part := 2, dead := true }
def cmdL : Cmd := { cmd := 1, irq := true, cpl := 0x6000, cval := 0x77, head := 12, vector := 5, launch := 7 }
def sQu : State :=
  { mk hm with queues := [qL, qD], parts := [(1, { part0 with refused := 5, sealGen := 3, pasidBase := 0, pasidCount := 16 })], teams := [] }
def capW : List Dword :=
  [0x2000, BitVec.ofNat 64 (12 * 2 ^ 58 + 3 * 2 ^ 44 + 2 ^ 40 + 0x3F * 2 ^ 32 + 5), BitVec.ofNat 64 (2 * 2 ^ 32)]
theorem wit_Queues : (1 < 16 ∧ 16383 < 16384 ∧ 12 ≤ 26 ∧ (0x3000 : Dword).toNat % 4096 = 0 ∧ (0x3004 : Dword).toNat % 4096 ≠ 0 ∧ fld (0x3F : BitVec 8) 7 6 = 0 ∧
      sQu.queue? 16383 = none ∧ (sQu.part 1).sealGen ≠ 0 ∧ (sQu.part 1).pasidBase ≤ 15 ∧ 15 < (sQu.part 1).pasidBase + (sQu.part 1).pasidCount ∧
      sQu.teams = [] ∧ (sQu.part 2).sealGen = 0 ∧ (sQu.queues.filter fun q => q.part == 1 && !q.dead).length < 1024) ∧
    (sQu.queue? 3 = some qL ∧ qL.dead = false ∧ sQu.queue? 4 = some qD ∧ qD.dead = true) ∧
    -- a wake at the capacity, and one behind it
    (let w (j : Nat) : Dword := capW.getD j 0
     fld (w 1) 57 44 = 3 ∧ fld (w 0) 63 52 = 0 ∧ fld (w 1) 39 38 = 0 ∧ fld (w 1) 31 20 = 0 ∧ fld (w 2) 31 0 = 0 ∧
      fld (519 : Dword) 63 32 = 0 ∧ (sQu.part 1).sealGen = 3 ∧ fld (w 1) 43 40 = 1 ∧ qL.part = 1 ∧ fld (w 2) 63 32 = qL.gen ∧
      (519 + 2 ^ 32 - qL.tail) % 2 ^ 32 ≤ 2 ^ (qL.lsz - 3) ∧ 2 ^ (qL.lsz - 3) < (520 + 2 ^ 32 - qL.tail) % 2 ^ 32) := ok

/-- A packet of two values, at the queue's HEAD. -/
def shd : SMap Dword := [(0, 0x4000), (2, 0x3000), (4, 0x5008), (5, 0x99), (6, 9), (7, 5), (8, 0x15), (9, 2), (10, 33)]
def hdrP (cmd mask : Nat) : Dword := BitVec.ofNat 64 (cmd * 2 ^ 56 + mask)
def qP (rights : BitVec 8) (cmds : List Cmd) : Queue := { qL with rights, cmds, shadow := shd }
def sPk (q : Queue) (h : Dword) (vs : List Dword) : State :=
  words 0x2020 (h :: vs) (ptab { mk hm with policyLast := some 2, queues := [q, { qL with qid := 9, comp := 5 }], parts := [(1, { part0 with nextHandle := 40 })] })
theorem wit_Packets : (∀ x ∈ [(0, 5, 0), (1, 3, 0x3F), (2, 0x30, 2), (3, 0x30, 4), (4, 0x30, 8), (5, 0x30, 0x10), (6, 0x30, 0x20)],
      let q := qP (BitVec.ofNat 8 x.2.2) []
      let vs : List Dword := if x.2.1 = 0x30 then [0x5010, 0x5008] else [0x4040, 0x5008]
      let s := sPk q (hdrP x.1 x.2.1) vs
      s.queue? 3 = some q ∧ q.dead = false ∧ q.cmds = [] ∧ s.packetRead q = some (⟨hdrP x.1 x.2.1, vs⟩, s) ∧ fld (hdrP x.1 x.2.1) 55 50 = 0 ∧
      fld (hdrP x.1 x.2.1) 47 32 = 0 ∧ fld (hdrP x.1 x.2.1) 31 11 = 0 ∧ fld (hdrP x.1 x.2.1) 63 56 = x.1 ∧
      (x.1 ≠ 0 → q.rights.getLsbD (x.1 - 1) = true)) ∧
    -- LAUNCH's image, SIGNAL's place, FENCE's queue, TEARDOWN's PASID, DUMP behind a launch; a reserved field, and a right that is missing
    ((shadowSet shd ⟨hdrP 1 3, [0x4040, 0x5008]⟩).get 0 0 = 0x4040 ∧ (shadowSet shd ⟨hdrP 2 0x30, [0x5010, 0x5008]⟩).get 4 0 = 0x5010 ∧
      (sPk (qP 4 []) (hdrP 3 0x30) []).queue? (fld (9 : Dword) 13 0) = some { qL with qid := 9, comp := 5 } ∧
      (sPk (qP 4 []) 0 []).ctx? 5 = some cx5 ∧ cx5.dead = false ∧ (qP 0x3F [cmdL]).cmds = [cmdL] ∧
      (sPk (qP 0x3F [cmdL]) (hdrP 5 0x30) [0x5010, 0x5008]).flying (qP 0x3F [cmdL]) cmdL = true ∧ qL.part = (qP 4 []).part ∧
      (let s := sPk (qP 0x3F [cmdL]) (hdrP 5 0x30) [0x5010, 0x5008]
       s.packetRead (qP 0x3F [cmdL]) = some (⟨hdrP 5 0x30, [0x5010, 0x5008]⟩, s)) ∧
      fld (hdrP 1 (3 + 2 ^ 20)) 31 11 ≠ 0 ∧ (0x3E : BitVec 8).getLsbD 0 = false) ∧
    (sPk (qP 1 []) (hdrP 1 3) [0x4040, 0x5008]).vread 5 0x4040 64 =
      (.ok (got [] ((sPk (qP 1 []) (hdrP 1 3) [0x4040, 0x5008]).vread 5 0x4040 64)), sPk (qP 1 []) (hdrP 1 3) [0x4040, 0x5008]) ∧
    (sPk (qP 2 []) (hdrP 2 0x30) [0x5010, 0x5008]).walkVa 5 0x5010 .write true =
      ((.ok 0x5010 false, some (tlbOf 5 0 0x5010 0xFF)), sPk (qP 2 []) (hdrP 2 0x30) [0x5010, 0x5008]) ∧
    (sPk (qP 2 []) (hdrP 2 0x30) [0x5010, 0x5008]).Sound 0x5010 8 := ⟨ok, ok, gives, ok, sound⟩
/-- The policy core's turn: it served core 2 last, and the queue's core, 3, is next; or it served that one, and another queue's is. -/
def sPt (ask : Bool) : State :=
  let s := sPk (qP 1 []) (hdrP 1 3) [0x4040, 0x5008]
  if ask then { s with queues := s.queues ++ [{ qP 1 [] with qid := 10 }], policyLast := some 3 } else s
theorem wit_Packets_policy : ((sPt false).policyTurn = some (3 % 6) ∧ (sPt true).policyTurn = some (10 % 6)) ∧
    ∀ ask ∈ [false, true], (sPt ask).queue? 3 = some (qP 1 []) ∧ (sPt ask).packetRead (qP 1 []) = some (⟨hdrP 1 3, [0x4040, 0x5008]⟩, sPt ask) := ok
/-- The oldest command: refused, a launch that has failed, one that lives, and fences that are met and are not; a teardown. -/
def sCm (c : Cmd) (l : Launch) : State := { sPk (qP 0x3F [c]) 0 [] with launches := [l] }
def lFail : Launch := { lnch with st := .endedFailed, cause := 9, fseq := 77 }
theorem wit_Packets_complete : (∀ c ∈ [{ cmdL with cmd := 2, status := some (3, 0) }, cmdL, { cmdL with cmd := 3, x := 9, y := 5 }, { cmdL with cmd := 3, x := 9, y := 6, cpl := 0 },
        { cmdL with cmd := 6 }], (∀ k ∈ (sCm c lFail).cores, k.2.origins = []) ∧ (sCm c lFail).queue? 3 = some (qP 0x3F [c]) ∧ (qP 0x3F [c]).cmds = c :: [] ∧ (∀ y ∈ (qP 0x3F [c]).cmds, y.cmd ≠ 5) ∧
      (sCm c lFail).launch? 1 c.launch = some lFail ∧ (sCm c lFail).queue? 9 = some { qL with qid := 9, comp := 5 }) ∧
    (cmdL.vector < 64 ∧ cmdL.cpl ≠ 0 ∧ cmdL.cpl.toNat < 2 ^ 52 ∧ cmdL.cpl.toNat % 32 = 0 ∧ (sCm cmdL lnch).launch? 1 7 = some lnch ∧ lnch.st = .live) ∧
    (sCm cmdL lFail).walkVa 5 0x6000 .write true = ((.ok 0x6000 false, some (tlbOf 5 0 0x6000 0xFF)), sCm cmdL lFail) ∧
    (sCm cmdL lFail).Sound 0x6000 32 := ⟨ok, ok, ok, sound⟩

/-- A core out of credits; operands of a wrong class, with an entry that delivers in the hand. -/
def sNo : State := { sm with cores := [(1, { core0 with actStart := 0 })] }
theorem wit_IssueChecks : (sNo.Issues im ∧ vh.u = false ∧ (sNo.core tm0.core).actStart ≤ 0) ∧ (svec 2 0x8000000000000104).Issues im ∧
    argsOk vh.u im.hd.privT (args2 .i32 (.k 6) (.g 4) (.o (.g 5))) = false ∧ 0 < ((svec 2 0x8000000000000104).core tm0.core).actStart ∧
    ((svec 2 0x8000000000000104).part tm0.part).vectors.get 2 0 = 0x8000000000000104 ∧ (0x8000000000000104 : Dword).getLsbD 63 = true ∧
    ∀ t ∈ hm.parts vh, (hm.thr t).tl = false := ⟨⟨issues, ok⟩, issues, ok⟩

/-- IADD g5, g4, 1 at the hand's place, and IADD g5, g4, 1000 with its extension; a schedule, and an event. -/
def w11x : Dword := 0xC01C02843E7C0000
def sRun (l : List (CodeAddr × Dword)) (sched : List Move) : State :=
  l.foldl (fun s x => words (8 * x.1.toNat) [x.2] s) { s1 with
    mem := [], schedule := sched, cores := [(1, { core0 with icache := l.map fun x => (1, 5, x.1, x.2) })] }
/-- The words of an LDS, a FENCE and an AALC; hands whose FENCE awaits an arrival, whose BART or BARI is on its way, whose write the budgets
do not allow, and whose AALC comes behind that of quadrant 0. -/
def wLds : Dword := 0x725C02403E7C0900
def iLds : Instr := .lds ⟨false, true, false, 7, 0⟩ .f32 ⟨.plain, .h⟩ (.g 4) (.a 0)
def wFen : Dword := 0x791C0F9F3E7C0048
def wAal : Dword := 0xB08C14213E7C0000
def iAal : Instr := .aalc ⟨true, false, false, 3, 0⟩ (.k 8) (.k 1)
def hHeld (f : List Nat) : Hand := { h1 with fence := f }
def sHeld (k : ArrKind) (f : List Nat) : State :=
  { sRun [(0x11, wLds)] [.issue 2 0] with hands := [hHeld f], arrivals := [arr0 k 7 1] }
def hPay : Hand := { h1 with sbuf := [{ bw with pa := 0x401000 }] }
def sPay (full : Bool) : State :=
  { sRun [(0x11, wFen)] [.issue 2 0] with
    hands := [hPay], budget := if full then [⟨actRing, 0, 1, 1⟩] else [] }
def sBnk (q : Nat) : State := { sRun [(0x11, wAal)] [.issue 2 1] with hands := [h1, { h1 with hix := 1, quad := q }] }
/-- Does none of them hold an instruction of hand 0? -/
def freeB (s : State) (hd : Hand) (i : Instr) : Bool :=
  !(fencedInstr i && (s.arrivals ++ s.heldArr).any fun x => hd.fence.contains x.id) &&
  !((fencedInstr i || touchesMem i) && s.arrivals.any fun x => x.kind != .arrive && x.team == 2 && x.hix == 0) &&
  !(flushes i && s.flushPaid tm0 hd == false) && !s.bankHeld tm0 hd i
theorem wit_StepRuns : (∀ x ∈ [[Move.issue 2 0], []], let s := sRun [(0x11, w11)] x
      s.stopped = none ∧ s.bootHalt = none ∧ s.team? 2 = some tm0 ∧ s.hand? 2 0 = some h1 ∧ s.handLive tm0 = true ∧ h1.phase = .visit ∧
      h1.busy = 0 ∧ h1.act ≠ 0 ∧ h1.off + 1 < h1.blen ∧ h1.sw = false ∧ h1.fence = [] ∧ s.arrivals = [] ∧
      (x = [] → s.defaultMoves.head? = some (.issue 2 0)) ∧ s.schedule = x) ∧
    (let s := sRun [(0x11, w11)] []
     match exec (.iadd vh .i32 (.g 5) (.g 4) (.imm 17)) { s with cur := some ⟨2, 0, 0x11, 1, w11, 0⟩ } with
      | .next u => decide (u ≠ s ∧ u ≠ { s with cur := none })
      | _ => false) = true ∧
    (fld w11 63 56 < 0xC0 ∧ 0xC0 ≤ fld w11x 63 56 ∧ h1.inTrap = false ∧ h1.pos + 1 + BitVec.ofNat 30 h1.off = 0x11) ∧
    (sRun [(0x11, w11)] []).Code tm0 false 0x11 w11 ∧ (sRun [(0x11, w11x), (0x12, 1000)] []).Code tm0 false 0x11 w11x ∧
    (sRun [(0x11, w11x), (0x12, 1000)] []).Code tm0 false 0x12 1000 ∧ decode w11 0 = .ok (.iadd vh .i32 (.g 5) (.g 4) (.imm 17)) ∧
    decode w11x 1000 = .ok (.iaddImm vh .i32 (.g 5) (.g 4) 1000) ∧
    Instr.isWord .activityCounterRefill = false := ⟨ok, ok, ok, code, code, code, rfl, rfl, rfl⟩
theorem wit_StepRuns_held : ((∀ x ∈ [(ArrKind.arrive, [6]), (.test, []), (.init, [])], let s := sHeld x.1 x.2
      s.hand? 2 0 = some (hHeld x.2) ∧ s.schedule = .issue 2 0 :: [] ∧ (hHeld x.2).phase = .visit ∧ (hHeld x.2).busy = 0 ∧ (hHeld x.2).act ≠ 0 ∧
      (hHeld x.2).off < (hHeld x.2).blen ∧ (hHeld x.2).sw = false ∧ s.arrivals.map (fun a => (a.id, a.team, a.hix)) = [(6, 2, 0)] ∧
      freeB s (hHeld x.2) iLds = false) ∧ fld wLds 63 56 < 0xC0 ∧ fencedInstr iLds = true) ∧
    ((sHeld .arrive [6]).Code tm0 false 0x11 wLds ∧ (sHeld .test []).Code tm0 false 0x11 wLds ∧ (sHeld .init []).Code tm0 false 0x11 wLds) ∧
    decode wLds 0 = .ok iLds ∧ decode wFen 0 = .ok (.fence vh .c) ∧ decode wAal 0 = .ok iAal ∧
    (∀ full ∈ [false, true], (sPay full).hand? 2 0 = some hPay ∧ (sPay full).flushPaid tm0 hPay = !full ∧ flushes (.fence vh .c) = true ∧
      freeB (sPay full) hPay (.fence vh .c) = !full) ∧
    ((sPay true).Code tm0 false 0x11 wFen ∧ (sPay false).Code tm0 false 0x11 wFen) ∧
    (∀ q ∈ [0, 1], let hd : Hand := { h1 with hix := 1, quad := q }
      (sBnk q).hand? 2 1 = some hd ∧ (sBnk q).bankHeld tm0 hd iAal = (q == 1)) ∧ (sBnk 1).Code tm0 false 0x11 wAal ∧
    freeB (sRun [(0x11, w11)] []) h1 (.iadd vh .i32 (.g 5) (.g 4) (.imm 17)) = true ∧
    (let s (m : Move) : State := { base with stopped := some 1, schedule := [m] }
     (s (.event .reset)).stopped ≠ none ∧ (s (.issue 2 0)).schedule = [.issue 2 0] ∧ Move.issue 2 0 ≠ .event .reset) :=
  ⟨ok, ⟨code, code, code⟩, rfl, rfl, rfl, ok, ⟨code, code⟩, ok, code, ok, ok⟩

/-- Hypotheses about an instruction or a step alone. -/
theorem wit_DecodeExact : decode w11 0 = .ok (.iadd vh .i32 (.g 5) (.g 4) (.imm 17)) ∧ fld (0x0E1C000000000000 : Dword) 63 56 = 14 ∧
    (0x109C0284E27C0000 : Dword).getLsbD 55 = true ∧ (0x109C0284E27C0000 : Dword).getLsbD 52 = true := ⟨rfl, by decide⟩
theorem wit_DecodeEncode : Instr.isWord (.iaddImm vh .i32 (.g 5) (.g 4) 1000) = true ∧ Instr.wf (.iaddImm vh .i32 (.g 5) (.g 4) 1000) = true := ⟨rfl, rfl⟩
theorem wit_StepKeepsMemOk : (sRun [(0x11, w11)] [.issue 2 0]).MemOk ∧ ∃ t, step (sRun [(0x11, w11)] [.issue 2 0]) = .next t :=
  ⟨show Memory.wf _ = true from ok, by
    have h : (match step (sRun [(0x11, w11)] [.issue 2 0]) with | .next _ => true | _ => false) = true := by decide +kernel
    split at h
    · exact ⟨_, by assumption⟩
    · cases h⟩

end Sys2Proof.Tests
end

section
/-! PROOF. Bitwise logic and shifts (R230, R231): what the shared operation of the shifts writes, and the statement. -/

namespace Sys2Proof.Machine

variable {s : State} {i : Iss} {h : Hdr}

theorem fld_zero {w : Nat} (x : BitVec w) (n : Nat) : fld x n 0 = x.toNat % 2 ^ (n + 1) := by simp [fld]

/-- R231: the amount by which a lane shifts. -/
def Hand.shiftAmt (hd : Hand) (ln : Lane) (ty : Ty) (b : Opnd) : Nat :=
  if ty.is64 then fld (hd.rdO ln b) 5 0 else fld (hd.rdO ln b) 4 0

theorem Hand.shiftAmt_eq_mod (hd : Hand) (ln : Lane) (ty : Ty) (b : Opnd) :
    hd.shiftAmt ln ty b = (hd.rdO ln b).toNat % if ty.is64 then 64 else 32 := by
  unfold shiftAmt
  split <;> simp [fld_zero]

/-- A shift writes `f` of the source and the amount, both as they were. -/
theorem intShift_writes {ty : Ty} {d a b : Opnd} {f : (w : Nat) → BitVec w → Nat → BitVec w} (hi : s.Issues i)
    (hp : s.Passes i h 2 [(rdst ty, .o d), (rsrc ty, .o a), (.src, .o b)]) :
    s.Writes (intShift h ty d a b f s) i h 2 [(rdst ty, .o d), (rsrc ty, .o a), (.src, .o b)] fun ln =>
      i.hd.dest i.tm.depth ln ty d (i.hd.of1 ln ty (fun w x => f w x (i.hd.shiftAmt ln ty b)) (.o a)) := by
  have val (ln : Lane) : i.hd.of1 ln ty (fun w x => f w x (i.hd.shiftAmt ln ty b)) (.o a) =
      if ty.is64 then f 64 (i.hd.rd64 ln (.o a)) ((i.hd.rd ln (.o b)).toNat % 64)
      else (f 32 (i.hd.rd ln (.o a)) ((i.hd.rd ln (.o b)).toNat % 32)).setWidth 64 := by
    by_cases ht : ty.is64 = true <;> simp [Hand.of1, Hand.shiftAmt_eq_mod, Hand.rd, ht]
  simp only [val]
  exact State.shortOp_ty (v := fun m ln => f 32 (m.rd ln (.o a)) ((m.rd ln (.o b)).toNat % 32))
    (v64 := fun m ln => f 64 (m.rd64 ln (.o a)) ((m.rd ln (.o b)).toNat % 64)) hi hp (hp.dst List.mem_cons_self)
    (fun m ln hl => by rw [hl.rd, hl.rd]) (fun m ln hl => by rw [hl.rd64, hl.rd])

/-- A shift depends on its function only at amounts below the width (R231). -/
theorem intShift_congr {f g : (w : Nat) → BitVec w → Nat → BitVec w}
    (hfg : ∀ w (x : BitVec w) n, n < w → f w x n = g w x n) (ty : Ty) (d a b : Opnd) :
    intShift h ty d a b f s = intShift h ty d a b g s := by
  unfold intShift
  simp only [hfg 64 _ _ (Nat.mod_lt _ (by decide)), hfg 32 _ _ (Nat.mod_lt _ (by decide))]

/-- ROL is the shift operation with the library's rotation. -/
theorem execRol_eq_intShift (ty : Ty) (d a b : Opnd) :
    execRol h ty d a b s = intShift h ty d a b (fun _ x n => x.rotateLeft n) s :=
  intShift_congr (fun w x n hn => by rw [BitVec.rotateLeft_def, Nat.mod_eq_of_lt hn]) ty d a b

/-- Settles O4: the logic is `intBin` and `intUn`, the shifts and the rotate are `intShift`. -/
theorem logicAndShifts : Obligations.LogicAndShifts := by
  unfold Obligations.LogicAndShifts
  constructor
  · intro s i h ty d a b imm hi
    simp only [exec_and, exec_andImm, exec_or, exec_orImm, exec_xor, exec_xorImm, exec_andn, exec_andnImm, exec_not]
    exact ⟨intBin_writes hi, intBin_writes hi, intBin_writes hi, intBin_writes hi, intBin_writes hi, intBin_writes hi,
      intBin_writes hi, intBin_writes hi, intUn_writes hi⟩
  · intro s i h ty d a b hi args hp
    simp only [exec_shl, exec_shr, exec_sar, exec_rol, execRol_eq_intShift]
    exact ⟨intShift_writes hi hp, intShift_writes hi hp, intShift_writes hi hp, intShift_writes hi hp⟩

end Sys2Proof.Machine
end

section
/-! PROOF. Numbers: what FP32 bits decode to (R93), the compare conditions (R242), the class mask (R243), the rounding
to an integer (R101) and to FP32 at the far ends (R102), and the results of FRND and FSCALE (R244, R245). -/

namespace Sys2Proof.Machine

/-! ### Decoding -/

/-- R93: FP32 bits by sign, exponent field and fraction. -/
theorem f32_eq_fields (x : Word) : f32 x =
    if fld x 30 23 = 255 then (if fld x 22 0 = 0 then .inf (x.getLsbD 31) else .nan)
    else if fld x 30 23 = 0 then .fin (x.getLsbD 31) (fld x 22 0) (-149)
    else .fin (x.getLsbD 31) (2 ^ 23 + fld x 22 0) (fld x 30 23 - 150) := by
  have sign : (x.toNat / 2 ^ 31 % 2 == 1) = x.getLsbD 31 := by
    rw [← BitVec.testBit_toNat, Nat.testBit_eq_decide_div_mod_eq]
    rfl
  have fraction : x.toNat % 2 ^ 23 = fld x 22 0 := rfl
  have exponent : x.toNat / 2 ^ 23 % 2 ^ 8 = fld x 30 23 := by simp [fld, Nat.shiftRight_eq_div_pow]
  have scale (e : Nat) : (e : Int) - 127 - 23 = e - 150 := by omega
  have top : 2 ^ 8 - 1 = 255 := rfl
  simp [f32, FF.decode, FF.frac, FF.expo, FF.width, FF.bias, top, sign, fraction, exponent, scale, -Nat.reducePow]

/-- A finite FP32 value has 24 binary digits above 2^-149, and all of them unless it stands at the bottom. -/
theorem f32_fin_bounds {x : Word} {neg : Bool} {m : Nat} {e : Int} (hx : f32 x = .fin neg m e) :
    m < 2 ^ 24 ∧ -149 ≤ e ∧ e ≤ 104 ∧ (e ≠ -149 → 2 ^ 23 ≤ m) := by
  have fraction : fld x 22 0 < 2 ^ 23 := Nat.mod_lt _ (by decide)
  have exponent : fld x 30 23 < 2 ^ 8 := Nat.mod_lt _ (by decide)
  rw [f32_eq_fields] at hx
  split at hx
  · split at hx <;> cases hx
  · split at hx <;> (obtain ⟨rfl, rfl, rfl⟩ := Num.fin.inj hx; omega)

/-! ### Comparing -/

/-- No value is both less and greater. -/
theorem Num.lt_asymm {a b : Num} (h : a.lt b = true) : b.lt a = false := by
  cases a <;> cases b
  case fin.fin x m e y n g =>
    simp only [Num.lt, Int.min_comm g e, decide_eq_true_eq, decide_eq_false_iff_not] at h ⊢
    omega
  all_goals simp_all [Num.lt]

/-- What is less than something is ordered with it. -/
theorem Num.ordered_of_lt {a b : Num} (h : a.lt b = true) : a.isNan = false ∧ b.isNan = false := by
  cases a <;> cases b <;> simp_all [Num.lt, Num.isNan]

theorem Num.eqv_comm (a b : Num) : a.eqv b = b.eqv a := by
  unfold Num.eqv
  cases a.isNan <;> cases b.isNan <;> cases a.lt b <;> cases b.lt a <;> rfl

/-- Ordered and not greater is less or equal. -/
theorem Num.ordered_not_gt (a b : Num) : (!(a.isNan || b.isNan) && !b.lt a) = (a.lt b || a.eqv b) := by
  unfold Num.eqv
  by_cases h : a.lt b = true
  · simp [h, Num.lt_asymm h, Num.ordered_of_lt h]
  · simp [h]

/-- R242: `.le` holds where A is less or equal. -/
theorem condFlt_le (a b : Num) : condFlt .le a b = (a.lt b || a.eqv b) := Num.ordered_not_gt a b

/-- R242: `.ge` holds where A is greater or equal. -/
theorem condFlt_ge (a b : Num) : condFlt .ge a b = (b.lt a || a.eqv b) := by
  rw [Num.eqv_comm, ← Num.ordered_not_gt, Bool.or_comm b.isNan]
  rfl

/-- R242: `.num` holds where neither is a NaN. -/
theorem condFlt_num (a b : Num) : condFlt .num a b = (!a.isNan && !b.isNan) := Bool.not_or ..

/-! ### Classes -/

/-- R243: the class mask by sign, exponent field and fraction. -/
theorem fClass_eq_fields (x : Word) : fClass x =
    if fld x 30 23 = 255 then (if fld x 22 0 ≠ 0 then 0x100#32 else if x.getLsbD 31 then 1#32 else 0x80#32)
    else if fld x 30 23 ≠ 0 then (if x.getLsbD 31 then 2#32 else 0x40#32)
    else if fld x 22 0 ≠ 0 then (if x.getLsbD 31 then 4#32 else 0x20#32) else if x.getLsbD 31 then 8#32 else 0x10#32 := by
  have fraction : fld x 22 0 < 2 ^ 23 := Nat.mod_lt _ (by decide)
  rw [fClass, f32_eq_fields]
  by_cases top : fld x 30 23 = 255
  · by_cases hf : fld x 22 0 = 0 <;> simp [top, hf]
  · by_cases low : fld x 30 23 = 0
    · by_cases hf : fld x 22 0 = 0 <;> simp [low, hf, fraction, -Nat.reducePow]
    · have normal : ¬ 2 ^ 23 + fld x 22 0 < 2 ^ 23 := by omega
      have nonzero : 2 ^ 23 + fld x 22 0 ≠ 0 := by omega
      simp only [top, low, normal, nonzero, ne_eq, not_false_eq_true, if_true, if_false]
      rfl

/-! ### Rounding to an integer (R101) -/

/-- R101: does the mode take the integer above the magnitude `m / u`? -/
def roundsUp (mode : RMode) (neg : Bool) (m u : Nat) : Bool :=
  match mode with
  | .ne => decide (u < 2 * (m % u)) || (decide (u = 2 * (m % u)) && m / u % 2 == 1)
  | .na => decide (u ≤ 2 * (m % u))
  | .tz => false
  | .up => !neg && m % u != 0
  | .dn => neg && m % u != 0

theorem roundShift_eq (mode : RMode) (neg : Bool) (m : Nat) {sh : Nat} (hs : sh ≠ 0) : roundShift mode neg false m sh =
    if roundsUp mode neg m (2 ^ sh) then m / 2 ^ sh + 1 else m / 2 ^ sh := by
  have even : 2 ^ sh = 2 * (2 ^ sh / 2) := by
    obtain ⟨k, rfl⟩ := Nat.exists_eq_succ_of_ne_zero hs
    omega
  have above : 2 ^ sh < 2 * (m % 2 ^ sh) ↔ 2 ^ sh / 2 < m % 2 ^ sh := by omega
  have tie : 2 ^ sh = 2 * (m % 2 ^ sh) ↔ m % 2 ^ sh = 2 ^ sh / 2 := by omega
  have away : 2 ^ sh ≤ 2 * (m % 2 ^ sh) ↔ 2 ^ sh / 2 < m % 2 ^ sh ∨ m % 2 ^ sh = 2 ^ sh / 2 := by omega
  cases mode with
  | ne => simp [roundShift, roundsUp, hs, above, tie]
  | na => simp [roundShift, roundsUp, hs, away]
  | tz => rfl
  | up => simp [roundShift, roundsUp, and_comm]
  | dn => simp [roundShift, roundsUp, and_comm]

/-- Less than half a unit rounds to nothing. -/
theorem roundShift_ne_eq_zero {neg : Bool} {m sh : Nat} (hs : sh ≠ 0) (h : 2 * m < 2 ^ sh) :
    roundShift .ne neg false m sh = 0 := by
  have below : ¬ 2 ^ sh < 2 * m := by omega
  have untied : ¬ 2 ^ sh = 2 * m := by omega
  have rest : m % 2 ^ sh = m := Nat.mod_eq_of_lt (by omega)
  have none : m / 2 ^ sh = 0 := Nat.div_eq_of_lt (by omega)
  simp [roundShift_eq _ _ _ hs, roundsUp, rest, none, below, untied]

/-! ### Rounding to FP32 at the far ends (R102) -/

theorem bits_pos {m : Nat} (hm : m ≠ 0) : 0 < bits m := by simp [bits, hm]

theorem bits_le {m k : Nat} (h : m < 2 ^ k) : bits m ≤ k := by
  unfold bits
  split
  · omega
  · exact (Nat.log2_lt ‹_›).mpr h

/-- A value from 2^129 up rounds as the infinity of its sign. -/
theorem toF32_of_large (neg : Bool) {m : Nat} {e : Int} (hm : m ≠ 0) (he : 129 ≤ e) :
    toF32 (.fin neg m e) = toF32 (.inf neg) := by
  have := bits_pos hm
  have above (r : Nat) : 0x7F7FFFFF <
      ((max ((bits m : Int) - 1 + e) (1 - 127) - (23 : Nat) + 127 + (23 : Nat)).toNat - 1) * 2 ^ 23 + r := by
    omega
  simp only [toF32, FF.round, FF.maxBits, FF.bias, FF.frac, hm, above, if_false, if_true]
  rfl

/-- A value of 24 binary digits below 2^-175 rounds as the zero of its sign. -/
theorem toF32_of_small (neg : Bool) {m : Nat} {e : Int} (hm : m < 2 ^ 24) (he : e < -174) :
    toF32 (.fin neg m e) = toF32 (.fin neg 0 0) := by
  by_cases h0 : m = 0
  · simp [toF32, FF.round, h0]
  · have := bits_le hm
    have low : max ((bits m : Int) - 1 + e) (1 - 127) - (23 : Nat) = -149 := by omega
    have half : 2 * m < 2 ^ (-149 - e).toNat := calc
      2 * m < 2 ^ 25 := by omega
      _ ≤ 2 ^ (-149 - e).toNat := Nat.pow_le_pow_right (by decide) (by omega)
    have shifts : (-149 - e).toNat ≠ 0 := by omega
    have above : ¬ (-149 : Int) ≤ e := by omega
    simp only [toF32, FF.round, FF.maxBits, FF.bias, FF.frac, h0, low, above, roundShift_ne_eq_zero shifts half, if_true,
      if_false]
    rfl

/-! ### FRND and FSCALE -/

/-- R244, R245: a NaN gives the canonical one, an infinity stays, and a finite value gives `g`. -/
def onFinite (g : Bool → Nat → Int → Word) (x : Word) : Word :=
  match f32 x with
  | .nan => 0x7FC00000#32
  | .inf _ => x
  | .fin neg m e => g neg m e

theorem onFinite_congr {g g' : Bool → Nat → Int → Word} {x : Word}
    (h : ∀ neg m e, f32 x = .fin neg m e → g neg m e = g' neg m e) : onFinite g x = onFinite g' x := by
  unfold onFinite
  cases hx : f32 x with
  | fin neg m e => exact h neg m e hx
  | _ => rfl

/-- A magnitude of 2^23 or more has no digits behind the point, and every other one has. -/
theorem f32_integral_iff {x : Word} {neg : Bool} {m : Nat} {e : Int} (hx : f32 x = .fin neg m e) :
    2 ^ 23 * 2 ^ (-e).toNat ≤ m * 2 ^ e.toNat ↔ 0 ≤ e := by
  obtain ⟨hm, -, -, normal⟩ := f32_fin_bounds hx
  constructor
  · refine fun h => Decidable.byContradiction fun he => ?_
    have : 2 ^ 1 ≤ 2 ^ (-e).toNat := Nat.pow_le_pow_right (by decide) (by omega)
    have : e.toNat = 0 := by omega
    simp only [this] at h
    omega
  · intro he
    have : (-e).toNat = 0 := by omega
    rw [this]
    exact Nat.mul_le_mul (normal (by omega)) Nat.one_le_two_pow

/-- R244: the result of FRND. A magnitude of 2^23 or more is integral, which the model tests by the exponent. -/
theorem fRnd_eq (mode : RMode) (x : Word) :
    fRnd mode x = onFinite (fun neg m e =>
      if m = 0 ∨ 2 ^ 23 * 2 ^ (-e).toNat ≤ m * 2 ^ e.toNat then x
      else
        let u := 2 ^ (-e).toNat
        toF32 (.fin neg (if roundsUp mode neg m u then m / u + 1 else m / u) 0)) x := by
  have model : fRnd mode x = onFinite (fun neg m e =>
      if m = 0 ∨ 0 ≤ e then x else toF32 (.fin neg (roundShift mode neg false m (-e).toNat) 0)) x := rfl
  rw [model]
  refine onFinite_congr fun neg m e hx => ?_
  simp only [f32_integral_iff hx]
  split
  · rfl
  · rw [roundShift_eq mode neg m (by omega)]

/-- R245: the result of FSCALE. Beyond ±1000 it overflows or is rounded to zero, whatever the exact scale. -/
theorem fScale_eq (x : Word) (n : Int) :
    fScale x n = onFinite (fun neg m e => if m = 0 then x else toF32 (.fin neg m (e + n))) x := by
  have model : fScale x n = onFinite (fun neg m e =>
      if m = 0 then x else toF32 (.fin neg m (e + max (-1000) (min 1000 n)))) x := rfl
  rw [model]
  refine onFinite_congr fun neg m e hx => ?_
  obtain ⟨hm, low, high, -⟩ := f32_fin_bounds hx
  split
  · rfl
  · rename_i h0
    by_cases small : n < -1000
    · rw [toF32_of_small neg hm (by omega), toF32_of_small neg hm (by omega)]
    · by_cases large : 1000 < n
      · rw [toF32_of_large neg h0 (by omega), toF32_of_large neg h0 (by omega)]
      · have exact : max (-1000) (min 1000 n) = n := by omega
        rw [exact]

end Sys2Proof.Machine
end

section
/-! PROOF. The short-class FP32 instructions (R239 to R245): what their shared operations write, and the statement. -/

namespace Sys2Proof.Machine

/-! ### Minimum and maximum -/

/-- R241: the table of FMIN and FMAX. -/
theorem f32MinMax_eq (least : Bool) (x y : Word) : f32MinMax (!least) x y =
    if (f32 x).isNan ∧ (f32 y).isNan then 0x7FC00000#32 else if (f32 x).isNan then y else if (f32 y).isNan then x
    else if (f32 x).isZero ∧ (f32 y).isZero ∧ (f32 x).sign ≠ (f32 y).sign then (if least then 0x80000000#32 else 0)
    else if (if least then (f32 y).lt (f32 x) else (f32 x).lt (f32 y)) then y else x := by
  cases least <;> simp [f32MinMax, and_assoc]

/-! ### The shared operations -/

variable {s : State} {i : Iss} {h : Hdr}

theorem Hand.Like.rdE {hd m : Hand} {ln : Lane} (hl : hd.Like m ln) (t : Ty) (x : Src) : m.rdE ln t x = hd.rdE ln t x := by
  unfold Hand.rdE
  split
  · rfl
  · exact hl.rd _

theorem Hand.Like.rdF {hd m : Hand} {ln : Lane} (hl : hd.Like m ln) (x : Src) : m.rdF ln x = hd.rdF ln x := hl.rdE .f32 x

/-- Further operand checks that hold change nothing about passing. -/
theorem State.Passes.of_noMore {credits : Nat} {args : List Arg} {more : Bool → Bool} (hp : s.Passes i h credits args)
    (hm : more h.u = true) : s.Passes i h credits args more := ⟨hp.ungoverned, hp.args, hm⟩

/-- An instruction whose first operand is its 32-bit destination writes it: check 5 has admitted it. -/
theorem State.shortOp_dst {args : List Arg} {more : Bool → Bool} {d : Opnd} {v : Hand → Lane → Word} (hi : s.Issues i)
    (hp : s.Passes i h 2 ((.dst, .o d) :: args) more) (hv : ∀ m ln, i.hd.Like m ln → v m ln = v i.hd ln) :
    s.Writes (s.shortOp h ((.dst, .o d) :: args) more fun hd dep ln => hd.wr dep ln d (v hd ln)) i h 2 ((.dst, .o d) :: args)
      fun ln => i.hd.dest i.tm.depth ln .i32 d ((v i.hd ln).setWidth 64) :=
  State.shortOp_word hi hp (hp.dst (ty := .i32) List.mem_cons_self) hv

/-- D ← f(A, B) on FP32 (R240, R241). -/
theorem fltBin_writes {d a : Opnd} {b : Src} {f : Word → Word → Word} (hi : s.Issues i)
    (hp : s.Passes i h 2 [(.dst, .o d), (.src, .o a), (.src, b)]) :
    s.Writes (fltBin h d a b f s) i h 2 [(.dst, .o d), (.src, .o a), (.src, b)] fun ln =>
      i.hd.dest i.tm.depth ln .i32 d ((f (i.hd.rdF ln (.o a)) (i.hd.rdF ln b)).setWidth 64) :=
  State.shortOp_dst hi hp fun m ln hl => by rw [hl.rdF, hl.rdF]

/-- D ← A × B + C, rounded once (R110, R240). -/
theorem fltFma_writes {d a c : Opnd} {b : Src} (hi : s.Issues i)
    (hp : s.Passes i h 2 [(.dst, .o d), (.src, .o a), (.src, b), (.src, .o c)]) :
    s.Writes (fltFma h d a b c s) i h 2 [(.dst, .o d), (.src, .o a), (.src, b), (.src, .o c)] fun ln =>
      i.hd.dest i.tm.depth ln .i32 d ((f32Fma (i.hd.rdF ln (.o a)) (i.hd.rdF ln b) (i.hd.rdF ln (.o c))).setWidth 64) :=
  State.shortOp_dst hi hp fun m ln hl => by rw [hl.rdF, hl.rdF, hl.rdF]

/-- A compare writes whether its condition holds (R242). -/
theorem fltCmp_writes {cond : Cond} {d : POpnd} {a : Opnd} {b : Src} (hi : s.Issues i)
    (hp : s.Passes i h 2 [(.src, .o a), (.src, b)] fun u => pdstOk u d) :
    s.Writes (fltCmp h cond d a b s) i h 2 [(.src, .o a), (.src, b)] fun ln =>
      i.hd.pdest ln d (condFlt cond (f32 (i.hd.rdF ln (.o a))) (f32 (i.hd.rdF ln b))) :=
  State.shortOp_pred hi hp hp.more fun m ln hl => by rw [hl.rdF, hl.rdF]

/-- FCLASS writes the class mask of A (R243). -/
theorem execFclass_writes {d a : Opnd} (hi : s.Issues i) (hp : s.Passes i h 2 [(.dst, .o d), (.src, .o a)]) :
    s.Writes (execFclass h d a s) i h 2 [(.dst, .o d), (.src, .o a)] fun ln =>
      i.hd.dest i.tm.depth ln .i32 d ((fClass (i.hd.rdF ln (.o a))).setWidth 64) :=
  State.shortOp_dst hi hp fun m ln hl => by rw [hl.rdF]

/-- FRND writes A rounded by the mode that B names (R244). -/
theorem execFrnd_writes {d a b : Opnd} {mode : RMode} (hb : frndMode b = some mode) (hi : s.Issues i)
    (hp : s.Passes i h 2 [(.dst, .o d), (.src, .o a)]) :
    s.Writes (execFrnd h d a b s) i h 2 [(.dst, .o d), (.src, .o a)] fun ln =>
      i.hd.dest i.tm.depth ln .i32 d ((fRnd mode (i.hd.rdF ln (.o a))).setWidth 64) := by
  unfold execFrnd
  simp only [hb]
  exact State.shortOp_dst hi (hp.of_noMore rfl) fun m ln hl => by simp only [hl.rdF]

/-- FSCALE writes A scaled by the integer B (R245). -/
theorem execFscale_writes {d a b : Opnd} (hi : s.Issues i)
    (hp : s.Passes i h 2 [(.dst, .o d), (.src, .o a), (.src, .o b)]) :
    s.Writes (execFscale h d a b s) i h 2 [(.dst, .o d), (.src, .o a), (.src, .o b)] fun ln =>
      i.hd.dest i.tm.depth ln .i32 d ((fScale (i.hd.rdF ln (.o a)) (i.hd.rdO ln b).toInt).setWidth 64) :=
  State.shortOp_dst hi hp fun m ln hl => by rw [hl.rdF, hl.rd]

/-- Settles O9: each instruction is one of the shared operations, and the tables of R241 to R245 say what it writes. -/
theorem floatArithmetic : Obligations.FloatArithmetic := by
  unfold Obligations.FloatArithmetic
  intro s i h cond d a b c pd imm hi w rne writes two add mul fma pick holds compares
  have hpick (least : Bool) (x y : Word) : f32MinMax (!least) x y = pick least x y := f32MinMax_eq least x y
  have hholds (x y : Num) : condFlt cond x y = holds x y := by
    cases cond with
    | le => exact condFlt_le x y
    | ge => exact condFlt_ge x y
    | num => exact condFlt_num x y
    | _ => rfl
  have hword {x : Instr} {o : Out} {args : List Arg} {v v' : Lane → Word} (hx : exec x s = o)
      (ho : s.Passes i h 2 args → s.Writes o i h 2 args fun ln => i.hd.dest i.tm.depth ln .i32 d ((v ln).setWidth 64))
      (hv : ∀ ln, v ln = v' ln) : writes x args v' := by
    obtain rfl : v = v' := funext hv
    intro hp
    exact hx ▸ ho hp
  have hbin {x : Instr} {b : Src} {f g : Word → Word → Word} (hx : exec x s = fltBin h d a b f s)
      (hfg : ∀ x y, f x y = g x y) : two x b g := hword hx (fltBin_writes hi) fun ln => hfg _ _
  have hcmp {x : Instr} {b : Src} (hx : exec x s = fltCmp h cond pd a b s) : compares x b := fun hp => by
    simp only [hx, ← hholds]
    exact fltCmp_writes hi hp
  -- from here the three forms are known by these lemmas alone
  clear_value writes two compares
  refine ⟨hbin (exec_fadd ..) fun _ _ => rfl, hbin (exec_faddImm ..) fun _ _ => rfl, hbin (exec_fsub ..) fun _ _ => rfl,
    hbin (exec_fmul ..) fun _ _ => rfl, hbin (exec_fmulImm ..) fun _ _ => rfl, hbin (exec_fmin ..) (hpick true),
    hbin (exec_fminImm ..) (hpick true), hbin (exec_fmax ..) (hpick false), hbin (exec_fmaxImm ..) (hpick false),
    hword (exec_ffma ..) (fltFma_writes hi) fun _ => rfl, hword (exec_ffmaImm ..) (fltFma_writes hi) fun _ => rfl,
    hcmp (exec_fcmp ..), hcmp (exec_fcmpImm ..),
    hword (exec_fclass ..) (execFclass_writes hi) fun _ => fClass_eq_fields _, fun v low high => ?_,
    hword (exec_fscale ..) (execFscale_writes hi) fun _ => fScale_eq _ _⟩
  obtain ⟨v, hv⟩ := v
  obtain rfl | rfl | rfl | rfl : v = 16 ∨ v = 17 ∨ v = 18 ∨ v = 19 := by simp only at low high; omega
  all_goals exact hword (exec_frnd ..) (execFrnd_writes rfl hi) fun _ => fRnd_eq _ _

end Sys2Proof.Machine
end
